-- ==== Sys2Proof/Word.lean ====
section
/-!
DEFINITION. The word types of the machine (spec/00_scope.md R6): a word is 32 bits, a byte 8 bits; the number of a
general register and of a coprocessor register is the 4-bit field an instruction names it by (10_state.md R24).
-/

namespace Sys2Proof

/-- A 32-bit word: a register value, an address while it is computed, an instruction (R6). -/
abbrev Word := BitVec 32

/-- An 8-bit byte, the unit of memory (20_memory.md R60). -/
abbrev Byte := BitVec 8

/-- The 4-bit field that names a general register r0 to r15 (10_state.md R24). -/
abbrev Reg := BitVec 4

/-- The 4-bit field that names a coprocessor register C0 to C15 (10_state.md R37). -/
abbrev CReg := BitVec 4

/-- The coprocessor number `CP#`, 0 to 15 (10_state.md R37). -/
abbrev CpNum := BitVec 4

end Sys2Proof
end

