-- ==== Sys2Proof/Config.lean ====
section
/-!
DEFINITION. The implementation parameters of spec/00_scope.md R5 as plain data (`Platform`; a state carries one,
notes/assumptions/1.md), and the values the spec leaves free, as opaque constants without a body: nothing can be
proved about what they are.
-/

namespace Sys2Proof

/-- `ARCH`, the architecture version (00_scope.md R2, R5). -/
inductive Arch where
  | v4
  | v4T
  | v5T
  deriving DecidableEq, Repr

/-- `ENDIAN`, the byte order of data and instruction words (20_memory.md R62). -/
inductive Endian where
  | little
  | big
  deriving DecidableEq, Repr

/-- `MISALIGN`, what a misaligned data access does (20_memory.md R67). -/
inductive Misalign where
  | refuse
  | rotate
  | abort
  deriving DecidableEq, Repr

/-- `PCWRITE_ALIGN`, what a write of a non-word-aligned value to the pc does (10_state.md R27). -/
inductive PcWriteAlign where
  | refuse
  | mask
  deriving DecidableEq, Repr

/-- `ABORT_MODEL`, the base register after a data abort (45_single_data_transfer.md R253). -/
inductive AbortModel where
  | baseRestored
  | baseUpdated
  deriving DecidableEq, Repr

/-- `STORE_PC_OFFSET`, what is added to the pc when r15 is stored (10_state.md R26). -/
inductive StorePcOffset where
  | eight
  | twelve
  deriving DecidableEq, Repr

/-- `PSR_RESERVED`, how PSR bits [27:8] read (10_state.md R34). -/
inductive PsrReserved where
  | razWi
  | draw
  deriving DecidableEq, Repr

/-- The width of a memory access: 1, 2 or 4 bytes (20_memory.md R69). -/
inductive AccessSize where
  | byte
  | half
  | word
  deriving DecidableEq, Repr

/-- What an access is made for: an instruction fetch, a data read or a data write (00_scope.md R5, `MemSys`). -/
inductive AccessKind where
  | fetch
  | read
  | write
  deriving DecidableEq, Repr

/-- One answer `fault` of `MemSys` (00_scope.md R5, 20_memory.md R65): it faults the accesses whose address lies in
`first` to `last`, of the named kind, of the named width (`none`: every width), made with a privilege it names.
A list of such rules writes down any `MemSys` that answers by address, size, kind and privilege
(notes/assumptions/7.md). -/
structure FaultRule where
  first : Word
  last : Word
  kind : AccessKind
  size : Option AccessSize
  faultsUser : Bool
  faultsPrivileged : Bool
  deriving DecidableEq, Repr

/-- The levels of `irq_line`, `fiq_line` and `reset_line` at the start of one step (60_exceptions.md R410, R419). -/
structure Lines where
  irq : Bool
  fiq : Bool
  reset : Bool
  deriving DecidableEq, Repr

/-- One set of words a present coprocessor accepts (`accepts(word)`, 49_coprocessor_brk_unused.md R351): those equal to
`value` under `mask`, in privileged modes, and in User mode only if `inUserMode` (60_exceptions.md R431). A list of
such rules writes down any `accepts` (notes/assumptions/5.md). -/
structure AcceptRule where
  mask : Word
  value : Word
  inUserMode : Bool
  deriving DecidableEq, Repr

/-- The parameters of 00_scope.md R5, fixed for a run (10_state.md R40). `coproc` says for each coprocessor whether it is
absent (`none`) or present, and then which words it accepts; what a present one does is given by the opaque operations
below. -/
structure Platform where
  arch : Arch
  endian : Endian
  memSys : List FaultRule
  misalign : Misalign
  pcWriteAlign : PcWriteAlign
  abortModel : AbortModel
  coproc : Vector (Option (List AcceptRule)) 16
  storePcOffset : StorePcOffset
  psrReserved : PsrReserved
  ifetchCoherent : Bool
  deriving DecidableEq, Repr

/-- The opaque state `cpstate_n` of one coprocessor (10_state.md R37), coded as a number (notes/assumptions/5.md). -/
abbrev CpState := Nat

/-- The `n`-th free bit of a run (`draw`, 00_scope.md R7). DESIGN CHOICE, safe for a claim about one
run (notes/assumptions/8.md). -/
opaque Config.freeBit : Nat → Bool

/-- The `n`-th free word of a run (`draw`, 00_scope.md R7). DESIGN CHOICE, safe for a claim about one
run (notes/assumptions/8.md). -/
opaque Config.freeWord : Nat → Word

/-- The `n`-th free coprocessor state: what a reset step leaves in a coprocessor (notes/assumptions/20.md). -/
opaque Config.freeCpState : Nat → CpState

/-- What a misaligned word read gives under `MISALIGN = rotate` in big-endian order, from the aligned word and the
two low address bits: 20_memory.md R67 states the rotation for little-endian only (notes/assumptions/12.md). -/
opaque Config.bigEndianRotate : Word → BitVec 2 → Word

/-- `cdp(Cop1, CRd, CRn, CRm, Cop2)` of 49_coprocessor_brk_unused.md R351: the coprocessor's new state. -/
opaque Config.cpCdp : CpNum → CpState → BitVec 4 → CReg → CReg → CReg → BitVec 3 → CpState

/-- `ldc_count(N, CRd)` of R351: one less than the number of words, which is 1 to 16. The last argument is the option
byte of the unindexed form (R357). -/
opaque Config.cpLdcCount : CpNum → CpState → Bool → CReg → Option (BitVec 8) → Fin 16

/-- `ldc_word(N, CRd, k, w)` of R351: the state after the `k`-th word `w` is received. -/
opaque Config.cpLdcWord : CpNum → CpState → Bool → CReg → Option (BitVec 8) → Nat → Word → CpState

/-- What the coprocessor makes of the words it has received when an LDC is cut short by a data abort, "its own
business" (49_coprocessor_brk_unused.md R353; notes/assumptions/23.md). -/
opaque Config.cpLdcAborted : CpNum → CpState → CpState

/-- `stc_count(N, CRd)` of R351: one less than the number of words, which is 1 to 16. -/
opaque Config.cpStcCount : CpNum → CpState → Bool → CReg → Option (BitVec 8) → Fin 16

/-- `stc_word(N, CRd, k)` of R351: the `k`-th word the coprocessor supplies. -/
opaque Config.cpStcWord : CpNum → CpState → Bool → CReg → Option (BitVec 8) → Nat → Word

/-- `mcr(Cop1, CRn, CRm, Cop2, w)` of R351: the state after the ARM register value `w` is received. -/
opaque Config.cpMcr : CpNum → CpState → BitVec 3 → CReg → CReg → BitVec 3 → Word → CpState

/-- `mrc(Cop1, CRn, CRm, Cop2)` of R351: the word supplied. -/
opaque Config.cpMrc : CpNum → CpState → BitVec 3 → CReg → CReg → BitVec 3 → Word

end Sys2Proof
end

