-- ==== Sys2Proof/Syntax.lean ====
section
/-!
DEFINITION. The syntax of the instruction set: one constructor of `Instr` for each of the 111 rows of
spec/opcode_table.json. Fields are those of the encoding (30_encoding.md R103 to R120), the should-be-zero fields that
a row leaves open among them (R129).
-/

namespace Sys2Proof

/-- The condition field, 0000 to 1110 in this order (40_conditional_execution.md R140). -/
inductive Cond where
  | eq | ne | cs | cc | mi | pl | vs | vc | hi | ls | ge | lt | gt | le | al
  deriving DecidableEq, Repr

/-- The sixteen data-processing operations, opcodes 0000 to 1111 in this order (30_encoding.md R104). -/
inductive DpOp where
  | and | eor | sub | rsb | add | adc | sbc | rsc | tst | teq | cmp | cmn | orr | mov | bic | mvn
  deriving DecidableEq, Repr

/-- The shift types 00, 01, 10, 11 (30_encoding.md R103). -/
inductive ShiftType where
  | lsl | lsr | asr | ror
  deriving DecidableEq, Repr

/-- A rotated immediate: bits [11:8] and [7:0] (30_encoding.md R121). -/
structure RotImm where
  rot : BitVec 4
  imm : BitVec 8
  deriving DecidableEq, Repr

/-- A register shifted by an immediate amount: bits [11:7], [6:5], [3:0] (30_encoding.md R103). -/
structure ImmShift where
  amount : BitVec 5
  type : ShiftType
  rm : Reg
  deriving DecidableEq, Repr

/-- A register shifted by a register: bits [11:8], [6:5], [3:0] (30_encoding.md R103). -/
structure RegShift where
  rs : Reg
  type : ShiftType
  rm : Reg
  deriving DecidableEq, Repr

/-- One instruction: one constructor for each row of spec/opcode_table.json. -/
inductive Instr where
  /-- AND with a rotated immediate (43_data_processing.md R189). -/
  | andImm (c : Cond) (s : Bool) (rn rd : Reg) (o : RotImm)
  /-- AND, register shifted by an immediate (R189). -/
  | andShift (c : Cond) (s : Bool) (rn rd : Reg) (o : ImmShift)
  /-- AND, register shifted by a register (R189). -/
  | andReg (c : Cond) (s : Bool) (rn rd : Reg) (o : RegShift)
  /-- EOR with a rotated immediate (43_data_processing.md R190). -/
  | eorImm (c : Cond) (s : Bool) (rn rd : Reg) (o : RotImm)
  /-- EOR, register shifted by an immediate (R190). -/
  | eorShift (c : Cond) (s : Bool) (rn rd : Reg) (o : ImmShift)
  /-- EOR, register shifted by a register (R190). -/
  | eorReg (c : Cond) (s : Bool) (rn rd : Reg) (o : RegShift)
  /-- SUB with a rotated immediate (43_data_processing.md R191). -/
  | subImm (c : Cond) (s : Bool) (rn rd : Reg) (o : RotImm)
  /-- SUB, register shifted by an immediate (R191). -/
  | subShift (c : Cond) (s : Bool) (rn rd : Reg) (o : ImmShift)
  /-- SUB, register shifted by a register (R191). -/
  | subReg (c : Cond) (s : Bool) (rn rd : Reg) (o : RegShift)
  /-- RSB with a rotated immediate (43_data_processing.md R192). -/
  | rsbImm (c : Cond) (s : Bool) (rn rd : Reg) (o : RotImm)
  /-- RSB, register shifted by an immediate (R192). -/
  | rsbShift (c : Cond) (s : Bool) (rn rd : Reg) (o : ImmShift)
  /-- RSB, register shifted by a register (R192). -/
  | rsbReg (c : Cond) (s : Bool) (rn rd : Reg) (o : RegShift)
  /-- ADD with a rotated immediate (43_data_processing.md R193). -/
  | addImm (c : Cond) (s : Bool) (rn rd : Reg) (o : RotImm)
  /-- ADD, register shifted by an immediate (R193). -/
  | addShift (c : Cond) (s : Bool) (rn rd : Reg) (o : ImmShift)
  /-- ADD, register shifted by a register (R193). -/
  | addReg (c : Cond) (s : Bool) (rn rd : Reg) (o : RegShift)
  /-- ADC with a rotated immediate (43_data_processing.md R194). -/
  | adcImm (c : Cond) (s : Bool) (rn rd : Reg) (o : RotImm)
  /-- ADC, register shifted by an immediate (R194). -/
  | adcShift (c : Cond) (s : Bool) (rn rd : Reg) (o : ImmShift)
  /-- ADC, register shifted by a register (R194). -/
  | adcReg (c : Cond) (s : Bool) (rn rd : Reg) (o : RegShift)
  /-- SBC with a rotated immediate (43_data_processing.md R195). -/
  | sbcImm (c : Cond) (s : Bool) (rn rd : Reg) (o : RotImm)
  /-- SBC, register shifted by an immediate (R195). -/
  | sbcShift (c : Cond) (s : Bool) (rn rd : Reg) (o : ImmShift)
  /-- SBC, register shifted by a register (R195). -/
  | sbcReg (c : Cond) (s : Bool) (rn rd : Reg) (o : RegShift)
  /-- RSC with a rotated immediate (43_data_processing.md R196). -/
  | rscImm (c : Cond) (s : Bool) (rn rd : Reg) (o : RotImm)
  /-- RSC, register shifted by an immediate (R196). -/
  | rscShift (c : Cond) (s : Bool) (rn rd : Reg) (o : ImmShift)
  /-- RSC, register shifted by a register (R196). -/
  | rscReg (c : Cond) (s : Bool) (rn rd : Reg) (o : RegShift)
  /-- TST with a rotated immediate (43_data_processing.md R197); `rd` is the should-be-zero field. -/
  | tstImm (c : Cond) (rn rd : Reg) (o : RotImm)
  /-- TST, register shifted by an immediate (R197). -/
  | tstShift (c : Cond) (rn rd : Reg) (o : ImmShift)
  /-- TST, register shifted by a register (R197). -/
  | tstReg (c : Cond) (rn rd : Reg) (o : RegShift)
  /-- TEQ with a rotated immediate (43_data_processing.md R198); `rd` is the should-be-zero field. -/
  | teqImm (c : Cond) (rn rd : Reg) (o : RotImm)
  /-- TEQ, register shifted by an immediate (R198). -/
  | teqShift (c : Cond) (rn rd : Reg) (o : ImmShift)
  /-- TEQ, register shifted by a register (R198). -/
  | teqReg (c : Cond) (rn rd : Reg) (o : RegShift)
  /-- CMP with a rotated immediate (43_data_processing.md R199); `rd` is the should-be-zero field. -/
  | cmpImm (c : Cond) (rn rd : Reg) (o : RotImm)
  /-- CMP, register shifted by an immediate (R199). -/
  | cmpShift (c : Cond) (rn rd : Reg) (o : ImmShift)
  /-- CMP, register shifted by a register (R199). -/
  | cmpReg (c : Cond) (rn rd : Reg) (o : RegShift)
  /-- CMN with a rotated immediate (43_data_processing.md R200); `rd` is the should-be-zero field. -/
  | cmnImm (c : Cond) (rn rd : Reg) (o : RotImm)
  /-- CMN, register shifted by an immediate (R200). -/
  | cmnShift (c : Cond) (rn rd : Reg) (o : ImmShift)
  /-- CMN, register shifted by a register (R200). -/
  | cmnReg (c : Cond) (rn rd : Reg) (o : RegShift)
  /-- ORR with a rotated immediate (43_data_processing.md R201). -/
  | orrImm (c : Cond) (s : Bool) (rn rd : Reg) (o : RotImm)
  /-- ORR, register shifted by an immediate (R201). -/
  | orrShift (c : Cond) (s : Bool) (rn rd : Reg) (o : ImmShift)
  /-- ORR, register shifted by a register (R201). -/
  | orrReg (c : Cond) (s : Bool) (rn rd : Reg) (o : RegShift)
  /-- MOV with a rotated immediate (43_data_processing.md R202); `rn` is the should-be-zero field. -/
  | movImm (c : Cond) (s : Bool) (rn rd : Reg) (o : RotImm)
  /-- MOV, register shifted by an immediate (R202). -/
  | movShift (c : Cond) (s : Bool) (rn rd : Reg) (o : ImmShift)
  /-- MOV, register shifted by a register (R202). -/
  | movReg (c : Cond) (s : Bool) (rn rd : Reg) (o : RegShift)
  /-- BIC with a rotated immediate (43_data_processing.md R203). -/
  | bicImm (c : Cond) (s : Bool) (rn rd : Reg) (o : RotImm)
  /-- BIC, register shifted by an immediate (R203). -/
  | bicShift (c : Cond) (s : Bool) (rn rd : Reg) (o : ImmShift)
  /-- BIC, register shifted by a register (R203). -/
  | bicReg (c : Cond) (s : Bool) (rn rd : Reg) (o : RegShift)
  /-- MVN with a rotated immediate (43_data_processing.md R204); `rn` is the should-be-zero field. -/
  | mvnImm (c : Cond) (s : Bool) (rn rd : Reg) (o : RotImm)
  /-- MVN, register shifted by an immediate (R204). -/
  | mvnShift (c : Cond) (s : Bool) (rn rd : Reg) (o : ImmShift)
  /-- MVN, register shifted by a register (R204). -/
  | mvnReg (c : Cond) (s : Bool) (rn rd : Reg) (o : RegShift)
  /-- MUL (44_multiply_clz.md R232); `sbz` is bits [15:12], which should be zero. -/
  | mul (c : Cond) (s : Bool) (rd : Reg) (sbz : BitVec 4) (rs rm : Reg)
  /-- MLA (R233). -/
  | mla (c : Cond) (s : Bool) (rd rn rs rm : Reg)
  /-- UMULL (R234). -/
  | umull (c : Cond) (s : Bool) (rdHi rdLo rs rm : Reg)
  /-- UMLAL (R235). -/
  | umlal (c : Cond) (s : Bool) (rdHi rdLo rs rm : Reg)
  /-- SMULL (R236). -/
  | smull (c : Cond) (s : Bool) (rdHi rdLo rs rm : Reg)
  /-- SMLAL (R237). -/
  | smlal (c : Cond) (s : Bool) (rdHi rdLo rs rm : Reg)
  /-- SWP (47_multiple_transfer_swap.md R313). -/
  | swp (c : Cond) (rn rd rm : Reg)
  /-- SWPB (R314). -/
  | swpb (c : Cond) (rn rd rm : Reg)
  /-- BX Rm (41_branch.md R153). -/
  | bx (c : Cond) (rm : Reg)
  /-- BLX Rm (R154). -/
  | blxReg (c : Cond) (rm : Reg)
  /-- CLZ (44_multiply_clz.md R238). -/
  | clz (c : Cond) (rd rm : Reg)
  /-- BRK (49_coprocessor_brk_unused.md R359): condition 1110, the immediate is ignored by the core. -/
  | brk (imm : BitVec 16)
  /-- MRS (48_status_register_transfer.md R331); `spsr` is the R bit. -/
  | mrs (c : Cond) (spsr : Bool) (rd : Reg)
  /-- MSR, register operand (R333); `mask` is the field mask f s x c (R332). -/
  | msrReg (c : Cond) (spsr : Bool) (mask : BitVec 4) (rm : Reg)
  /-- MSR, immediate operand (R333). -/
  | msrImm (c : Cond) (spsr : Bool) (mask : BitVec 4) (o : RotImm)
  /-- STRH, immediate offset (46_halfword_signed_transfer.md R284); `p`, `u`, `w` are bits 24, 23, 21. -/
  | strhImm (c : Cond) (p u w : Bool) (rn rd : Reg) (off : BitVec 8)
  /-- STRH, register offset (R284). -/
  | strhReg (c : Cond) (p u w : Bool) (rn rd rm : Reg)
  /-- LDRH, immediate offset (46_halfword_signed_transfer.md R283); `p`, `u`, `w` are bits 24, 23, 21. -/
  | ldrhImm (c : Cond) (p u w : Bool) (rn rd : Reg) (off : BitVec 8)
  /-- LDRH, register offset (R283). -/
  | ldrhReg (c : Cond) (p u w : Bool) (rn rd rm : Reg)
  /-- LDRSB, immediate offset (46_halfword_signed_transfer.md R285); `p`, `u`, `w` are bits 24, 23, 21. -/
  | ldrsbImm (c : Cond) (p u w : Bool) (rn rd : Reg) (off : BitVec 8)
  /-- LDRSB, register offset (R285). -/
  | ldrsbReg (c : Cond) (p u w : Bool) (rn rd rm : Reg)
  /-- LDRSH, immediate offset (46_halfword_signed_transfer.md R286); `p`, `u`, `w` are bits 24, 23, 21. -/
  | ldrshImm (c : Cond) (p u w : Bool) (rn rd : Reg) (off : BitVec 8)
  /-- LDRSH, register offset (R286). -/
  | ldrshReg (c : Cond) (p u w : Bool) (rn rd rm : Reg)
  /-- LDR, pre-indexed, immediate offset (45_single_data_transfer.md R255); `w` is the write-back bit. -/
  | ldrPreImm (c : Cond) (u w : Bool) (rn rd : Reg) (off : BitVec 12)
  /-- LDR, post-indexed, immediate offset (R255). -/
  | ldrPostImm (c : Cond) (u : Bool) (rn rd : Reg) (off : BitVec 12)
  /-- LDR, pre-indexed, shifted register offset (R255). -/
  | ldrPreReg (c : Cond) (u w : Bool) (rn rd : Reg) (o : ImmShift)
  /-- LDR, post-indexed, shifted register offset (R255). -/
  | ldrPostReg (c : Cond) (u : Bool) (rn rd : Reg) (o : ImmShift)
  /-- STR, pre-indexed, immediate offset (45_single_data_transfer.md R256); `w` is the write-back bit. -/
  | strPreImm (c : Cond) (u w : Bool) (rn rd : Reg) (off : BitVec 12)
  /-- STR, post-indexed, immediate offset (R256). -/
  | strPostImm (c : Cond) (u : Bool) (rn rd : Reg) (off : BitVec 12)
  /-- STR, pre-indexed, shifted register offset (R256). -/
  | strPreReg (c : Cond) (u w : Bool) (rn rd : Reg) (o : ImmShift)
  /-- STR, post-indexed, shifted register offset (R256). -/
  | strPostReg (c : Cond) (u : Bool) (rn rd : Reg) (o : ImmShift)
  /-- LDRB, pre-indexed, immediate offset (45_single_data_transfer.md R257); `w` is the write-back bit. -/
  | ldrbPreImm (c : Cond) (u w : Bool) (rn rd : Reg) (off : BitVec 12)
  /-- LDRB, post-indexed, immediate offset (R257). -/
  | ldrbPostImm (c : Cond) (u : Bool) (rn rd : Reg) (off : BitVec 12)
  /-- LDRB, pre-indexed, shifted register offset (R257). -/
  | ldrbPreReg (c : Cond) (u w : Bool) (rn rd : Reg) (o : ImmShift)
  /-- LDRB, post-indexed, shifted register offset (R257). -/
  | ldrbPostReg (c : Cond) (u : Bool) (rn rd : Reg) (o : ImmShift)
  /-- STRB, pre-indexed, immediate offset (45_single_data_transfer.md R258); `w` is the write-back bit. -/
  | strbPreImm (c : Cond) (u w : Bool) (rn rd : Reg) (off : BitVec 12)
  /-- STRB, post-indexed, immediate offset (R258). -/
  | strbPostImm (c : Cond) (u : Bool) (rn rd : Reg) (off : BitVec 12)
  /-- STRB, pre-indexed, shifted register offset (R258). -/
  | strbPreReg (c : Cond) (u w : Bool) (rn rd : Reg) (o : ImmShift)
  /-- STRB, post-indexed, shifted register offset (R258). -/
  | strbPostReg (c : Cond) (u : Bool) (rn rd : Reg) (o : ImmShift)
  /-- LDRT, immediate offset (R259). -/
  | ldrtImm (c : Cond) (u : Bool) (rn rd : Reg) (off : BitVec 12)
  /-- LDRT, shifted register offset (R259). -/
  | ldrtReg (c : Cond) (u : Bool) (rn rd : Reg) (o : ImmShift)
  /-- STRT, immediate offset (R260). -/
  | strtImm (c : Cond) (u : Bool) (rn rd : Reg) (off : BitVec 12)
  /-- STRT, shifted register offset (R260). -/
  | strtReg (c : Cond) (u : Bool) (rn rd : Reg) (o : ImmShift)
  /-- LDRBT, immediate offset (R261). -/
  | ldrbtImm (c : Cond) (u : Bool) (rn rd : Reg) (off : BitVec 12)
  /-- LDRBT, shifted register offset (R261). -/
  | ldrbtReg (c : Cond) (u : Bool) (rn rd : Reg) (o : ImmShift)
  /-- STRBT, immediate offset (R262). -/
  | strbtImm (c : Cond) (u : Bool) (rn rd : Reg) (off : BitVec 12)
  /-- STRBT, shifted register offset (R262). -/
  | strbtReg (c : Cond) (u : Bool) (rn rd : Reg) (o : ImmShift)
  /-- A word of the undefined instruction space (30_encoding.md R126): bits [24:5] and [3:0]. -/
  | undefined (c : Cond) (high : BitVec 20) (low : BitVec 4)
  /-- LDM, S = 0 (47_multiple_transfer_swap.md R303). -/
  | ldm (c : Cond) (p u w : Bool) (rn : Reg) (list : BitVec 16)
  /-- STM, S = 0 (R304). -/
  | stm (c : Cond) (p u w : Bool) (rn : Reg) (list : BitVec 16)
  /-- LDM with `^` and the pc in the list (R305); `list` is r0 to r14. -/
  | ldmReturn (c : Cond) (p u w : Bool) (rn : Reg) (list : BitVec 15)
  /-- LDM with `^` and without the pc (R307). -/
  | ldmUser (c : Cond) (p u w : Bool) (rn : Reg) (list : BitVec 15)
  /-- STM with `^` (R310). -/
  | stmUser (c : Cond) (p u w : Bool) (rn : Reg) (list : BitVec 16)
  /-- B (41_branch.md R150). -/
  | b (c : Cond) (off : BitVec 24)
  /-- BL (R151). -/
  | bl (c : Cond) (off : BitVec 24)
  /-- BLX label (R155): no condition; `h` is the half-word bit. -/
  | blxLabel (h : Bool) (off : BitVec 24)
  /-- LDC (49_coprocessor_brk_unused.md R353); `n` is the length bit. -/
  | ldc (c : Cond) (p u n w : Bool) (rn : Reg) (crd : CReg) (cp : CpNum) (off : BitVec 8)
  /-- STC (R354). -/
  | stc (c : Cond) (p u n w : Bool) (rn : Reg) (crd : CReg) (cp : CpNum) (off : BitVec 8)
  /-- CDP (R352). -/
  | cdp (c : Cond) (cop1 : BitVec 4) (crn crd : CReg) (cp : CpNum) (cop2 : BitVec 3) (crm : CReg)
  /-- MCR (R355). -/
  | mcr (c : Cond) (cop1 : BitVec 3) (crn : CReg) (rd : Reg) (cp : CpNum) (cop2 : BitVec 3) (crm : CReg)
  /-- MRC (R356). -/
  | mrc (c : Cond) (cop1 : BitVec 3) (crn : CReg) (rd : Reg) (cp : CpNum) (cop2 : BitVec 3) (crm : CReg)
  /-- SWI (42_software_interrupt.md R170); the immediate is ignored by the processor. -/
  | swi (c : Cond) (imm : BitVec 24)
  /-- Any other word with a condition: an unused encoding (30_encoding.md R127, R135); `body` is bits [27:0]. -/
  | unallocated (c : Cond) (body : BitVec 28)
  deriving DecidableEq, Repr

end Sys2Proof
end

