-- ==== Sys2Proof/WellFormed.lean ====
section
/-!
DEFINITION. Which instructions are well-formed: the operand restrictions that hold in every state, whatever the mode
and the parameters, each UNPREDICTABLE by the rule named (00_scope.md R9). The table of the mask and match of every
row of spec/opcode_table.json stands here too: a word is UNALLOCATED only if it matches none of them (30_encoding.md
R135).
-/

namespace Sys2Proof

/-- Bits [27:0] of one row's mask and match (30_encoding.md R135). -/
structure OpcodeRow where
  mask : BitVec 28
  value : BitVec 28
  deriving DecidableEq, Repr

/-- A word's bits [27:0] match the row. -/
def OpcodeRow.covers (r : OpcodeRow) (body : BitVec 28) : Bool := body &&& r.mask == r.value

/-- The 48 data-processing rows. -/
def dataProcessingRows : List OpcodeRow := [
   ⟨0xFE00000, 0x2000000⟩, ⟨0xFE00010, 0x0000000⟩, ⟨0xFE00090, 0x0000010⟩, -- AND
   ⟨0xFE00000, 0x2200000⟩, ⟨0xFE00010, 0x0200000⟩, ⟨0xFE00090, 0x0200010⟩, -- EOR
   ⟨0xFE00000, 0x2400000⟩, ⟨0xFE00010, 0x0400000⟩, ⟨0xFE00090, 0x0400010⟩, -- SUB
   ⟨0xFE00000, 0x2600000⟩, ⟨0xFE00010, 0x0600000⟩, ⟨0xFE00090, 0x0600010⟩, -- RSB
   ⟨0xFE00000, 0x2800000⟩, ⟨0xFE00010, 0x0800000⟩, ⟨0xFE00090, 0x0800010⟩, -- ADD
   ⟨0xFE00000, 0x2A00000⟩, ⟨0xFE00010, 0x0A00000⟩, ⟨0xFE00090, 0x0A00010⟩, -- ADC
   ⟨0xFE00000, 0x2C00000⟩, ⟨0xFE00010, 0x0C00000⟩, ⟨0xFE00090, 0x0C00010⟩, -- SBC
   ⟨0xFE00000, 0x2E00000⟩, ⟨0xFE00010, 0x0E00000⟩, ⟨0xFE00090, 0x0E00010⟩, -- RSC
   ⟨0xFF00000, 0x3100000⟩, ⟨0xFF00010, 0x1100000⟩, ⟨0xFF00090, 0x1100010⟩, -- TST
   ⟨0xFF00000, 0x3300000⟩, ⟨0xFF00010, 0x1300000⟩, ⟨0xFF00090, 0x1300010⟩, -- TEQ
   ⟨0xFF00000, 0x3500000⟩, ⟨0xFF00010, 0x1500000⟩, ⟨0xFF00090, 0x1500010⟩, -- CMP
   ⟨0xFF00000, 0x3700000⟩, ⟨0xFF00010, 0x1700000⟩, ⟨0xFF00090, 0x1700010⟩, -- CMN
   ⟨0xFE00000, 0x3800000⟩, ⟨0xFE00010, 0x1800000⟩, ⟨0xFE00090, 0x1800010⟩, -- ORR
   ⟨0xFE00000, 0x3A00000⟩, ⟨0xFE00010, 0x1A00000⟩, ⟨0xFE00090, 0x1A00010⟩, -- MOV
   ⟨0xFE00000, 0x3C00000⟩, ⟨0xFE00010, 0x1C00000⟩, ⟨0xFE00090, 0x1C00010⟩, -- BIC
   ⟨0xFE00000, 0x3E00000⟩, ⟨0xFE00010, 0x1E00000⟩, ⟨0xFE00090, 0x1E00010⟩ -- MVN
  ]

/-- The multiply, swap, branch-exchange, CLZ, BRK and status-register rows. -/
def multiplyMiscRows : List OpcodeRow := [
   ⟨0xFE000F0, 0x0000090⟩, -- MUL
   ⟨0xFE000F0, 0x0200090⟩, -- MLA
   ⟨0xFE000F0, 0x0800090⟩, -- UMULL
   ⟨0xFE000F0, 0x0A00090⟩, -- UMLAL
   ⟨0xFE000F0, 0x0C00090⟩, -- SMULL
   ⟨0xFE000F0, 0x0E00090⟩, -- SMLAL
   ⟨0xFF00FF0, 0x1000090⟩, -- SWP
   ⟨0xFF00FF0, 0x1400090⟩, -- SWPB
   ⟨0xFFFFFF0, 0x12FFF10⟩, -- BX
   ⟨0xFFFFFF0, 0x12FFF30⟩, -- BLX
   ⟨0xFFF0FF0, 0x16F0F10⟩, -- CLZ
   ⟨0xFF000F0, 0x1200070⟩, -- BRK
   ⟨0xFBF0FFF, 0x10F0000⟩, -- MRS
   ⟨0xFB0FFF0, 0x120F000⟩, ⟨0xFB0F000, 0x320F000⟩ -- MSR
  ]

/-- The half-word and signed byte rows. -/
def halfwordRows : List OpcodeRow := [
   ⟨0xE5000F0, 0x04000B0⟩, ⟨0xE500FF0, 0x00000B0⟩, -- STRH
   ⟨0xE5000F0, 0x05000B0⟩, ⟨0xE500FF0, 0x01000B0⟩, -- LDRH
   ⟨0xE5000F0, 0x05000D0⟩, ⟨0xE500FF0, 0x01000D0⟩, -- LDRSB
   ⟨0xE5000F0, 0x05000F0⟩, ⟨0xE500FF0, 0x01000F0⟩ -- LDRSH
  ]

/-- The word and unsigned byte rows, T forms included. -/
def singleTransferRows : List OpcodeRow := [
   ⟨0xF500000, 0x5100000⟩, ⟨0xF700000, 0x4100000⟩, ⟨0xF500010, 0x7100000⟩, ⟨0xF700010, 0x6100000⟩, -- LDR
   ⟨0xF500000, 0x5000000⟩, ⟨0xF700000, 0x4000000⟩, ⟨0xF500010, 0x7000000⟩, ⟨0xF700010, 0x6000000⟩, -- STR
   ⟨0xF500000, 0x5500000⟩, ⟨0xF700000, 0x4500000⟩, ⟨0xF500010, 0x7500000⟩, ⟨0xF700010, 0x6500000⟩, -- LDRB
   ⟨0xF500000, 0x5400000⟩, ⟨0xF700000, 0x4400000⟩, ⟨0xF500010, 0x7400000⟩, ⟨0xF700010, 0x6400000⟩, -- STRB
   ⟨0xF700000, 0x4300000⟩, ⟨0xF700010, 0x6300000⟩, -- LDRT
   ⟨0xF700000, 0x4200000⟩, ⟨0xF700010, 0x6200000⟩, -- STRT
   ⟨0xF700000, 0x4700000⟩, ⟨0xF700010, 0x6700000⟩, -- LDRBT
   ⟨0xF700000, 0x4600000⟩, ⟨0xF700010, 0x6600000⟩ -- STRBT
  ]

/-- The undefined-space, block transfer, branch, coprocessor and SWI rows. -/
def otherRows : List OpcodeRow := [
   ⟨0xE000010, 0x6000010⟩, -- UNDEFINED
   ⟨0xE500000, 0x8100000⟩, -- LDM
   ⟨0xE500000, 0x8000000⟩, -- STM
   ⟨0xE508000, 0x8508000⟩, ⟨0xE508000, 0x8500000⟩, -- LDM
   ⟨0xE500000, 0x8400000⟩, -- STM
   ⟨0xF000000, 0xA000000⟩, -- B
   ⟨0xF000000, 0xB000000⟩, -- BL
   ⟨0xE100000, 0xC100000⟩, -- LDC
   ⟨0xE100000, 0xC000000⟩, -- STC
   ⟨0xF000010, 0xE000000⟩, -- CDP
   ⟨0xF100010, 0xE000010⟩, -- MCR
   ⟨0xF100010, 0xE100010⟩, -- MRC
   ⟨0xF000000, 0xF000000⟩ -- SWI
  ]

/-- Every row of spec/opcode_table.json that has a condition field or, as BRK, fixes it to 1110: 109 rows, all but
BLX label and UNALLOCATED. -/
def opcodeRows : List OpcodeRow :=
  dataProcessingRows ++ multiplyMiscRows ++ halfwordRows ++ singleTransferRows ++ otherRows

/-- Bits [27:0] belong to no row: an unused encoding (49_coprocessor_brk_unused.md R361). -/
def isUnallocated (body : BitVec 28) : Bool := opcodeRows.all fun r => !r.covers body

/-- r15 is none of Rd, Rn, Rm, Rs (43_data_processing.md R183, 44_multiply_clz.md R230). -/
def noPc (rs : List Reg) : Bool := rs.all fun r => r != 15

/-- Register-shift operands name no r15 (43_data_processing.md R183). -/
def RegShift.wf (o : RegShift) : Bool := noPc [o.rs, o.rm]

/-- The register restrictions of the long multiplies (44_multiply_clz.md R230). -/
def longMultiplyWf (rdHi rdLo rs rm : Reg) : Bool :=
  noPc [rdHi, rdLo, rs, rm] && rdHi != rdLo && rdHi != rm && rdLo != rm

/-- SWP, SWPB (47_multiple_transfer_swap.md R312). -/
def swapWf (rn rd rm : Reg) : Bool := noPc [rn, rd, rm] && rn != rm && rn != rd

/-- Write-back is not to r15 nor to the transferred register (45_single_data_transfer.md R251). -/
def writeBackWf (writeBack : Bool) (rn rd : Reg) : Bool := !writeBack || (rn != 15 && rn != rd)

/-- A register offset is not r15, nor the base that is written back (R250, R251). -/
def registerOffsetWf (writeBack : Bool) (rn rm : Reg) : Bool := rm != 15 && (!writeBack || rm != rn)

/-- Half-word family, immediate offset (46_halfword_signed_transfer.md R281, R283 to R286). -/
def halfImmWf (p w : Bool) (rn rd : Reg) : Bool := rd != 15 && (p || !w) && writeBackWf (!p || w) rn rd

/-- Half-word family, register offset (R280, R281). -/
def halfRegWf (p w : Bool) (rn rd rm : Reg) : Bool := halfImmWf p w rn rd && registerOffsetWf (!p || w) rn rm

/-- LDM, STM: a non-empty list and a base that is not r15 (47_multiple_transfer_swap.md R300). -/
def blockWf (n : Nat) (list : BitVec n) (rn : Reg) : Bool := list != 0 && rn != 15

/-- No register of the list has a lower number (47_multiple_transfer_swap.md R302, R304). -/
def isLowest (list : BitVec 16) (rn : Reg) : Bool := (List.range rn.toNat).all fun j => !list.getLsbD j

/-- LDM: a base that is written back is not in the list (R303, R306). -/
def loadBaseWf (w : Bool) (list : BitVec 16) (rn : Reg) : Bool := !(w && list.getLsbD rn.toNat)

/-- STM: a base that is written back is not in the list, or is its lowest register (R304, R306). -/
def storeBaseWf (w : Bool) (list : BitVec 16) (rn : Reg) : Bool := !(w && list.getLsbD rn.toNat) || isLowest list rn

/-- LDC, STC: no write-back to r15; the unindexed form adds (49_coprocessor_brk_unused.md R357). -/
def coprocessorTransferWf (p u w : Bool) (rn : Reg) : Bool := (p || w || u) && (!w || rn != 15)

/-- The instruction breaks no restriction on its operands. -/
def Instr.wf : Instr → Bool
  | .andImm _ _ _ _ _ => true
  | .andShift _ _ _ _ _ => true
  | .andReg _ _ rn rd o => noPc [rn, rd] && o.wf
  | .eorImm _ _ _ _ _ => true
  | .eorShift _ _ _ _ _ => true
  | .eorReg _ _ rn rd o => noPc [rn, rd] && o.wf
  | .subImm _ _ _ _ _ => true
  | .subShift _ _ _ _ _ => true
  | .subReg _ _ rn rd o => noPc [rn, rd] && o.wf
  | .rsbImm _ _ _ _ _ => true
  | .rsbShift _ _ _ _ _ => true
  | .rsbReg _ _ rn rd o => noPc [rn, rd] && o.wf
  | .addImm _ _ _ _ _ => true
  | .addShift _ _ _ _ _ => true
  | .addReg _ _ rn rd o => noPc [rn, rd] && o.wf
  | .adcImm _ _ _ _ _ => true
  | .adcShift _ _ _ _ _ => true
  | .adcReg _ _ rn rd o => noPc [rn, rd] && o.wf
  | .sbcImm _ _ _ _ _ => true
  | .sbcShift _ _ _ _ _ => true
  | .sbcReg _ _ rn rd o => noPc [rn, rd] && o.wf
  | .rscImm _ _ _ _ _ => true
  | .rscShift _ _ _ _ _ => true
  | .rscReg _ _ rn rd o => noPc [rn, rd] && o.wf
  | .tstImm _ _ rd _ => rd == 0
  | .tstShift _ _ rd _ => rd == 0
  | .tstReg _ rn rd o => rd == 0 && noPc [rn] && o.wf
  | .teqImm _ _ rd _ => rd == 0
  | .teqShift _ _ rd _ => rd == 0
  | .teqReg _ rn rd o => rd == 0 && noPc [rn] && o.wf
  | .cmpImm _ _ rd _ => rd == 0
  | .cmpShift _ _ rd _ => rd == 0
  | .cmpReg _ rn rd o => rd == 0 && noPc [rn] && o.wf
  | .cmnImm _ _ rd _ => rd == 0
  | .cmnShift _ _ rd _ => rd == 0
  | .cmnReg _ rn rd o => rd == 0 && noPc [rn] && o.wf
  | .orrImm _ _ _ _ _ => true
  | .orrShift _ _ _ _ _ => true
  | .orrReg _ _ rn rd o => noPc [rn, rd] && o.wf
  | .movImm _ _ rn _ _ => rn == 0
  | .movShift _ _ rn _ _ => rn == 0
  | .movReg _ _ rn rd o => rn == 0 && noPc [rd] && o.wf
  | .bicImm _ _ _ _ _ => true
  | .bicShift _ _ _ _ _ => true
  | .bicReg _ _ rn rd o => noPc [rn, rd] && o.wf
  | .mvnImm _ _ rn _ _ => rn == 0
  | .mvnShift _ _ rn _ _ => rn == 0
  | .mvnReg _ _ rn rd o => rn == 0 && noPc [rd] && o.wf
  | .mul _ _ rd sbz rs rm => sbz == 0 && noPc [rd, rs, rm] && rd != rm
  | .mla _ _ rd rn rs rm => noPc [rd, rn, rs, rm] && rd != rm
  | .umull _ _ rdHi rdLo rs rm => longMultiplyWf rdHi rdLo rs rm
  | .umlal _ _ rdHi rdLo rs rm => longMultiplyWf rdHi rdLo rs rm
  | .smull _ _ rdHi rdLo rs rm => longMultiplyWf rdHi rdLo rs rm
  | .smlal _ _ rdHi rdLo rs rm => longMultiplyWf rdHi rdLo rs rm
  | .swp _ rn rd rm => swapWf rn rd rm
  | .swpb _ rn rd rm => swapWf rn rd rm
  | .bx _ _ => true
  | .blxReg _ rm => rm != 15
  | .clz _ rd rm => noPc [rd, rm]
  | .brk _ => true
  | .mrs _ _ rd => rd != 15
  | .msrReg _ _ _ rm => rm != 15
  | .msrImm _ _ _ _ => true
  | .strhImm _ p _ w rn rd _ => halfImmWf p w rn rd
  | .strhReg _ p _ w rn rd rm => halfRegWf p w rn rd rm
  | .ldrhImm _ p _ w rn rd _ => halfImmWf p w rn rd
  | .ldrhReg _ p _ w rn rd rm => halfRegWf p w rn rd rm
  | .ldrsbImm _ p _ w rn rd _ => halfImmWf p w rn rd
  | .ldrsbReg _ p _ w rn rd rm => halfRegWf p w rn rd rm
  | .ldrshImm _ p _ w rn rd _ => halfImmWf p w rn rd
  | .ldrshReg _ p _ w rn rd rm => halfRegWf p w rn rd rm
  | .ldrPreImm _ _ w rn rd _ => writeBackWf w rn rd
  | .ldrPostImm _ _ rn rd _ => writeBackWf true rn rd
  | .ldrPreReg _ _ w rn rd o => writeBackWf w rn rd && registerOffsetWf w rn o.rm
  | .ldrPostReg _ _ rn rd o => writeBackWf true rn rd && registerOffsetWf true rn o.rm
  | .strPreImm _ _ w rn rd _ => writeBackWf w rn rd
  | .strPostImm _ _ rn rd _ => writeBackWf true rn rd
  | .strPreReg _ _ w rn rd o => writeBackWf w rn rd && registerOffsetWf w rn o.rm
  | .strPostReg _ _ rn rd o => writeBackWf true rn rd && registerOffsetWf true rn o.rm
  | .ldrbPreImm _ _ w rn rd _ => rd != 15 && writeBackWf w rn rd
  | .ldrbPostImm _ _ rn rd _ => rd != 15 && writeBackWf true rn rd
  | .ldrbPreReg _ _ w rn rd o => rd != 15 && writeBackWf w rn rd && registerOffsetWf w rn o.rm
  | .ldrbPostReg _ _ rn rd o => rd != 15 && writeBackWf true rn rd && registerOffsetWf true rn o.rm
  | .strbPreImm _ _ w rn rd _ => rd != 15 && writeBackWf w rn rd
  | .strbPostImm _ _ rn rd _ => rd != 15 && writeBackWf true rn rd
  | .strbPreReg _ _ w rn rd o => rd != 15 && writeBackWf w rn rd && registerOffsetWf w rn o.rm
  | .strbPostReg _ _ rn rd o => rd != 15 && writeBackWf true rn rd && registerOffsetWf true rn o.rm
  | .ldrtImm _ _ rn rd _ => rd != 15 && writeBackWf true rn rd
  | .ldrtReg _ _ rn rd o => rd != 15 && writeBackWf true rn rd && registerOffsetWf true rn o.rm
  | .strtImm _ _ rn rd _ => rd != 15 && writeBackWf true rn rd
  | .strtReg _ _ rn rd o => rd != 15 && writeBackWf true rn rd && registerOffsetWf true rn o.rm
  | .ldrbtImm _ _ rn rd _ => rd != 15 && writeBackWf true rn rd
  | .ldrbtReg _ _ rn rd o => rd != 15 && writeBackWf true rn rd && registerOffsetWf true rn o.rm
  | .strbtImm _ _ rn rd _ => rd != 15 && writeBackWf true rn rd
  | .strbtReg _ _ rn rd o => rd != 15 && writeBackWf true rn rd && registerOffsetWf true rn o.rm
  | .undefined _ _ _ => true
  | .ldm _ _ _ w rn list => blockWf 16 list rn && loadBaseWf w list rn
  | .stm _ _ _ w rn list => blockWf 16 list rn && storeBaseWf w list rn
  | .ldmReturn _ _ _ w rn list => rn != 15 && loadBaseWf w (1#1 ++ list) rn
  | .ldmUser _ _ _ w rn list => !w && blockWf 15 list rn
  | .stmUser _ _ _ w rn list => !w && blockWf 16 list rn
  | .b _ _ => true
  | .bl _ _ => true
  | .blxLabel _ _ => true
  | .ldc _ p u _ w rn _ _ _ => coprocessorTransferWf p u w rn
  | .stc _ p u _ w rn _ _ _ => coprocessorTransferWf p u w rn
  | .cdp _ _ _ _ _ _ _ => true
  | .mcr _ _ _ rd _ _ _ => rd != 15
  | .mrc _ _ _ _ _ _ _ => true
  | .swi _ _ => true
  | .unallocated _ body => isUnallocated body

end Sys2Proof
end

