-- ==== Sys2Proof/Decode.lean ====
section
/-!
DEFINITION. The decoder, total on every 32-bit word and on every list of bytes (spec/30_encoding.md R102 to R135), and
after it the encoder, written from the same format tables. Bits are numbered from 0, the least significant (R6).
-/

namespace Sys2Proof

/-- Why bytes are no instruction. -/
inductive DecodeError where
  /-- Condition field 1111 and not BLX label (30_encoding.md R128). -/
  | condition1111
  /-- Fewer than the four bytes of an instruction (R100). -/
  | truncated
  deriving DecidableEq, Repr

/-! ### Fields -/

/-- `w[i]` (R6). -/
def bit (w : Word) (i : Nat) : Bool := w.getLsbD i

/-- The `len` bits of `w` from bit `lo` up (R6). -/
def field (w : Word) (lo len : Nat) : BitVec len := w.extractLsb' lo len

/-- The conditions in the order of their codes (40_conditional_execution.md R140). -/
def Cond.bits : Cond → BitVec 4
  | .eq => 0 | .ne => 1 | .cs => 2 | .cc => 3 | .mi => 4 | .pl => 5 | .vs => 6 | .vc => 7
  | .hi => 8 | .ls => 9 | .ge => 10 | .lt => 11 | .gt => 12 | .le => 13 | .al => 14

/-- The condition of a 4-bit code; 1111 is not a condition (R143). -/
def Cond.ofBits (v : BitVec 4) : Option Cond :=
  if v = 0 then some .eq else if v = 1 then some .ne else if v = 2 then some .cs else if v = 3 then some .cc
  else if v = 4 then some .mi else if v = 5 then some .pl else if v = 6 then some .vs else if v = 7 then some .vc
  else if v = 8 then some .hi else if v = 9 then some .ls else if v = 10 then some .ge else if v = 11 then some .lt
  else if v = 12 then some .gt else if v = 13 then some .le else if v = 14 then some .al else none

/-- The opcode of an operation (30_encoding.md R104). -/
def DpOp.bits : DpOp → BitVec 4
  | .and => 0 | .eor => 1 | .sub => 2 | .rsb => 3 | .add => 4 | .adc => 5 | .sbc => 6 | .rsc => 7
  | .tst => 8 | .teq => 9 | .cmp => 10 | .cmn => 11 | .orr => 12 | .mov => 13 | .bic => 14 | .mvn => 15

/-- The operation of an opcode (R104). -/
def DpOp.ofBits (v : BitVec 4) : DpOp :=
  if v = 0 then .and else if v = 1 then .eor else if v = 2 then .sub else if v = 3 then .rsb
  else if v = 4 then .add else if v = 5 then .adc else if v = 6 then .sbc else if v = 7 then .rsc
  else if v = 8 then .tst else if v = 9 then .teq else if v = 10 then .cmp else if v = 11 then .cmn
  else if v = 12 then .orr else if v = 13 then .mov else if v = 14 then .bic else .mvn

/-- The code of a shift type (R103). -/
def ShiftType.bits : ShiftType → BitVec 2
  | .lsl => 0 | .lsr => 1 | .asr => 2 | .ror => 3

/-- The shift type of a code (R103). -/
def ShiftType.ofBits (v : BitVec 2) : ShiftType :=
  if v = 0 then .lsl else if v = 1 then .lsr else if v = 2 then .asr else .ror

/-- Bits [11:0] as a rotated immediate (R121). -/
def rotImmOf (w : Word) : RotImm := ⟨field w 8 4, field w 0 8⟩

/-- Bits [11:0] as a register shifted by an immediate (R103). -/
def immShiftOf (w : Word) : ImmShift := ⟨field w 7 5, .ofBits (field w 5 2), field w 0 4⟩

/-- Bits [11:0] as a register shifted by a register (R103). -/
def regShiftOf (w : Word) : RegShift := ⟨field w 8 4, .ofBits (field w 5 2), field w 0 4⟩

/-! ### The decoder -/

/-- The rotated-immediate instruction of an operation; the four compares have no S field (43_data_processing.md R206). -/
def Instr.dpImm (op : DpOp) (c : Cond) (s : Bool) (rn rd : Reg) (o : RotImm) : Instr :=
  match op with
  | .and => .andImm c s rn rd o
  | .eor => .eorImm c s rn rd o
  | .sub => .subImm c s rn rd o
  | .rsb => .rsbImm c s rn rd o
  | .add => .addImm c s rn rd o
  | .adc => .adcImm c s rn rd o
  | .sbc => .sbcImm c s rn rd o
  | .rsc => .rscImm c s rn rd o
  | .tst => .tstImm c rn rd o
  | .teq => .teqImm c rn rd o
  | .cmp => .cmpImm c rn rd o
  | .cmn => .cmnImm c rn rd o
  | .orr => .orrImm c s rn rd o
  | .mov => .movImm c s rn rd o
  | .bic => .bicImm c s rn rd o
  | .mvn => .mvnImm c s rn rd o

/-- The immediate-shift instruction of an operation; the four compares have no S field (43_data_processing.md R206). -/
def Instr.dpShift (op : DpOp) (c : Cond) (s : Bool) (rn rd : Reg) (o : ImmShift) : Instr :=
  match op with
  | .and => .andShift c s rn rd o
  | .eor => .eorShift c s rn rd o
  | .sub => .subShift c s rn rd o
  | .rsb => .rsbShift c s rn rd o
  | .add => .addShift c s rn rd o
  | .adc => .adcShift c s rn rd o
  | .sbc => .sbcShift c s rn rd o
  | .rsc => .rscShift c s rn rd o
  | .tst => .tstShift c rn rd o
  | .teq => .teqShift c rn rd o
  | .cmp => .cmpShift c rn rd o
  | .cmn => .cmnShift c rn rd o
  | .orr => .orrShift c s rn rd o
  | .mov => .movShift c s rn rd o
  | .bic => .bicShift c s rn rd o
  | .mvn => .mvnShift c s rn rd o

/-- The register-shift instruction of an operation; the four compares have no S field (43_data_processing.md R206). -/
def Instr.dpReg (op : DpOp) (c : Cond) (s : Bool) (rn rd : Reg) (o : RegShift) : Instr :=
  match op with
  | .and => .andReg c s rn rd o
  | .eor => .eorReg c s rn rd o
  | .sub => .subReg c s rn rd o
  | .rsb => .rsbReg c s rn rd o
  | .add => .addReg c s rn rd o
  | .adc => .adcReg c s rn rd o
  | .sbc => .sbcReg c s rn rd o
  | .rsc => .rscReg c s rn rd o
  | .tst => .tstReg c rn rd o
  | .teq => .teqReg c rn rd o
  | .cmp => .cmpReg c rn rd o
  | .cmn => .cmnReg c rn rd o
  | .orr => .orrReg c s rn rd o
  | .mov => .movReg c s rn rd o
  | .bic => .bicReg c s rn rd o
  | .mvn => .mvnReg c s rn rd o

/-- The catch-all: an unused encoding (R127, R135). -/
def unallocatedOf (c : Cond) (w : Word) : Instr := .unallocated c (field w 0 28)

/-- Bits [27:25] = 000 and [7:4] = 1001: multiply and swap (R105 to R107). -/
def decodeMultiplySwap (c : Cond) (w : Word) : Instr :=
  if field w 22 3 = 0 then
    if bit w 21 then .mla c (bit w 20) (field w 16 4) (field w 12 4) (field w 8 4) (field w 0 4)
    else .mul c (bit w 20) (field w 16 4) (field w 12 4) (field w 8 4) (field w 0 4)
  else if field w 23 2 = 1 then
    if bit w 22 then
      if bit w 21 then .smlal c (bit w 20) (field w 16 4) (field w 12 4) (field w 8 4) (field w 0 4)
      else .smull c (bit w 20) (field w 16 4) (field w 12 4) (field w 8 4) (field w 0 4)
    else
      if bit w 21 then .umlal c (bit w 20) (field w 16 4) (field w 12 4) (field w 8 4) (field w 0 4)
      else .umull c (bit w 20) (field w 16 4) (field w 12 4) (field w 8 4) (field w 0 4)
  else if field w 23 2 = 2 ∧ field w 20 2 = 0 ∧ field w 8 4 = 0 then
    if bit w 22 then .swpb c (field w 16 4) (field w 12 4) (field w 0 4)
    else .swp c (field w 16 4) (field w 12 4) (field w 0 4)
  else unallocatedOf c w

/-- Bits [27:25] = 000, bits 7 and 4 set, S H not 00: half-word and signed byte transfer (R112); with L = 0 only STRH
exists (46_halfword_signed_transfer.md R287). -/
def decodeHalfword (c : Cond) (w : Word) : Instr :=
  if bit w 22 then
    if field w 5 2 = 1 then
      if bit w 20 then .ldrhImm c (bit w 24) (bit w 23) (bit w 21) (field w 16 4) (field w 12 4) (field w 8 4 ++ field w 0 4)
      else .strhImm c (bit w 24) (bit w 23) (bit w 21) (field w 16 4) (field w 12 4) (field w 8 4 ++ field w 0 4)
    else if bit w 20 then
      if field w 5 2 = 2 then
        .ldrsbImm c (bit w 24) (bit w 23) (bit w 21) (field w 16 4) (field w 12 4) (field w 8 4 ++ field w 0 4)
      else .ldrshImm c (bit w 24) (bit w 23) (bit w 21) (field w 16 4) (field w 12 4) (field w 8 4 ++ field w 0 4)
    else unallocatedOf c w
  else if field w 8 4 = 0 then
    if field w 5 2 = 1 then
      if bit w 20 then .ldrhReg c (bit w 24) (bit w 23) (bit w 21) (field w 16 4) (field w 12 4) (field w 0 4)
      else .strhReg c (bit w 24) (bit w 23) (bit w 21) (field w 16 4) (field w 12 4) (field w 0 4)
    else if bit w 20 then
      if field w 5 2 = 2 then .ldrsbReg c (bit w 24) (bit w 23) (bit w 21) (field w 16 4) (field w 12 4) (field w 0 4)
      else .ldrshReg c (bit w 24) (bit w 23) (bit w 21) (field w 16 4) (field w 12 4) (field w 0 4)
    else unallocatedOf c w
  else unallocatedOf c w

/-- Bits [27:23] = 00010, bit 20 = 0: the miscellaneous space (R108 to R111). -/
def decodeMiscellaneous (c : Cond) (w : Word) : Instr :=
  if field w 21 1 = 0 ∧ field w 16 4 = 15 ∧ field w 0 12 = 0 then .mrs c (bit w 22) (field w 12 4)
  else if field w 21 1 = 1 ∧ field w 12 4 = 15 ∧ field w 4 8 = 0 then
    .msrReg c (bit w 22) (field w 16 4) (field w 0 4)
  else if field w 4 19 = 0x2FFF1 then .bx c (field w 0 4)
  else if field w 4 19 = 0x2FFF3 then .blxReg c (field w 0 4)
  else if field w 16 6 = 0x2F ∧ bit w 22 ∧ field w 4 8 = 0xF1 then .clz c (field w 12 4) (field w 0 4)
  else if field w 20 3 = 2 ∧ field w 4 4 = 7 ∧ c = .al then .brk (field w 8 12 ++ field w 0 4)
  else unallocatedOf c w

/-- Bits [27:25] = 000 (R102). -/
def decode000 (c : Cond) (w : Word) : Instr :=
  if field w 4 4 = 9 then decodeMultiplySwap c w
  else if bit w 7 && bit w 4 then decodeHalfword c w
  else if field w 23 2 = 2 ∧ bit w 20 = false then decodeMiscellaneous c w
  else if bit w 4 then
    .dpReg (.ofBits (field w 21 4)) c (bit w 20) (field w 16 4) (field w 12 4) (regShiftOf w)
  else .dpShift (.ofBits (field w 21 4)) c (bit w 20) (field w 16 4) (field w 12 4) (immShiftOf w)

/-- Bits [27:25] = 001 (R102). -/
def decode001 (c : Cond) (w : Word) : Instr :=
  if field w 23 2 = 2 ∧ bit w 20 = false then
    if bit w 21 && field w 12 4 == 15 then .msrImm c (bit w 22) (field w 16 4) (rotImmOf w)
    else unallocatedOf c w
  else .dpImm (.ofBits (field w 21 4)) c (bit w 20) (field w 16 4) (field w 12 4) (rotImmOf w)

/-- Bits [27:25] = 010: word and byte transfer, immediate offset (R113). -/
def decode010 (c : Cond) (w : Word) : Instr :=
  if bit w 24 then
    if bit w 22 then
      if bit w 20 then .ldrbPreImm c (bit w 23) (bit w 21) (field w 16 4) (field w 12 4) (field w 0 12)
      else .strbPreImm c (bit w 23) (bit w 21) (field w 16 4) (field w 12 4) (field w 0 12)
    else
      if bit w 20 then .ldrPreImm c (bit w 23) (bit w 21) (field w 16 4) (field w 12 4) (field w 0 12)
      else .strPreImm c (bit w 23) (bit w 21) (field w 16 4) (field w 12 4) (field w 0 12)
  else if bit w 21 then
    if bit w 22 then
      if bit w 20 then .ldrbtImm c (bit w 23) (field w 16 4) (field w 12 4) (field w 0 12)
      else .strbtImm c (bit w 23) (field w 16 4) (field w 12 4) (field w 0 12)
    else
      if bit w 20 then .ldrtImm c (bit w 23) (field w 16 4) (field w 12 4) (field w 0 12)
      else .strtImm c (bit w 23) (field w 16 4) (field w 12 4) (field w 0 12)
  else
    if bit w 22 then
      if bit w 20 then .ldrbPostImm c (bit w 23) (field w 16 4) (field w 12 4) (field w 0 12)
      else .strbPostImm c (bit w 23) (field w 16 4) (field w 12 4) (field w 0 12)
    else
      if bit w 20 then .ldrPostImm c (bit w 23) (field w 16 4) (field w 12 4) (field w 0 12)
      else .strPostImm c (bit w 23) (field w 16 4) (field w 12 4) (field w 0 12)

/-- Bits [27:25] = 011: register offset (R113), or with bit 4 set the undefined instruction space (R126). -/
def decode011 (c : Cond) (w : Word) : Instr :=
  if bit w 4 then .undefined c (field w 5 20) (field w 0 4)
  else if bit w 24 then
    if bit w 22 then
      if bit w 20 then .ldrbPreReg c (bit w 23) (bit w 21) (field w 16 4) (field w 12 4) (immShiftOf w)
      else .strbPreReg c (bit w 23) (bit w 21) (field w 16 4) (field w 12 4) (immShiftOf w)
    else
      if bit w 20 then .ldrPreReg c (bit w 23) (bit w 21) (field w 16 4) (field w 12 4) (immShiftOf w)
      else .strPreReg c (bit w 23) (bit w 21) (field w 16 4) (field w 12 4) (immShiftOf w)
  else if bit w 21 then
    if bit w 22 then
      if bit w 20 then .ldrbtReg c (bit w 23) (field w 16 4) (field w 12 4) (immShiftOf w)
      else .strbtReg c (bit w 23) (field w 16 4) (field w 12 4) (immShiftOf w)
    else
      if bit w 20 then .ldrtReg c (bit w 23) (field w 16 4) (field w 12 4) (immShiftOf w)
      else .strtReg c (bit w 23) (field w 16 4) (field w 12 4) (immShiftOf w)
  else
    if bit w 22 then
      if bit w 20 then .ldrbPostReg c (bit w 23) (field w 16 4) (field w 12 4) (immShiftOf w)
      else .strbPostReg c (bit w 23) (field w 16 4) (field w 12 4) (immShiftOf w)
    else
      if bit w 20 then .ldrPostReg c (bit w 23) (field w 16 4) (field w 12 4) (immShiftOf w)
      else .strPostReg c (bit w 23) (field w 16 4) (field w 12 4) (immShiftOf w)

/-- Bits [27:25] = 100: block transfer (R114). -/
def decode100 (c : Cond) (w : Word) : Instr :=
  if bit w 22 then
    if bit w 20 then
      if bit w 15 then .ldmReturn c (bit w 24) (bit w 23) (bit w 21) (field w 16 4) (field w 0 15)
      else .ldmUser c (bit w 24) (bit w 23) (bit w 21) (field w 16 4) (field w 0 15)
    else .stmUser c (bit w 24) (bit w 23) (bit w 21) (field w 16 4) (field w 0 16)
  else
    if bit w 20 then .ldm c (bit w 24) (bit w 23) (bit w 21) (field w 16 4) (field w 0 16)
    else .stm c (bit w 24) (bit w 23) (bit w 21) (field w 16 4) (field w 0 16)

/-- Bits [27:25] = 101: B, BL (R115). -/
def decode101 (c : Cond) (w : Word) : Instr :=
  if bit w 24 then .bl c (field w 0 24) else .b c (field w 0 24)

/-- Bits [27:25] = 110: LDC, STC (R118). -/
def decode110 (c : Cond) (w : Word) : Instr :=
  if bit w 20 then
    .ldc c (bit w 24) (bit w 23) (bit w 22) (bit w 21) (field w 16 4) (field w 12 4) (field w 8 4) (field w 0 8)
  else .stc c (bit w 24) (bit w 23) (bit w 22) (bit w 21) (field w 16 4) (field w 12 4) (field w 8 4) (field w 0 8)

/-- Bits [27:25] = 111: CDP, MCR, MRC, SWI (R117, R119, R120). -/
def decode111 (c : Cond) (w : Word) : Instr :=
  if bit w 24 then .swi c (field w 0 24)
  else if bit w 4 then
    if bit w 20 then
      .mrc c (field w 21 3) (field w 16 4) (field w 12 4) (field w 8 4) (field w 5 3) (field w 0 4)
    else .mcr c (field w 21 3) (field w 16 4) (field w 12 4) (field w 8 4) (field w 5 3) (field w 0 4)
  else .cdp c (field w 20 4) (field w 16 4) (field w 12 4) (field w 8 4) (field w 5 3) (field w 0 4)

/-- The instruction of a word whose condition is not 1111: the class by bits [27:25] (R102). -/
def decodeConditional (c : Cond) (w : Word) : Instr :=
  if field w 25 3 = 0 then decode000 c w
  else if field w 25 3 = 1 then decode001 c w
  else if field w 25 3 = 2 then decode010 c w
  else if field w 25 3 = 3 then decode011 c w
  else if field w 25 3 = 4 then decode100 c w
  else if field w 25 3 = 5 then decode101 c w
  else if field w 25 3 = 6 then decode110 c w
  else decode111 c w

/-- The instruction of a word (R102, R128, R135), at the highest `ARCH`; at a lower one the machine treats an
instruction it does not have as an unused encoding (R135). -/
def decode (w : Word) : Except DecodeError Instr :=
  match Cond.ofBits (field w 28 4) with
  | some c => .ok (decodeConditional c w)
  | none => if field w 25 3 = 5 then .ok (.blxLabel (bit w 24) (field w 0 24)) else .error .condition1111

/-! ### Instructions as bytes -/

/-- The word of four bytes at ascending addresses (20_memory.md R63, R64). -/
def wordOfBytes (e : Endian) (b0 b1 b2 b3 : Byte) : Word :=
  match e with
  | .little => b3 ++ b2 ++ b1 ++ b0
  | .big => b0 ++ b1 ++ b2 ++ b3

/-- The four bytes of a word at ascending addresses (R63). -/
def bytesOfWord (e : Endian) (w : Word) : List Byte :=
  match e with
  | .little => [w.extractLsb' 0 8, w.extractLsb' 8 8, w.extractLsb' 16 8, w.extractLsb' 24 8]
  | .big => [w.extractLsb' 24 8, w.extractLsb' 16 8, w.extractLsb' 8 8, w.extractLsb' 0 8]

/-- The instruction at the head of a list of bytes, and the bytes after it. -/
def decodeBytes (e : Endian) : List Byte → Except DecodeError (Instr × List Byte)
  | b0 :: b1 :: b2 :: b3 :: rest =>
    match decode (wordOfBytes e b0 b1 b2 b3) with
    | .ok i => .ok (i, rest)
    | .error r => .error r
  | _ => .error .truncated

/-- What the decoder reads from the instruction whose bits are `w`, of which the table gives `nbits`; the bits above
are zero. The bytes are laid out in the default order, little-endian (92_eei_decisions.md D2). -/
def decodeTableWord (nbits w : Nat) : Option Instr :=
  match decodeBytes .little (bytesOfWord .little (BitVec.ofNat 32 (w % 2 ^ nbits))) with
  | .ok (i, _) => some i
  | .error _ => none

/-! ### The encoder -/

/-- One bit. -/
def b1 (b : Bool) : BitVec 1 := BitVec.ofBool b

/-- The operand-2 field of a rotated immediate (R103, R121). -/
def RotImm.bits (o : RotImm) : BitVec 12 := o.rot ++ o.imm

/-- The operand-2 field of a register shifted by an immediate (R103). -/
def ImmShift.bits (o : ImmShift) : BitVec 12 := o.amount ++ o.type.bits ++ 0#1 ++ o.rm

/-- The operand-2 field of a register shifted by a register (R103). -/
def RegShift.bits (o : RegShift) : BitVec 12 := o.rs ++ 0#1 ++ o.type.bits ++ 1#1 ++ o.rm

/-- Data processing (R103); `imm` is bit 25. -/
def encodeDp (c : Cond) (imm : Bool) (op : DpOp) (s : Bool) (rn rd : Reg) (op2 : BitVec 12) : Word :=
  c.bits ++ 0#2 ++ b1 imm ++ op.bits ++ b1 s ++ rn ++ rd ++ op2

/-- Multiply and long multiply (R105, R106); `kind` is bits [23:21]. -/
def encodeMultiply (c : Cond) (kind : BitVec 3) (s : Bool) (hi lo rs rm : Reg) : Word :=
  c.bits ++ 0#4 ++ kind ++ b1 s ++ hi ++ lo ++ rs ++ 9#4 ++ rm

/-- Swap (R107). -/
def encodeSwap (c : Cond) (byte : Bool) (rn rd rm : Reg) : Word :=
  c.bits ++ 2#5 ++ b1 byte ++ 0#2 ++ rn ++ rd ++ 9#8 ++ rm

/-- Half-word and signed byte transfer (R112); `sh` is the S and H bits, `hi` and `lo` the two offset nibbles. -/
def encodeHalfword (c : Cond) (p u imm w l : Bool) (rn rd : Reg) (hi : BitVec 4) (sh : BitVec 2) (lo : BitVec 4) :
    Word :=
  c.bits ++ 0#3 ++ b1 p ++ b1 u ++ b1 imm ++ b1 w ++ b1 l ++ rn ++ rd ++ hi ++ 1#1 ++ sh ++ 1#1 ++ lo

/-- Word and byte transfer (R113); `reg` is bit 25. -/
def encodeSingle (c : Cond) (reg p u byte w l : Bool) (rn rd : Reg) (off : BitVec 12) : Word :=
  c.bits ++ 1#2 ++ b1 reg ++ b1 p ++ b1 u ++ b1 byte ++ b1 w ++ b1 l ++ rn ++ rd ++ off

/-- Block transfer (R114). -/
def encodeBlock (c : Cond) (p u s w l : Bool) (rn : Reg) (list : BitVec 16) : Word :=
  c.bits ++ 4#3 ++ b1 p ++ b1 u ++ b1 s ++ b1 w ++ b1 l ++ rn ++ list

/-- LDC, STC (R118). -/
def encodeCoprocessorTransfer (c : Cond) (p u n w l : Bool) (rn : Reg) (crd : CReg) (cp : CpNum) (off : BitVec 8) :
    Word :=
  c.bits ++ 6#3 ++ b1 p ++ b1 u ++ b1 n ++ b1 w ++ b1 l ++ rn ++ crd ++ cp ++ off

/-- MCR, MRC (R119). -/
def encodeCoprocessorRegister (c : Cond) (cop1 : BitVec 3) (l : Bool) (crn : CReg) (rd : Reg) (cp : CpNum)
    (cop2 : BitVec 3) (crm : CReg) : Word :=
  c.bits ++ 14#4 ++ cop1 ++ b1 l ++ crn ++ rd ++ cp ++ cop2 ++ 1#1 ++ crm

/-- The word of an instruction. -/
def encode : Instr → Word
  | .andImm c s rn rd o => encodeDp c true .and s rn rd o.bits
  | .andShift c s rn rd o => encodeDp c false .and s rn rd o.bits
  | .andReg c s rn rd o => encodeDp c false .and s rn rd o.bits
  | .eorImm c s rn rd o => encodeDp c true .eor s rn rd o.bits
  | .eorShift c s rn rd o => encodeDp c false .eor s rn rd o.bits
  | .eorReg c s rn rd o => encodeDp c false .eor s rn rd o.bits
  | .subImm c s rn rd o => encodeDp c true .sub s rn rd o.bits
  | .subShift c s rn rd o => encodeDp c false .sub s rn rd o.bits
  | .subReg c s rn rd o => encodeDp c false .sub s rn rd o.bits
  | .rsbImm c s rn rd o => encodeDp c true .rsb s rn rd o.bits
  | .rsbShift c s rn rd o => encodeDp c false .rsb s rn rd o.bits
  | .rsbReg c s rn rd o => encodeDp c false .rsb s rn rd o.bits
  | .addImm c s rn rd o => encodeDp c true .add s rn rd o.bits
  | .addShift c s rn rd o => encodeDp c false .add s rn rd o.bits
  | .addReg c s rn rd o => encodeDp c false .add s rn rd o.bits
  | .adcImm c s rn rd o => encodeDp c true .adc s rn rd o.bits
  | .adcShift c s rn rd o => encodeDp c false .adc s rn rd o.bits
  | .adcReg c s rn rd o => encodeDp c false .adc s rn rd o.bits
  | .sbcImm c s rn rd o => encodeDp c true .sbc s rn rd o.bits
  | .sbcShift c s rn rd o => encodeDp c false .sbc s rn rd o.bits
  | .sbcReg c s rn rd o => encodeDp c false .sbc s rn rd o.bits
  | .rscImm c s rn rd o => encodeDp c true .rsc s rn rd o.bits
  | .rscShift c s rn rd o => encodeDp c false .rsc s rn rd o.bits
  | .rscReg c s rn rd o => encodeDp c false .rsc s rn rd o.bits
  | .tstImm c rn rd o => encodeDp c true .tst true rn rd o.bits
  | .tstShift c rn rd o => encodeDp c false .tst true rn rd o.bits
  | .tstReg c rn rd o => encodeDp c false .tst true rn rd o.bits
  | .teqImm c rn rd o => encodeDp c true .teq true rn rd o.bits
  | .teqShift c rn rd o => encodeDp c false .teq true rn rd o.bits
  | .teqReg c rn rd o => encodeDp c false .teq true rn rd o.bits
  | .cmpImm c rn rd o => encodeDp c true .cmp true rn rd o.bits
  | .cmpShift c rn rd o => encodeDp c false .cmp true rn rd o.bits
  | .cmpReg c rn rd o => encodeDp c false .cmp true rn rd o.bits
  | .cmnImm c rn rd o => encodeDp c true .cmn true rn rd o.bits
  | .cmnShift c rn rd o => encodeDp c false .cmn true rn rd o.bits
  | .cmnReg c rn rd o => encodeDp c false .cmn true rn rd o.bits
  | .orrImm c s rn rd o => encodeDp c true .orr s rn rd o.bits
  | .orrShift c s rn rd o => encodeDp c false .orr s rn rd o.bits
  | .orrReg c s rn rd o => encodeDp c false .orr s rn rd o.bits
  | .movImm c s rn rd o => encodeDp c true .mov s rn rd o.bits
  | .movShift c s rn rd o => encodeDp c false .mov s rn rd o.bits
  | .movReg c s rn rd o => encodeDp c false .mov s rn rd o.bits
  | .bicImm c s rn rd o => encodeDp c true .bic s rn rd o.bits
  | .bicShift c s rn rd o => encodeDp c false .bic s rn rd o.bits
  | .bicReg c s rn rd o => encodeDp c false .bic s rn rd o.bits
  | .mvnImm c s rn rd o => encodeDp c true .mvn s rn rd o.bits
  | .mvnShift c s rn rd o => encodeDp c false .mvn s rn rd o.bits
  | .mvnReg c s rn rd o => encodeDp c false .mvn s rn rd o.bits
  | .mul c s rd sbz rs rm => encodeMultiply c 0 s rd sbz rs rm
  | .mla c s rd rn rs rm => encodeMultiply c 1 s rd rn rs rm
  | .umull c s rdHi rdLo rs rm => encodeMultiply c 4 s rdHi rdLo rs rm
  | .umlal c s rdHi rdLo rs rm => encodeMultiply c 5 s rdHi rdLo rs rm
  | .smull c s rdHi rdLo rs rm => encodeMultiply c 6 s rdHi rdLo rs rm
  | .smlal c s rdHi rdLo rs rm => encodeMultiply c 7 s rdHi rdLo rs rm
  | .swp c rn rd rm => encodeSwap c false rn rd rm
  | .swpb c rn rd rm => encodeSwap c true rn rd rm
  | .bx c rm => c.bits ++ 0x12FFF1#24 ++ rm
  | .blxReg c rm => c.bits ++ 0x12FFF3#24 ++ rm
  | .clz c rd rm => c.bits ++ 0x16F#12 ++ rd ++ 0xF1#8 ++ rm
  | .brk imm => 0xE12#12 ++ imm.extractLsb' 4 12 ++ 7#4 ++ imm.extractLsb' 0 4
  | .mrs c r rd => c.bits ++ 2#5 ++ b1 r ++ 0#2 ++ 15#4 ++ rd ++ 0#12
  | .msrReg c r mask rm => c.bits ++ 2#5 ++ b1 r ++ 2#2 ++ mask ++ 15#4 ++ 0#8 ++ rm
  | .msrImm c r mask o => c.bits ++ 6#5 ++ b1 r ++ 2#2 ++ mask ++ 15#4 ++ o.bits
  | .strhImm c p u w rn rd off =>
    encodeHalfword c p u true w false rn rd (off.extractLsb' 4 4) 1 (off.extractLsb' 0 4)
  | .strhReg c p u w rn rd rm => encodeHalfword c p u false w false rn rd 0 1 rm
  | .ldrhImm c p u w rn rd off =>
    encodeHalfword c p u true w true rn rd (off.extractLsb' 4 4) 1 (off.extractLsb' 0 4)
  | .ldrhReg c p u w rn rd rm => encodeHalfword c p u false w true rn rd 0 1 rm
  | .ldrsbImm c p u w rn rd off =>
    encodeHalfword c p u true w true rn rd (off.extractLsb' 4 4) 2 (off.extractLsb' 0 4)
  | .ldrsbReg c p u w rn rd rm => encodeHalfword c p u false w true rn rd 0 2 rm
  | .ldrshImm c p u w rn rd off =>
    encodeHalfword c p u true w true rn rd (off.extractLsb' 4 4) 3 (off.extractLsb' 0 4)
  | .ldrshReg c p u w rn rd rm => encodeHalfword c p u false w true rn rd 0 3 rm
  | .ldrPreImm c u w rn rd off => encodeSingle c false true u false w true rn rd off
  | .ldrPostImm c u rn rd off => encodeSingle c false false u false false true rn rd off
  | .ldrPreReg c u w rn rd o => encodeSingle c true true u false w true rn rd o.bits
  | .ldrPostReg c u rn rd o => encodeSingle c true false u false false true rn rd o.bits
  | .strPreImm c u w rn rd off => encodeSingle c false true u false w false rn rd off
  | .strPostImm c u rn rd off => encodeSingle c false false u false false false rn rd off
  | .strPreReg c u w rn rd o => encodeSingle c true true u false w false rn rd o.bits
  | .strPostReg c u rn rd o => encodeSingle c true false u false false false rn rd o.bits
  | .ldrbPreImm c u w rn rd off => encodeSingle c false true u true w true rn rd off
  | .ldrbPostImm c u rn rd off => encodeSingle c false false u true false true rn rd off
  | .ldrbPreReg c u w rn rd o => encodeSingle c true true u true w true rn rd o.bits
  | .ldrbPostReg c u rn rd o => encodeSingle c true false u true false true rn rd o.bits
  | .strbPreImm c u w rn rd off => encodeSingle c false true u true w false rn rd off
  | .strbPostImm c u rn rd off => encodeSingle c false false u true false false rn rd off
  | .strbPreReg c u w rn rd o => encodeSingle c true true u true w false rn rd o.bits
  | .strbPostReg c u rn rd o => encodeSingle c true false u true false false rn rd o.bits
  | .ldrtImm c u rn rd off => encodeSingle c false false u false true true rn rd off
  | .ldrtReg c u rn rd o => encodeSingle c true false u false true true rn rd o.bits
  | .strtImm c u rn rd off => encodeSingle c false false u false true false rn rd off
  | .strtReg c u rn rd o => encodeSingle c true false u false true false rn rd o.bits
  | .ldrbtImm c u rn rd off => encodeSingle c false false u true true true rn rd off
  | .ldrbtReg c u rn rd o => encodeSingle c true false u true true true rn rd o.bits
  | .strbtImm c u rn rd off => encodeSingle c false false u true true false rn rd off
  | .strbtReg c u rn rd o => encodeSingle c true false u true true false rn rd o.bits
  | .undefined c high low => c.bits ++ 3#3 ++ high ++ 1#1 ++ low
  | .ldm c p u w rn list => encodeBlock c p u false w true rn list
  | .stm c p u w rn list => encodeBlock c p u false w false rn list
  | .ldmReturn c p u w rn list => encodeBlock c p u true w true rn (1#1 ++ list)
  | .ldmUser c p u w rn list => encodeBlock c p u true w true rn (0#1 ++ list)
  | .stmUser c p u w rn list => encodeBlock c p u true w false rn list
  | .b c off => c.bits ++ 10#4 ++ off
  | .bl c off => c.bits ++ 11#4 ++ off
  | .blxLabel h off => 0x7D#7 ++ b1 h ++ off
  | .ldc c p u n w rn crd cp off => encodeCoprocessorTransfer c p u n w true rn crd cp off
  | .stc c p u n w rn crd cp off => encodeCoprocessorTransfer c p u n w false rn crd cp off
  | .cdp c cop1 crn crd cp cop2 crm => c.bits ++ 14#4 ++ cop1 ++ crn ++ crd ++ cp ++ cop2 ++ 0#1 ++ crm
  | .mcr c cop1 crn rd cp cop2 crm => encodeCoprocessorRegister c cop1 false crn rd cp cop2 crm
  | .mrc c cop1 crn rd cp cop2 crm => encodeCoprocessorRegister c cop1 true crn rd cp cop2 crm
  | .swi c imm => c.bits ++ 15#4 ++ imm
  | .unallocated c body => c.bits ++ body

end Sys2Proof
end

