-- ==== Sys2Proof/Machine/Platform.lean ====
section
/-!
DEFINITION. The values the parameters of spec/00_scope.md R5 have at reset: the defaults of 92_eei_decisions.md, and
one value of the model's own for the open `STORE_PC_OFFSET` (notes/assumptions/2.md).
-/

namespace Sys2Proof

/-- The default parameters (00_scope.md R5). -/
def Platform.default : Platform where
  arch := .v5T
  endian := .little
  memSys := []
  misalign := .refuse
  pcWriteAlign := .refuse
  abortModel := .baseRestored
  coproc := Vector.replicate 16 none
  storePcOffset := .twelve
  psrReserved := .razWi
  ifetchCoherent := false

end Sys2Proof
end

