-- ==== Sys2Proof/Machine/State.lean ====
section
/-!
DEFINITION. The state of the machine as plain data (spec/10_state.md R20 to R45), the reasons a step can stop, and the
state after reset.
-/

namespace Sys2Proof.Machine

/-- Why the machine stops in a state that no run reaches. -/
inductive Fault where
  /-- CPSR[4:0] is none of the seven modes, so no register bank is selected (10_state.md R23, R33). Raised by every
  meaning before it does anything. Safe: no step leads to such a state (notes/assumptions/18.md). -/
  | illegalMode
  /-- The pc is not word-aligned in ARM state (10_state.md R25, 20_memory.md R68). Raised by the step before the fetch.
  Safe: no step leads to such a state (notes/assumptions/18.md). -/
  | misalignedPc
  deriving DecidableEq, Repr

/-- Why a step is refused: the cases the spec calls UNPREDICTABLE and gives no effect (00_scope.md R9, 92_eei_decisions.md
D20). All are safe: the hardware goes on in some way where the model has no step (notes/assumptions/17.md). -/
inductive Refusal where
  /-- Raised by `exec` only, for an instruction without a meaning; no arm raises it. Safe. -/
  | notModelled (mnemonic : String)
  /-- CPSR.T = 1: Thumb state has no step (92_eei_decisions.md D4). Raised by the step. Safe. -/
  | thumbState
  /-- A word with condition field 1111 that is not BLX label, or BLX label below v5T (30_encoding.md R128). Raised by the
  step and by BLX label. Safe. -/
  | condition1111
  /-- Fewer than four bytes given to the decoder; the step never does so. Safe. -/
  | truncatedInstruction
  /-- A should-be-zero field is not zero (30_encoding.md R129). Raised by MOV, MVN, the compares and MUL. Safe. -/
  | shouldBeZero
  /-- r15 where the rule of the instruction forbids it (93_implementation_defined.md U3, U8 to U13, U19, U25). Raised by
  register shifts, multiplies, CLZ, BLX Rm, MRS, MSR, SWP, MCR and the single and half-word transfers. Safe. -/
  | pcOperand
  /-- No SPSR in User and System mode (U4, U7, U17). Raised by MRS, MSR and the exception returns. Safe. -/
  | noSpsr
  /-- The CPSR would receive mode bits that are no mode (U5). Raised by MSR and the exception returns. Safe. -/
  | illegalModeWritten
  /-- MSR would change the T bit (U6). Safe. -/
  | msrChangesT
  /-- Rd = Rm in MUL, MLA, or RdHi, RdLo, Rm not all different (U9). Safe. -/
  | multiplyRegisters
  /-- Write-back to r15, to the transferred register, or to the offset register (U12, U13). Raised by the single and
  half-word transfers. Safe. -/
  | writeBackRegister
  /-- The half-word family with P = 0 and W = 1 (U13). Safe. -/
  | postIndexedW
  /-- LDM, STM with an empty list (U15). Safe. -/
  | emptyList
  /-- LDM, STM with Rn = 15 (U15). Safe. -/
  | blockBasePc
  /-- LDM with write-back and the base in the list; STM with write-back and a base that is in the list and not its
  lowest register (U15; notes/assumptions/9.md, 10.md). Safe. -/
  | blockBaseInList
  /-- LDM, STM with `^` on the user bank and write-back (U16). Safe. -/
  | userBankWriteBack
  /-- SWP, SWPB with Rn = Rm or Rn = Rd (U19). Safe. -/
  | swapRegisters
  /-- Bits [1:0] = 10 loaded to the pc at v5T (U20). Raised by LDR and LDM. Safe. -/
  | pcLoadAlignment
  /-- Bits [1:0] not 00 written to the pc under `PCWRITE_ALIGN = refuse` (U21). Raised by data processing with Rd = r15,
  by LDR and LDM of the pc below v5T, and by both exception returns to ARM state. Safe. -/
  | pcWriteAlignment
  /-- A misaligned access under `MISALIGN = refuse`, or a misaligned half-word under `rotate` (U13, U22). Safe. -/
  | misaligned
  /-- A fetch of a byte stored earlier in the run, without `IFETCH_COHERENT` (U23). Raised by the step. Safe. -/
  | fetchAfterStore
  /-- Sequential execution from 0xFFFFFFFC (U24). Raised by whatever advances the pc. Safe. -/
  | pcWrap
  /-- LDC, STC with P = 0, U = 0, W = 0, whatever the coprocessor (U25, 49_coprocessor_brk_unused.md R361;
  notes/assumptions/14.md). Safe. -/
  | unindexedDown
  /-- LDC, STC with write-back to r15 (U25). Safe. -/
  | coprocessorBasePc
  /-- The BRK pattern with a condition other than 1110 (U26). Raised by the unallocated words. Safe. -/
  | breakpointCondition
  deriving DecidableEq, Repr

/-- What one instruction or one step answers. -/
abbrev Result (σ : Type) := Host.Outcome σ Fault Refusal

/-- The state. `usr`, `fiq`, `irq`, `svc`, `abt`, `und` are the register banks of 10_state.md R21: r0 to r14, r8_fiq to
r14_fiq, and r13, r14 of the other exception modes. -/
structure State where
  /-- r0_usr to r14_usr (R21). -/
  usr : Vector Word 15
  /-- r8_fiq to r14_fiq (R21). -/
  fiq : Vector Word 7
  /-- r13_irq, r14_irq (R21). -/
  irq : Vector Word 2
  /-- r13_svc, r14_svc (R21). -/
  svc : Vector Word 2
  /-- r13_abt, r14_abt (R21). -/
  abt : Vector Word 2
  /-- r13_und, r14_und (R21). -/
  und : Vector Word 2
  /-- The address of the instruction being executed (R25). -/
  pc : Word
  /-- The current program status register (R29). -/
  cpsr : Word
  /-- SPSR_fiq (R35). -/
  spsrFiq : Word
  /-- SPSR_irq (R35). -/
  spsrIrq : Word
  /-- SPSR_svc (R35). -/
  spsrSvc : Word
  /-- SPSR_abt (R35). -/
  spsrAbt : Word
  /-- SPSR_und (R35). -/
  spsrUnd : Word
  /-- Memory (R38): the bytes that differ from what an unlisted address reads as, addresses strictly rising. -/
  mem : List Host.Cell
  /-- The addresses of the bytes that stores of this run have written, strictly rising (20_memory.md R80). -/
  stored : List Nat
  /-- `cpstate_0` to `cpstate_15` (R37, R39). -/
  coproc : Vector CpState 16
  /-- The input lines at the coming steps, the next step's first; past the end all lines are low (R39, 60_exceptions.md
  R410; notes/assumptions/6.md). -/
  inputs : List Lines
  /-- The parameters of the run (00_scope.md R5), which no step changes (notes/assumptions/1.md). -/
  platform : Platform
  /-- The MODEL's own: how many free values the run has drawn (notes/assumptions/8.md). -/
  draws : Nat
  deriving DecidableEq, Repr

/-- The machine right after reset (10_state.md R45, 70_reset_and_hazards.md R461): pc = 0, SVC mode, I = F = 1, T = 0.
The values R45 leaves unspecified are zero (DESIGN CHOICE, unsafe: notes/assumptions/3.md, 4.md, 5.md). -/
def State.reset : State where
  usr := Vector.replicate 15 0
  fiq := Vector.replicate 7 0
  irq := Vector.replicate 2 0
  svc := Vector.replicate 2 0
  abt := Vector.replicate 2 0
  und := Vector.replicate 2 0
  pc := 0
  cpsr := 0x000000D3
  spsrFiq := 0
  spsrIrq := 0
  spsrSvc := 0
  spsrAbt := 0
  spsrUnd := 0
  mem := []
  stored := []
  coproc := Vector.replicate 16 0
  inputs := []
  platform := Platform.default
  draws := 0

end Sys2Proof.Machine
end

