-- ==== Sys2Proof/Machine/Operands.lean ====
section
/-!
DEFINITION. Operand 2 of a data-processing instruction and its carry-out (spec/43_data_processing.md R181 to R183), and
the target arithmetic of branches (30_encoding.md R124).
-/

namespace Sys2Proof.Machine

/-- A shifter result: the operand and the shifter carry. -/
structure Shifted where
  value : Word
  carry : Bool
  deriving DecidableEq, Repr

/-- The 32-bit value of a rotated immediate (30_encoding.md R121). -/
def rotImmValue (o : RotImm) : Word := (o.imm.setWidth 32).rotateRight (2 * o.rot.toNat)

/-- Operand 2, immediate form; `c` is the C flag (43_data_processing.md R181). -/
def immOperand (o : RotImm) (c : Bool) : Shifted :=
  ⟨rotImmValue o, if o.rot = 0 then c else (rotImmValue o).getLsbD 31⟩

/-- Every bit a copy of bit 31: what an arithmetic shift by 32 or more leaves (R182). -/
def signFill (m : Word) : Word := if m.getLsbD 31 then 0xFFFFFFFF else 0

/-- Operand 2, register with immediate shift; `c` is the C flag (R182). LSR #0 and ASR #0 mean 32, ROR #0 means RRX. -/
def immShiftOperand (type : ShiftType) (n : BitVec 5) (m : Word) (c : Bool) : Shifted :=
  if n = 0 then
    match type with
    | .lsl => ⟨m, c⟩
    | .lsr => ⟨0, m.getLsbD 31⟩
    | .asr => ⟨signFill m, m.getLsbD 31⟩
    | .ror => ⟨BitVec.ofBool c ++ m.extractLsb' 1 31, m.getLsbD 0⟩
  else
    match type with
    | .lsl => ⟨m <<< n.toNat, m.getLsbD (32 - n.toNat)⟩
    | .lsr => ⟨m >>> n.toNat, m.getLsbD (n.toNat - 1)⟩
    | .asr => ⟨m.sshiftRight n.toNat, m.getLsbD (n.toNat - 1)⟩
    | .ror => ⟨m.rotateRight n.toNat, m.getLsbD (n.toNat - 1)⟩

/-- Operand 2, register with register shift; `s` is the amount, 0 to 255, and `c` the C flag (R183). -/
def regShiftOperand (type : ShiftType) (s : Nat) (m : Word) (c : Bool) : Shifted :=
  if s = 0 then ⟨m, c⟩
  else
    match type with
    | .lsl =>
      if s < 32 then ⟨m <<< s, m.getLsbD (32 - s)⟩ else if s = 32 then ⟨0, m.getLsbD 0⟩ else ⟨0, false⟩
    | .lsr =>
      if s < 32 then ⟨m >>> s, m.getLsbD (s - 1)⟩ else if s = 32 then ⟨0, m.getLsbD 31⟩ else ⟨0, false⟩
    | .asr => if s < 32 then ⟨m.sshiftRight s, m.getLsbD (s - 1)⟩ else ⟨signFill m, m.getLsbD 31⟩
    | .ror =>
      if s % 32 = 0 then ⟨m, m.getLsbD 31⟩ else ⟨m.rotateRight (s % 32), m.getLsbD (s % 32 - 1)⟩

/-- The base plus or minus the offset, modulo 2^32 (45_single_data_transfer.md R251). -/
def indexAddress (u : Bool) (base offset : Word) : Word := if u then base + offset else base - offset

/-- The target of a 24-bit word offset from the pc (30_encoding.md R124). -/
def branchTarget (pc : Word) (off : BitVec 24) : Word := pc + 8 + (off.signExtend 32 <<< 2)

end Sys2Proof.Machine
end

