-- ==== Sys2Proof/Machine/Psr.lean ====
section
/-!
DEFINITION. The program status register: its fields (spec/10_state.md R29), the modes (R21, R33), and the updates the
instructions and exception entry make of it.
-/

namespace Sys2Proof.Machine

/-- The seven operating modes (10_state.md R21, 60_exceptions.md R430). -/
inductive Mode where
  | usr | fiq | irq | svc | abt | und | sys
  deriving DecidableEq, Repr

/-- The mode number in CPSR[4:0] (R21). -/
def Mode.bits : Mode → BitVec 5
  | .usr => 0b10000 | .fiq => 0b10001 | .irq => 0b10010 | .svc => 0b10011
  | .abt => 0b10111 | .und => 0b11011 | .sys => 0b11111

/-- The mode of a mode number; any other value is no mode (R33). -/
def Mode.ofBits (v : BitVec 5) : Option Mode :=
  if v = 0b10000 then some .usr else if v = 0b10001 then some .fiq else if v = 0b10010 then some .irq
  else if v = 0b10011 then some .svc else if v = 0b10111 then some .abt else if v = 0b11011 then some .und
  else if v = 0b11111 then some .sys else none

/-- Every mode but User is privileged (60_exceptions.md R430). -/
def Mode.privileged (m : Mode) : Bool := m != .usr

/-- User and System mode have no SPSR (10_state.md R35). -/
def Mode.hasSpsr (m : Mode) : Bool := m != .usr && m != .sys

/-- Bit 31 (R29). -/
def psrN (p : Word) : Bool := p.getLsbD 31

/-- Bit 30 (R29). -/
def psrZ (p : Word) : Bool := p.getLsbD 30

/-- Bit 29 (R29). -/
def psrC (p : Word) : Bool := p.getLsbD 29

/-- Bit 28 (R29). -/
def psrV (p : Word) : Bool := p.getLsbD 28

/-- Bit 7: IRQ disabled (R29, R31). -/
def psrI (p : Word) : Bool := p.getLsbD 7

/-- Bit 6: FIQ disabled (R29, R31). -/
def psrF (p : Word) : Bool := p.getLsbD 6

/-- Bit 5: Thumb state (R29, R32). -/
def psrT (p : Word) : Bool := p.getLsbD 5

/-- Bits [4:0] as a mode (R21, R33). -/
def psrMode (p : Word) : Option Mode := Mode.ofBits (p.extractLsb' 0 5)

/-- The PSR bits that exist: N Z C V and I F T M (`WRITABLE`, 48_status_register_transfer.md R333). -/
def psrWritable : Word := 0xF00000FF

/-- The reserved bits [27:8] (10_state.md R34). -/
def psrReservedBits : Word := 0x0FFFFF00

/-- N, Z, C, V replaced, the rest kept (R30). -/
def psrSetFlags (p : Word) (n z c v : Bool) : Word :=
  BitVec.ofBool n ++ BitVec.ofBool z ++ BitVec.ofBool c ++ BitVec.ofBool v ++ p.extractLsb' 0 28

/-- T replaced, the rest kept (R32). -/
def psrSetT (p : Word) (t : Bool) : Word := p.extractLsb' 6 26 ++ BitVec.ofBool t ++ p.extractLsb' 0 5

/-- The CPSR after exception entry: I set, T cleared, the mode replaced, F as given, the rest kept (60_exceptions.md
R405). -/
def psrEnter (p : Word) (f : Bool) (m : Mode) : Word :=
  p.extractLsb' 8 24 ++ 1#1 ++ BitVec.ofBool f ++ 0#1 ++ m.bits

/-- The bytes a field mask selects, f s x c from bit 3 down (48_status_register_transfer.md R332). -/
def psrByteMask (mask : BitVec 4) : Word :=
  (if mask.getLsbD 3 then 0xFF#8 else 0#8) ++ (if mask.getLsbD 2 then 0xFF#8 else 0#8)
    ++ (if mask.getLsbD 1 then 0xFF#8 else 0#8) ++ (if mask.getLsbD 0 then 0xFF#8 else 0#8)

/-- The bits of `m` taken from `v`, the others from `p` (R333). -/
def psrMerge (p v m : Word) : Word := (p &&& ~~~m) ||| (v &&& m)

end Sys2Proof.Machine
end

