-- ==== Sys2Proof/Machine/Flags.lean ====
section
/-!
DEFINITION. The conditions (spec/40_conditional_execution.md R140, R141), `AddWithCarry` (00_scope.md R8), and what the
sixteen data-processing operations compute, flags included (43_data_processing.md R186, R187, R189 to R204).
-/

namespace Sys2Proof.Machine

/-- `ConditionPassed`, from the flags in a CPSR (R140, R141). -/
def condHolds (c : Cond) (p : Word) : Bool :=
  match c with
  | .eq => psrZ p
  | .ne => !psrZ p
  | .cs => psrC p
  | .cc => !psrC p
  | .mi => psrN p
  | .pl => !psrN p
  | .vs => psrV p
  | .vc => !psrV p
  | .hi => psrC p && !psrZ p
  | .ls => !psrC p || psrZ p
  | .ge => psrN p == psrV p
  | .lt => psrN p != psrV p
  | .gt => !psrZ p && psrN p == psrV p
  | .le => psrZ p || psrN p != psrV p
  | .al => true

/-- A result and the flags N, Z, C, V it leaves. -/
structure Alu where
  result : Word
  n : Bool
  z : Bool
  c : Bool
  v : Bool
  deriving DecidableEq, Repr

/-- The result of `AddWithCarry(a, b, cin)` with its carry and overflow, and N, Z of the result (00_scope.md R8, R187):
the sum is exact in unbounded integers and then compared with what 32 bits hold. -/
def addWithCarry (a b : Word) (cin : Bool) : Alu :=
  let usum : Nat := a.toNat + b.toNat + cin.toNat
  let ssum : Int := a.toInt + b.toInt + cin.toNat
  let r : Word := BitVec.ofNat 32 usum
  ⟨r, r.getLsbD 31, r == 0, decide (2 ^ 32 ≤ usum), decide (ssum ≠ r.toInt)⟩

/-- A logical result: C from the shifter, V unchanged (R186). -/
def logical (r : Word) (shifterCarry v : Bool) : Alu := ⟨r, r.getLsbD 31, r == 0, shifterCarry, v⟩

/-- What an operation computes from Rn, operand 2 and the old C and V (R189 to R204). -/
def dpCompute (op : DpOp) (a : Word) (o : Shifted) (c v : Bool) : Alu :=
  match op with
  | .and | .tst => logical (a &&& o.value) o.carry v
  | .eor | .teq => logical (a ^^^ o.value) o.carry v
  | .sub | .cmp => addWithCarry a (~~~o.value) true
  | .rsb => addWithCarry o.value (~~~a) true
  | .add | .cmn => addWithCarry a o.value false
  | .adc => addWithCarry a o.value c
  | .sbc => addWithCarry a (~~~o.value) c
  | .rsc => addWithCarry o.value (~~~a) c
  | .orr => logical (a ||| o.value) o.carry v
  | .mov => logical o.value o.carry v
  | .bic => logical (a &&& ~~~o.value) o.carry v
  | .mvn => logical (~~~o.value) o.carry v

/-- TST, TEQ, CMP, CMN: no destination, flags always written (R180, R206). -/
def isCompare : DpOp → Bool
  | .tst | .teq | .cmp | .cmn => true
  | _ => false

/-- MOV and MVN do not read Rn; its field should be zero (R103, R202, R204). -/
def isMove : DpOp → Bool
  | .mov | .mvn => true
  | _ => false

end Sys2Proof.Machine
end

