-- ==== Sys2Proof/Machine/Memory.lean ====
section
/-!
DEFINITION. Memory: one flat space of 2^32 bytes (spec/20_memory.md R60), as the list of the bytes that differ from
what an unlisted address reads as, addresses strictly rising; and the mapping of half-words and words to bytes (R63).
-/

namespace Sys2Proof.Machine

/-- Memory as the state holds it. -/
abbrev Memory := List Host.Cell

/-- What an unlisted address reads as. The spec gives memory no contents at reset (10_state.md R45); zero is a DESIGN
CHOICE, unsafe (notes/assumptions/4.md). -/
def unlistedByte : Byte := 0

/-- The byte at an address. -/
def Memory.read : Memory → Nat → Byte
  | [], _ => unlistedByte
  | (k, b) :: rest, a => if a = k then b else Memory.read rest a

/-- A cell in front of the list, unless it holds what an unlisted address reads as. -/
def Memory.cons (a : Nat) (v : Byte) (m : Memory) : Memory := if v = unlistedByte then m else (a, v) :: m

/-- The byte `v` written at the address `a`, the canonical form kept. -/
def Memory.write : Memory → Nat → Byte → Memory
  | [], a, v => Memory.cons a v []
  | (k, b) :: rest, a, v =>
    if a < k then Memory.cons a v ((k, b) :: rest)
    else if a = k then Memory.cons a v rest
    else (k, b) :: Memory.write rest a v

/-- The canonical form from an address bound up: addresses strictly rising, below 2^32, no entry equal to what an
unlisted address reads as. -/
def Memory.wfFrom : Nat → Memory → Bool
  | _, [] => true
  | lo, (k, b) :: rest => decide (lo ≤ k) && decide (k < 2 ^ 32) && b != unlistedByte && Memory.wfFrom (k + 1) rest

/-- The memory is in canonical form. -/
def Memory.wf (m : Memory) : Bool := Memory.wfFrom 0 m

/-- An address put into the list of addresses, which stays strictly rising. -/
def addressInsert : List Nat → Nat → List Nat
  | [], a => [a]
  | k :: rest, a => if a < k then a :: k :: rest else if a = k then k :: rest else k :: addressInsert rest a

/-- An address taken out of the list of addresses. -/
def addressErase (l : List Nat) (a : Nat) : List Nat := l.filter fun k => k != a

/-- The list of addresses is strictly rising and below 2^32, from a bound up. -/
def addressesWfFrom : Nat → List Nat → Bool
  | _, [] => true
  | lo, k :: rest => decide (lo ≤ k) && decide (k < 2 ^ 32) && addressesWfFrom (k + 1) rest

/-- The list of addresses is strictly rising and below 2^32. -/
def addressesWf (l : List Nat) : Bool := addressesWfFrom 0 l

/-! ### Values of several bytes -/

/-- How many bytes an access moves (20_memory.md R69). -/
def accessBytes : AccessSize → Nat
  | .byte => 1
  | .half => 2
  | .word => 4

/-- The addresses of an access of `n` bytes, ascending; address arithmetic is modulo 2^32 (20_memory.md R60). -/
def byteAddresses (a : Word) : Nat → List Nat
  | 0 => []
  | n + 1 => a.toNat :: byteAddresses (a + 1) n

/-- The byte at an address. -/
def Memory.byteAt (m : Memory) (a : Word) : Byte := m.read a.toNat

/-- The value of an access, zero-extended to a word (R63). -/
def Memory.value (m : Memory) (e : Endian) (a : Word) : AccessSize → Word
  | .byte => (m.byteAt a).setWidth 32
  | .half =>
    match e with
    | .little => (m.byteAt (a + 1) ++ m.byteAt a).setWidth 32
    | .big => (m.byteAt a ++ m.byteAt (a + 1)).setWidth 32
  | .word => wordOfBytes e (m.byteAt a) (m.byteAt (a + 1)) (m.byteAt (a + 2)) (m.byteAt (a + 3))

/-- The bytes of the value of an access at ascending addresses (R63); a store truncates (R61). -/
def bytesOfValue (e : Endian) (v : Word) : AccessSize → List Byte
  | .byte => [v.extractLsb' 0 8]
  | .half =>
    match e with
    | .little => [v.extractLsb' 0 8, v.extractLsb' 8 8]
    | .big => [v.extractLsb' 8 8, v.extractLsb' 0 8]
  | .word => bytesOfWord e v

/-- Bytes written at ascending addresses. -/
def Memory.writeBytes (m : Memory) (a : Word) : List Byte → Memory
  | [] => m
  | b :: rest => Memory.writeBytes (m.write a.toNat b) (a + 1) rest

/-- The value of an access written (R63). -/
def Memory.setValue (m : Memory) (e : Endian) (a : Word) (size : AccessSize) (v : Word) : Memory :=
  m.writeBytes a (bytesOfValue e v size)

end Sys2Proof.Machine
end

