-- ==== Sys2Proof/Machine/Ops.lean ====
section
/-!
DEFINITION. The operations every meaning is written over: registers and banks (spec/10_state.md R20 to R27), status
registers (R29 to R36), taking an exception and returning from one (60_exceptions.md R401, R405, R415), memory accesses
with alignment and memory faults (20_memory.md R65 to R67), and the frame of a conditional instruction
(40_conditional_execution.md R142).
-/

namespace Sys2Proof.Machine

/-! ### Mode and flags -/

/-- The mode, if CPSR[4:0] is one (10_state.md R21, R33). -/
def State.mode? (s : State) : Option Mode := psrMode s.cpsr

/-- The mode; the user bank where CPSR[4:0] is no mode, in which state no meaning runs (R23, `conditional`). -/
def State.mode (s : State) : Mode := s.mode?.getD .usr

/-- The privilege of the accesses of the current mode (20_memory.md R65). -/
def State.privileged (s : State) : Bool := s.mode.privileged

/-- The C flag. -/
def State.c (s : State) : Bool := psrC s.cpsr

/-- The V flag. -/
def State.v (s : State) : Bool := psrV s.cpsr

/-- N, Z, C, V written (R30). -/
def State.setFlags (s : State) (n z c v : Bool) : State := { s with cpsr := psrSetFlags s.cpsr n z c v }

/-! ### General registers -/

/-- The 30 physical registers other than r15 (R21): `usr i` is r<i>_usr, `fiq i` is r<i+8>_fiq, and in the other banks 0
is r13 and 1 is r14. -/
inductive PhysReg where
  | usr (i : Fin 15)
  | fiq (i : Fin 7)
  | irq (i : Fin 2)
  | svc (i : Fin 2)
  | abt (i : Fin 2)
  | und (i : Fin 2)
  deriving DecidableEq, Repr

/-- The value of a physical register. -/
def State.readPhys (s : State) : PhysReg → Word
  | .usr i => s.usr.get i
  | .fiq i => s.fiq.get i
  | .irq i => s.irq.get i
  | .svc i => s.svc.get i
  | .abt i => s.abt.get i
  | .und i => s.und.get i

/-- A physical register written. -/
def State.writePhys (s : State) (r : PhysReg) (v : Word) : State :=
  match r with
  | .usr i => { s with usr := s.usr.set i v }
  | .fiq i => { s with fiq := s.fiq.set i v }
  | .irq i => { s with irq := s.irq.set i v }
  | .svc i => { s with svc := s.svc.set i v }
  | .abt i => { s with abt := s.abt.set i v }
  | .und i => { s with und := s.und.set i v }

/-- r13 and r14 as numbers 0 and 1 of a two-register bank. -/
def stackIndex (i : Fin 15) : Fin 2 := if i.val = 14 then 1 else 0

/-- The physical register behind r0 to r14 in a mode (R23). -/
def phys (i : Fin 15) (m : Mode) : PhysReg :=
  match m with
  | .usr | .sys => .usr i
  | .fiq => if h : 8 ≤ i.val then .fiq ⟨i.val - 8, by omega⟩ else .usr i
  | .irq => if 13 ≤ i.val then .irq (stackIndex i) else .usr i
  | .svc => if 13 ≤ i.val then .svc (stackIndex i) else .usr i
  | .abt => if 13 ≤ i.val then .abt (stackIndex i) else .usr i
  | .und => if 13 ≤ i.val then .und (stackIndex i) else .usr i

/-- The physical register behind a register number in a mode; none for r15. -/
def physOf (r : Reg) (m : Mode) : Option PhysReg := if h : r.toNat < 15 then some (phys ⟨r.toNat, h⟩ m) else none

/-- `x[i]` as a given mode sees it; r15 reads as pc + 8 (R23, R26). -/
def State.readRegIn (s : State) (m : Mode) (r : Reg) : Word :=
  match physOf r m with
  | some p => s.readPhys p
  | none => s.pc + 8

/-- `x[i] <- v` as a given mode sees it, for r0 to r14; a write to r15 is never made this way (00_scope.md R7). -/
def State.writeRegIn (s : State) (m : Mode) (r : Reg) (v : Word) : State :=
  match physOf r m with
  | some p => s.writePhys p v
  | none => s

/-- `x[i]` of the current mode (R23). -/
def State.readReg (s : State) (r : Reg) : Word := s.readRegIn s.mode r

/-- `x[i] <- v` of the current mode. -/
def State.writeReg (s : State) (r : Reg) (v : Word) : State := s.writeRegIn s.mode r v

/-- The value of r15 when a store stores it: pc + `STORE_PC_OFFSET` (R26). -/
def State.storedPc (s : State) : Word :=
  match s.platform.storePcOffset with
  | .eight => s.pc + 8
  | .twelve => s.pc + 12

/-- The value of a register that a store stores, as a given mode sees it (R26). -/
def State.storeValueIn (s : State) (m : Mode) (r : Reg) : Word := if r = 15 then s.storedPc else s.readRegIn m r

/-- The value of a register that a store stores. -/
def State.storeValue (s : State) (r : Reg) : Word := s.storeValueIn s.mode r

/-! ### Saved program status registers -/

/-- `SPSR_<mode>`; User and System have none (R35) and read as zero here, a reading no meaning makes. -/
def State.spsr (s : State) : Mode → Word
  | .fiq => s.spsrFiq
  | .irq => s.spsrIrq
  | .svc => s.spsrSvc
  | .abt => s.spsrAbt
  | .und => s.spsrUnd
  | .usr | .sys => 0

/-- `SPSR_<mode>` written; User and System have none. -/
def State.setSpsr (s : State) (m : Mode) (v : Word) : State :=
  match m with
  | .fiq => { s with spsrFiq := v }
  | .irq => { s with spsrIrq := v }
  | .svc => { s with spsrSvc := v }
  | .abt => { s with spsrAbt := v }
  | .und => { s with spsrUnd := v }
  | .usr | .sys => s

/-! ### The pc -/

/-- The end of an instruction that does not write the pc: `pc <- pc + 4`; from 0xFFFFFFFC it is UNPREDICTABLE (R28). -/
def State.advance (s : State) : Result State :=
  if s.pc = 0xFFFFFFFC then .refused .pcWrap else .next { s with pc := s.pc + 4 }

/-- Bits [1:0] cleared. -/
def alignWord (a : Word) : Word := a &&& 0xFFFFFFFC

/-- Bit 0 cleared. -/
def alignHalf (a : Word) : Word := a &&& 0xFFFFFFFE

/-- A write of the pc in ARM state by data processing, or by a load below v5T: `PCWRITE_ALIGN` (R27). -/
def State.writePc (s : State) (v : Word) : Result State :=
  if v.extractLsb' 0 2 = 0 then .next { s with pc := v }
  else
    match s.platform.pcWriteAlign with
    | .refuse => .refused .pcWriteAlignment
    | .mask => .next { s with pc := alignWord v }

/-- A load of the pc by LDR, or by LDM without `^`: at v5T bit 0 goes to T (R27). -/
def State.loadPc (s : State) (v : Word) : Result State :=
  match s.platform.arch with
  | .v5T =>
    if v.extractLsb' 0 2 = 2 then .refused .pcLoadAlignment
    else .next { s with cpsr := psrSetT s.cpsr (v.getLsbD 0), pc := alignHalf v }
  | .v4 | .v4T => s.writePc v

/-- BX and BLX Rm: bit 0 goes to T, the pc is aligned for the state entered (41_branch.md R153). -/
def State.exchangeTo (s : State) (v : Word) : State :=
  { s with cpsr := psrSetT s.cpsr (v.getLsbD 0), pc := if v.getLsbD 0 then alignHalf v else alignWord v }

/-! ### Exceptions -/

/-- The exceptions that an entry of 60_exceptions.md R405 is defined for; reset is `resetEntry`. -/
inductive Exception where
  | undefined | softwareInterrupt | prefetchAbort | dataAbort | irq | fiq
  deriving DecidableEq, Repr

/-- The mode an exception enters (R401). -/
def Exception.mode : Exception → Mode
  | .undefined => .und
  | .softwareInterrupt => .svc
  | .prefetchAbort => .abt
  | .dataAbort => .abt
  | .irq => .irq
  | .fiq => .fiq

/-- The vector address of an exception (R401). -/
def Exception.vector : Exception → Word
  | .undefined => 0x04
  | .softwareInterrupt => 0x08
  | .prefetchAbort => 0x0C
  | .dataAbort => 0x10
  | .irq => 0x18
  | .fiq => 0x1C

/-- The address saved in r14 of the new mode is the pc plus this (R401, R407). -/
def Exception.returnOffset : Exception → Word
  | .dataAbort => 8
  | _ => 4

/-- Taking an exception (R405): r14 and the SPSR of the new mode are written, then the CPSR and the pc. -/
def takeException (e : Exception) (s : State) : State :=
  let saved := (s.writeRegIn e.mode 14 (s.pc + e.returnOffset)).setSpsr e.mode s.cpsr
  { saved with cpsr := psrEnter s.cpsr (psrF s.cpsr || e == .fiq) e.mode, pc := e.vector }

/-- The reset exception as a step (R401, R413, 10_state.md R45): what R45 leaves unspecified becomes free values;
memory stays (92_eei_decisions.md D24; notes/assumptions/20.md). -/
def resetEntry (s : State) : State :=
  let d := s.draws
  { s with
    usr := Vector.ofFn fun i => Config.freeWord (d + i)
    fiq := Vector.ofFn fun i => Config.freeWord (d + 15 + i)
    irq := Vector.ofFn fun i => Config.freeWord (d + 22 + i)
    svc := Vector.ofFn fun i => Config.freeWord (d + 24 + i)
    abt := Vector.ofFn fun i => Config.freeWord (d + 26 + i)
    und := Vector.ofFn fun i => Config.freeWord (d + 28 + i)
    pc := 0
    cpsr := psrMerge 0xD3 (Config.freeWord (d + 30)) 0xF0000000
    spsrFiq := Config.freeWord (d + 31) &&& psrWritable
    spsrIrq := Config.freeWord (d + 32) &&& psrWritable
    spsrSvc := Config.freeWord (d + 33) &&& psrWritable
    spsrAbt := Config.freeWord (d + 34) &&& psrWritable
    spsrUnd := Config.freeWord (d + 35) &&& psrWritable
    coproc := Vector.ofFn fun i => Config.freeCpState (d + i)
    draws := d + 36 }

/-- The whole CPSR replaced by the SPSR of the current mode (10_state.md R36), where there is one and it names a mode;
`k` goes on with the new state. -/
def State.restoreCpsr (s : State) (k : State → Result State) : Result State :=
  if s.mode.hasSpsr then
    if (psrMode (s.spsr s.mode)).isSome then k { s with cpsr := s.spsr s.mode } else .refused .illegalModeWritten
  else .refused .noSpsr

/-- Return from an exception by a data-processing instruction with S set and Rd = r15 (43_data_processing.md R188), or
by LDM with `^` and the pc in the list (47_multiple_transfer_swap.md R305): the CPSR, then the pc, aligned for the state
restored, in ARM state under `PCWRITE_ALIGN` (10_state.md R27, U21; notes/assumptions/16.md). -/
def State.exceptionReturn (s : State) (result : Word) : Result State :=
  s.restoreCpsr fun t =>
    if psrT t.cpsr then .next { t with pc := alignHalf result } else t.writePc result

/-! ### Memory accesses -/

/-- Why an access gives nothing. -/
inductive Stop where
  /-- A data abort, or for a fetch a prefetch abort (60_exceptions.md R403, R404). -/
  | abort
  /-- The step is refused. -/
  | refuse (r : Refusal)
  deriving DecidableEq, Repr

/-- The answer of `MemSys` (20_memory.md R65): some rule faults the access. -/
def memFaults (rules : List FaultRule) (a : Word) (size : AccessSize) (kind : AccessKind) (privileged : Bool) : Bool :=
  rules.any fun r =>
    decide (r.first ≤ a) && decide (a ≤ r.last) && r.kind == kind && (r.size == none || r.size == some size)
      && (if privileged then r.faultsPrivileged else r.faultsUser)

/-- The address an access is made at, by `MISALIGN` (20_memory.md R66, R67). -/
def State.alignedAddress (s : State) (size : AccessSize) (a : Word) : Except Stop Word :=
  match size with
  | .byte => .ok a
  | .half =>
    if a.getLsbD 0 then
      match s.platform.misalign with
      | .abort => .error .abort
      | .refuse | .rotate => .error (.refuse .misaligned)
    else .ok a
  | .word =>
    if a.extractLsb' 0 2 = 0 then .ok a
    else
      match s.platform.misalign with
      | .abort => .error .abort
      | .refuse => .error (.refuse .misaligned)
      | .rotate => .ok (alignWord a)

/-- The address of an access that alignment and `MemSys` allow (R65). -/
def State.access (s : State) (kind : AccessKind) (size : AccessSize) (a : Word) (privileged : Bool) :
    Except Stop Word :=
  match s.alignedAddress size a with
  | .ok ea => if memFaults s.platform.memSys ea size kind privileged then .error .abort else .ok ea
  | .error e => .error e

/-- `MemRead(a, n)`, zero-extended (R65); with `privileged` false it is `MemReadU` (R76). -/
def State.load (s : State) (size : AccessSize) (a : Word) (privileged : Bool) : Except Stop Word :=
  match s.access .read size a privileged with
  | .ok ea => .ok (Memory.value s.mem s.platform.endian ea size)
  | .error e => .error e

/-- What LDR and the read of SWP make of a word read at `a`: rotated when `a` is misaligned (R67; the big-endian
rotation is a free value, notes/assumptions/12.md). -/
def rotateRead (e : Endian) (a v : Word) : Word :=
  if a.extractLsb' 0 2 = 0 then v
  else
    match e with
    | .little => v.rotateRight (8 * (a.extractLsb' 0 2).toNat)
    | .big => Config.bigEndianRotate v (a.extractLsb' 0 2)

/-- The word read by LDR and SWP (R67). -/
def State.loadRotated (s : State) (a : Word) (privileged : Bool) : Except Stop Word :=
  match s.load .word a privileged with
  | .ok v => .ok (rotateRead s.platform.endian a v)
  | .error e => .error e

/-- The bytes of a store written, and their addresses noted as stored (R63, R80). -/
def State.setMem (s : State) (size : AccessSize) (a v : Word) : State :=
  { s with
    mem := Memory.setValue s.mem s.platform.endian a size v
    stored := (byteAddresses a (accessBytes size)).foldl addressInsert s.stored }

/-- `MemWrite(a, n, v)` (R65); with `privileged` false it is `MemWriteU` (R76). -/
def State.store (s : State) (size : AccessSize) (a v : Word) (privileged : Bool) : Except Stop State :=
  match s.access .write size a privileged with
  | .ok ea => .ok (s.setMem size ea v)
  | .error e => .error e

/-- `n` words read at ascending addresses, until one stops (47_multiple_transfer_swap.md R302). -/
def State.loadWords (s : State) (a : Word) : Nat → List Word × Option Stop
  | 0 => ([], none)
  | n + 1 =>
    match s.load .word a s.privileged with
    | .ok v => (v :: (s.loadWords (a + 4) n).1, (s.loadWords (a + 4) n).2)
    | .error e => ([], some e)

/-- Words written at ascending addresses, until one stops; the state has the words below it written (R302). STM goes on
from that state (R311), STC from the one before (92_eei_decisions.md D8). -/
def State.storeWords (s : State) (a : Word) : List Word → State × Option Stop
  | [] => (s, none)
  | v :: rest =>
    match s.store .word a v s.privileged with
    | .ok t => t.storeWords (a + 4) rest
    | .error e => (s, some e)

/-- The base register when a transfer with write-back takes a data abort: `ABORT_MODEL` (45_single_data_transfer.md
R253, 47_multiple_transfer_swap.md R311). -/
def State.abortBase (s : State) (writeBack : Bool) (rn : Reg) (newBase : Word) : State :=
  match s.platform.abortModel with
  | .baseRestored => s
  | .baseUpdated => if writeBack then s.writeReg rn newBase else s

/-- The base register written back, if it is to be (R251). -/
def State.writeBackTo (s : State) (writeBack : Bool) (rn : Reg) (newBase : Word) : State :=
  if writeBack then s.writeReg rn newBase else s

/-- A stopped access ends the instruction: a data abort entered from `aborted`, or a refusal. -/
def stopWith (e : Stop) (aborted : State) : Result State :=
  match e with
  | .abort => .next (takeException .dataAbort aborted)
  | .refuse r => .refused r

/-! ### The frame of an instruction -/

/-- `k`, unless the restriction is broken: then the step is refused (00_scope.md R9). -/
def require (ok : Bool) (r : Refusal) (k : Result State) : Result State := if ok then k else .refused r

/-- An instruction in a state whose mode is legal (10_state.md R23). -/
def inMode (s : State) (k : Result State) : Result State := if s.mode?.isSome then k else .fault .illegalMode

/-- A conditional instruction: if its condition fails, only the pc advances (40_conditional_execution.md R142). -/
def conditional (c : Cond) (s : State) (k : Result State) : Result State :=
  inMode s (if condHolds c s.cpsr then k else s.advance)

/-- The undefined instruction trap (49_coprocessor_brk_unused.md R362). -/
def undefinedTrap (s : State) : Result State := .next (takeException .undefined s)

/-- Whether `ARCH` is at least v4T (00_scope.md R2). -/
def hasV4T (s : State) : Bool := s.platform.arch != .v4

/-- Whether `ARCH` is v5T (00_scope.md R2). -/
def hasV5T (s : State) : Bool := s.platform.arch == .v5T

/-- An instruction that `ARCH` has; otherwise the word is an unused encoding (R362). -/
def ifPresent (present : Bool) (s : State) (k : Result State) : Result State := if present then k else undefinedTrap s

/-! ### Indexed transfers -/

/-- The addressing of a transfer with a base and an offset: P, U, whether the base is written back, Rn and the offset
(45_single_data_transfer.md R251, 46_halfword_signed_transfer.md R281, 49_coprocessor_brk_unused.md R357). -/
structure Indexing where
  p : Bool
  u : Bool
  writeBack : Bool
  rn : Reg
  offset : Word
  deriving DecidableEq, Repr

/-- The indexed address, which is also what is written back (R251). -/
def State.indexed (s : State) (x : Indexing) : Word := indexAddress x.u (s.readReg x.rn) x.offset

/-- The address accessed: indexed before, or the base (R251). -/
def State.addressOf (s : State) (x : Indexing) : Word := if x.p then s.indexed x else s.readReg x.rn

/-- A load: the read first, then the write-back, then what `k` does with the value (R252, R253). -/
def loadIndexed (s : State) (x : Indexing) (read : Except Stop Word) (k : State → Word → Result State) :
    Result State :=
  match read with
  | .ok v => k (s.writeBackTo x.writeBack x.rn (s.indexed x)) v
  | .error e => stopWith e (s.abortBase x.writeBack x.rn (s.indexed x))

/-- A store: the write, then the write-back (R252, R253). -/
def storeIndexed (s : State) (x : Indexing) (size : AccessSize) (v : Word) (privileged : Bool) : Result State :=
  match s.store size (s.addressOf x) v privileged with
  | .ok t => (t.writeBackTo x.writeBack x.rn (s.indexed x)).advance
  | .error e => stopWith e (s.abortBase x.writeBack x.rn (s.indexed x))

/-- The restrictions on the base of a transfer with an immediate offset (R251). -/
def withBase (x : Indexing) (rd : Reg) (k : Result State) : Result State :=
  require (writeBackWf x.writeBack x.rn rd) .writeBackRegister k

/-- The restrictions on the base and Rm of a transfer with a register offset (R250, R251). -/
def withRegisterOffset (x : Indexing) (rd rm : Reg) (k : Result State) : Result State :=
  require (rm != 15) .pcOperand
    (require (!x.writeBack || rm != x.rn) .writeBackRegister (withBase x rd k))

/-! ### Fetch and placement of an instruction -/

/-- The four byte addresses of the word at an address. -/
def wordAddresses (a : Word) : List Nat := byteAddresses a 4

/-- Some byte of the word at an address has been stored in this run (20_memory.md R80). -/
def State.storedWord (s : State) (a : Word) : Bool := (wordAddresses a).any fun k => s.stored.contains k

/-- `Fetch(pc)` (20_memory.md R64, R80): a memory fault first, then the check for a store in this run
(notes/assumptions/21.md). -/
def State.fetch (s : State) : Except Stop Word :=
  if memFaults s.platform.memSys s.pc .word .fetch s.privileged then .error .abort
  else if s.storedWord s.pc && !s.platform.ifetchCoherent then .error (.refuse .fetchAfterStore)
  else .ok (Memory.value s.mem s.platform.endian s.pc .word)

/-- An instruction word placed at the pc from outside the machine, as a program load does: the bytes are not bytes that
a store of the run has written (70_reset_and_hazards.md R464; notes/assumptions/24.md). -/
def State.placeWord (s : State) (w : Word) : State :=
  { s with
    mem := Memory.setValue s.mem s.platform.endian s.pc .word w
    stored := (wordAddresses s.pc).foldl addressErase s.stored }

/-- The input lines of this step (60_exceptions.md R410); past the end of the list all are low. -/
def State.lines (s : State) : Lines := s.inputs.headD ⟨false, false, false⟩

/-- The input lines of this step taken. -/
def State.nextInputs (s : State) : State := { s with inputs := s.inputs.tail }

/-- The name under which a word that does not decode is refused. -/
def decodeRefusal : DecodeError → Refusal
  | .condition1111 => .condition1111
  | .truncated => .truncatedInstruction

end Sys2Proof.Machine
end

