-- ==== Sys2Proof/Machine/BlockTransfer.lean ====
section
/-!
DEFINITION. The meanings of LDM and STM in their five forms, and of SWP and SWPB (spec/47_multiple_transfer_swap.md
R300 to R314).
-/

namespace Sys2Proof.Machine

/-- The sixteen register numbers in ascending order. -/
def allRegs : List Reg := [0, 1, 2, 3, 4, 5, 6, 7, 8, 9, 10, 11, 12, 13, 14, 15]

/-- The registers of a list field, lowest first (R300, R302). -/
def regsOf (list : BitVec 16) : List Reg := allRegs.filter fun r => list.getLsbD r.toNat

/-- The bytes a transfer of `n` words covers. -/
def blockBytes (n : Nat) : Word := BitVec.ofNat 32 (4 * n)

/-- The lowest address accessed: IA, IB, DA, DB by P and U (R301). -/
def blockStart (p u : Bool) (base : Word) (n : Nat) : Word :=
  match p, u with
  | false, true => base
  | true, true => base + 4
  | false, false => base - blockBytes n + 4
  | true, false => base - blockBytes n

/-- The new base (R301). -/
def blockNewBase (u : Bool) (base : Word) (n : Nat) : Word := if u then base + blockBytes n else base - blockBytes n

/-- Registers of a mode's bank loaded with values, in order; r15 is not written this way. -/
def writeRegsIn (m : Mode) (s : State) : List (Reg × Word) → State
  | [] => s
  | (r, v) :: rest => writeRegsIn m (s.writeRegIn m r v) rest

/-- An LDM: all words are read first, then the base is written back, then `k` has the values, lowest register's first
(R301 to R303, R311). -/
def loadBlock (s : State) (p u w : Bool) (rn : Reg) (list : BitVec 16) (k : State → List Word → Result State) :
    Result State :=
  let n := (regsOf list).length
  let base := s.readReg rn
  match s.loadWords (blockStart p u base n) n with
  | (vs, none) => k (s.writeBackTo w rn (blockNewBase u base n)) vs
  | (_, some e) => stopWith e (s.abortBase w rn (blockNewBase u base n))

/-- The listed registers of the current mode loaded (R303). -/
def State.loadListed (t : State) (list : BitVec 16) (vs : List Word) : State :=
  writeRegsIn t.mode t ((regsOf list).zip vs)

/-- The restrictions on list and base (R300, R306); `baseWf` says what write-back asks of a base in the list. -/
def withBlock (list : BitVec 16) (rn : Reg) (baseWf : Bool) (k : Result State) : Result State :=
  require (list != 0) .emptyList (require (rn != 15) .blockBasePc (require baseWf .blockBaseInList k))

/-- LDM (R303): r15 in the list is a branch; a base that is written back and listed is UNPREDICTABLE (R306;
notes/assumptions/9.md). -/
def execLdm (c : Cond) (p u w : Bool) (rn : Reg) (list : BitVec 16) (s : State) : Result State :=
  conditional c s (withBlock list rn (loadBaseWf w list rn) (loadBlock s p u w rn list fun t vs =>
    if list.getLsbD 15 then (t.loadListed list vs).loadPc (vs.getLastD 0)
    else (t.loadListed list vs).advance))

/-- LDM with `^` and the pc in the list: the return from an exception (R305). -/
def execLdmReturn (c : Cond) (p u w : Bool) (rn : Reg) (list : BitVec 15) (s : State) : Result State :=
  let full : BitVec 16 := 1#1 ++ list
  conditional c s (withBlock full rn (loadBaseWf w full rn) (loadBlock s p u w rn full fun t vs =>
    (t.loadListed full vs).exceptionReturn (vs.getLastD 0)))

/-- LDM with `^` and without the pc: the User-mode registers are loaded (R307). -/
def execLdmUser (c : Cond) (p u w : Bool) (rn : Reg) (list : BitVec 15) (s : State) : Result State :=
  let full : BitVec 16 := 0#1 ++ list
  conditional c s (require (!w) .userBankWriteBack (withBlock full rn true (loadBlock s p u w rn full fun t vs =>
    (writeRegsIn .usr t ((regsOf full).zip vs)).advance)))

/-- An STM of given values (R301, R302, R304, R311). -/
def storeBlock (s : State) (p u w : Bool) (rn : Reg) (values : List Word) : Result State :=
  let n := values.length
  let base := s.readReg rn
  match s.storeWords (blockStart p u base n) values with
  | (t, none) => (t.writeBackTo w rn (blockNewBase u base n)).advance
  | (t, some e) => stopWith e (t.abortBase w rn (blockNewBase u base n))

/-- STM (R304); a base that is written back and listed, but not lowest, is UNPREDICTABLE (R306;
notes/assumptions/10.md). -/
def execStm (c : Cond) (p u w : Bool) (rn : Reg) (list : BitVec 16) (s : State) : Result State :=
  conditional c s (withBlock list rn (storeBaseWf w list rn)
    (storeBlock s p u w rn ((regsOf list).map s.storeValue)))

/-- STM with `^`: the User-mode registers are stored (R310). -/
def execStmUser (c : Cond) (p u w : Bool) (rn : Reg) (list : BitVec 16) (s : State) : Result State :=
  conditional c s (require (!w) .userBankWriteBack (withBlock list rn true
    (storeBlock s p u w rn ((regsOf list).map (s.storeValueIn .usr)))))

/-- A swap: the read, then the write, then Rd; a fault leaves Rd and, on the read, memory (R312). -/
def swap (s : State) (size : AccessSize) (rn rd rm : Reg) (read : Except Stop Word) : Result State :=
  require (noPc [rn, rd, rm]) .pcOperand (require (rn != rm && rn != rd) .swapRegisters
    (match read with
    | .error e => stopWith e s
    | .ok v =>
      match s.store size (s.readReg rn) (s.readReg rm) s.privileged with
      | .error e => stopWith e s
      | .ok t => (t.writeReg rd v).advance))

/-- SWP (R313). -/
def execSwp (c : Cond) (rn rd rm : Reg) (s : State) : Result State :=
  conditional c s (swap s .word rn rd rm (s.loadRotated (s.readReg rn) s.privileged))

/-- SWPB (R314). -/
def execSwpb (c : Cond) (rn rd rm : Reg) (s : State) : Result State :=
  conditional c s (swap s .byte rn rd rm (s.load .byte (s.readReg rn) s.privileged))

end Sys2Proof.Machine
end

