-- ==== Sys2Proof/Machine/Branch.lean ====
section
/-!
DEFINITION. The meanings of B, BL, BX, BLX Rm, BLX label (spec/41_branch.md R150 to R156) and SWI
(42_software_interrupt.md R170).
-/

namespace Sys2Proof.Machine

/-- B (R150). -/
def execB (c : Cond) (off : BitVec 24) (s : State) : Result State :=
  conditional c s (.next { s with pc := branchTarget s.pc off })

/-- BL (R151). -/
def execBl (c : Cond) (off : BitVec 24) (s : State) : Result State :=
  conditional c s (.next { s.writeReg 14 (s.pc + 4) with pc := branchTarget s.pc off })

/-- BX Rm (R153), from v4T on (R152). -/
def execBx (c : Cond) (rm : Reg) (s : State) : Result State :=
  conditional c s (ifPresent (hasV4T s) s (.next (s.exchangeTo (s.readReg rm))))

/-- BLX Rm (R154), at v5T (R152): Rm is read before r14 is written. -/
def execBlxReg (c : Cond) (rm : Reg) (s : State) : Result State :=
  conditional c s (ifPresent (hasV5T s) s
    (require (rm != 15) .pcOperand (.next ((s.writeReg 14 (s.pc + 4)).exchangeTo (s.readReg rm)))))

/-- BLX label (R155): no condition; below v5T the word is refused (30_encoding.md R128). -/
def execBlxLabel (h : Bool) (off : BitVec 24) (s : State) : Result State :=
  inMode s
    (if hasV5T s then
      .next { s.writeReg 14 (s.pc + 4) with
        cpsr := psrSetT s.cpsr true
        pc := branchTarget s.pc off + (if h then 2 else 0) }
    else .refused .condition1111)

/-- SWI (42_software_interrupt.md R170): the exception, in every mode; the immediate is ignored. -/
def execSwi (c : Cond) (_imm : BitVec 24) (s : State) : Result State :=
  conditional c s (.next (takeException .softwareInterrupt s))

end Sys2Proof.Machine
end

