-- ==== Sys2Proof/Machine/Coprocessor.lean ====
section
/-!
DEFINITION. The meanings of CDP, LDC, STC, MCR, MRC, BRK and the unused encodings
(spec/49_coprocessor_brk_unused.md R350 to R362). What a present coprocessor does is given by the opaque operations of
Config.lean.
-/

namespace Sys2Proof.Machine

/-- A coprocessor number as an index. -/
def cpIndex (cp : CpNum) : Fin 16 := ⟨cp.toNat, cp.isLt⟩

/-- `cpstate_n` (10_state.md R37). -/
def State.cpState (s : State) (cp : CpNum) : CpState := s.coproc.get (cpIndex cp)

/-- `cpstate_n` replaced. -/
def State.setCpState (s : State) (cp : CpNum) (v : CpState) : State :=
  { s with coproc := s.coproc.set (cpIndex cp) v }

/-- One accept rule takes the word (R351). -/
def acceptCovers (r : AcceptRule) (privileged : Bool) (w : Word) : Bool :=
  w &&& r.mask == r.value && (privileged || r.inUserMode)

/-- The coprocessor is present and accepts the word (R351). -/
def State.cpAccepts (s : State) (cp : CpNum) (w : Word) : Bool :=
  match s.platform.coproc.get (cpIndex cp) with
  | none => false
  | some rules => rules.any fun r => acceptCovers r s.privileged w

/-- A coprocessor instruction: the undefined instruction trap if the coprocessor is absent or does not accept it (R351,
R358). -/
def withCoprocessor (cp : CpNum) (i : Instr) (s : State) (k : Result State) : Result State :=
  if s.cpAccepts cp (encode i) then k else undefinedTrap s

/-- CDP (R352). -/
def execCdp (c : Cond) (cop1 : BitVec 4) (crn crd : CReg) (cp : CpNum) (cop2 : BitVec 3) (crm : CReg) (s : State) :
    Result State :=
  conditional c s (withCoprocessor cp (.cdp c cop1 crn crd cp cop2 crm) s
    (s.setCpState cp (Config.cpCdp cp (s.cpState cp) cop1 crd crn crm cop2)).advance)

/-- The addressing of LDC and STC; with P = 0 and W = 0 the base is accessed and nothing written back (R357). -/
def coprocessorIndexing (p u w : Bool) (rn : Reg) (off : BitVec 8) : Indexing := ⟨p, u, w, rn, off.setWidth 32 <<< 2⟩

/-- The option byte of the unindexed form (R357). -/
def coprocessorOption (p w : Bool) (off : BitVec 8) : Option (BitVec 8) := if !p && !w then some off else none

/-- An LDC or STC: the forms with P = U = W = 0 are refused, not trapped, whatever the coprocessor (R361,
92_eei_decisions.md D26; notes/assumptions/14.md); then the coprocessor is asked; then the base is tested (R357). -/
def withCoprocessorTransfer (p u w : Bool) (rn : Reg) (cp : CpNum) (i : Instr) (s : State) (k : Result State) :
    Result State :=
  require (p || w || u) .unindexedDown (withCoprocessor cp i s (require (!w || rn != 15) .coprocessorBasePc k))

/-- The coprocessor's state after it receives words, the first of them its `k`-th (R353). -/
def receiveWords (cp : CpNum) (n : Bool) (crd : CReg) (option : Option (BitVec 8)) : Nat → CpState → List Word → CpState
  | _, st, [] => st
  | k, st, w :: rest => receiveWords cp n crd option (k + 1) (Config.cpLdcWord cp st n crd option k w) rest

/-- The words the coprocessor supplies (R354). -/
def supplyWords (cp : CpNum) (st : CpState) (n : Bool) (crd : CReg) (option : Option (BitVec 8)) (count : Nat) :
    List Word :=
  (List.range count).map fun k => Config.cpStcWord cp st n crd option k

/-- The words of an LDC read and received; the coprocessor says how many (R353). -/
def loadCoprocessor (s : State) (x : Indexing) (n : Bool) (crd : CReg) (cp : CpNum) (option : Option (BitVec 8)) :
    Result State :=
  let count := (Config.cpLdcCount cp (s.cpState cp) n crd option).val + 1
  match s.loadWords (s.addressOf x) count with
  | (vs, none) =>
    ((s.setCpState cp (receiveWords cp n crd option 0 (s.cpState cp) vs)).writeBackTo x.writeBack x.rn
      (s.indexed x)).advance
  | (vs, some e) =>
    stopWith e ((s.setCpState cp (Config.cpLdcAborted cp (receiveWords cp n crd option 0 (s.cpState cp) vs))).abortBase
      x.writeBack x.rn (s.indexed x))

/-- LDC (R353). -/
def execLdc (c : Cond) (p u n w : Bool) (rn : Reg) (crd : CReg) (cp : CpNum) (off : BitVec 8) (s : State) :
    Result State :=
  conditional c s (withCoprocessorTransfer p u w rn cp (.ldc c p u n w rn crd cp off) s
    (loadCoprocessor s (coprocessorIndexing p u w rn off) n crd cp (coprocessorOption p w off)))

/-- The words of an STC written; the coprocessor says how many (R354). An STC that takes a data abort changes no memory,
whichever of its words faults (60_exceptions.md R404, 92_eei_decisions.md D8; notes/assumptions/36.md), and leaves the
coprocessor's state as it was (notes/assumptions/32.md). -/
def storeCoprocessor (s : State) (x : Indexing) (n : Bool) (crd : CReg) (cp : CpNum) (option : Option (BitVec 8)) :
    Result State :=
  let count := (Config.cpStcCount cp (s.cpState cp) n crd option).val + 1
  match s.storeWords (s.addressOf x) (supplyWords cp (s.cpState cp) n crd option count) with
  | (t, none) => (t.writeBackTo x.writeBack x.rn (s.indexed x)).advance
  | (_, some e) => stopWith e (s.abortBase x.writeBack x.rn (s.indexed x))

/-- STC (R354). -/
def execStc (c : Cond) (p u n w : Bool) (rn : Reg) (crd : CReg) (cp : CpNum) (off : BitVec 8) (s : State) :
    Result State :=
  conditional c s (withCoprocessorTransfer p u w rn cp (.stc c p u n w rn crd cp off) s
    (storeCoprocessor s (coprocessorIndexing p u w rn off) n crd cp (coprocessorOption p w off)))

/-- MCR (R355); Rd = 15 is UNPREDICTABLE (93_implementation_defined.md U25; notes/assumptions/11.md). -/
def execMcr (c : Cond) (cop1 : BitVec 3) (crn : CReg) (rd : Reg) (cp : CpNum) (cop2 : BitVec 3) (crm : CReg)
    (s : State) : Result State :=
  conditional c s (withCoprocessor cp (.mcr c cop1 crn rd cp cop2 crm) s
    (require (rd != 15) .pcOperand
      (s.setCpState cp (Config.cpMcr cp (s.cpState cp) cop1 crn crm cop2 (s.readReg rd))).advance))

/-- What MRC does with the word supplied: with Rd = r15 its top four bits are the flags (R356). -/
def receiveMrc (s : State) (rd : Reg) (w : Word) : Result State :=
  if rd = 15 then (s.setFlags (w.getLsbD 31) (w.getLsbD 30) (w.getLsbD 29) (w.getLsbD 28)).advance
  else (s.writeReg rd w).advance

/-- MRC (R356). -/
def execMrc (c : Cond) (cop1 : BitVec 3) (crn : CReg) (rd : Reg) (cp : CpNum) (cop2 : BitVec 3) (crm : CReg)
    (s : State) : Result State :=
  conditional c s (withCoprocessor cp (.mrc c cop1 crn rd cp cop2 crm) s
    (receiveMrc s rd (Config.cpMrc cp (s.cpState cp) cop1 crn crm cop2)))

/-- BRK, at v5T: the prefetch abort; below v5T an unused encoding (R359). Its condition is 1110. -/
def execBrk (_imm : BitVec 16) (s : State) : Result State :=
  inMode s (ifPresent (hasV5T s) s (.next (takeException .prefetchAbort s)))

/-- The undefined instruction space: the trap (R362, 30_encoding.md R126). -/
def execUndefined (c : Cond) (_high : BitVec 20) (_low : BitVec 4) (s : State) : Result State :=
  conditional c s (undefinedTrap s)

/-- Bits [27:0] of the BRK pattern (30_encoding.md R110). -/
def isBreakpointBody (body : BitVec 28) : Bool := body &&& 0xFF000F0 == 0x1200070

/-- Every other unused encoding: the trap (R362); at v5T the BRK pattern with a condition other than 1110 is
UNPREDICTABLE (R359; notes/assumptions/15.md). -/
def execUnallocated (c : Cond) (body : BitVec 28) (s : State) : Result State :=
  conditional c s (require (!(hasV5T s && isBreakpointBody body)) .breakpointCondition (undefinedTrap s))

end Sys2Proof.Machine
end

