-- ==== Sys2Proof/Machine/DataProcessing.lean ====
section
/-!
DEFINITION. The meanings of the 48 data-processing rows (spec/43_data_processing.md R180 to R206).
-/

namespace Sys2Proof.Machine

/-- What a data-processing instruction does with its result (R180, R188): the compares write flags only; Rd = r15 is a
branch, or with S an exception return; otherwise Rd is written, and the flags with S. -/
def dpFinish (op : DpOp) (s : State) (setsFlags : Bool) (rd : Reg) (r : Alu) : Result State :=
  if isCompare op then (s.setFlags r.n r.z r.c r.v).advance
  else if rd = 15 then
    if setsFlags then s.exceptionReturn r.result else s.writePc r.result
  else if setsFlags then ((s.writeReg rd r.result).setFlags r.n r.z r.c r.v).advance
  else (s.writeReg rd r.result).advance

/-- The should-be-zero field: Rn of the moves, Rd of the compares (30_encoding.md R103, R129). -/
def dpFieldsZero (op : DpOp) (rn rd : Reg) : Bool := if isCompare op then rd == 0 else !isMove op || rn == 0

/-- A data-processing instruction with operand 2 given (R180): all operands are read before any write. -/
def dataProcess (op : DpOp) (s : State) (setsFlags : Bool) (rn rd : Reg) (o : Shifted) : Result State :=
  require (dpFieldsZero op rn rd) .shouldBeZero
    (dpFinish op s setsFlags rd (dpCompute op (s.readReg rn) o s.c s.v))

/-- The rotated-immediate form (R181). -/
def dpWithImm (op : DpOp) (c : Cond) (setsFlags : Bool) (rn rd : Reg) (o : RotImm) (s : State) : Result State :=
  conditional c s (dataProcess op s setsFlags rn rd (immOperand o s.c))

/-- The immediate-shift form (R182). -/
def dpWithShift (op : DpOp) (c : Cond) (setsFlags : Bool) (rn rd : Reg) (o : ImmShift) (s : State) : Result State :=
  conditional c s (dataProcess op s setsFlags rn rd (immShiftOperand o.type o.amount (s.readReg o.rm) s.c))

/-- The register-shift form (R183): r15 may be none of the registers; only the bottom byte of Rs counts. -/
def dpWithReg (op : DpOp) (c : Cond) (setsFlags : Bool) (rn rd : Reg) (o : RegShift) (s : State) : Result State :=
  conditional c s (require (noPc [rn, rd, o.rs, o.rm]) .pcOperand
    (dataProcess op s setsFlags rn rd
      (regShiftOperand o.type ((s.readReg o.rs).extractLsb' 0 8).toNat (s.readReg o.rm) s.c)))

/-- AND with a rotated immediate (R189). -/
def execAndImm (c : Cond) (f : Bool) (rn rd : Reg) (o : RotImm) (s : State) : Result State :=
  dpWithImm .and c f rn rd o s

/-- AND with a register shifted by an immediate (R189). -/
def execAndShift (c : Cond) (f : Bool) (rn rd : Reg) (o : ImmShift) (s : State) : Result State :=
  dpWithShift .and c f rn rd o s

/-- AND with a register shifted by a register (R189). -/
def execAndReg (c : Cond) (f : Bool) (rn rd : Reg) (o : RegShift) (s : State) : Result State :=
  dpWithReg .and c f rn rd o s

/-- EOR with a rotated immediate (R190). -/
def execEorImm (c : Cond) (f : Bool) (rn rd : Reg) (o : RotImm) (s : State) : Result State :=
  dpWithImm .eor c f rn rd o s

/-- EOR with a register shifted by an immediate (R190). -/
def execEorShift (c : Cond) (f : Bool) (rn rd : Reg) (o : ImmShift) (s : State) : Result State :=
  dpWithShift .eor c f rn rd o s

/-- EOR with a register shifted by a register (R190). -/
def execEorReg (c : Cond) (f : Bool) (rn rd : Reg) (o : RegShift) (s : State) : Result State :=
  dpWithReg .eor c f rn rd o s

/-- SUB with a rotated immediate (R191). -/
def execSubImm (c : Cond) (f : Bool) (rn rd : Reg) (o : RotImm) (s : State) : Result State :=
  dpWithImm .sub c f rn rd o s

/-- SUB with a register shifted by an immediate (R191). -/
def execSubShift (c : Cond) (f : Bool) (rn rd : Reg) (o : ImmShift) (s : State) : Result State :=
  dpWithShift .sub c f rn rd o s

/-- SUB with a register shifted by a register (R191). -/
def execSubReg (c : Cond) (f : Bool) (rn rd : Reg) (o : RegShift) (s : State) : Result State :=
  dpWithReg .sub c f rn rd o s

/-- RSB with a rotated immediate (R192). -/
def execRsbImm (c : Cond) (f : Bool) (rn rd : Reg) (o : RotImm) (s : State) : Result State :=
  dpWithImm .rsb c f rn rd o s

/-- RSB with a register shifted by an immediate (R192). -/
def execRsbShift (c : Cond) (f : Bool) (rn rd : Reg) (o : ImmShift) (s : State) : Result State :=
  dpWithShift .rsb c f rn rd o s

/-- RSB with a register shifted by a register (R192). -/
def execRsbReg (c : Cond) (f : Bool) (rn rd : Reg) (o : RegShift) (s : State) : Result State :=
  dpWithReg .rsb c f rn rd o s

/-- ADD with a rotated immediate (R193). -/
def execAddImm (c : Cond) (f : Bool) (rn rd : Reg) (o : RotImm) (s : State) : Result State :=
  dpWithImm .add c f rn rd o s

/-- ADD with a register shifted by an immediate (R193). -/
def execAddShift (c : Cond) (f : Bool) (rn rd : Reg) (o : ImmShift) (s : State) : Result State :=
  dpWithShift .add c f rn rd o s

/-- ADD with a register shifted by a register (R193). -/
def execAddReg (c : Cond) (f : Bool) (rn rd : Reg) (o : RegShift) (s : State) : Result State :=
  dpWithReg .add c f rn rd o s

/-- ADC with a rotated immediate (R194). -/
def execAdcImm (c : Cond) (f : Bool) (rn rd : Reg) (o : RotImm) (s : State) : Result State :=
  dpWithImm .adc c f rn rd o s

/-- ADC with a register shifted by an immediate (R194). -/
def execAdcShift (c : Cond) (f : Bool) (rn rd : Reg) (o : ImmShift) (s : State) : Result State :=
  dpWithShift .adc c f rn rd o s

/-- ADC with a register shifted by a register (R194). -/
def execAdcReg (c : Cond) (f : Bool) (rn rd : Reg) (o : RegShift) (s : State) : Result State :=
  dpWithReg .adc c f rn rd o s

/-- SBC with a rotated immediate (R195). -/
def execSbcImm (c : Cond) (f : Bool) (rn rd : Reg) (o : RotImm) (s : State) : Result State :=
  dpWithImm .sbc c f rn rd o s

/-- SBC with a register shifted by an immediate (R195). -/
def execSbcShift (c : Cond) (f : Bool) (rn rd : Reg) (o : ImmShift) (s : State) : Result State :=
  dpWithShift .sbc c f rn rd o s

/-- SBC with a register shifted by a register (R195). -/
def execSbcReg (c : Cond) (f : Bool) (rn rd : Reg) (o : RegShift) (s : State) : Result State :=
  dpWithReg .sbc c f rn rd o s

/-- RSC with a rotated immediate (R196). -/
def execRscImm (c : Cond) (f : Bool) (rn rd : Reg) (o : RotImm) (s : State) : Result State :=
  dpWithImm .rsc c f rn rd o s

/-- RSC with a register shifted by an immediate (R196). -/
def execRscShift (c : Cond) (f : Bool) (rn rd : Reg) (o : ImmShift) (s : State) : Result State :=
  dpWithShift .rsc c f rn rd o s

/-- RSC with a register shifted by a register (R196). -/
def execRscReg (c : Cond) (f : Bool) (rn rd : Reg) (o : RegShift) (s : State) : Result State :=
  dpWithReg .rsc c f rn rd o s

/-- TST with a rotated immediate (R197). -/
def execTstImm (c : Cond) (rn rd : Reg) (o : RotImm) (s : State) : Result State :=
  dpWithImm .tst c true rn rd o s

/-- TST with a register shifted by an immediate (R197). -/
def execTstShift (c : Cond) (rn rd : Reg) (o : ImmShift) (s : State) : Result State :=
  dpWithShift .tst c true rn rd o s

/-- TST with a register shifted by a register (R197). -/
def execTstReg (c : Cond) (rn rd : Reg) (o : RegShift) (s : State) : Result State :=
  dpWithReg .tst c true rn rd o s

/-- TEQ with a rotated immediate (R198). -/
def execTeqImm (c : Cond) (rn rd : Reg) (o : RotImm) (s : State) : Result State :=
  dpWithImm .teq c true rn rd o s

/-- TEQ with a register shifted by an immediate (R198). -/
def execTeqShift (c : Cond) (rn rd : Reg) (o : ImmShift) (s : State) : Result State :=
  dpWithShift .teq c true rn rd o s

/-- TEQ with a register shifted by a register (R198). -/
def execTeqReg (c : Cond) (rn rd : Reg) (o : RegShift) (s : State) : Result State :=
  dpWithReg .teq c true rn rd o s

/-- CMP with a rotated immediate (R199). -/
def execCmpImm (c : Cond) (rn rd : Reg) (o : RotImm) (s : State) : Result State :=
  dpWithImm .cmp c true rn rd o s

/-- CMP with a register shifted by an immediate (R199). -/
def execCmpShift (c : Cond) (rn rd : Reg) (o : ImmShift) (s : State) : Result State :=
  dpWithShift .cmp c true rn rd o s

/-- CMP with a register shifted by a register (R199). -/
def execCmpReg (c : Cond) (rn rd : Reg) (o : RegShift) (s : State) : Result State :=
  dpWithReg .cmp c true rn rd o s

/-- CMN with a rotated immediate (R200). -/
def execCmnImm (c : Cond) (rn rd : Reg) (o : RotImm) (s : State) : Result State :=
  dpWithImm .cmn c true rn rd o s

/-- CMN with a register shifted by an immediate (R200). -/
def execCmnShift (c : Cond) (rn rd : Reg) (o : ImmShift) (s : State) : Result State :=
  dpWithShift .cmn c true rn rd o s

/-- CMN with a register shifted by a register (R200). -/
def execCmnReg (c : Cond) (rn rd : Reg) (o : RegShift) (s : State) : Result State :=
  dpWithReg .cmn c true rn rd o s

/-- ORR with a rotated immediate (R201). -/
def execOrrImm (c : Cond) (f : Bool) (rn rd : Reg) (o : RotImm) (s : State) : Result State :=
  dpWithImm .orr c f rn rd o s

/-- ORR with a register shifted by an immediate (R201). -/
def execOrrShift (c : Cond) (f : Bool) (rn rd : Reg) (o : ImmShift) (s : State) : Result State :=
  dpWithShift .orr c f rn rd o s

/-- ORR with a register shifted by a register (R201). -/
def execOrrReg (c : Cond) (f : Bool) (rn rd : Reg) (o : RegShift) (s : State) : Result State :=
  dpWithReg .orr c f rn rd o s

/-- MOV with a rotated immediate (R202). -/
def execMovImm (c : Cond) (f : Bool) (rn rd : Reg) (o : RotImm) (s : State) : Result State :=
  dpWithImm .mov c f rn rd o s

/-- MOV with a register shifted by an immediate (R202). -/
def execMovShift (c : Cond) (f : Bool) (rn rd : Reg) (o : ImmShift) (s : State) : Result State :=
  dpWithShift .mov c f rn rd o s

/-- MOV with a register shifted by a register (R202). -/
def execMovReg (c : Cond) (f : Bool) (rn rd : Reg) (o : RegShift) (s : State) : Result State :=
  dpWithReg .mov c f rn rd o s

/-- BIC with a rotated immediate (R203). -/
def execBicImm (c : Cond) (f : Bool) (rn rd : Reg) (o : RotImm) (s : State) : Result State :=
  dpWithImm .bic c f rn rd o s

/-- BIC with a register shifted by an immediate (R203). -/
def execBicShift (c : Cond) (f : Bool) (rn rd : Reg) (o : ImmShift) (s : State) : Result State :=
  dpWithShift .bic c f rn rd o s

/-- BIC with a register shifted by a register (R203). -/
def execBicReg (c : Cond) (f : Bool) (rn rd : Reg) (o : RegShift) (s : State) : Result State :=
  dpWithReg .bic c f rn rd o s

/-- MVN with a rotated immediate (R204). -/
def execMvnImm (c : Cond) (f : Bool) (rn rd : Reg) (o : RotImm) (s : State) : Result State :=
  dpWithImm .mvn c f rn rd o s

/-- MVN with a register shifted by an immediate (R204). -/
def execMvnShift (c : Cond) (f : Bool) (rn rd : Reg) (o : ImmShift) (s : State) : Result State :=
  dpWithShift .mvn c f rn rd o s

/-- MVN with a register shifted by a register (R204). -/
def execMvnReg (c : Cond) (f : Bool) (rn rd : Reg) (o : RegShift) (s : State) : Result State :=
  dpWithReg .mvn c f rn rd o s

end Sys2Proof.Machine
end

