-- ==== Sys2Proof/Machine/HalfwordTransfer.lean ====
section
/-!
DEFINITION. The meanings of LDRH, STRH, LDRSB, LDRSH (spec/46_halfword_signed_transfer.md R280 to R287).
-/

namespace Sys2Proof.Machine

/-- The restrictions of the family: Rd is not r15, and P = 0 goes with W = 0 (R281, R283 to R286). -/
def withHalfword (p w : Bool) (rd : Reg) (k : Result State) : Result State :=
  require (rd != 15) .pcOperand (require (p || !w) .postIndexedW k)

/-- A load whose value is extended to a word by `extend` (R283, R285, R286). -/
def loadExtended (s : State) (x : Indexing) (rd : Reg) (size : AccessSize) (extend : Word → Word) : Result State :=
  loadIndexed s x (s.load size (s.addressOf x) s.privileged) fun t v => (t.writeReg rd (extend v)).advance

/-- LDRH zero-extends; the value read already is (R283). -/
def loadHalf (s : State) (x : Indexing) (rd : Reg) : Result State := loadExtended s x rd .half id

/-- LDRSB copies bit 7 to bits [31:8] (R285). -/
def loadSignedByte (s : State) (x : Indexing) (rd : Reg) : Result State :=
  loadExtended s x rd .byte fun v => (v.extractLsb' 0 8).signExtend 32

/-- LDRSH copies bit 15 to bits [31:16] (R286). -/
def loadSignedHalf (s : State) (x : Indexing) (rd : Reg) : Result State :=
  loadExtended s x rd .half fun v => (v.extractLsb' 0 16).signExtend 32

/-- STRH stores bits [15:0] (R284). -/
def storeHalf (s : State) (x : Indexing) (rd : Reg) : Result State :=
  storeIndexed s x .half (s.readReg rd) s.privileged

/-- The addressing of the immediate-offset forms (R280, R281). -/
def halfImmIndexing (p u w : Bool) (rn : Reg) (off : BitVec 8) : Indexing := ⟨p, u, !p || w, rn, off.setWidth 32⟩

/-- The addressing of the register-offset forms: the register is not shifted (R280, R281). -/
def State.halfRegIndexing (s : State) (p u w : Bool) (rn rm : Reg) : Indexing := ⟨p, u, !p || w, rn, s.readReg rm⟩

/-- STRH, immediate offset (R284). -/
def execStrhImm (c : Cond) (p u w : Bool) (rn rd : Reg) (off : BitVec 8) (s : State) : Result State :=
  let x := halfImmIndexing p u w rn off
  conditional c s (withHalfword p w rd (withBase x rd (storeHalf s x rd)))

/-- STRH, register offset (R284). -/
def execStrhReg (c : Cond) (p u w : Bool) (rn rd rm : Reg) (s : State) : Result State :=
  let x := s.halfRegIndexing p u w rn rm
  conditional c s (withHalfword p w rd (withRegisterOffset x rd rm (storeHalf s x rd)))

/-- LDRH, immediate offset (R283). -/
def execLdrhImm (c : Cond) (p u w : Bool) (rn rd : Reg) (off : BitVec 8) (s : State) : Result State :=
  let x := halfImmIndexing p u w rn off
  conditional c s (withHalfword p w rd (withBase x rd (loadHalf s x rd)))

/-- LDRH, register offset (R283). -/
def execLdrhReg (c : Cond) (p u w : Bool) (rn rd rm : Reg) (s : State) : Result State :=
  let x := s.halfRegIndexing p u w rn rm
  conditional c s (withHalfword p w rd (withRegisterOffset x rd rm (loadHalf s x rd)))

/-- LDRSB, immediate offset (R285). -/
def execLdrsbImm (c : Cond) (p u w : Bool) (rn rd : Reg) (off : BitVec 8) (s : State) : Result State :=
  let x := halfImmIndexing p u w rn off
  conditional c s (withHalfword p w rd (withBase x rd (loadSignedByte s x rd)))

/-- LDRSB, register offset (R285). -/
def execLdrsbReg (c : Cond) (p u w : Bool) (rn rd rm : Reg) (s : State) : Result State :=
  let x := s.halfRegIndexing p u w rn rm
  conditional c s (withHalfword p w rd (withRegisterOffset x rd rm (loadSignedByte s x rd)))

/-- LDRSH, immediate offset (R286). -/
def execLdrshImm (c : Cond) (p u w : Bool) (rn rd : Reg) (off : BitVec 8) (s : State) : Result State :=
  let x := halfImmIndexing p u w rn off
  conditional c s (withHalfword p w rd (withBase x rd (loadSignedHalf s x rd)))

/-- LDRSH, register offset (R286). -/
def execLdrshReg (c : Cond) (p u w : Bool) (rn rd rm : Reg) (s : State) : Result State :=
  let x := s.halfRegIndexing p u w rn rm
  conditional c s (withHalfword p w rd (withRegisterOffset x rd rm (loadSignedHalf s x rd)))

end Sys2Proof.Machine
end

