-- ==== Sys2Proof/Machine/Multiply.lean ====
section
/-!
DEFINITION. The meanings of the multiplies and CLZ (spec/44_multiply_clz.md R230 to R239).
-/

namespace Sys2Proof.Machine

/-- N and Z of a multiply, with S; C is a free bit, and for the long forms V too (R231; notes/assumptions/8.md). -/
def State.setMultiplyFlags (s : State) (setsFlags long n z : Bool) : State :=
  if setsFlags then
    { s.setFlags n z (Config.freeBit s.draws) (if long then Config.freeBit (s.draws + 1) else s.v) with
      draws := s.draws + 2 }
  else s

/-- A 32-bit multiply with its result given (R230 to R233). -/
def multiplyShort (s : State) (setsFlags : Bool) (rd rm : Reg) (others : List Reg) (r : Word) : Result State :=
  require (noPc (rd :: rm :: others)) .pcOperand
    (require (rd != rm) .multiplyRegisters
      ((s.writeReg rd r).setMultiplyFlags setsFlags false (r.getLsbD 31) (r == 0)).advance)

/-- A 64-bit multiply with its result given (R230, R234 to R237). -/
def multiplyLong (s : State) (setsFlags : Bool) (rdHi rdLo rs rm : Reg) (r : BitVec 64) : Result State :=
  require (noPc [rdHi, rdLo, rs, rm]) .pcOperand
    (require (rdHi != rdLo && rdHi != rm && rdLo != rm) .multiplyRegisters
      (((s.writeReg rdLo (r.extractLsb' 0 32)).writeReg rdHi (r.extractLsb' 32 32)).setMultiplyFlags setsFlags true
        (r.getLsbD 63) (r == 0)).advance)

/-- The exact unsigned product in 64 bits (R234, R239). -/
def unsignedProduct (a b : Word) : BitVec 64 := BitVec.ofNat 64 (a.toNat * b.toNat)

/-- The exact signed product in 64 bits (R236, R239). -/
def signedProduct (a b : Word) : BitVec 64 := BitVec.ofInt 64 (a.toInt * b.toInt)

/-- The 64-bit accumulator RdHi : RdLo (R235, R237). -/
def State.accumulator (s : State) (rdHi rdLo : Reg) : BitVec 64 := s.readReg rdHi ++ s.readReg rdLo

/-- MUL (R232). -/
def execMul (c : Cond) (f : Bool) (rd : Reg) (sbz : BitVec 4) (rs rm : Reg) (s : State) : Result State :=
  conditional c s (require (sbz == 0) .shouldBeZero
    (multiplyShort s f rd rm [rs] (s.readReg rm * s.readReg rs)))

/-- MLA (R233). -/
def execMla (c : Cond) (f : Bool) (rd rn rs rm : Reg) (s : State) : Result State :=
  conditional c s (multiplyShort s f rd rm [rs, rn] (s.readReg rm * s.readReg rs + s.readReg rn))

/-- UMULL (R234). -/
def execUmull (c : Cond) (f : Bool) (rdHi rdLo rs rm : Reg) (s : State) : Result State :=
  conditional c s (multiplyLong s f rdHi rdLo rs rm (unsignedProduct (s.readReg rm) (s.readReg rs)))

/-- UMLAL (R235). -/
def execUmlal (c : Cond) (f : Bool) (rdHi rdLo rs rm : Reg) (s : State) : Result State :=
  conditional c s (multiplyLong s f rdHi rdLo rs rm
    (unsignedProduct (s.readReg rm) (s.readReg rs) + s.accumulator rdHi rdLo))

/-- SMULL (R236). -/
def execSmull (c : Cond) (f : Bool) (rdHi rdLo rs rm : Reg) (s : State) : Result State :=
  conditional c s (multiplyLong s f rdHi rdLo rs rm (signedProduct (s.readReg rm) (s.readReg rs)))

/-- SMLAL (R237). -/
def execSmlal (c : Cond) (f : Bool) (rdHi rdLo rs rm : Reg) (s : State) : Result State :=
  conditional c s (multiplyLong s f rdHi rdLo rs rm
    (signedProduct (s.readReg rm) (s.readReg rs) + s.accumulator rdHi rdLo))

/-- The number of zero bits above the highest set bit, 32 for zero (R238). -/
def leadingZeros (m : Word) : Nat := if m = 0 then 32 else 31 - Nat.log2 m.toNat

/-- CLZ, at v5T (R238). -/
def execClz (c : Cond) (rd rm : Reg) (s : State) : Result State :=
  conditional c s (ifPresent (hasV5T s) s
    (require (noPc [rd, rm]) .pcOperand
      (s.writeReg rd (BitVec.ofNat 32 (leadingZeros (s.readReg rm)))).advance))

end Sys2Proof.Machine
end

