-- ==== Sys2Proof/Machine/SingleTransfer.lean ====
section
/-!
DEFINITION. The meanings of LDR, STR, LDRB, STRB and their T forms (spec/45_single_data_transfer.md R250 to R263).
-/

namespace Sys2Proof.Machine

/-- The offset of a shifted register; the carry-out is discarded (R250). -/
def State.shiftedOffset (s : State) (o : ImmShift) : Word :=
  (immShiftOperand o.type o.amount (s.readReg o.rm) s.c).value

/-- A word load: Rd = r15 is a branch (R255). -/
def loadWord (s : State) (x : Indexing) (rd : Reg) (privileged : Bool) : Result State :=
  loadIndexed s x (s.loadRotated (s.addressOf x) privileged) fun t v =>
    if rd = 15 then t.loadPc v else (t.writeReg rd v).advance

/-- A byte load, zero-extended (R257). -/
def loadByte (s : State) (x : Indexing) (rd : Reg) (privileged : Bool) : Result State :=
  require (rd != 15) .pcOperand
    (loadIndexed s x (s.load .byte (s.addressOf x) privileged) fun t v => (t.writeReg rd v).advance)

/-- A word store: r15 is stored as pc + `STORE_PC_OFFSET` (R256). -/
def storeWord (s : State) (x : Indexing) (rd : Reg) (privileged : Bool) : Result State :=
  storeIndexed s x .word (s.storeValue rd) privileged

/-- A byte store (R258). -/
def storeByte (s : State) (x : Indexing) (rd : Reg) (privileged : Bool) : Result State :=
  require (rd != 15) .pcOperand (storeIndexed s x .byte (s.readReg rd) privileged)

/-- The addressing of the immediate-offset forms (R250, R251). -/
def immIndexing (p u w : Bool) (rn : Reg) (off : BitVec 12) : Indexing := ⟨p, u, !p || w, rn, off.setWidth 32⟩

/-- The addressing of the register-offset forms (R250, R251). -/
def State.regIndexing (s : State) (p u w : Bool) (rn : Reg) (o : ImmShift) : Indexing :=
  ⟨p, u, !p || w, rn, s.shiftedOffset o⟩

/-- LDR, pre-indexed, immediate offset (R255). -/
def execLdrPreImm (c : Cond) (u w : Bool) (rn rd : Reg) (off : BitVec 12) (s : State) : Result State :=
  let x := immIndexing true u w rn off
  conditional c s (withBase x rd (loadWord s x rd s.privileged))

/-- LDR, post-indexed, immediate offset (R255). -/
def execLdrPostImm (c : Cond) (u : Bool) (rn rd : Reg) (off : BitVec 12) (s : State) : Result State :=
  let x := immIndexing false u false rn off
  conditional c s (withBase x rd (loadWord s x rd s.privileged))

/-- LDR, pre-indexed, register offset (R255). -/
def execLdrPreReg (c : Cond) (u w : Bool) (rn rd : Reg) (o : ImmShift) (s : State) : Result State :=
  let x := s.regIndexing true u w rn o
  conditional c s (withRegisterOffset x rd o.rm (loadWord s x rd s.privileged))

/-- LDR, post-indexed, register offset (R255). -/
def execLdrPostReg (c : Cond) (u : Bool) (rn rd : Reg) (o : ImmShift) (s : State) : Result State :=
  let x := s.regIndexing false u false rn o
  conditional c s (withRegisterOffset x rd o.rm (loadWord s x rd s.privileged))

/-- STR, pre-indexed, immediate offset (R256). -/
def execStrPreImm (c : Cond) (u w : Bool) (rn rd : Reg) (off : BitVec 12) (s : State) : Result State :=
  let x := immIndexing true u w rn off
  conditional c s (withBase x rd (storeWord s x rd s.privileged))

/-- STR, post-indexed, immediate offset (R256). -/
def execStrPostImm (c : Cond) (u : Bool) (rn rd : Reg) (off : BitVec 12) (s : State) : Result State :=
  let x := immIndexing false u false rn off
  conditional c s (withBase x rd (storeWord s x rd s.privileged))

/-- STR, pre-indexed, register offset (R256). -/
def execStrPreReg (c : Cond) (u w : Bool) (rn rd : Reg) (o : ImmShift) (s : State) : Result State :=
  let x := s.regIndexing true u w rn o
  conditional c s (withRegisterOffset x rd o.rm (storeWord s x rd s.privileged))

/-- STR, post-indexed, register offset (R256). -/
def execStrPostReg (c : Cond) (u : Bool) (rn rd : Reg) (o : ImmShift) (s : State) : Result State :=
  let x := s.regIndexing false u false rn o
  conditional c s (withRegisterOffset x rd o.rm (storeWord s x rd s.privileged))

/-- LDRB, pre-indexed, immediate offset (R257). -/
def execLdrbPreImm (c : Cond) (u w : Bool) (rn rd : Reg) (off : BitVec 12) (s : State) : Result State :=
  let x := immIndexing true u w rn off
  conditional c s (withBase x rd (loadByte s x rd s.privileged))

/-- LDRB, post-indexed, immediate offset (R257). -/
def execLdrbPostImm (c : Cond) (u : Bool) (rn rd : Reg) (off : BitVec 12) (s : State) : Result State :=
  let x := immIndexing false u false rn off
  conditional c s (withBase x rd (loadByte s x rd s.privileged))

/-- LDRB, pre-indexed, register offset (R257). -/
def execLdrbPreReg (c : Cond) (u w : Bool) (rn rd : Reg) (o : ImmShift) (s : State) : Result State :=
  let x := s.regIndexing true u w rn o
  conditional c s (withRegisterOffset x rd o.rm (loadByte s x rd s.privileged))

/-- LDRB, post-indexed, register offset (R257). -/
def execLdrbPostReg (c : Cond) (u : Bool) (rn rd : Reg) (o : ImmShift) (s : State) : Result State :=
  let x := s.regIndexing false u false rn o
  conditional c s (withRegisterOffset x rd o.rm (loadByte s x rd s.privileged))

/-- STRB, pre-indexed, immediate offset (R258). -/
def execStrbPreImm (c : Cond) (u w : Bool) (rn rd : Reg) (off : BitVec 12) (s : State) : Result State :=
  let x := immIndexing true u w rn off
  conditional c s (withBase x rd (storeByte s x rd s.privileged))

/-- STRB, post-indexed, immediate offset (R258). -/
def execStrbPostImm (c : Cond) (u : Bool) (rn rd : Reg) (off : BitVec 12) (s : State) : Result State :=
  let x := immIndexing false u false rn off
  conditional c s (withBase x rd (storeByte s x rd s.privileged))

/-- STRB, pre-indexed, register offset (R258). -/
def execStrbPreReg (c : Cond) (u w : Bool) (rn rd : Reg) (o : ImmShift) (s : State) : Result State :=
  let x := s.regIndexing true u w rn o
  conditional c s (withRegisterOffset x rd o.rm (storeByte s x rd s.privileged))

/-- STRB, post-indexed, register offset (R258). -/
def execStrbPostReg (c : Cond) (u : Bool) (rn rd : Reg) (o : ImmShift) (s : State) : Result State :=
  let x := s.regIndexing false u false rn o
  conditional c s (withRegisterOffset x rd o.rm (storeByte s x rd s.privileged))

/-- LDRT, immediate offset: post-indexed, a user-mode access (R259, 20_memory.md R76); Rd = r15 is UNPREDICTABLE. -/
def execLdrtImm (c : Cond) (u : Bool) (rn rd : Reg) (off : BitVec 12) (s : State) : Result State :=
  let x := immIndexing false u true rn off
  conditional c s (withBase x rd (require (rd != 15) .pcOperand (loadWord s x rd false)))

/-- LDRT, register offset (R259). -/
def execLdrtReg (c : Cond) (u : Bool) (rn rd : Reg) (o : ImmShift) (s : State) : Result State :=
  let x := s.regIndexing false u true rn o
  conditional c s (withRegisterOffset x rd o.rm (require (rd != 15) .pcOperand (loadWord s x rd false)))

/-- STRT, immediate offset: post-indexed, a user-mode access (R260, 20_memory.md R76); Rd = r15 is UNPREDICTABLE
(93_implementation_defined.md U12; notes/assumptions/13.md). -/
def execStrtImm (c : Cond) (u : Bool) (rn rd : Reg) (off : BitVec 12) (s : State) : Result State :=
  let x := immIndexing false u true rn off
  conditional c s (withBase x rd (require (rd != 15) .pcOperand (storeWord s x rd false)))

/-- STRT, register offset (R260). -/
def execStrtReg (c : Cond) (u : Bool) (rn rd : Reg) (o : ImmShift) (s : State) : Result State :=
  let x := s.regIndexing false u true rn o
  conditional c s (withRegisterOffset x rd o.rm (require (rd != 15) .pcOperand (storeWord s x rd false)))

/-- LDRBT, immediate offset: post-indexed, a user-mode access (R261, 20_memory.md R76). -/
def execLdrbtImm (c : Cond) (u : Bool) (rn rd : Reg) (off : BitVec 12) (s : State) : Result State :=
  let x := immIndexing false u true rn off
  conditional c s (withBase x rd (loadByte s x rd false))

/-- LDRBT, register offset (R261). -/
def execLdrbtReg (c : Cond) (u : Bool) (rn rd : Reg) (o : ImmShift) (s : State) : Result State :=
  let x := s.regIndexing false u true rn o
  conditional c s (withRegisterOffset x rd o.rm (loadByte s x rd false))

/-- STRBT, immediate offset: post-indexed, a user-mode access (R262, 20_memory.md R76). -/
def execStrbtImm (c : Cond) (u : Bool) (rn rd : Reg) (off : BitVec 12) (s : State) : Result State :=
  let x := immIndexing false u true rn off
  conditional c s (withBase x rd (storeByte s x rd false))

/-- STRBT, register offset (R262). -/
def execStrbtReg (c : Cond) (u : Bool) (rn rd : Reg) (o : ImmShift) (s : State) : Result State :=
  let x := s.regIndexing false u true rn o
  conditional c s (withRegisterOffset x rd o.rm (storeByte s x rd false))

end Sys2Proof.Machine
end

