-- ==== Sys2Proof/Machine/StatusTransfer.lean ====
section
/-!
DEFINITION. The meanings of MRS and MSR (spec/48_status_register_transfer.md R330 to R336).
-/

namespace Sys2Proof.Machine

/-- What MRS reads of a PSR: the reserved bits by `PSR_RESERVED` (10_state.md R34). -/
def State.psrRead (s : State) (p : Word) : Word :=
  match s.platform.psrReserved with
  | .razWi => p &&& psrWritable
  | .draw => psrMerge p (Config.freeWord s.draws) psrReservedBits

/-- The free value of such a read counted. -/
def State.countPsrRead (s : State) : State :=
  match s.platform.psrReserved with
  | .razWi => s
  | .draw => { s with draws := s.draws + 1 }

/-- MRS (R331). -/
def execMrs (c : Cond) (spsr : Bool) (rd : Reg) (s : State) : Result State :=
  conditional c s (require (rd != 15) .pcOperand (require (!spsr || s.mode.hasSpsr) .noSpsr
    (s.countPsrRead.writeReg rd (s.psrRead (if spsr then s.spsr s.mode else s.cpsr))).advance))

/-- The bits of the CPSR an MSR writes: in User mode only those of the f field (R333). -/
def State.msrMask (s : State) (mask : BitVec 4) : Word :=
  (if s.privileged then psrByteMask mask else psrByteMask mask &&& 0xFF000000) &&& psrWritable

/-- MSR to the CPSR (R333): T must not change, and the mode must be one. -/
def msrCpsr (s : State) (mask : BitVec 4) (operand : Word) : Result State :=
  let new := psrMerge s.cpsr operand (s.msrMask mask)
  require (psrT new == psrT s.cpsr) .msrChangesT
    (require (psrMode new).isSome .illegalModeWritten (({ s with cpsr := new } : State).advance))

/-- MSR to the SPSR of the current mode: any value in the existing bits (R333). -/
def msrSpsr (s : State) (mask : BitVec 4) (operand : Word) : Result State :=
  require s.mode.hasSpsr .noSpsr
    (s.setSpsr s.mode (psrMerge (s.spsr s.mode) operand (psrByteMask mask &&& psrWritable))).advance

/-- MSR with its operand given (R333). -/
def moveToStatus (s : State) (spsr : Bool) (mask : BitVec 4) (operand : Word) : Result State :=
  if spsr then msrSpsr s mask operand else msrCpsr s mask operand

/-- MSR, register operand (R332, R333). -/
def execMsrReg (c : Cond) (spsr : Bool) (mask : BitVec 4) (rm : Reg) (s : State) : Result State :=
  conditional c s (require (rm != 15) .pcOperand (moveToStatus s spsr mask (s.readReg rm)))

/-- MSR, immediate operand: the mask the word carries is what is written (R332, R333). -/
def execMsrImm (c : Cond) (spsr : Bool) (mask : BitVec 4) (o : RotImm) (s : State) : Result State :=
  conditional c s (moveToStatus s spsr mask (rotImmValue o))

end Sys2Proof.Machine
end

