-- ==== Sys2Proof/Machine/Dispatch.lean ====
section
/-!
DEFINITION. The dispatch: one arm for each constructor of `Instr`, one call of the meaning of its own.
-/

namespace Sys2Proof.Machine

/-- What one instruction does to a state. -/
def exec (i : Instr) (s : State) : Host.Outcome State Fault Refusal :=
  match i with
  | .andImm c st rn rd o => Sys2Proof.Machine.execAndImm c st rn rd o s
  | .andShift c st rn rd o => Sys2Proof.Machine.execAndShift c st rn rd o s
  | .andReg c st rn rd o => Sys2Proof.Machine.execAndReg c st rn rd o s
  | .eorImm c st rn rd o => Sys2Proof.Machine.execEorImm c st rn rd o s
  | .eorShift c st rn rd o => Sys2Proof.Machine.execEorShift c st rn rd o s
  | .eorReg c st rn rd o => Sys2Proof.Machine.execEorReg c st rn rd o s
  | .subImm c st rn rd o => Sys2Proof.Machine.execSubImm c st rn rd o s
  | .subShift c st rn rd o => Sys2Proof.Machine.execSubShift c st rn rd o s
  | .subReg c st rn rd o => Sys2Proof.Machine.execSubReg c st rn rd o s
  | .rsbImm c st rn rd o => Sys2Proof.Machine.execRsbImm c st rn rd o s
  | .rsbShift c st rn rd o => Sys2Proof.Machine.execRsbShift c st rn rd o s
  | .rsbReg c st rn rd o => Sys2Proof.Machine.execRsbReg c st rn rd o s
  | .addImm c st rn rd o => Sys2Proof.Machine.execAddImm c st rn rd o s
  | .addShift c st rn rd o => Sys2Proof.Machine.execAddShift c st rn rd o s
  | .addReg c st rn rd o => Sys2Proof.Machine.execAddReg c st rn rd o s
  | .adcImm c st rn rd o => Sys2Proof.Machine.execAdcImm c st rn rd o s
  | .adcShift c st rn rd o => Sys2Proof.Machine.execAdcShift c st rn rd o s
  | .adcReg c st rn rd o => Sys2Proof.Machine.execAdcReg c st rn rd o s
  | .sbcImm c st rn rd o => Sys2Proof.Machine.execSbcImm c st rn rd o s
  | .sbcShift c st rn rd o => Sys2Proof.Machine.execSbcShift c st rn rd o s
  | .sbcReg c st rn rd o => Sys2Proof.Machine.execSbcReg c st rn rd o s
  | .rscImm c st rn rd o => Sys2Proof.Machine.execRscImm c st rn rd o s
  | .rscShift c st rn rd o => Sys2Proof.Machine.execRscShift c st rn rd o s
  | .rscReg c st rn rd o => Sys2Proof.Machine.execRscReg c st rn rd o s
  | .tstImm c rn rd o => Sys2Proof.Machine.execTstImm c rn rd o s
  | .tstShift c rn rd o => Sys2Proof.Machine.execTstShift c rn rd o s
  | .tstReg c rn rd o => Sys2Proof.Machine.execTstReg c rn rd o s
  | .teqImm c rn rd o => Sys2Proof.Machine.execTeqImm c rn rd o s
  | .teqShift c rn rd o => Sys2Proof.Machine.execTeqShift c rn rd o s
  | .teqReg c rn rd o => Sys2Proof.Machine.execTeqReg c rn rd o s
  | .cmpImm c rn rd o => Sys2Proof.Machine.execCmpImm c rn rd o s
  | .cmpShift c rn rd o => Sys2Proof.Machine.execCmpShift c rn rd o s
  | .cmpReg c rn rd o => Sys2Proof.Machine.execCmpReg c rn rd o s
  | .cmnImm c rn rd o => Sys2Proof.Machine.execCmnImm c rn rd o s
  | .cmnShift c rn rd o => Sys2Proof.Machine.execCmnShift c rn rd o s
  | .cmnReg c rn rd o => Sys2Proof.Machine.execCmnReg c rn rd o s
  | .orrImm c st rn rd o => Sys2Proof.Machine.execOrrImm c st rn rd o s
  | .orrShift c st rn rd o => Sys2Proof.Machine.execOrrShift c st rn rd o s
  | .orrReg c st rn rd o => Sys2Proof.Machine.execOrrReg c st rn rd o s
  | .movImm c st rn rd o => Sys2Proof.Machine.execMovImm c st rn rd o s
  | .movShift c st rn rd o => Sys2Proof.Machine.execMovShift c st rn rd o s
  | .movReg c st rn rd o => Sys2Proof.Machine.execMovReg c st rn rd o s
  | .bicImm c st rn rd o => Sys2Proof.Machine.execBicImm c st rn rd o s
  | .bicShift c st rn rd o => Sys2Proof.Machine.execBicShift c st rn rd o s
  | .bicReg c st rn rd o => Sys2Proof.Machine.execBicReg c st rn rd o s
  | .mvnImm c st rn rd o => Sys2Proof.Machine.execMvnImm c st rn rd o s
  | .mvnShift c st rn rd o => Sys2Proof.Machine.execMvnShift c st rn rd o s
  | .mvnReg c st rn rd o => Sys2Proof.Machine.execMvnReg c st rn rd o s
  | .mul c st rd sbz rs rm => Sys2Proof.Machine.execMul c st rd sbz rs rm s
  | .mla c st rd rn rs rm => Sys2Proof.Machine.execMla c st rd rn rs rm s
  | .umull c st rdHi rdLo rs rm => Sys2Proof.Machine.execUmull c st rdHi rdLo rs rm s
  | .umlal c st rdHi rdLo rs rm => Sys2Proof.Machine.execUmlal c st rdHi rdLo rs rm s
  | .smull c st rdHi rdLo rs rm => Sys2Proof.Machine.execSmull c st rdHi rdLo rs rm s
  | .smlal c st rdHi rdLo rs rm => Sys2Proof.Machine.execSmlal c st rdHi rdLo rs rm s
  | .swp c rn rd rm => Sys2Proof.Machine.execSwp c rn rd rm s
  | .swpb c rn rd rm => Sys2Proof.Machine.execSwpb c rn rd rm s
  | .bx c rm => Sys2Proof.Machine.execBx c rm s
  | .blxReg c rm => Sys2Proof.Machine.execBlxReg c rm s
  | .clz c rd rm => Sys2Proof.Machine.execClz c rd rm s
  | .brk imm => Sys2Proof.Machine.execBrk imm s
  | .mrs c spsr rd => Sys2Proof.Machine.execMrs c spsr rd s
  | .msrReg c spsr mask rm => Sys2Proof.Machine.execMsrReg c spsr mask rm s
  | .msrImm c spsr mask o => Sys2Proof.Machine.execMsrImm c spsr mask o s
  | .strhImm c p u w rn rd off => Sys2Proof.Machine.execStrhImm c p u w rn rd off s
  | .strhReg c p u w rn rd rm => Sys2Proof.Machine.execStrhReg c p u w rn rd rm s
  | .ldrhImm c p u w rn rd off => Sys2Proof.Machine.execLdrhImm c p u w rn rd off s
  | .ldrhReg c p u w rn rd rm => Sys2Proof.Machine.execLdrhReg c p u w rn rd rm s
  | .ldrsbImm c p u w rn rd off => Sys2Proof.Machine.execLdrsbImm c p u w rn rd off s
  | .ldrsbReg c p u w rn rd rm => Sys2Proof.Machine.execLdrsbReg c p u w rn rd rm s
  | .ldrshImm c p u w rn rd off => Sys2Proof.Machine.execLdrshImm c p u w rn rd off s
  | .ldrshReg c p u w rn rd rm => Sys2Proof.Machine.execLdrshReg c p u w rn rd rm s
  | .ldrPreImm c u w rn rd off => Sys2Proof.Machine.execLdrPreImm c u w rn rd off s
  | .ldrPostImm c u rn rd off => Sys2Proof.Machine.execLdrPostImm c u rn rd off s
  | .ldrPreReg c u w rn rd o => Sys2Proof.Machine.execLdrPreReg c u w rn rd o s
  | .ldrPostReg c u rn rd o => Sys2Proof.Machine.execLdrPostReg c u rn rd o s
  | .strPreImm c u w rn rd off => Sys2Proof.Machine.execStrPreImm c u w rn rd off s
  | .strPostImm c u rn rd off => Sys2Proof.Machine.execStrPostImm c u rn rd off s
  | .strPreReg c u w rn rd o => Sys2Proof.Machine.execStrPreReg c u w rn rd o s
  | .strPostReg c u rn rd o => Sys2Proof.Machine.execStrPostReg c u rn rd o s
  | .ldrbPreImm c u w rn rd off => Sys2Proof.Machine.execLdrbPreImm c u w rn rd off s
  | .ldrbPostImm c u rn rd off => Sys2Proof.Machine.execLdrbPostImm c u rn rd off s
  | .ldrbPreReg c u w rn rd o => Sys2Proof.Machine.execLdrbPreReg c u w rn rd o s
  | .ldrbPostReg c u rn rd o => Sys2Proof.Machine.execLdrbPostReg c u rn rd o s
  | .strbPreImm c u w rn rd off => Sys2Proof.Machine.execStrbPreImm c u w rn rd off s
  | .strbPostImm c u rn rd off => Sys2Proof.Machine.execStrbPostImm c u rn rd off s
  | .strbPreReg c u w rn rd o => Sys2Proof.Machine.execStrbPreReg c u w rn rd o s
  | .strbPostReg c u rn rd o => Sys2Proof.Machine.execStrbPostReg c u rn rd o s
  | .ldrtImm c u rn rd off => Sys2Proof.Machine.execLdrtImm c u rn rd off s
  | .ldrtReg c u rn rd o => Sys2Proof.Machine.execLdrtReg c u rn rd o s
  | .strtImm c u rn rd off => Sys2Proof.Machine.execStrtImm c u rn rd off s
  | .strtReg c u rn rd o => Sys2Proof.Machine.execStrtReg c u rn rd o s
  | .ldrbtImm c u rn rd off => Sys2Proof.Machine.execLdrbtImm c u rn rd off s
  | .ldrbtReg c u rn rd o => Sys2Proof.Machine.execLdrbtReg c u rn rd o s
  | .strbtImm c u rn rd off => Sys2Proof.Machine.execStrbtImm c u rn rd off s
  | .strbtReg c u rn rd o => Sys2Proof.Machine.execStrbtReg c u rn rd o s
  | .undefined c high low => Sys2Proof.Machine.execUndefined c high low s
  | .ldm c p u w rn list => Sys2Proof.Machine.execLdm c p u w rn list s
  | .stm c p u w rn list => Sys2Proof.Machine.execStm c p u w rn list s
  | .ldmReturn c p u w rn list => Sys2Proof.Machine.execLdmReturn c p u w rn list s
  | .ldmUser c p u w rn list => Sys2Proof.Machine.execLdmUser c p u w rn list s
  | .stmUser c p u w rn list => Sys2Proof.Machine.execStmUser c p u w rn list s
  | .b c off => Sys2Proof.Machine.execB c off s
  | .bl c off => Sys2Proof.Machine.execBl c off s
  | .blxLabel h off => Sys2Proof.Machine.execBlxLabel h off s
  | .ldc c p u n w rn crd cp off => Sys2Proof.Machine.execLdc c p u n w rn crd cp off s
  | .stc c p u n w rn crd cp off => Sys2Proof.Machine.execStc c p u n w rn crd cp off s
  | .cdp c cop1 crn crd cp cop2 crm => Sys2Proof.Machine.execCdp c cop1 crn crd cp cop2 crm s
  | .mcr c cop1 crn rd cp cop2 crm => Sys2Proof.Machine.execMcr c cop1 crn rd cp cop2 crm s
  | .mrc c cop1 crn rd cp cop2 crm => Sys2Proof.Machine.execMrc c cop1 crn rd cp cop2 crm s
  | .swi c imm => Sys2Proof.Machine.execSwi c imm s
  | .unallocated c body => Sys2Proof.Machine.execUnallocated c body s

end Sys2Proof.Machine
end

