-- ==== Sys2Proof/Machine/Step.lean ====
section
/-!
DEFINITION. One step of the machine (spec/60_exceptions.md R419).
-/

namespace Sys2Proof.Machine

/-- The instruction at the pc, after the inputs of the step: fetch, decode, execute (R419 steps 4 to 6). -/
def executeAtPc (s : State) : Host.Outcome State Fault Refusal :=
  match s.fetch with
  | .error .abort => .next (takeException .prefetchAbort s)
  | .error (.refuse r) => .refused r
  | .ok w =>
    match decode w with
    | .ok i => exec i s
    | .error e => .refused (decodeRefusal e)

/-- One step (R419): reset, FIQ, IRQ, then the instruction. A state with T = 1 has no step (92_eei_decisions.md D4). -/
def step (s : State) : Host.Outcome State Fault Refusal :=
  if psrT s.cpsr then .refused .thumbState
  else if s.lines.reset then .next (resetEntry s.nextInputs)
  else if s.lines.fiq && !psrF s.cpsr then .next (takeException .fiq s.nextInputs)
  else if s.lines.irq && !psrI s.cpsr then .next (takeException .irq s.nextInputs)
  else if s.pc.extractLsb' 0 2 = 0 then executeAtPc s.nextInputs
  else .fault .misalignedPc

/-- The state with the instruction whose bits are `w`, of which `nbits` are given and those above are zero, placed
where the next step fetches. -/
def State.withFetchWord (s : State) (nbits w : Nat) : State := s.placeWord (BitVec.ofNat 32 (w % 2 ^ nbits))

end Sys2Proof.Machine
end

