-- ==== Sys2Proof/Machine/Run.lean ====
section
/-!
DEFINITION. A run under the parameter `HALT` (spec/00_scope.md R5, 92_eei_decisions.md D29): a predicate on the state
that the reader chooses, and so an argument here and no state (notes/assumptions/31.md).
-/

namespace Sys2Proof.Machine

/-- At most `n` steps, ending at the first state where `halt` holds; a step that stops ends the run with its reason. -/
def run (halt : State → Bool) : Nat → State → Host.Outcome State Fault Refusal
  | 0, s => .next s
  | n + 1, s =>
    if halt s then .next s
    else
      match step s with
      | .next t => run halt n t
      | .fault f => .fault f
      | .refused r => .refused r

end Sys2Proof.Machine
end

