-- ==== Sys2Proof/Safety.lean ====
section
/-!
DEFINITION. The terms the statements about the machine use: the invariant of every step, what an instruction leaves
unchanged (its frame), exception entry as the table of spec/60_exceptions.md R401 gives it, the operands and results of
data processing as 43_data_processing.md R189 to R204 give them in exact arithmetic, and the forms of the transfers.
Nothing here is used by the machine.
-/

namespace Sys2Proof.Machine

/-! ### The invariant -/

/-- What holds of the state after reset and is kept by every step. -/
structure State.Inv (s : State) : Prop where
  /-- CPSR[4:0] is one of the seven modes (10_state.md R33). -/
  mode : s.mode?.isSome = true
  /-- In ARM state the pc is word-aligned (10_state.md R25, 20_memory.md R68). -/
  pcWord : psrT s.cpsr = false → s.pc.extractLsb' 0 2 = 0
  /-- In either state it is half-word-aligned. -/
  pcHalf : s.pc.getLsbD 0 = false
  /-- Memory is in canonical form. -/
  mem : Memory.wf s.mem = true
  /-- The list of stored addresses is strictly rising. -/
  stored : addressesWf s.stored = true
  /-- The reserved bits of the CPSR are stored as zero (10_state.md R34). -/
  cpsr : s.cpsr &&& psrReservedBits = 0
  /-- The reserved bits of every SPSR are stored as zero (R34). -/
  spsrs : ∀ m, s.spsr m &&& psrReservedBits = 0

/-! ### Frames -/

/-- Every physical register but the listed ones is as before. -/
def registersKept (s t : State) (except : List (Option PhysReg)) : Prop :=
  ∀ p, some p ∉ except → t.readPhys p = s.readPhys p

/-- Every SPSR is as before. -/
def spsrsKept (s t : State) : Prop := ∀ m, t.spsr m = s.spsr m

/-- Every byte of memory is as before, and no address is noted as stored. -/
def memoryKept (s t : State) : Prop := (∀ a, Memory.read t.mem a = Memory.read s.mem a) ∧ t.stored = s.stored

/-- The parameters and the inputs still to come are as before. -/
def outsideKept (s t : State) : Prop := t.inputs = s.inputs ∧ t.platform = s.platform

/-- The frame of an instruction that changes the listed registers, the CPSR, the pc and memory at most. -/
structure Frame (s t : State) (except : List (Option PhysReg)) : Prop where
  registers : registersKept s t except
  spsrs : spsrsKept s t
  coproc : t.coproc = s.coproc
  outside : outsideKept s t

/-- The frame of an instruction that changes the listed registers and the pc at most. -/
structure RegisterFrame (s t : State) (except : List (Option PhysReg)) : Prop extends Frame s t except where
  cpsr : t.cpsr = s.cpsr
  memory : memoryKept s t

/-- The four flags of a status register, and its other bits as before (10_state.md R30). -/
structure FlagsAre (old new : Word) (n z c v : Bool) : Prop where
  n : psrN new = n
  z : psrZ new = z
  c : psrC new = c
  v : psrV new = v
  rest : new.extractLsb' 0 28 = old.extractLsb' 0 28

/-- An instruction with condition `c` is executed: the mode is legal and the condition passes
(40_conditional_execution.md R142). -/
structure Runs (c : Cond) (s : State) : Prop where
  mode : s.mode?.isSome = true
  passes : condHolds c s.cpsr = true

/-- The same, where the next sequential address exists (10_state.md R28). -/
structure RunsOn (c : Cond) (s : State) : Prop extends Runs c s where
  notLast : s.pc ≠ 0xFFFFFFFC

/-! ### Exception entry -/

/-- One row of the table of exceptions (60_exceptions.md R401). -/
structure EntryRow where
  mode : Mode
  modeBits : BitVec 5
  vector : Word
  offset : Word
  setsF : Bool
  deriving DecidableEq, Repr

/-- The table (R401), its numbers written out. -/
def entryRow : Exception → EntryRow
  | .undefined => ⟨.und, 0b11011, 0x00000004, 4, false⟩
  | .softwareInterrupt => ⟨.svc, 0b10011, 0x00000008, 4, false⟩
  | .prefetchAbort => ⟨.abt, 0b10111, 0x0000000C, 4, false⟩
  | .dataAbort => ⟨.abt, 0b10111, 0x00000010, 8, false⟩
  | .irq => ⟨.irq, 0b10010, 0x00000018, 4, false⟩
  | .fiq => ⟨.fiq, 0b10001, 0x0000001C, 4, true⟩

/-- `t` is `s` with the exception entered (60_exceptions.md R405). -/
structure Entered (e : Exception) (s t : State) : Prop where
  /-- r14 of the new mode. -/
  link : t.readRegIn (entryRow e).mode 14 = s.pc + (entryRow e).offset
  /-- The SPSR of the new mode is the old CPSR, all 32 bits. -/
  saved : t.spsr (entryRow e).mode = s.cpsr
  modeBits : t.cpsr.extractLsb' 0 5 = (entryRow e).modeBits
  thumb : psrT t.cpsr = false
  irqOff : psrI t.cpsr = true
  fiqOff : psrF t.cpsr = (psrF s.cpsr || (entryRow e).setsF)
  /-- N, Z, C, V and the reserved bits are unchanged. -/
  rest : t.cpsr.extractLsb' 8 24 = s.cpsr.extractLsb' 8 24
  pc : t.pc = (entryRow e).vector
  registers : registersKept s t [physOf 14 (entryRow e).mode]
  spsrs : ∀ m, m ≠ (entryRow e).mode → t.spsr m = s.spsr m
  memory : memoryKept s t
  coproc : t.coproc = s.coproc
  outside : outsideKept s t

/-! ### Memory accesses -/

/-- The byte of memory at an address. -/
def State.byteAt (s : State) (a : Word) : Byte := Memory.byteAt s.mem a

/-- Aligned for its width (20_memory.md R66). -/
def alignedTo (size : AccessSize) (a : Word) : Bool :=
  match size with
  | .byte => true
  | .half => a.toNat % 2 == 0
  | .word => a.toNat % 4 == 0

/-- Where an access is made: `MISALIGN = rotate` ignores the two low bits of a word access (20_memory.md R67). -/
def State.effectiveAddress (s : State) (size : AccessSize) (a : Word) : Word :=
  match size, s.platform.misalign with
  | .word, .rotate => a &&& 0xFFFFFFFC
  | _, _ => a

/-- The access is made: it is aligned, and `MemSys` does not fault it (R65). -/
structure Accessible (s : State) (kind : AccessKind) (size : AccessSize) (a : Word) (privileged : Bool) : Prop where
  aligned : alignedTo size (s.effectiveAddress size a) = true
  allowed : memFaults s.platform.memSys (s.effectiveAddress size a) size kind privileged = false

/-- The access is aligned and `MemSys` faults it (R65). -/
structure Faulting (s : State) (kind : AccessKind) (size : AccessSize) (a : Word) (privileged : Bool) : Prop where
  aligned : alignedTo size (s.effectiveAddress size a) = true
  faults : memFaults s.platform.memSys (s.effectiveAddress size a) size kind privileged = true

/-- The zero-extended value in memory of an access at an address. -/
def State.valueAt (s : State) (size : AccessSize) (a : Word) : Word :=
  Memory.value s.mem s.platform.endian (s.effectiveAddress size a) size

/-- Byte `k` in ascending address order of a value of `n` bytes (20_memory.md R63). -/
def storedByte (e : Endian) (n : Nat) (v : Word) (k : Nat) : Byte :=
  match e with
  | .little => v.extractLsb' (8 * k) 8
  | .big => v.extractLsb' (8 * (n - 1 - k)) 8

/-- The addresses of `n` bytes from `a` up. -/
def byteRange (a : Word) (n : Nat) : List Word := (List.range n).map fun k => a + BitVec.ofNat 32 k

/-- The bytes of a value stand in memory from `a` up (R63). -/
def holdsValue (t : State) (size : AccessSize) (a v : Word) : Prop :=
  ∀ k, k < accessBytes size →
    t.byteAt (a + BitVec.ofNat 32 k) = storedByte t.platform.endian (accessBytes size) v k

/-- `t` has the value `v` stored from `a` up, every other byte of memory as `s` has it, and those addresses noted as
stored. -/
structure Stored (s t : State) (size : AccessSize) (a v : Word) : Prop where
  bytes : holdsValue t size a v
  others : ∀ b, b ∉ byteRange a (accessBytes size) → t.byteAt b = s.byteAt b
  noted : ∀ b : Word, b.toNat ∈ t.stored ↔ b.toNat ∈ s.stored ∨ b ∈ byteRange a (accessBytes size)

/-- `t` has the words `value i` of the chosen `i` stored, each from `place i` up, every other byte of memory as `s` has
it, and just the addresses of those words noted as stored besides those of `s`. -/
structure StoredWords {ι : Type} (s t : State) (chosen : ι → Prop) (place value : ι → Word) : Prop where
  bytes : ∀ i, chosen i → holdsValue t .word (place i) (value i)
  others : ∀ b, (∀ i, chosen i → b ∉ byteRange (place i) 4) → t.byteAt b = s.byteAt b
  noted : ∀ b : Word, b.toNat ∈ t.stored ↔ b.toNat ∈ s.stored ∨ ∃ i, chosen i ∧ b ∈ byteRange (place i) 4

/-! ### Steps -/

/-- The step reaches the fetch: ARM state, no reset, no interrupt taken, an aligned pc (60_exceptions.md R419). -/
structure Executes (s : State) : Prop where
  arm : psrT s.cpsr = false
  noReset : s.lines.reset = false
  noFiq : (s.lines.fiq && !psrF s.cpsr) = false
  noIrq : (s.lines.irq && !psrI s.cpsr) = false
  aligned : s.pc.toNat % 4 = 0

/-- The fetch gives the four bytes at the pc: `MemSys` allows it, and none of them was stored in this run without
`IFETCH_COHERENT` (20_memory.md R64, R80). -/
structure Fetches (s : State) : Prop extends Executes s where
  allowed : memFaults s.platform.memSys s.pc .word .fetch s.privileged = false
  fresh : s.platform.ifetchCoherent = true ∨ ∀ b, b ∈ byteRange s.pc 4 → b.toNat ∉ s.stored

/-- The four bytes at the pc, in ascending address order. -/
def State.bytesAtPc (s : State) : List Byte := [s.byteAt s.pc, s.byteAt (s.pc + 1), s.byteAt (s.pc + 2), s.byteAt (s.pc + 3)]

/-! ### The pc -/

/-- The value may be loaded to the pc by LDR, or by LDM without `^` (10_state.md R27). -/
def pcLoadable (s : State) (v : Word) : Prop :=
  match s.platform.arch with
  | .v5T => v.extractLsb' 0 2 ≠ 2
  | .v4 | .v4T => v.extractLsb' 0 2 = 0 ∨ s.platform.pcWriteAlign = .mask

/-- The refusal of a value that may not be loaded to the pc. -/
def pcLoadRefusal (s : State) : Refusal :=
  match s.platform.arch with
  | .v5T => .pcLoadAlignment
  | .v4 | .v4T => .pcWriteAlignment

/-- T is `b`, every other bit of the CPSR as before. -/
structure ThumbIs (old new : Word) (b : Bool) : Prop where
  t : psrT new = b
  below : new.extractLsb' 0 5 = old.extractLsb' 0 5
  above : new.extractLsb' 6 26 = old.extractLsb' 6 26

/-- The pc and T after the value `v` is loaded to the pc (10_state.md R27). -/
def PcLoaded (s t : State) (v : Word) : Prop :=
  match s.platform.arch with
  | .v5T => ThumbIs s.cpsr t.cpsr (v.getLsbD 0) ∧ t.pc = v &&& 0xFFFFFFFE
  | .v4 | .v4T => t.cpsr = s.cpsr ∧ t.pc = v &&& 0xFFFFFFFC

/-- The pc and T after a branch to a register value (41_branch.md R153, R154). -/
structure Exchanged (s t : State) (v : Word) : Prop where
  thumb : ThumbIs s.cpsr t.cpsr (v.getLsbD 0)
  toThumb : v.getLsbD 0 = true → t.pc = v &&& 0xFFFFFFFE
  toArm : v.getLsbD 0 = false → t.pc = v &&& 0xFFFFFFFC

/-- What a store of a register stores: r15 is stored as pc + `STORE_PC_OFFSET` (10_state.md R26). -/
def storedRegister (s : State) (m : Mode) (r : Reg) : Word :=
  if r = 15 then
    match s.platform.storePcOffset with
    | .eight => s.pc + 8
    | .twelve => s.pc + 12
  else s.readRegIn m r

/-! ### Data processing -/

/-- The three forms of operand 2 (30_encoding.md R103). -/
inductive Operand2 where
  | imm (o : RotImm)
  | shift (o : ImmShift)
  | reg (o : RegShift)
  deriving DecidableEq, Repr

/-- The instruction of an operation with a form of operand 2. -/
def Operand2.instr (o : Operand2) (op : DpOp) (c : Cond) (f : Bool) (rn rd : Reg) : Instr :=
  match o with
  | .imm i => .dpImm op c f rn rd i
  | .shift i => .dpShift op c f rn rd i
  | .reg i => .dpReg op c f rn rd i

/-- Operand 2 and the shifter carry in a state (43_data_processing.md R181 to R183). -/
def Operand2.value (o : Operand2) (s : State) : Shifted :=
  match o with
  | .imm i => immOperand i s.c
  | .shift i => immShiftOperand i.type i.amount (s.readReg i.rm) s.c
  | .reg i => regShiftOperand i.type ((s.readReg i.rs).extractLsb' 0 8).toNat (s.readReg i.rm) s.c

/-- The register-shift form names no r15 (R183). -/
def Operand2.allowed (o : Operand2) (rn rd : Reg) : Bool :=
  match o with
  | .imm _ | .shift _ => true
  | .reg i => rn != 15 && rd != 15 && i.rs != 15 && i.rm != 15

/-- The result of an operation (R189 to R204), `c` the C flag. -/
def dpResult (op : DpOp) (a b : Word) (c : Bool) : Word :=
  match op with
  | .and | .tst => a &&& b
  | .eor | .teq => a ^^^ b
  | .sub | .cmp => a - b
  | .rsb => b - a
  | .add | .cmn => a + b
  | .adc => a + b + BitVec.ofNat 32 c.toNat
  | .sbc => a - b - BitVec.ofNat 32 (!c).toNat
  | .rsc => b - a - BitVec.ofNat 32 (!c).toNat
  | .orr => a ||| b
  | .mov => b
  | .bic => a &&& ~~~b
  | .mvn => ~~~b

/-- The carry of an operation: after a subtraction, no borrow; `shifter` is the shifter carry (R186, R187, R191 to
R196). -/
def dpCarry (op : DpOp) (a b : Word) (c shifter : Bool) : Bool :=
  match op with
  | .sub | .cmp => decide (b.toNat ≤ a.toNat)
  | .rsb => decide (a.toNat ≤ b.toNat)
  | .add | .cmn => decide (2 ^ 32 ≤ a.toNat + b.toNat)
  | .adc => decide (2 ^ 32 ≤ a.toNat + b.toNat + c.toNat)
  | .sbc => decide (b.toNat + (!c).toNat ≤ a.toNat)
  | .rsc => decide (a.toNat + (!c).toNat ≤ b.toNat)
  | .and | .tst | .eor | .teq | .orr | .mov | .bic | .mvn => shifter

/-- The exact signed result of an arithmetic operation; none for a logical one. -/
def dpExact (op : DpOp) (a b : Word) (c : Bool) : Option Int :=
  match op with
  | .sub | .cmp => some (a.toInt - b.toInt)
  | .rsb => some (b.toInt - a.toInt)
  | .add | .cmn => some (a.toInt + b.toInt)
  | .adc => some (a.toInt + b.toInt + c.toNat)
  | .sbc => some (a.toInt - b.toInt - (!c).toNat)
  | .rsc => some (b.toInt - a.toInt - (!c).toNat)
  | .and | .tst | .eor | .teq | .orr | .mov | .bic | .mvn => none

/-- The overflow of an operation: its exact result is outside the signed 32-bit range; a logical operation leaves V as
it was (R186, R187). -/
def dpOverflow (op : DpOp) (a b : Word) (c v : Bool) : Bool :=
  match dpExact op a b c with
  | some x => decide (x < -2 ^ 31) || decide (2 ^ 31 ≤ x)
  | none => v

/-- The flags an operation leaves (R186, R187). -/
def DpFlags (op : DpOp) (s t : State) (a : Word) (o : Shifted) : Prop :=
  FlagsAre s.cpsr t.cpsr ((dpResult op a o.value s.c).getLsbD 31) (dpResult op a o.value s.c == 0)
    (dpCarry op a o.value s.c o.carry) (dpOverflow op a o.value s.c s.v)

/-! ### Multiplies -/

/-- The flags after a multiply: N and Z with S, of V only that the short forms leave it; nothing is said of C
(44_multiply_clz.md R231). -/
def MultiplyFlags (s t : State) (f long n z : Bool) : Prop :=
  if f then
    psrN t.cpsr = n ∧ psrZ t.cpsr = z ∧ (long = false → psrV t.cpsr = psrV s.cpsr)
      ∧ t.cpsr.extractLsb' 0 28 = s.cpsr.extractLsb' 0 28
  else t.cpsr = s.cpsr

/-- The four long multiplies. -/
inductive LongForm where
  | umull | umlal | smull | smlal
  deriving DecidableEq, Repr

/-- The instruction of a long form. -/
def LongForm.instr (l : LongForm) (c : Cond) (f : Bool) (rdHi rdLo rs rm : Reg) : Instr :=
  match l with
  | .umull => .umull c f rdHi rdLo rs rm
  | .umlal => .umlal c f rdHi rdLo rs rm
  | .smull => .smull c f rdHi rdLo rs rm
  | .smlal => .smlal c f rdHi rdLo rs rm

/-- The exact result of a long form from Rm, Rs and RdHi : RdLo (R234 to R237). -/
def LongForm.exact (l : LongForm) (a b : Word) (acc : BitVec 64) : Int :=
  match l with
  | .umull => (a.toNat : Int) * b.toNat
  | .umlal => (a.toNat : Int) * b.toNat + acc.toNat
  | .smull => a.toInt * b.toInt
  | .smlal => a.toInt * b.toInt + acc.toInt

/-! ### Transfers -/

/-- The forms of the word and byte transfers: pre-indexed, post-indexed, and the T forms
(45_single_data_transfer.md R263). -/
inductive SingleForm where
  | preImm (u w : Bool) (off : BitVec 12)
  | postImm (u : Bool) (off : BitVec 12)
  | preReg (u w : Bool) (o : ImmShift)
  | postReg (u : Bool) (o : ImmShift)
  | userImm (u : Bool) (off : BitVec 12)
  | userReg (u : Bool) (o : ImmShift)
  deriving DecidableEq, Repr

/-- LDR or LDRT in a form. -/
def SingleForm.ldr (f : SingleForm) (c : Cond) (rn rd : Reg) : Instr :=
  match f with
  | .preImm u w off => .ldrPreImm c u w rn rd off
  | .postImm u off => .ldrPostImm c u rn rd off
  | .preReg u w o => .ldrPreReg c u w rn rd o
  | .postReg u o => .ldrPostReg c u rn rd o
  | .userImm u off => .ldrtImm c u rn rd off
  | .userReg u o => .ldrtReg c u rn rd o

/-- STR or STRT in a form. -/
def SingleForm.str (f : SingleForm) (c : Cond) (rn rd : Reg) : Instr :=
  match f with
  | .preImm u w off => .strPreImm c u w rn rd off
  | .postImm u off => .strPostImm c u rn rd off
  | .preReg u w o => .strPreReg c u w rn rd o
  | .postReg u o => .strPostReg c u rn rd o
  | .userImm u off => .strtImm c u rn rd off
  | .userReg u o => .strtReg c u rn rd o

/-- LDRB or LDRBT in a form. -/
def SingleForm.ldrb (f : SingleForm) (c : Cond) (rn rd : Reg) : Instr :=
  match f with
  | .preImm u w off => .ldrbPreImm c u w rn rd off
  | .postImm u off => .ldrbPostImm c u rn rd off
  | .preReg u w o => .ldrbPreReg c u w rn rd o
  | .postReg u o => .ldrbPostReg c u rn rd o
  | .userImm u off => .ldrbtImm c u rn rd off
  | .userReg u o => .ldrbtReg c u rn rd o

/-- STRB or STRBT in a form. -/
def SingleForm.strb (f : SingleForm) (c : Cond) (rn rd : Reg) : Instr :=
  match f with
  | .preImm u w off => .strbPreImm c u w rn rd off
  | .postImm u off => .strbPostImm c u rn rd off
  | .preReg u w o => .strbPreReg c u w rn rd o
  | .postReg u o => .strbPostReg c u rn rd o
  | .userImm u off => .strbtImm c u rn rd off
  | .userReg u o => .strbtReg c u rn rd o

/-- The addressing of a form, as the meanings use it. -/
def SingleForm.indexing (f : SingleForm) (s : State) (rn : Reg) : Indexing :=
  match f with
  | .preImm u w off => immIndexing true u w rn off
  | .postImm u off => immIndexing false u false rn off
  | .preReg u w o => s.regIndexing true u w rn o
  | .postReg u o => s.regIndexing false u false rn o
  | .userImm u off => immIndexing false u true rn off
  | .userReg u o => s.regIndexing false u true rn o

/-- The register of a register offset. -/
def SingleForm.offsetReg? : SingleForm → Option Reg
  | .preImm _ _ _ | .postImm _ _ | .userImm _ _ => none
  | .preReg _ _ o | .postReg _ o | .userReg _ o => some o.rm

/-- One of the T forms, whose access is a user-mode access (R259 to R262). -/
def SingleForm.isUser : SingleForm → Bool
  | .preImm _ _ _ | .postImm _ _ | .preReg _ _ _ | .postReg _ _ => false
  | .userImm _ _ | .userReg _ _ => true

/-- The privilege of the access of a form (20_memory.md R65, R76). -/
def SingleForm.privileged (f : SingleForm) (s : State) : Bool := !f.isUser && s.privileged

/-- The restrictions on write-back and offset register (45_single_data_transfer.md R250, R251). -/
def transferAllowed (writeBack : Bool) (rn rd : Reg) (offsetReg : Option Reg) : Bool :=
  (!writeBack || (rn != 15 && rn != rd)) && offsetReg != some 15 && (!writeBack || offsetReg != some rn)

/-- The forms of the half-word family: immediate and register offset (46_halfword_signed_transfer.md R280). -/
inductive HalfForm where
  | imm (off : BitVec 8)
  | reg (rm : Reg)
  deriving DecidableEq, Repr

/-- The three loads of the half-word family. -/
inductive HalfLoad where
  | ldrh | ldrsb | ldrsh
  deriving DecidableEq, Repr

/-- A load of the half-word family in a form. -/
def HalfLoad.instr (l : HalfLoad) (f : HalfForm) (c : Cond) (p u w : Bool) (rn rd : Reg) : Instr :=
  match l, f with
  | .ldrh, .imm off => .ldrhImm c p u w rn rd off
  | .ldrh, .reg rm => .ldrhReg c p u w rn rd rm
  | .ldrsb, .imm off => .ldrsbImm c p u w rn rd off
  | .ldrsb, .reg rm => .ldrsbReg c p u w rn rd rm
  | .ldrsh, .imm off => .ldrshImm c p u w rn rd off
  | .ldrsh, .reg rm => .ldrshReg c p u w rn rd rm

/-- STRH in a form. -/
def HalfForm.strh (f : HalfForm) (c : Cond) (p u w : Bool) (rn rd : Reg) : Instr :=
  match f with
  | .imm off => .strhImm c p u w rn rd off
  | .reg rm => .strhReg c p u w rn rd rm

/-- The width of the access of a load of the family (20_memory.md R69). -/
def HalfLoad.size : HalfLoad → AccessSize
  | .ldrh | .ldrsh => .half
  | .ldrsb => .byte

/-- What a load of the family makes of the value read, in exact arithmetic: LDRH nothing, the others take the top bit
of the value read as a sign (R283, R285, R286). -/
def HalfLoad.extended (l : HalfLoad) (v : Word) : Int :=
  match l with
  | .ldrh => v.toNat
  | .ldrsb => if v.toNat < 2 ^ 7 then v.toNat else v.toNat - 2 ^ 8
  | .ldrsh => if v.toNat < 2 ^ 15 then v.toNat else v.toNat - 2 ^ 16

/-- The addressing of a form, as the meanings use it. -/
def HalfForm.indexing (f : HalfForm) (s : State) (p u w : Bool) (rn : Reg) : Indexing :=
  match f with
  | .imm off => halfImmIndexing p u w rn off
  | .reg rm => s.halfRegIndexing p u w rn rm

/-- The register of a register offset. -/
def HalfForm.offsetReg? : HalfForm → Option Reg
  | .imm _ => none
  | .reg rm => some rm

/-- How many registers of a list have a lower number (47_multiple_transfer_swap.md R302). -/
def listRank (list : BitVec 16) (r : Nat) : Nat := ((List.range r).filter fun j => list.getLsbD j).length

/-- How many registers a list has (R300). -/
def listCount (list : BitVec 16) : Nat := listRank list 16

/-- The address a listed register is transferred at: the lowest-numbered register at the lowest address (R301,
R302). -/
def State.slotAddress (s : State) (p u : Bool) (rn : Reg) (list : BitVec 16) (r : Reg) : Word :=
  blockStart p u (s.readReg rn) (listCount list) + BitVec.ofNat 32 (4 * listRank list r.toNat)

/-- The base after a block transfer with write-back (R301). -/
def State.newBase (s : State) (u : Bool) (rn : Reg) (list : BitVec 16) : Word :=
  blockNewBase u (s.readReg rn) (listCount list)

/-- Every word of a block transfer can be accessed. -/
def blockAccessible (s : State) (kind : AccessKind) (p u : Bool) (rn : Reg) (list : BitVec 16) : Prop :=
  ∀ r : Reg, list.getLsbD r.toNat = true → Accessible s kind .word (s.slotAddress p u rn list r) s.privileged

/-- The base after a transfer that took a data abort (`ABORT_MODEL`, 45_single_data_transfer.md R253,
47_multiple_transfer_swap.md R311): the state in which the exception is entered. -/
def State.withAbortedBase (s : State) (writeBack : Bool) (rn : Reg) (newBase : Word) : State :=
  if s.platform.abortModel = .baseUpdated ∧ writeBack = true then s.writeReg rn newBase else s

/-- The three forms of LDM: plain, with `^` and r15 in the list, with `^` and without r15
(47_multiple_transfer_swap.md R303, R305, R307). -/
inductive BlockLoad where
  | ldm (list : BitVec 16)
  | ldmReturn (low : BitVec 15)
  | ldmUser (low : BitVec 15)
  deriving DecidableEq, Repr

/-- The whole list of a form. -/
def BlockLoad.list : BlockLoad → BitVec 16
  | .ldm list => list
  | .ldmReturn low => 1#1 ++ low
  | .ldmUser low => 0#1 ++ low

/-- The LDM of a form. -/
def BlockLoad.instr (b : BlockLoad) (c : Cond) (p u w : Bool) (rn : Reg) : Instr :=
  match b with
  | .ldm list => .ldm c p u w rn list
  | .ldmReturn low => .ldmReturn c p u w rn low
  | .ldmUser low => .ldmUser c p u w rn low

/-- The restrictions on list, base and write-back (R300, R306, R307). -/
def BlockLoad.allowed (b : BlockLoad) (w : Bool) (rn : Reg) : Prop :=
  b.list ≠ 0 ∧ rn ≠ 15 ∧
    match b with
    | .ldm _ | .ldmReturn _ => w = true → b.list.getLsbD rn.toNat = false
    | .ldmUser _ => w = false

/-- The two forms of STM: plain and with `^` (47_multiple_transfer_swap.md R304, R310). -/
inductive BlockStore where
  | stm (list : BitVec 16)
  | stmUser (list : BitVec 16)
  deriving DecidableEq, Repr

/-- The list of a form. -/
def BlockStore.list : BlockStore → BitVec 16
  | .stm list => list
  | .stmUser list => list

/-- The STM of a form. -/
def BlockStore.instr (b : BlockStore) (c : Cond) (p u w : Bool) (rn : Reg) : Instr :=
  match b with
  | .stm list => .stm c p u w rn list
  | .stmUser list => .stmUser c p u w rn list

/-- The restrictions on list, base and write-back (R300, R306, R310). -/
def BlockStore.allowed (b : BlockStore) (w : Bool) (rn : Reg) : Prop :=
  b.list ≠ 0 ∧ rn ≠ 15 ∧
    match b with
    | .stm list => w = true → list.getLsbD rn.toNat = true → listRank list rn.toNat = 0
    | .stmUser _ => w = false

/-- The word stored for a register: of the current mode's bank, or of the User-mode bank (R304, R310). -/
def BlockStore.value (b : BlockStore) (s : State) (r : Reg) : Word :=
  match b with
  | .stm _ => storedRegister s s.mode r
  | .stmUser _ => storedRegister s .usr r

/-! ### Coprocessors -/

/-- The count of an LDC or STC and the words are asked of the coprocessor with the option of the unindexed form
(49_coprocessor_brk_unused.md R357). -/
def transferOption (p w : Bool) (off : BitVec 8) : Option (BitVec 8) := if p = false ∧ w = false then some off else none

/-- The operands of an LDC or STC (49_coprocessor_brk_unused.md R353, R354). -/
structure CpTransfer where
  p : Bool
  u : Bool
  n : Bool
  w : Bool
  rn : Reg
  crd : CReg
  cp : CpNum
  off : BitVec 8
  deriving DecidableEq, Repr

/-- The LDC with the operands. -/
def CpTransfer.ldc (f : CpTransfer) (c : Cond) : Instr := .ldc c f.p f.u f.n f.w f.rn f.crd f.cp f.off

/-- The STC with the operands. -/
def CpTransfer.stc (f : CpTransfer) (c : Cond) : Instr := .stc c f.p f.u f.n f.w f.rn f.crd f.cp f.off

/-- The restrictions on the operands (R357). -/
def CpTransfer.allowed (f : CpTransfer) : Bool := coprocessorTransferWf f.p f.u f.w f.rn

/-- The addressing, as the meanings use it. -/
def CpTransfer.indexing (f : CpTransfer) : Indexing := coprocessorIndexing f.p f.u f.w f.rn f.off

/-- The option the coprocessor is given: the offset byte, in the unindexed form. -/
def CpTransfer.option (f : CpTransfer) : Option (BitVec 8) := transferOption f.p f.w f.off

/-- The address of the `j`-th word. -/
def CpTransfer.wordAddress (f : CpTransfer) (s : State) (j : Nat) : Word :=
  s.addressOf f.indexing + BitVec.ofNat 32 (4 * j)

/-- How many words the coprocessor takes (R351). -/
def CpTransfer.loadCount (f : CpTransfer) (s : State) : Nat :=
  (Config.cpLdcCount f.cp (s.cpState f.cp) f.n f.crd f.option).val + 1

/-- How many words the coprocessor supplies (R351). -/
def CpTransfer.storeCount (f : CpTransfer) (s : State) : Nat :=
  (Config.cpStcCount f.cp (s.cpState f.cp) f.n f.crd f.option).val + 1

/-- The coprocessor's state after it has received the first `k` words (R353). -/
def CpTransfer.received (f : CpTransfer) (s : State) (k : Nat) : CpState :=
  (List.range k).foldl (fun st j => Config.cpLdcWord f.cp st f.n f.crd f.option j (s.valueAt .word (f.wordAddress s j)))
    (s.cpState f.cp)

/-- The `j`-th word the coprocessor supplies (R354). -/
def CpTransfer.supplied (f : CpTransfer) (s : State) (j : Nat) : Word :=
  Config.cpStcWord f.cp (s.cpState f.cp) f.n f.crd f.option j

/-- The frame of a coprocessor instruction: one coprocessor's state becomes `x`, and the listed registers, the pc and
memory may change, nothing else. -/
structure CoprocFrame (s t : State) (cp : CpNum) (x : CpState) (except : List (Option PhysReg)) : Prop where
  own : t.cpState cp = x
  others : ∀ n, n ≠ cp → t.cpState n = s.cpState n
  registers : registersKept s t except
  cpsr : t.cpsr = s.cpsr
  spsrs : spsrsKept s t
  outside : outsideKept s t

/-! ### User mode -/

/-- The two states agree on all that User mode can name: everything but the banked registers and the SPSRs
(10_state.md R23, R35). The counter of free values is the model's own: equal counters draw equal values
(notes/assumptions/8.md). -/
structure UserAgree (s t : State) : Prop where
  usr : t.usr = s.usr
  pc : t.pc = s.pc
  cpsr : t.cpsr = s.cpsr
  mem : t.mem = s.mem
  stored : t.stored = s.stored
  coproc : t.coproc = s.coproc
  inputs : t.inputs = s.inputs
  platform : t.platform = s.platform
  draws : t.draws = s.draws

/-- Two results agree: both go on, in states that agree, or both stop for the same reason. -/
def outcomesAgree (agree : State → State → Prop) (a b : Result State) : Prop :=
  match a, b with
  | .next s, .next t => agree s t
  | .fault f, .fault g => f = g
  | .refused f, .refused g => f = g
  | _, _ => False

/-- What an instruction of User mode leaves of the privileged state: the mode, I, F and the reserved bits, every banked
register and every SPSR are as before (60_exceptions.md R431). -/
structure UserContained (s t : State) : Prop where
  modeBits : t.cpsr.extractLsb' 0 5 = s.cpsr.extractLsb' 0 5
  interrupts : t.cpsr.extractLsb' 6 22 = s.cpsr.extractLsb' 6 22
  banks : ∀ p, (∀ i, p ≠ .usr i) → t.readPhys p = s.readPhys p
  spsrs : spsrsKept s t

/-- What an exception entry from User mode leaves of the privileged state: r14 and the SPSR of the new mode are
written, no other banked register and no other SPSR (60_exceptions.md R405). -/
structure UserEntered (e : Exception) (s t : State) : Prop where
  modeBits : t.cpsr.extractLsb' 0 5 = (entryRow e).modeBits
  pc : t.pc = (entryRow e).vector
  link : t.readRegIn (entryRow e).mode 14 = s.pc + (entryRow e).offset
  saved : t.spsr (entryRow e).mode = s.cpsr
  banks : ∀ p, (∀ i, p ≠ .usr i) → some p ≠ physOf 14 (entryRow e).mode → t.readPhys p = s.readPhys p
  spsrs : ∀ m, m ≠ (entryRow e).mode → t.spsr m = s.spsr m

end Sys2Proof.Machine

namespace Sys2Proof

/-- The condition an instruction carries; BLX label carries none, and that of BRK is 1110
(40_conditional_execution.md R143, 49_coprocessor_brk_unused.md R359). -/
def Instr.cond? : Instr → Option Cond
  | .andImm c _ _ _ _ => some c
  | .andShift c _ _ _ _ => some c
  | .andReg c _ _ _ _ => some c
  | .eorImm c _ _ _ _ => some c
  | .eorShift c _ _ _ _ => some c
  | .eorReg c _ _ _ _ => some c
  | .subImm c _ _ _ _ => some c
  | .subShift c _ _ _ _ => some c
  | .subReg c _ _ _ _ => some c
  | .rsbImm c _ _ _ _ => some c
  | .rsbShift c _ _ _ _ => some c
  | .rsbReg c _ _ _ _ => some c
  | .addImm c _ _ _ _ => some c
  | .addShift c _ _ _ _ => some c
  | .addReg c _ _ _ _ => some c
  | .adcImm c _ _ _ _ => some c
  | .adcShift c _ _ _ _ => some c
  | .adcReg c _ _ _ _ => some c
  | .sbcImm c _ _ _ _ => some c
  | .sbcShift c _ _ _ _ => some c
  | .sbcReg c _ _ _ _ => some c
  | .rscImm c _ _ _ _ => some c
  | .rscShift c _ _ _ _ => some c
  | .rscReg c _ _ _ _ => some c
  | .tstImm c _ _ _ => some c
  | .tstShift c _ _ _ => some c
  | .tstReg c _ _ _ => some c
  | .teqImm c _ _ _ => some c
  | .teqShift c _ _ _ => some c
  | .teqReg c _ _ _ => some c
  | .cmpImm c _ _ _ => some c
  | .cmpShift c _ _ _ => some c
  | .cmpReg c _ _ _ => some c
  | .cmnImm c _ _ _ => some c
  | .cmnShift c _ _ _ => some c
  | .cmnReg c _ _ _ => some c
  | .orrImm c _ _ _ _ => some c
  | .orrShift c _ _ _ _ => some c
  | .orrReg c _ _ _ _ => some c
  | .movImm c _ _ _ _ => some c
  | .movShift c _ _ _ _ => some c
  | .movReg c _ _ _ _ => some c
  | .bicImm c _ _ _ _ => some c
  | .bicShift c _ _ _ _ => some c
  | .bicReg c _ _ _ _ => some c
  | .mvnImm c _ _ _ _ => some c
  | .mvnShift c _ _ _ _ => some c
  | .mvnReg c _ _ _ _ => some c
  | .mul c _ _ _ _ _ => some c
  | .mla c _ _ _ _ _ => some c
  | .umull c _ _ _ _ _ => some c
  | .umlal c _ _ _ _ _ => some c
  | .smull c _ _ _ _ _ => some c
  | .smlal c _ _ _ _ _ => some c
  | .swp c _ _ _ => some c
  | .swpb c _ _ _ => some c
  | .bx c _ => some c
  | .blxReg c _ => some c
  | .clz c _ _ => some c
  | .brk _ => some .al
  | .mrs c _ _ => some c
  | .msrReg c _ _ _ => some c
  | .msrImm c _ _ _ => some c
  | .strhImm c _ _ _ _ _ _ => some c
  | .strhReg c _ _ _ _ _ _ => some c
  | .ldrhImm c _ _ _ _ _ _ => some c
  | .ldrhReg c _ _ _ _ _ _ => some c
  | .ldrsbImm c _ _ _ _ _ _ => some c
  | .ldrsbReg c _ _ _ _ _ _ => some c
  | .ldrshImm c _ _ _ _ _ _ => some c
  | .ldrshReg c _ _ _ _ _ _ => some c
  | .ldrPreImm c _ _ _ _ _ => some c
  | .ldrPostImm c _ _ _ _ => some c
  | .ldrPreReg c _ _ _ _ _ => some c
  | .ldrPostReg c _ _ _ _ => some c
  | .strPreImm c _ _ _ _ _ => some c
  | .strPostImm c _ _ _ _ => some c
  | .strPreReg c _ _ _ _ _ => some c
  | .strPostReg c _ _ _ _ => some c
  | .ldrbPreImm c _ _ _ _ _ => some c
  | .ldrbPostImm c _ _ _ _ => some c
  | .ldrbPreReg c _ _ _ _ _ => some c
  | .ldrbPostReg c _ _ _ _ => some c
  | .strbPreImm c _ _ _ _ _ => some c
  | .strbPostImm c _ _ _ _ => some c
  | .strbPreReg c _ _ _ _ _ => some c
  | .strbPostReg c _ _ _ _ => some c
  | .ldrtImm c _ _ _ _ => some c
  | .ldrtReg c _ _ _ _ => some c
  | .strtImm c _ _ _ _ => some c
  | .strtReg c _ _ _ _ => some c
  | .ldrbtImm c _ _ _ _ => some c
  | .ldrbtReg c _ _ _ _ => some c
  | .strbtImm c _ _ _ _ => some c
  | .strbtReg c _ _ _ _ => some c
  | .undefined c _ _ => some c
  | .ldm c _ _ _ _ _ => some c
  | .stm c _ _ _ _ _ => some c
  | .ldmReturn c _ _ _ _ _ => some c
  | .ldmUser c _ _ _ _ _ => some c
  | .stmUser c _ _ _ _ _ => some c
  | .b c _ => some c
  | .bl c _ => some c
  | .blxLabel _ _ => none
  | .ldc c _ _ _ _ _ _ _ _ => some c
  | .stc c _ _ _ _ _ _ _ _ => some c
  | .cdp c _ _ _ _ _ _ => some c
  | .mcr c _ _ _ _ _ _ => some c
  | .mrc c _ _ _ _ _ _ => some c
  | .swi c _ => some c
  | .unallocated c _ => some c

/-- The coprocessor a coprocessor instruction names (49_coprocessor_brk_unused.md R352 to R356). -/
def Instr.coprocessor? : Instr → Option CpNum
  | .ldc _ _ _ _ _ _ _ cp _ => some cp
  | .stc _ _ _ _ _ _ _ cp _ => some cp
  | .cdp _ _ _ _ cp _ _ => some cp
  | .mcr _ _ _ _ cp _ _ => some cp
  | .mrc _ _ _ _ cp _ _ => some cp
  | _ => none

/-- LDC or STC with P = 0, U = 0, W = 0 (49_coprocessor_brk_unused.md R357, R361). -/
def Instr.unindexedDown : Instr → Bool
  | .ldc _ p u _ w _ _ _ _ => !p && !u && !w
  | .stc _ p u _ w _ _ _ _ => !p && !u && !w
  | _ => false

/-- The condition field of an instruction: 1111 for BLX label (30_encoding.md R102, R116). -/
def Instr.condField (i : Instr) : BitVec 4 :=
  match i.cond? with
  | some c => c.bits
  | none => 15

end Sys2Proof
end

