-- ==== Sys2Proof/Certificates/Slice0/Obligations.lean ====
section
/-!
DEFINITION. The statements about the machine, each from the numbered rules of the spec it cites.
-/

section

open Sys2Proof Sys2Proof.Machine

/-! ### Encoding -/

/-- Words the spec works out decode to the instructions they stand for (41_branch.md R150 to R155, 43_data_processing.md
R189 to R202, 44_multiply_clz.md R232 to R238, 45 to 49 in their examples). -/
def Obligations.SampleWordsDecode : Prop :=
  decode 0xE21100FF = .ok (.andImm .al true 1 0 ⟨0, 0xFF⟩) ∧
  decode 0xE1B000A1 = .ok (.movShift .al true 0 0 ⟨1, .lsr, 1⟩) ∧
  decode 0xE3700001 = .ok (.cmnImm .al 0 0 ⟨0, 1⟩) ∧
  decode 0xBAFFFFFB = .ok (.b .lt 0xFFFFFB) ∧
  decode 0xE12FFF32 = .ok (.blxReg .al 2) ∧
  decode 0xFB000006 = .ok (.blxLabel true 6) ∧
  decode 0xEF000011 = .ok (.swi .al 0x11) ∧
  decode 0xE0203291 = .ok (.mla .al false 0 3 2 1) ∧
  decode 0xE0810392 = .ok (.umull .al false 1 0 3 2) ∧
  decode 0xE16F0F11 = .ok (.clz .al 0 1) ∧
  decode 0xE59F1008 = .ok (.ldrPreImm .al true false 15 1 8) ∧
  decode 0xE4820004 = .ok (.strPostImm .al true 2 0 4) ∧
  decode 0xE0D100F2 = .ok (.ldrshImm .al false true false 1 0 2) ∧
  decode 0xE8FD800F = .ok (.ldmReturn .al false true true 13 0xF) ∧
  decode 0xE1401091 = .ok (.swpb .al 0 1 1) ∧
  decode 0xE14F3000 = .ok (.mrs .al true 3) ∧
  decode 0xE328F20F = .ok (.msrImm .al false 8 ⟨2, 0x0F⟩) ∧
  decode 0x0CE01501 = .ok (.stc .eq false true true true 0 1 5 1) ∧
  decode 0x2E9332D4 = .ok (.mrc .cs 4 3 3 2 6 4) ∧
  decode 0xE7F000F0 = .ok (.undefined .al 0xF8007 0)

/-- Every well-formed instruction is read back from its word, with every operand at every value. -/
def Obligations.DecodeEncode : Prop := ∀ i : Instr, i.wf = true → decode (encode i) = .ok i

/-- Every word that decodes is the word of the instruction it decodes to: no bit is dropped and no two words are one
instruction. -/
def Obligations.EncodeDecode : Prop := ∀ w i, decode w = .ok i → encode i = w

/-- A word with a condition is an unused encoding just if its bits match no row of the opcode table, or match the BRK
row with a condition other than 1110 (30_encoding.md R135, R110). -/
def Obligations.UnallocatedIffNoRow : Prop :=
  ∀ w c, Cond.ofBits (w.extractLsb' 28 4) = some c →
    ((∃ body, decode w = .ok (.unallocated c body)) ↔
      (∀ r ∈ opcodeRows, w.extractLsb' 0 28 &&& r.mask ≠ r.value)
        ∨ (c ≠ .al ∧ w.extractLsb' 20 8 = 0x12 ∧ w.extractLsb' 4 4 = 7))

/-! ### Reset and the invariant -/

/-- After reset the pc is 0, the mode is SVC, IRQ and FIQ are disabled, and the core is in ARM state (10_state.md R45,
60_exceptions.md R413). That F is 1 is the spec's decision D11, and that T is 0 its general knowledge. -/
def Obligations.ResetValues : Prop :=
  State.reset.pc = 0 ∧ State.reset.cpsr.extractLsb' 0 5 = 0b10011 ∧ psrI State.reset.cpsr = true
    ∧ psrF State.reset.cpsr = true ∧ psrT State.reset.cpsr = false

/-- The state after reset meets the invariant. -/
def Obligations.ResetMeetsInvariant : Prop := State.reset.Inv

/-- Every step from a state that meets the invariant leads to one that meets it: a legal mode (10_state.md R33), a pc
aligned for the state it is in (20_memory.md R68), reserved PSR bits stored as zero (10_state.md R34), memory and the
list of stored addresses in canonical form; and so does every run, whatever `HALT` ends it (00_scope.md R5). That no
write leaves an illegal mode is the spec's decision D23, and that reserved bits stay zero whatever `PSR_RESERVED` is the
model's (notes/assumptions/22.md); the canonical forms are the model's own. -/
def Obligations.StepKeepsInvariant : Prop :=
  (∀ s t : State, s.Inv → step s = .next t → t.Inv) ∧
  (∀ (halt : State → Bool) (n : Nat) (s t : State), s.Inv → run halt n s = .next t → t.Inv)

/-- No step changes a parameter, and every step takes the inputs of one step (10_state.md R40, 20_memory.md R62). That
both stand in the state is the model's choice (notes/assumptions/1.md, 6.md). -/
def Obligations.StepKeepsParameters : Prop :=
  ∀ s t : State, step s = .next t → t.platform = s.platform ∧ t.inputs = s.inputs.tail

/-! ### The step -/

/-- The step runs the instruction whose four bytes stand at the pc, on the state with the inputs of the step taken
(60_exceptions.md R419 steps 4 to 6, 20_memory.md R64). -/
def Obligations.StepRunsDecodedInstruction : Prop :=
  ∀ (s : State) (i : Instr), Fetches s → decodeBytes s.platform.endian s.bytesAtPc = .ok (i, []) →
    step s = exec i s.nextInputs

/-- Reset beats FIQ, and FIQ beats IRQ; each is taken before the instruction at the pc, and a disabled one is not: with
each line low or disabled the step goes on to that instruction (60_exceptions.md R411, R418; the order of the step is
the spec's inference R419). -/
def Obligations.StepTakesInterrupts : Prop :=
  ∀ s : State, psrT s.cpsr = false →
    (s.lines.reset = true → step s = .next (resetEntry s.nextInputs)) ∧
    (s.lines.reset = false → s.lines.fiq = true → psrF s.cpsr = false →
      ∃ t, step s = .next t ∧ Entered .fiq s.nextInputs t) ∧
    (s.lines.reset = false → (s.lines.fiq = false ∨ psrF s.cpsr = true) → s.lines.irq = true → psrI s.cpsr = false →
      ∃ t, step s = .next t ∧ Entered .irq s.nextInputs t) ∧
    (s.lines.reset = false → (s.lines.fiq = false ∨ psrF s.cpsr = true) → (s.lines.irq = false ∨ psrI s.cpsr = true) →
      s.pc.toNat % 4 = 0 → step s = executeAtPc s.nextInputs)

/-- A reset step leaves pc = 0, SVC mode, I = F = 1, T = 0; memory and the parameters are as before (60_exceptions.md
R413, 10_state.md R45). That memory is kept is the model's choice (notes/assumptions/20.md). -/
def Obligations.ResetStep : Prop :=
  ∀ s : State, psrT s.cpsr = false → s.lines.reset = true →
    ∃ t, step s = .next t ∧ t.pc = 0 ∧ t.cpsr.extractLsb' 0 5 = 0b10011 ∧ psrI t.cpsr = true ∧ psrF t.cpsr = true
      ∧ psrT t.cpsr = false ∧ memoryKept s t ∧ t.platform = s.platform

/-- A fetch that the memory system faults takes the prefetch abort, whatever the word (60_exceptions.md R403). That it
does so too where the word covers a byte stored in the run, which 20_memory.md R80 calls UNPREDICTABLE, is the model's
choice: the fault comes first (notes/assumptions/21.md). -/
def Obligations.FetchFaultAborts : Prop :=
  ∀ s : State, Executes s → memFaults s.platform.memSys s.pc .word .fetch s.privileged = true →
    ∃ t, step s = .next t ∧ Entered .prefetchAbort s.nextInputs t

/-- A state with T = 1 has no step, a byte stored in the run is not fetched without `IFETCH_COHERENT`, and a word with
condition 1111 that is not BLX label is refused (00_scope.md R4, 20_memory.md R80, 30_encoding.md R128: the spec's
decisions D4, D14, D15). -/
def Obligations.StepRefuses : Prop :=
  (∀ s : State, psrT s.cpsr = true → step s = .refused .thumbState) ∧
  (∀ s : State, Executes s → memFaults s.platform.memSys s.pc .word .fetch s.privileged = false →
    s.platform.ifetchCoherent = false → (∃ b ∈ byteRange s.pc 4, b.toNat ∈ s.stored) →
    step s = .refused .fetchAfterStore) ∧
  (∀ s : State, Fetches s →
    (Memory.value s.mem s.platform.endian s.pc .word).extractLsb' 28 4 = 15 →
    (Memory.value s.mem s.platform.endian s.pc .word).extractLsb' 25 3 ≠ 5 → step s = .refused .condition1111)

/-! ### Exceptions -/

/-- Exception entry: r14 and the SPSR of the new mode, the CPSR and the pc are as the table says, nothing else changes
(60_exceptions.md R401, R405; that T is cleared is the spec's decision D28). -/
def Obligations.ExceptionEntry : Prop :=
  ∀ (e : Exception) (s : State),
    Entered e s (takeException e s) ∧ (takeException e s).mode? = some (entryRow e).mode

/-- SWI enters SVC mode at 0x08 in every mode, and BRK, at v5T, Abort mode at 0x0C (42_software_interrupt.md R170,
49_coprocessor_brk_unused.md R359: the spec's decisions D19 and D30). -/
def Obligations.SwiAndBrkEnter : Prop :=
  (∀ c imm s, Runs c s → ∃ t, exec (.swi c imm) s = .next t ∧ Entered .softwareInterrupt s t) ∧
  (∀ imm s, s.mode?.isSome = true → s.platform.arch = .v5T →
    ∃ t, exec (.brk imm) s = .next t ∧ Entered .prefetchAbort s t)

/-- The undefined instruction space and every other unused encoding take the undefined instruction trap
(49_coprocessor_brk_unused.md R362, the spec's decision D16); at v5T the BRK pattern with a condition other than 1110 is refused (R359; the
model's reading, notes/assumptions/15.md). -/
def Obligations.UnusedEncodingsTrap : Prop :=
  (∀ c high low s, Runs c s → ∃ t, exec (.undefined c high low) s = .next t ∧ Entered .undefined s t) ∧
  (∀ c body s, Runs c s → ¬ (s.platform.arch = .v5T ∧ isBreakpointBody body = true) →
    ∃ t, exec (.unallocated c body) s = .next t ∧ Entered .undefined s t) ∧
  (∀ c body s, Runs c s → s.platform.arch = .v5T → isBreakpointBody body = true →
    exec (.unallocated c body) s = .refused .breakpointCondition)

/-- An instruction that the architecture version lacks takes the undefined instruction trap; BLX label below v5T is
refused (00_scope.md R2, 41_branch.md R152, 49_coprocessor_brk_unused.md R362; 30_encoding.md R128, the spec's decision
D15). -/
def Obligations.OlderVersionsTrap : Prop :=
  (∀ c rm s, Runs c s → s.platform.arch = .v4 → ∃ t, exec (.bx c rm) s = .next t ∧ Entered .undefined s t) ∧
  (∀ c rm s, Runs c s → s.platform.arch ≠ .v5T → ∃ t, exec (.blxReg c rm) s = .next t ∧ Entered .undefined s t) ∧
  (∀ c rd rm s, Runs c s → s.platform.arch ≠ .v5T → ∃ t, exec (.clz c rd rm) s = .next t ∧ Entered .undefined s t) ∧
  (∀ imm s, s.mode?.isSome = true → s.platform.arch ≠ .v5T →
    ∃ t, exec (.brk imm) s = .next t ∧ Entered .undefined s t) ∧
  (∀ h off s, s.mode?.isSome = true → s.platform.arch ≠ .v5T →
    exec (.blxLabel h off) s = .refused .condition1111)

/-- A coprocessor instruction whose coprocessor is absent, or present and not accepting it, takes the undefined
instruction trap (49_coprocessor_brk_unused.md R351, R358); LDC and STC with P = U = W = 0 are refused, not trapped,
whatever the coprocessor (R361). That R361 comes before the traps of R351 and R358 is the model's reading
(notes/assumptions/14.md). -/
def Obligations.AbsentCoprocessorTraps : Prop :=
  (∀ (i : Instr) (cp : CpNum) (c : Cond) (s : State), i.coprocessor? = some cp → i.cond? = some c → Runs c s →
    i.unindexedDown = false →
    (s.platform.coproc.get (cpIndex cp) = none ∨ s.cpAccepts cp (encode i) = false) →
    ∃ t, exec i s = .next t ∧ Entered .undefined s t) ∧
  (∀ (i : Instr) (c : Cond) (s : State), i.unindexedDown = true → i.cond? = some c → Runs c s →
    exec i s = .refused .unindexedDown)

/-- An instruction whose operands break a restriction that holds in every state is refused, for every word that decodes
to one, where it is executed at v5T and its coprocessor, if it names one, accepts it (00_scope.md R9, the spec's decision
D20; the list of restrictions is `Instr.wf`). -/
def Obligations.IllFormedRefused : Prop :=
  ∀ (w : Word) (i : Instr) (c : Cond) (s : State), decode w = .ok i → i.wf = false → i.cond? = some c → Runs c s →
    s.platform.arch = .v5T → (∀ cp, i.coprocessor? = some cp → s.cpAccepts cp w = true) →
    ∃ r, exec i s = .refused r

/-! ### Conditions -/

/-- The table of conditions (40_conditional_execution.md R140, R141). -/
def Obligations.ConditionTable : Prop :=
  ∀ p : Word,
    let n := p.getLsbD 31
    let z := p.getLsbD 30
    let c := p.getLsbD 29
    let v := p.getLsbD 28
    (condHolds .eq p = true ↔ z = true) ∧ (condHolds .ne p = true ↔ z = false) ∧
    (condHolds .cs p = true ↔ c = true) ∧ (condHolds .cc p = true ↔ c = false) ∧
    (condHolds .mi p = true ↔ n = true) ∧ (condHolds .pl p = true ↔ n = false) ∧
    (condHolds .vs p = true ↔ v = true) ∧ (condHolds .vc p = true ↔ v = false) ∧
    (condHolds .hi p = true ↔ c = true ∧ z = false) ∧ (condHolds .ls p = true ↔ c = false ∨ z = true) ∧
    (condHolds .ge p = true ↔ n = v) ∧ (condHolds .lt p = true ↔ n ≠ v) ∧
    (condHolds .gt p = true ↔ z = false ∧ n = v) ∧ (condHolds .le p = true ↔ z = true ∨ n ≠ v) ∧
    condHolds .al p = true

/-- Where its condition fails, an instruction only advances the pc (40_conditional_execution.md R142); from the last
word of the address space it is refused (10_state.md R28, the spec's decision D22). -/
def Obligations.FailedConditionOnlyAdvances : Prop :=
  ∀ (i : Instr) (c : Cond) (s : State), i.cond? = some c → s.mode?.isSome = true → condHolds c s.cpsr = false →
    (s.pc ≠ 0xFFFFFFFC → exec i s = .next { s with pc := s.pc + 4 }) ∧
    (s.pc = 0xFFFFFFFC → exec i s = .refused .pcWrap)

/-! ### Registers and memory -/

/-- The register selection (10_state.md R23, the spec's inference from R21), and a write of a register reaches the
selected one and no other. -/
def Obligations.RegisterBanks : Prop :=
  (∀ (s : State) (m : Mode) (r : Nat) (h : r < 15),
    s.readRegIn m (BitVec.ofNat 4 r) =
      if h8 : m = .fiq ∧ 8 ≤ r then s.fiq[r - 8]
      else if m = .irq ∧ r = 13 then s.irq[0] else if m = .irq ∧ r = 14 then s.irq[1]
      else if m = .svc ∧ r = 13 then s.svc[0] else if m = .svc ∧ r = 14 then s.svc[1]
      else if m = .abt ∧ r = 13 then s.abt[0] else if m = .abt ∧ r = 14 then s.abt[1]
      else if m = .und ∧ r = 13 then s.und[0] else if m = .und ∧ r = 14 then s.und[1]
      else s.usr[r]) ∧
  (∀ (s : State) (m : Mode), s.readRegIn m 15 = s.pc + 8) ∧
  (∀ (s : State) (m : Mode) (r : Reg) (v : Word), r ≠ 15 →
    (s.writeRegIn m r v).readRegIn m r = v ∧ registersKept s (s.writeRegIn m r v) [physOf r m])

/-- The mapping of a value to bytes, for reads and for writes, in both byte orders (20_memory.md R63, R65, the spec's
inferences from R62). The list of addresses noted as stored is the model's (notes/assumptions/21.md). -/
def Obligations.MemoryBytes : Prop :=
  (∀ (s : State) (size : AccessSize) (a : Word),
    (∀ k, k < accessBytes size →
      storedByte s.platform.endian (accessBytes size) (Memory.value s.mem s.platform.endian a size) k
        = s.byteAt (a + BitVec.ofNat 32 k)) ∧
    (Memory.value s.mem s.platform.endian a size).toNat < 2 ^ (8 * accessBytes size)) ∧
  (∀ (s : State) (size : AccessSize) (a v : Word), Memory.wf s.mem = true → Stored s (s.setMem size a v) size a v)

/-! ### Data processing -/

/-- Operand 2, immediate form: the byte rotated right by twice the rotation; the carry is C with no rotation and bit
31 of the operand otherwise (43_data_processing.md R181). -/
def Obligations.ImmediateOperand : Prop :=
  ∀ (o : RotImm) (c : Bool),
    (∀ k, k < 32 → (immOperand o c).value.getLsbD k = o.imm.getLsbD ((k + 2 * o.rot.toNat) % 32)) ∧
    (o.rot = 0 → (immOperand o c).carry = c) ∧
    (o.rot ≠ 0 → (immOperand o c).carry = (immOperand o c).value.getLsbD 31)

/-- Operand 2, immediate shift: every row of the table, and r15 read as pc + 8 (43_data_processing.md R182). -/
def Obligations.ImmediateShiftOperand : Prop :=
  (∀ (o : ImmShift) (s : State), Operand2.value (.shift o) s
    = immShiftOperand o.type o.amount (if o.rm = 15 then s.pc + 8 else s.readReg o.rm) s.c) ∧
  ∀ (m : Word) (c : Bool),
    immShiftOperand .lsl 0 m c = ⟨m, c⟩ ∧
    ((immShiftOperand .lsr 0 m c).value = 0 ∧ (immShiftOperand .lsr 0 m c).carry = m.getLsbD 31) ∧
    ((immShiftOperand .asr 0 m c).value = (if m.getLsbD 31 then 0xFFFFFFFF else 0)
      ∧ (immShiftOperand .asr 0 m c).carry = m.getLsbD 31) ∧
    ((immShiftOperand .ror 0 m c).value.toNat = 2 ^ 31 * c.toNat + m.toNat / 2
      ∧ (immShiftOperand .ror 0 m c).carry = m.getLsbD 0) ∧
    ∀ n : BitVec 5, n ≠ 0 →
      ((immShiftOperand .lsl n m c).value.toNat = m.toNat * 2 ^ n.toNat % 2 ^ 32
        ∧ (immShiftOperand .lsl n m c).carry = m.getLsbD (32 - n.toNat)) ∧
      ((immShiftOperand .lsr n m c).value.toNat = m.toNat / 2 ^ n.toNat
        ∧ (immShiftOperand .lsr n m c).carry = m.getLsbD (n.toNat - 1)) ∧
      ((immShiftOperand .asr n m c).value.toInt = m.toInt / 2 ^ n.toNat
        ∧ (immShiftOperand .asr n m c).carry = m.getLsbD (n.toNat - 1)) ∧
      ((∀ k, k < 32 → (immShiftOperand .ror n m c).value.getLsbD k = m.getLsbD ((k + n.toNat) % 32))
        ∧ (immShiftOperand .ror n m c).carry = m.getLsbD (n.toNat - 1))

/-- Operand 2, register shift, by every amount 0 to 255: every row of the table; only the bottom byte of Rs counts, and
with r15 as any register the instruction is refused (43_data_processing.md R183). -/
def Obligations.RegisterShiftOperand : Prop :=
  (∀ (o : RegShift) (s : State), Operand2.value (.reg o) s
    = regShiftOperand o.type ((s.readReg o.rs).toNat % 256) (s.readReg o.rm) s.c) ∧
  (∀ (op : DpOp) (o : RegShift) (c : Cond) (f : Bool) (rn rd : Reg) (s : State), Runs c s →
    rn = 15 ∨ rd = 15 ∨ o.rs = 15 ∨ o.rm = 15 →
    exec (Operand2.instr (.reg o) op c f rn rd) s = .refused .pcOperand) ∧
  ∀ (m : Word) (c : Bool),
    (∀ y, regShiftOperand y 0 m c = ⟨m, c⟩) ∧
    (∀ n, 1 ≤ n → n < 32 →
      ((regShiftOperand .lsl n m c).value.toNat = m.toNat * 2 ^ n % 2 ^ 32
        ∧ (regShiftOperand .lsl n m c).carry = m.getLsbD (32 - n)) ∧
      ((regShiftOperand .lsr n m c).value.toNat = m.toNat / 2 ^ n
        ∧ (regShiftOperand .lsr n m c).carry = m.getLsbD (n - 1)) ∧
      ((regShiftOperand .asr n m c).value.toInt = m.toInt / 2 ^ n
        ∧ (regShiftOperand .asr n m c).carry = m.getLsbD (n - 1))) ∧
    (regShiftOperand .lsl 32 m c = ⟨0, m.getLsbD 0⟩ ∧ regShiftOperand .lsr 32 m c = ⟨0, m.getLsbD 31⟩) ∧
    (∀ n, 33 ≤ n → n ≤ 255 → regShiftOperand .lsl n m c = ⟨0, false⟩ ∧ regShiftOperand .lsr n m c = ⟨0, false⟩) ∧
    (∀ n, 32 ≤ n → n ≤ 255 →
      regShiftOperand .asr n m c = ⟨if m.getLsbD 31 then 0xFFFFFFFF else 0, m.getLsbD 31⟩) ∧
    (∀ n, 1 ≤ n → n ≤ 255 → n % 32 = 0 → regShiftOperand .ror n m c = ⟨m, m.getLsbD 31⟩) ∧
    (∀ n, 1 ≤ n → n ≤ 255 → n % 32 ≠ 0 →
      (∀ k, k < 32 → (regShiftOperand .ror n m c).value.getLsbD k = m.getLsbD ((k + n) % 32))
        ∧ (regShiftOperand .ror n m c).carry = m.getLsbD (n % 32 - 1))

/-- The twelve operations with a destination r0 to r14, in all three forms: the result, the flags with S, and the frame
(43_data_processing.md R180, R186, R187, R189 to R196, R201 to R204). -/
def Obligations.DataProcessingResult : Prop :=
  ∀ (op : DpOp) (o : Operand2) (c : Cond) (f : Bool) (rn rd : Reg) (s : State),
    isCompare op = false → rd ≠ 15 → (isMove op = true → rn = 0) → o.allowed rn rd = true → RunsOn c s →
    ∃ t, exec (o.instr op c f rn rd) s = .next t
      ∧ t.readReg rd = dpResult op (s.readReg rn) (o.value s).value s.c
      ∧ (f = true → DpFlags op s t (s.readReg rn) (o.value s)) ∧ (f = false → t.cpsr = s.cpsr)
      ∧ t.pc = s.pc + 4 ∧ Frame s t [physOf rd s.mode] ∧ memoryKept s t

/-- TST, TEQ, CMP, CMN in all three forms write the flags and nothing else (43_data_processing.md R180, R186, R187, R197
to R200). -/
def Obligations.DataProcessingCompare : Prop :=
  ∀ (op : DpOp) (o : Operand2) (c : Cond) (rn : Reg) (s : State),
    isCompare op = true → o.allowed rn 0 = true → RunsOn c s →
    ∃ t, exec (o.instr op c true rn 0) s = .next t ∧ DpFlags op s t (s.readReg rn) (o.value s)
      ∧ t.pc = s.pc + 4 ∧ Frame s t [] ∧ memoryKept s t

/-- A data-processing instruction with destination r15 and S = 0 is a branch to its result, under `PCWRITE_ALIGN`
(43_data_processing.md R188; 10_state.md R27, the spec's decision D6). -/
def Obligations.DataProcessingBranch : Prop :=
  ∀ (op : DpOp) (o : Operand2) (c : Cond) (rn : Reg) (s : State),
    isCompare op = false → (isMove op = true → rn = 0) → o.allowed rn 15 = true → Runs c s →
    let r := dpResult op (s.readReg rn) (o.value s).value s.c
    (r.toNat % 4 = 0 →
      ∃ t, exec (o.instr op c false rn 15) s = .next t ∧ t.pc = r ∧ RegisterFrame s t []) ∧
    (r.toNat % 4 ≠ 0 → s.platform.pcWriteAlign = .mask →
      ∃ t, exec (o.instr op c false rn 15) s = .next t ∧ t.pc = r &&& 0xFFFFFFFC ∧ RegisterFrame s t []) ∧
    (r.toNat % 4 ≠ 0 → s.platform.pcWriteAlign = .refuse →
      exec (o.instr op c false rn 15) s = .refused .pcWriteAlignment)

/-- A data-processing instruction with destination r15 and S = 1 returns from an exception: the CPSR is the SPSR of the
mode left, and the pc the result; without an SPSR, or with an SPSR that names no mode, it is refused
(43_data_processing.md R188, 60_exceptions.md R415; the alignment of the pc by the spec's decision D6). -/
def Obligations.DataProcessingReturn : Prop :=
  ∀ (op : DpOp) (o : Operand2) (c : Cond) (rn : Reg) (s : State),
    isCompare op = false → (isMove op = true → rn = 0) → o.allowed rn 15 = true → Runs c s →
    let r := dpResult op (s.readReg rn) (o.value s).value s.c
    let new := s.spsr s.mode
    (s.mode.hasSpsr = false → exec (o.instr op c true rn 15) s = .refused .noSpsr) ∧
    (s.mode.hasSpsr = true → psrMode new = none →
      exec (o.instr op c true rn 15) s = .refused .illegalModeWritten) ∧
    (s.mode.hasSpsr = true → (psrMode new).isSome = true → psrT new = true →
      ∃ t, exec (o.instr op c true rn 15) s = .next t ∧ t.cpsr = new ∧ t.pc = r &&& 0xFFFFFFFE
        ∧ Frame s t [] ∧ memoryKept s t) ∧
    (s.mode.hasSpsr = true → (psrMode new).isSome = true → psrT new = false →
      (r.toNat % 4 = 0 ∨ s.platform.pcWriteAlign = .mask) →
      ∃ t, exec (o.instr op c true rn 15) s = .next t ∧ t.cpsr = new ∧ t.pc = r &&& 0xFFFFFFFC
        ∧ Frame s t [] ∧ memoryKept s t) ∧
    (s.mode.hasSpsr = true → (psrMode new).isSome = true → psrT new = false →
      r.toNat % 4 ≠ 0 → s.platform.pcWriteAlign = .refuse →
      exec (o.instr op c true rn 15) s = .refused .pcWriteAlignment)

/-! ### Multiplies -/

/-- MUL and MLA: the low 32 bits of the exact result; with S, N and Z of it, V unchanged (44_multiply_clz.md R230 to
R233). Nothing is said of C, a free value (notes/assumptions/8.md). -/
def Obligations.ShortMultiply : Prop :=
  (∀ (c : Cond) (f : Bool) (rd rs rm : Reg) (s : State), noPc [rd, rs, rm] = true → rd ≠ rm → RunsOn c s →
    ∃ t, exec (.mul c f rd 0 rs rm) s = .next t
      ∧ (t.readReg rd).toNat = (s.readReg rm).toNat * (s.readReg rs).toNat % 2 ^ 32
      ∧ MultiplyFlags s t f false ((t.readReg rd).getLsbD 31) (t.readReg rd == 0)
      ∧ t.pc = s.pc + 4 ∧ Frame s t [physOf rd s.mode] ∧ memoryKept s t) ∧
  (∀ (c : Cond) (f : Bool) (rd rn rs rm : Reg) (s : State), noPc [rd, rn, rs, rm] = true → rd ≠ rm → RunsOn c s →
    ∃ t, exec (.mla c f rd rn rs rm) s = .next t
      ∧ (t.readReg rd).toNat
        = ((s.readReg rm).toNat * (s.readReg rs).toNat + (s.readReg rn).toNat) % 2 ^ 32
      ∧ MultiplyFlags s t f false ((t.readReg rd).getLsbD 31) (t.readReg rd == 0)
      ∧ t.pc = s.pc + 4 ∧ Frame s t [physOf rd s.mode] ∧ memoryKept s t)

/-- UMULL, UMLAL, SMULL, SMLAL: RdHi : RdLo is the exact result modulo 2^64; with S, N and Z of it
(44_multiply_clz.md R230, R231, R234 to R237). Nothing is said of C and V, free values (notes/assumptions/8.md). -/
def Obligations.LongMultiply : Prop :=
  ∀ (l : LongForm) (c : Cond) (f : Bool) (rdHi rdLo rs rm : Reg) (s : State),
    longMultiplyWf rdHi rdLo rs rm = true → RunsOn c s →
    ∃ t, exec (l.instr c f rdHi rdLo rs rm) s = .next t
      ∧ t.readReg rdHi ++ t.readReg rdLo
        = BitVec.ofInt 64 (l.exact (s.readReg rm) (s.readReg rs) (s.readReg rdHi ++ s.readReg rdLo))
      ∧ MultiplyFlags s t f true ((t.readReg rdHi).getLsbD 31) (t.readReg rdHi == 0 && t.readReg rdLo == 0)
      ∧ t.pc = s.pc + 4 ∧ Frame s t [physOf rdHi s.mode, physOf rdLo s.mode] ∧ memoryKept s t

/-- CLZ, at v5T: 32 for zero, otherwise 31 less the index of the most significant 1 bit; no flag changes; with r15 it is
refused, and below v5T it is an unused encoding (44_multiply_clz.md R238). -/
def Obligations.CountLeadingZeros : Prop :=
  (∀ (c : Cond) (rd rm : Reg) (s : State), s.platform.arch ≠ .v5T → Runs c s →
    ∃ t, exec (.clz c rd rm) s = .next t ∧ Entered .undefined s t) ∧
  (∀ (c : Cond) (rd rm : Reg) (s : State), rd = 15 ∨ rm = 15 → s.platform.arch = .v5T → Runs c s →
    exec (.clz c rd rm) s = .refused .pcOperand) ∧
  ∀ (c : Cond) (rd rm : Reg) (s : State), rd ≠ 15 → rm ≠ 15 → s.platform.arch = .v5T → RunsOn c s →
    ∃ t, exec (.clz c rd rm) s = .next t
      ∧ (s.readReg rm = 0 → t.readReg rd = 32)
      ∧ (∀ k, k < 32 → (s.readReg rm).getLsbD k = true → (∀ j, k < j → (s.readReg rm).getLsbD j = false) →
          (t.readReg rd).toNat = 31 - k)
      ∧ t.pc = s.pc + 4 ∧ RegisterFrame s t [physOf rd s.mode]

/-! ### Branches -/

/-- B and BL: the target is pc + 8 plus four times the signed offset, modulo 2^32; BL leaves pc + 4 in r14 of the current
mode (41_branch.md R150, R151). -/
def Obligations.BranchAndLink : Prop :=
  (∀ (c : Cond) (off : BitVec 24) (s : State), Runs c s →
    ∃ t, exec (.b c off) s = .next t
      ∧ t.pc = BitVec.ofInt 32 (s.pc.toNat + 8 + 4 * off.toInt) ∧ RegisterFrame s t []) ∧
  (∀ (c : Cond) (off : BitVec 24) (s : State), Runs c s →
    ∃ t, exec (.bl c off) s = .next t
      ∧ t.pc = BitVec.ofInt 32 (s.pc.toNat + 8 + 4 * off.toInt)
      ∧ t.readReg 14 = s.pc + 4 ∧ RegisterFrame s t [physOf 14 s.mode])

/-- BX Rm from v4T on, and BLX Rm and BLX label at v5T: T and the pc, and for BLX r14; BLX Rm reads Rm before it writes
r14, and BLX r15 is refused (41_branch.md R153 to R155). -/
def Obligations.BranchExchange : Prop :=
  (∀ (c : Cond) (rm : Reg) (s : State), s.platform.arch ≠ .v4 → Runs c s →
    ∃ t, exec (.bx c rm) s = .next t ∧ Exchanged s t (s.readReg rm) ∧ Frame s t [] ∧ memoryKept s t) ∧
  (∀ (c : Cond) (rm : Reg) (s : State), s.platform.arch = .v5T → rm ≠ 15 → Runs c s →
    ∃ t, exec (.blxReg c rm) s = .next t ∧ Exchanged s t (s.readReg rm)
      ∧ t.readReg 14 = s.pc + 4 ∧ Frame s t [physOf 14 s.mode] ∧ memoryKept s t) ∧
  (∀ (c : Cond) (s : State), s.platform.arch = .v5T → Runs c s → exec (.blxReg c 15) s = .refused .pcOperand) ∧
  (∀ (h : Bool) (off : BitVec 24) (s : State), s.platform.arch = .v5T → s.mode?.isSome = true →
    ∃ t, exec (.blxLabel h off) s = .next t ∧ ThumbIs s.cpsr t.cpsr true
      ∧ t.pc = BitVec.ofInt 32 (s.pc.toNat + 8 + 4 * off.toInt + 2 * h.toNat)
      ∧ t.readReg 14 = s.pc + 4 ∧ Frame s t [physOf 14 s.mode] ∧ memoryKept s t)

/-! ### Status registers -/

/-- MRS copies the CPSR, in every mode, or the SPSR of the current mode; the reserved bits read as zero under `raz_wi`,
and nothing is said of them under `draw`; without an SPSR, and into r15, it is refused
(48_status_register_transfer.md R331, 10_state.md R34). -/
def Obligations.ReadStatus : Prop :=
  (∀ (c : Cond) (spsr : Bool) (s : State), Runs c s → exec (.mrs c spsr 15) s = .refused .pcOperand) ∧
  ∀ (c : Cond) (spsr : Bool) (rd : Reg) (s : State), rd ≠ 15 → RunsOn c s →
    let p := if spsr then s.spsr s.mode else s.cpsr
    (spsr = true → s.mode.hasSpsr = false → exec (.mrs c spsr rd) s = .refused .noSpsr) ∧
    ((spsr = true → s.mode.hasSpsr = true) →
      ∃ t, exec (.mrs c spsr rd) s = .next t
        ∧ (t.readReg rd).extractLsb' 28 4 = p.extractLsb' 28 4
        ∧ (t.readReg rd).extractLsb' 0 8 = p.extractLsb' 0 8
        ∧ (s.platform.psrReserved = .razWi → (t.readReg rd).extractLsb' 8 20 = 0)
        ∧ t.pc = s.pc + 4 ∧ RegisterFrame s t [physOf rd s.mode])

/-- MSR to the CPSR, both operand forms: the bits of the selected bytes that exist, in User mode those of the f field
only; refused where T would change or the mode bits would be no mode (48_status_register_transfer.md R332, R333; that
the bits that do not exist are not written under `draw` either is the model's choice, notes/assumptions/22.md). -/
def Obligations.WriteStatus : Prop :=
  ∀ (i : Instr) (c : Cond) (mask : BitVec 4) (operand : Word) (s : State), RunsOn c s →
    ((∃ rm, rm ≠ 15 ∧ i = .msrReg c false mask rm ∧ operand = s.readReg rm) ∨
      (∃ o, i = .msrImm c false mask o ∧ operand = rotImmValue o)) →
    let written : Nat → Bool := fun k =>
      decide (k < 8) && mask.getLsbD 0 && decide (s.mode ≠ .usr) || decide (28 ≤ k) && mask.getLsbD 3
    ∀ new : Word, (∀ k, k < 32 → new.getLsbD k = if written k then operand.getLsbD k else s.cpsr.getLsbD k) →
      (psrT new ≠ psrT s.cpsr → exec i s = .refused .msrChangesT) ∧
      (psrT new = psrT s.cpsr → psrMode new = none → exec i s = .refused .illegalModeWritten) ∧
      (psrT new = psrT s.cpsr → (psrMode new).isSome = true →
        ∃ t, exec i s = .next t ∧ t.cpsr = new ∧ t.pc = s.pc + 4 ∧ Frame s t [] ∧ memoryKept s t)

/-- MSR to the SPSR of the current mode, both operand forms: any value in the bits of the selected bytes that exist; no
other status register changes; without an SPSR it is refused (48_status_register_transfer.md R332, R333; for `draw`
notes/assumptions/22.md). -/
def Obligations.WriteSavedStatus : Prop :=
  ∀ (i : Instr) (c : Cond) (mask : BitVec 4) (operand : Word) (s : State), RunsOn c s →
    ((∃ rm, rm ≠ 15 ∧ i = .msrReg c true mask rm ∧ operand = s.readReg rm) ∨
      (∃ o, i = .msrImm c true mask o ∧ operand = rotImmValue o)) →
    (s.mode.hasSpsr = false → exec i s = .refused .noSpsr) ∧
    (s.mode.hasSpsr = true →
      ∃ t, exec i s = .next t
        ∧ (∀ k, k < 32 → (t.spsr s.mode).getLsbD k =
            if decide (k < 8) && mask.getLsbD 0 || decide (28 ≤ k) && mask.getLsbD 3 then operand.getLsbD k
            else (s.spsr s.mode).getLsbD k)
        ∧ (∀ m, m ≠ s.mode → t.spsr m = s.spsr m)
        ∧ t.cpsr = s.cpsr ∧ t.pc = s.pc + 4 ∧ registersKept s t [] ∧ t.coproc = s.coproc ∧ outsideKept s t
        ∧ memoryKept s t)

/-! ### Single transfers -/

/-- The indexed address and the address accessed of every form of the word, byte, half-word and coprocessor transfers
(45_single_data_transfer.md R251, 46_halfword_signed_transfer.md R281, 49_coprocessor_brk_unused.md R357), and the
lowest address and the new base of every mode of the block transfers (47_multiple_transfer_swap.md R301). -/
def Obligations.TransferAddresses : Prop :=
  (∀ (s : State) (x : Indexing),
    s.indexed x = (if x.u then s.readReg x.rn + x.offset else s.readReg x.rn - x.offset) ∧
    s.addressOf x = (if x.p then s.indexed x else s.readReg x.rn)) ∧
  (∀ (s : State) (p u w : Bool) (rn : Reg) (off : BitVec 12) (o : ImmShift),
    immIndexing p u w rn off = ⟨p, u, !p || w, rn, BitVec.ofNat 32 off.toNat⟩ ∧
    s.regIndexing p u w rn o
      = ⟨p, u, !p || w, rn, (immShiftOperand o.type o.amount (s.readReg o.rm) s.c).value⟩) ∧
  (∀ (s : State) (p u w : Bool) (rn rm : Reg) (off : BitVec 8),
    halfImmIndexing p u w rn off = ⟨p, u, !p || w, rn, BitVec.ofNat 32 off.toNat⟩ ∧
    s.halfRegIndexing p u w rn rm = ⟨p, u, !p || w, rn, s.readReg rm⟩ ∧
    coprocessorIndexing p u w rn off = ⟨p, u, w, rn, BitVec.ofNat 32 (4 * off.toNat)⟩) ∧
  (∀ (base : Word) (n : Nat),
    blockStart false true base n = base ∧ blockStart true true base n = base + 4 ∧
    blockStart false false base n = base - BitVec.ofNat 32 (4 * n) + 4 ∧
    blockStart true false base n = base - BitVec.ofNat 32 (4 * n) ∧
    blockNewBase true base n = base + BitVec.ofNat 32 (4 * n) ∧
    blockNewBase false base n = base - BitVec.ofNat 32 (4 * n))

/-- LDR and LDRT to r0 to r14: the word, rotated where `MISALIGN = rotate` makes a misaligned read, and the base written
back (45_single_data_transfer.md R252, R255, R259, 20_memory.md R67). That a misaligned LDRT is rotated as LDR is, and
that the memory system is asked about the aligned address, are the model's readings (notes/assumptions/27.md, 28.md).
Nothing is said of the rotation in big-endian order (notes/assumptions/12.md). -/
def Obligations.LoadWord : Prop :=
  ∀ (f : SingleForm) (c : Cond) (rn rd : Reg) (s : State),
    let x := f.indexing s rn
    let a := s.addressOf x
    rd ≠ 15 → transferAllowed x.writeBack rn rd f.offsetReg? = true → RunsOn c s →
    Accessible s .read .word a (f.privileged s) →
    ∃ t, exec (f.ldr c rn rd) s = .next t
      ∧ (s.platform.endian = .little ∨ a.toNat % 4 = 0 →
          t.readReg rd = (s.valueAt .word a).rotateRight (8 * (a.toNat % 4)))
      ∧ (x.writeBack = true → t.readReg rn = s.indexed x)
      ∧ t.pc = s.pc + 4
      ∧ RegisterFrame s t [physOf rd s.mode, if x.writeBack then physOf rn s.mode else none]

/-- LDR to r15 is a branch: at v5T bit 0 goes to T, below v5T `PCWRITE_ALIGN` governs the alignment; a value that may
not be loaded is refused (45_single_data_transfer.md R255; 10_state.md R27, the spec's decision D6). -/
def Obligations.LoadPc : Prop :=
  ∀ (f : SingleForm) (c : Cond) (rn : Reg) (s : State),
    let x := f.indexing s rn
    let a := s.addressOf x
    let v := (s.valueAt .word a).rotateRight (8 * (a.toNat % 4))
    f.isUser = false → transferAllowed x.writeBack rn 15 f.offsetReg? = true → Runs c s →
    Accessible s .read .word a s.privileged → (s.platform.endian = .little ∨ a.toNat % 4 = 0) →
    (pcLoadable s v →
      ∃ t, exec (f.ldr c rn 15) s = .next t ∧ PcLoaded s t v
        ∧ (x.writeBack = true → t.readReg rn = s.indexed x)
        ∧ Frame s t [if x.writeBack then physOf rn s.mode else none] ∧ memoryKept s t) ∧
    (¬ pcLoadable s v → exec (f.ldr c rn 15) s = .refused (pcLoadRefusal s))

/-- LDRB and LDRBT zero-extend the byte and write the base back (45_single_data_transfer.md R257, R261). -/
def Obligations.LoadByte : Prop :=
  ∀ (f : SingleForm) (c : Cond) (rn rd : Reg) (s : State),
    let x := f.indexing s rn
    let a := s.addressOf x
    rd ≠ 15 → transferAllowed x.writeBack rn rd f.offsetReg? = true → RunsOn c s →
    Accessible s .read .byte a (f.privileged s) →
    ∃ t, exec (f.ldrb c rn rd) s = .next t ∧ (t.readReg rd).toNat = (s.byteAt a).toNat
      ∧ (x.writeBack = true → t.readReg rn = s.indexed x)
      ∧ t.pc = s.pc + 4
      ∧ RegisterFrame s t [physOf rd s.mode, if x.writeBack then physOf rn s.mode else none]

/-- STR and STRT store the register, STR r15 as pc + `STORE_PC_OFFSET`, change no other byte and write the base back
(45_single_data_transfer.md R256, R260); STRT of r15 is refused (93_implementation_defined.md U12; R260 itself names no
such restriction, so that this is the model's reading of the two, notes/assumptions/13.md). The list of addresses noted
as stored is the model's (notes/assumptions/21.md). -/
def Obligations.StoreWord : Prop :=
  (∀ (f : SingleForm) (c : Cond) (rn rd : Reg) (s : State),
    let x := f.indexing s rn
    let a := s.addressOf x
    f.isUser = false ∨ rd ≠ 15 → transferAllowed x.writeBack rn rd f.offsetReg? = true → RunsOn c s →
    Memory.wf s.mem = true → Accessible s .write .word a (f.privileged s) →
    ∃ t, exec (f.str c rn rd) s = .next t
      ∧ Stored s t .word (s.effectiveAddress .word a) (storedRegister s s.mode rd)
      ∧ (x.writeBack = true → t.readReg rn = s.indexed x)
      ∧ t.pc = s.pc + 4 ∧ t.cpsr = s.cpsr
      ∧ Frame s t [if x.writeBack then physOf rn s.mode else none]) ∧
  (∀ (f : SingleForm) (c : Cond) (rn : Reg) (s : State),
    f.isUser = true → transferAllowed (f.indexing s rn).writeBack rn 15 f.offsetReg? = true → Runs c s →
    exec (f.str c rn 15) s = .refused .pcOperand)

/-- STRB and STRBT store the low byte of the register, change no other byte and write the base back
(45_single_data_transfer.md R258, R262). The list of addresses noted as stored is the model's
(notes/assumptions/21.md). -/
def Obligations.StoreByte : Prop :=
  ∀ (f : SingleForm) (c : Cond) (rn rd : Reg) (s : State),
    let x := f.indexing s rn
    let a := s.addressOf x
    rd ≠ 15 → transferAllowed x.writeBack rn rd f.offsetReg? = true → RunsOn c s → Memory.wf s.mem = true →
    Accessible s .write .byte a (f.privileged s) →
    ∃ t, exec (f.strb c rn rd) s = .next t ∧ Stored s t .byte a (s.readReg rd)
      ∧ (x.writeBack = true → t.readReg rn = s.indexed x)
      ∧ t.pc = s.pc + 4 ∧ t.cpsr = s.cpsr
      ∧ Frame s t [if x.writeBack then physOf rn s.mode else none]

/-- LDRH zero-extends, LDRSB and LDRSH sign-extend, in both offset forms; the base is written back
(46_halfword_signed_transfer.md R281, R283, R285, R286). -/
def Obligations.LoadHalfword : Prop :=
  ∀ (l : HalfLoad) (f : HalfForm) (c : Cond) (p u w : Bool) (rn rd : Reg) (s : State),
    let x := f.indexing s p u w rn
    let a := s.addressOf x
    rd ≠ 15 → (p = false → w = false) → transferAllowed x.writeBack rn rd f.offsetReg? = true → RunsOn c s →
    Accessible s .read l.size a s.privileged →
    ∃ t, exec (l.instr f c p u w rn rd) s = .next t
      ∧ t.readReg rd = BitVec.ofInt 32 (l.extended (s.valueAt l.size a))
      ∧ (x.writeBack = true → t.readReg rn = s.indexed x)
      ∧ t.pc = s.pc + 4
      ∧ RegisterFrame s t [physOf rd s.mode, if x.writeBack then physOf rn s.mode else none]

/-- STRH stores the low half of the register, changes no other byte and writes the base back
(46_halfword_signed_transfer.md R284). The list of addresses noted as stored is the model's
(notes/assumptions/21.md). -/
def Obligations.StoreHalfword : Prop :=
  ∀ (f : HalfForm) (c : Cond) (p u w : Bool) (rn rd : Reg) (s : State),
    let x := f.indexing s p u w rn
    let a := s.addressOf x
    rd ≠ 15 → (p = false → w = false) → transferAllowed x.writeBack rn rd f.offsetReg? = true → RunsOn c s →
    Memory.wf s.mem = true → Accessible s .write .half a s.privileged →
    ∃ t, exec (f.strh c p u w rn rd) s = .next t ∧ Stored s t .half a (s.readReg rd)
      ∧ (x.writeBack = true → t.readReg rn = s.indexed x)
      ∧ t.pc = s.pc + 4 ∧ t.cpsr = s.cpsr
      ∧ Frame s t [if x.writeBack then physOf rn s.mode else none]

/-- A single transfer whose access the memory system faults takes the data abort: no destination register, r15 among
them, no memory; the base as `ABORT_MODEL` says (45_single_data_transfer.md R253, the spec's decision D8;
60_exceptions.md R404). -/
def Obligations.SingleTransferAborts : Prop :=
  (∀ (f : SingleForm) (c : Cond) (rn rd : Reg) (s : State),
    let x := f.indexing s rn
    let a := s.addressOf x
    let u := s.withAbortedBase x.writeBack rn (s.indexed x)
    transferAllowed x.writeBack rn rd f.offsetReg? = true → Runs c s →
    (f.isUser = false ∨ rd ≠ 15 →
      (Faulting s .read .word a (f.privileged s) → ∃ t, exec (f.ldr c rn rd) s = .next t ∧ Entered .dataAbort u t) ∧
      (Faulting s .write .word a (f.privileged s) → ∃ t, exec (f.str c rn rd) s = .next t ∧ Entered .dataAbort u t)) ∧
    (rd ≠ 15 →
      (Faulting s .read .byte a (f.privileged s) → ∃ t, exec (f.ldrb c rn rd) s = .next t ∧ Entered .dataAbort u t) ∧
      (Faulting s .write .byte a (f.privileged s) →
        ∃ t, exec (f.strb c rn rd) s = .next t ∧ Entered .dataAbort u t))) ∧
  (∀ (f : HalfForm) (c : Cond) (p u w : Bool) (rn rd : Reg) (s : State),
    let x := f.indexing s p u w rn
    let a := s.addressOf x
    let v := s.withAbortedBase x.writeBack rn (s.indexed x)
    rd ≠ 15 → (p = false → w = false) → transferAllowed x.writeBack rn rd f.offsetReg? = true → Runs c s →
    (∀ l : HalfLoad, Faulting s .read l.size a s.privileged →
      ∃ t, exec (l.instr f c p u w rn rd) s = .next t ∧ Entered .dataAbort v t) ∧
    (Faulting s .write .half a s.privileged →
      ∃ t, exec (f.strh c p u w rn rd) s = .next t ∧ Entered .dataAbort v t))

/-- A misaligned transfer of words or half-words is refused under `MISALIGN = refuse`, a half-word one under `rotate`
too, and takes the data abort under `abort` (20_memory.md R66, R67, the spec's decision D5): LDR and STR with r15 and
their T forms, LDRH, LDRSH, STRH, every form of LDM and STM, SWP, LDC and STC; the base is as `ABORT_MODEL` says. What an
aborted LDC leaves in the coprocessor is the model's opaque operation (notes/assumptions/23.md). -/
def Obligations.MisalignedTransferStops : Prop :=
  (∀ (f : SingleForm) (c : Cond) (rn rd : Reg) (s : State),
    let x := f.indexing s rn
    let u := s.withAbortedBase x.writeBack rn (s.indexed x)
    transferAllowed x.writeBack rn rd f.offsetReg? = true → f.isUser = false ∨ rd ≠ 15 → Runs c s →
    (s.addressOf x).toNat % 4 ≠ 0 →
    (s.platform.misalign = .refuse →
      exec (f.ldr c rn rd) s = .refused .misaligned ∧ exec (f.str c rn rd) s = .refused .misaligned) ∧
    (s.platform.misalign = .abort →
      (∃ t, exec (f.ldr c rn rd) s = .next t ∧ Entered .dataAbort u t) ∧
      (∃ t, exec (f.str c rn rd) s = .next t ∧ Entered .dataAbort u t))) ∧
  (∀ (f : HalfForm) (l : HalfLoad) (c : Cond) (p u w : Bool) (rn rd : Reg) (s : State),
    let x := f.indexing s p u w rn
    let v := s.withAbortedBase x.writeBack rn (s.indexed x)
    rd ≠ 15 → (p = false → w = false) → transferAllowed x.writeBack rn rd f.offsetReg? = true → Runs c s →
    l.size = .half → (s.addressOf x).toNat % 2 ≠ 0 →
    (s.platform.misalign = .refuse ∨ s.platform.misalign = .rotate →
      exec (l.instr f c p u w rn rd) s = .refused .misaligned ∧
      exec (f.strh c p u w rn rd) s = .refused .misaligned) ∧
    (s.platform.misalign = .abort →
      (∃ t, exec (l.instr f c p u w rn rd) s = .next t ∧ Entered .dataAbort v t) ∧
      (∃ t, exec (f.strh c p u w rn rd) s = .next t ∧ Entered .dataAbort v t))) ∧
  (∀ (b : BlockLoad) (c : Cond) (p u w : Bool) (rn : Reg) (s : State), b.allowed w rn → Runs c s →
    (s.readReg rn).toNat % 4 ≠ 0 →
    (s.platform.misalign = .refuse → exec (b.instr c p u w rn) s = .refused .misaligned) ∧
    (s.platform.misalign = .abort → ∃ t, exec (b.instr c p u w rn) s = .next t
      ∧ Entered .dataAbort (s.withAbortedBase w rn (s.newBase u rn b.list)) t)) ∧
  (∀ (b : BlockStore) (c : Cond) (p u w : Bool) (rn : Reg) (s : State), b.allowed w rn → Runs c s →
    (s.readReg rn).toNat % 4 ≠ 0 →
    (s.platform.misalign = .refuse → exec (b.instr c p u w rn) s = .refused .misaligned) ∧
    (s.platform.misalign = .abort → ∃ t, exec (b.instr c p u w rn) s = .next t
      ∧ Entered .dataAbort (s.withAbortedBase w rn (s.newBase u rn b.list)) t)) ∧
  (∀ (c : Cond) (rn rd rm : Reg) (s : State), swapWf rn rd rm = true → Runs c s → (s.readReg rn).toNat % 4 ≠ 0 →
    (s.platform.misalign = .refuse → exec (.swp c rn rd rm) s = .refused .misaligned) ∧
    (s.platform.misalign = .abort → ∃ t, exec (.swp c rn rd rm) s = .next t ∧ Entered .dataAbort s t)) ∧
  (∀ (f : CpTransfer) (c : Cond) (s : State), f.allowed = true → Runs c s → (f.wordAddress s 0).toNat % 4 ≠ 0 →
    (s.cpAccepts f.cp (encode (f.ldc c)) = true →
      (s.platform.misalign = .refuse → exec (f.ldc c) s = .refused .misaligned) ∧
      (s.platform.misalign = .abort → ∃ v t, exec (f.ldc c) s = .next t
        ∧ CoprocFrame s v f.cp (Config.cpLdcAborted f.cp (s.cpState f.cp)) [] ∧ memoryKept s v ∧ v.pc = s.pc
        ∧ Entered .dataAbort (v.withAbortedBase f.w f.rn (s.indexed f.indexing)) t)) ∧
    (s.cpAccepts f.cp (encode (f.stc c)) = true →
      (s.platform.misalign = .refuse → exec (f.stc c) s = .refused .misaligned) ∧
      (s.platform.misalign = .abort → ∃ t, exec (f.stc c) s = .next t
        ∧ Entered .dataAbort (s.withAbortedBase f.w f.rn (s.indexed f.indexing)) t)))

/-! ### Block transfers and swap -/

/-- LDM without r15: every listed register holds the word at its address, the base is written back
(47_multiple_transfer_swap.md R302, R303); with a base that is in the list and written back every LDM is refused (R306,
93_implementation_defined.md U15; that R303 calls the base's value only unpredictable yields to them, the model's
reading, notes/assumptions/9.md). -/
def Obligations.LoadMultiple : Prop :=
  (∀ (c : Cond) (p u : Bool) (rn : Reg) (list : BitVec 16) (s : State),
    rn ≠ 15 → list.getLsbD rn.toNat = true → Runs c s →
    exec (.ldm c p u true rn list) s = .refused .blockBaseInList) ∧
  (∀ (c : Cond) (p u w : Bool) (rn : Reg) (list : BitVec 16) (s : State),
    list ≠ 0 → rn ≠ 15 → (w = true → list.getLsbD rn.toNat = false) → list.getLsbD 15 = false → RunsOn c s →
    blockAccessible s .read p u rn list →
    ∃ t, exec (.ldm c p u w rn list) s = .next t
      ∧ (∀ r : Reg, list.getLsbD r.toNat = true → t.readReg r = s.valueAt .word (s.slotAddress p u rn list r))
      ∧ (w = true → t.readReg rn = s.newBase u rn list)
      ∧ t.pc = s.pc + 4
      ∧ RegisterFrame s t
          ((regsOf list).map (fun r => physOf r s.mode) ++ [if w then physOf rn s.mode else none]))

/-- LDM with r15: the other listed registers and the base as without it, and a branch to the word of r15, at v5T with
its bit 0 to T; a word that may not be loaded to the pc is refused (47_multiple_transfer_swap.md R302, R303;
10_state.md R27, the spec's decision D6). With a base that is in the list and written back it is refused as
`LoadMultiple` says. -/
def Obligations.LoadMultiplePc : Prop :=
  ∀ (c : Cond) (p u w : Bool) (rn : Reg) (list : BitVec 16) (s : State),
    let v := s.valueAt .word (s.slotAddress p u rn list 15)
    rn ≠ 15 → (w = true → list.getLsbD rn.toNat = false) → list.getLsbD 15 = true → Runs c s →
    blockAccessible s .read p u rn list →
    (pcLoadable s v →
      ∃ t, exec (.ldm c p u w rn list) s = .next t ∧ PcLoaded s t v
        ∧ (∀ r : Reg, r ≠ 15 → list.getLsbD r.toNat = true →
            t.readReg r = s.valueAt .word (s.slotAddress p u rn list r))
        ∧ (w = true → t.readReg rn = s.newBase u rn list)
        ∧ Frame s t ((regsOf list).map (fun r => physOf r s.mode) ++ [if w then physOf rn s.mode else none])
        ∧ memoryKept s t) ∧
    (¬ pcLoadable s v → exec (.ldm c p u w rn list) s = .refused (pcLoadRefusal s))

/-- LDM with `^` and r15 returns from an exception: the registers go to the bank of the mode left, the CPSR is its SPSR,
the pc the word of r15 aligned for the state restored; without an SPSR, or with one that names no mode, it is refused
(47_multiple_transfer_swap.md R305). In ARM state the alignment is under `PCWRITE_ALIGN`, and the return to Thumb state
is executed: the model's reading of R305 with 10_state.md R27 and 93_implementation_defined.md U21
(notes/assumptions/16.md). With a base that is in the list and written back it is refused (R306;
notes/assumptions/9.md). -/
def Obligations.LoadMultipleReturn : Prop :=
  (∀ (c : Cond) (p u : Bool) (rn : Reg) (low : BitVec 15) (s : State),
    rn ≠ 15 → low.getLsbD rn.toNat = true → Runs c s →
    exec (.ldmReturn c p u true rn low) s = .refused .blockBaseInList) ∧
  (∀ (c : Cond) (p u w : Bool) (rn : Reg) (low : BitVec 15) (s : State),
    let list : BitVec 16 := 1#1 ++ low
    let v := s.valueAt .word (s.slotAddress p u rn list 15)
    let new := s.spsr s.mode
    rn ≠ 15 → (w = true → low.getLsbD rn.toNat = false) → Runs c s → blockAccessible s .read p u rn list →
    (s.mode.hasSpsr = false → exec (.ldmReturn c p u w rn low) s = .refused .noSpsr) ∧
    (s.mode.hasSpsr = true → psrMode new = none →
      exec (.ldmReturn c p u w rn low) s = .refused .illegalModeWritten) ∧
    (s.mode.hasSpsr = true → (psrMode new).isSome = true → psrT new = false → v.toNat % 4 ≠ 0 →
      s.platform.pcWriteAlign = .refuse → exec (.ldmReturn c p u w rn low) s = .refused .pcWriteAlignment) ∧
    (s.mode.hasSpsr = true → (psrMode new).isSome = true →
      psrT new = true ∨ v.toNat % 4 = 0 ∨ s.platform.pcWriteAlign = .mask →
      ∃ t, exec (.ldmReturn c p u w rn low) s = .next t ∧ t.cpsr = new
        ∧ t.pc = (if psrT new then v &&& 0xFFFFFFFE else v &&& 0xFFFFFFFC)
        ∧ (∀ r : Reg, r ≠ 15 → list.getLsbD r.toNat = true →
            t.readRegIn s.mode r = s.valueAt .word (s.slotAddress p u rn list r))
        ∧ (w = true → t.readRegIn s.mode rn = s.newBase u rn list)
        ∧ Frame s t ((regsOf list).map (fun r => physOf r s.mode) ++ [if w then physOf rn s.mode else none])
        ∧ memoryKept s t))

/-- LDM with `^` and without r15 loads the registers of the User-mode bank, from a base of the current mode; with
write-back it is refused (47_multiple_transfer_swap.md R307). -/
def Obligations.LoadMultipleUser : Prop :=
  ∀ (c : Cond) (p u : Bool) (rn : Reg) (low : BitVec 15) (s : State),
    let list : BitVec 16 := 0#1 ++ low
    low ≠ 0 → rn ≠ 15 → RunsOn c s → blockAccessible s .read p u rn list →
    exec (.ldmUser c p u true rn low) s = .refused .userBankWriteBack ∧
    ∃ t, exec (.ldmUser c p u false rn low) s = .next t
      ∧ (∀ r : Reg, list.getLsbD r.toNat = true →
          t.readRegIn .usr r = s.valueAt .word (s.slotAddress p u rn list r))
      ∧ t.pc = s.pc + 4 ∧ RegisterFrame s t ((regsOf list).map fun r => physOf r .usr)

/-- STM stores every listed register at its address, r15 as pc + `STORE_PC_OFFSET`, changes no other byte and writes the
base back; a base that is the lowest of the list is stored as it was (47_multiple_transfer_swap.md R302, R304). With a
base that is written back, in the list and not its lowest register it is refused (R306, 93_implementation_defined.md
U15; that R304 calls the word stored only unpredictable yields to them, the model's reading, notes/assumptions/10.md).
The list of addresses noted as stored is the model's (notes/assumptions/21.md). -/
def Obligations.StoreMultiple : Prop :=
  (∀ (c : Cond) (p u : Bool) (rn : Reg) (list : BitVec 16) (s : State),
    rn ≠ 15 → list.getLsbD rn.toNat = true → listRank list rn.toNat ≠ 0 → Runs c s →
    exec (.stm c p u true rn list) s = .refused .blockBaseInList) ∧
  (∀ (c : Cond) (p u w : Bool) (rn : Reg) (list : BitVec 16) (s : State),
    list ≠ 0 → rn ≠ 15 → (w = true → list.getLsbD rn.toNat = true → listRank list rn.toNat = 0) → RunsOn c s →
    Memory.wf s.mem = true → blockAccessible s .write p u rn list →
    ∃ t, exec (.stm c p u w rn list) s = .next t
      ∧ StoredWords s t (fun r : Reg => list.getLsbD r.toNat = true)
          (fun r => s.effectiveAddress .word (s.slotAddress p u rn list r)) (storedRegister s s.mode)
      ∧ (w = true → t.readReg rn = s.newBase u rn list)
      ∧ t.pc = s.pc + 4 ∧ t.cpsr = s.cpsr ∧ Frame s t [if w then physOf rn s.mode else none])

/-- STM with `^` stores the registers of the User-mode bank, at a base of the current mode; with write-back it is
refused (47_multiple_transfer_swap.md R310). The list of addresses noted as stored is the model's
(notes/assumptions/21.md). -/
def Obligations.StoreMultipleUser : Prop :=
  ∀ (c : Cond) (p u : Bool) (rn : Reg) (list : BitVec 16) (s : State),
    list ≠ 0 → rn ≠ 15 → RunsOn c s → Memory.wf s.mem = true → blockAccessible s .write p u rn list →
    exec (.stmUser c p u true rn list) s = .refused .userBankWriteBack ∧
    ∃ t, exec (.stmUser c p u false rn list) s = .next t
      ∧ StoredWords s t (fun r : Reg => list.getLsbD r.toNat = true)
          (fun r => s.effectiveAddress .word (s.slotAddress p u rn list r)) (storedRegister s .usr)
      ∧ t.pc = s.pc + 4 ∧ t.cpsr = s.cpsr ∧ Frame s t []

/-- A block transfer, in each of the three forms of LDM and the two of STM, whose access for some register is the first
to fault takes the data abort: LDM changes no listed register and not the CPSR, STM has written the words below and no
other byte; the base is as `ABORT_MODEL` says (47_multiple_transfer_swap.md R311, the spec's decision D8). The forms with
a base that is in the list and written back, and those of `^` with write-back, are refused before any access, the
model's reading of R306, R307 and R310 (notes/assumptions/9.md, 10.md, 29.md). The list of addresses noted as stored is
the model's (notes/assumptions/21.md). -/
def Obligations.BlockTransferAborts : Prop :=
  (∀ (b : BlockLoad) (c : Cond) (p u w : Bool) (rn : Reg) (s : State) (first : Reg),
    b.allowed w rn → b.list.getLsbD first.toNat = true → Runs c s →
    Faulting s .read .word (s.slotAddress p u rn b.list first) s.privileged →
    (∀ r : Reg, b.list.getLsbD r.toNat = true → r.toNat < first.toNat →
      Accessible s .read .word (s.slotAddress p u rn b.list r) s.privileged) →
    ∃ t, exec (b.instr c p u w rn) s = .next t
      ∧ Entered .dataAbort (s.withAbortedBase w rn (s.newBase u rn b.list)) t) ∧
  (∀ (b : BlockStore) (c : Cond) (p u w : Bool) (rn : Reg) (s : State) (first : Reg),
    b.allowed w rn → b.list.getLsbD first.toNat = true → Runs c s → Memory.wf s.mem = true →
    Faulting s .write .word (s.slotAddress p u rn b.list first) s.privileged →
    (∀ r : Reg, b.list.getLsbD r.toNat = true → r.toNat < first.toNat →
      Accessible s .write .word (s.slotAddress p u rn b.list r) s.privileged) →
    ∃ v t, exec (b.instr c p u w rn) s = .next t
      ∧ Entered .dataAbort (v.withAbortedBase w rn (s.newBase u rn b.list)) t
      ∧ StoredWords s v (fun r : Reg => b.list.getLsbD r.toNat = true ∧ r.toNat < first.toNat)
          (fun r => s.effectiveAddress .word (s.slotAddress p u rn b.list r)) (b.value s)
      ∧ v.pc = s.pc ∧ v.cpsr = s.cpsr ∧ Frame s v [])

/-- SWP and SWPB: the old value to Rd, the value Rm had to memory, no other byte; where the read or the write faults,
the data abort with Rd and memory as before (47_multiple_transfer_swap.md R312 to R314). The list of addresses noted as
stored is the model's (notes/assumptions/21.md). -/
def Obligations.Swap : Prop :=
  ∀ (c : Cond) (rn rd rm : Reg) (s : State),
    let a := s.readReg rn
    swapWf rn rd rm = true → Memory.wf s.mem = true → RunsOn c s →
    (Accessible s .read .word a s.privileged → Accessible s .write .word a s.privileged →
      ∃ t, exec (.swp c rn rd rm) s = .next t
        ∧ (s.platform.endian = .little ∨ a.toNat % 4 = 0 →
            t.readReg rd = (s.valueAt .word a).rotateRight (8 * (a.toNat % 4)))
        ∧ Stored s t .word (s.effectiveAddress .word a) (s.readReg rm)
        ∧ t.pc = s.pc + 4 ∧ t.cpsr = s.cpsr ∧ Frame s t [physOf rd s.mode]) ∧
    (Accessible s .read .byte a s.privileged → Accessible s .write .byte a s.privileged →
      ∃ t, exec (.swpb c rn rd rm) s = .next t
        ∧ (t.readReg rd).toNat = (s.byteAt a).toNat ∧ Stored s t .byte a (s.readReg rm)
        ∧ t.pc = s.pc + 4 ∧ t.cpsr = s.cpsr ∧ Frame s t [physOf rd s.mode]) ∧
    (Faulting s .read .word a s.privileged ∨
        Accessible s .read .word a s.privileged ∧ Faulting s .write .word a s.privileged →
      ∃ t, exec (.swp c rn rd rm) s = .next t ∧ Entered .dataAbort s t) ∧
    (Faulting s .read .byte a s.privileged ∨
        Accessible s .read .byte a s.privileged ∧ Faulting s .write .byte a s.privileged →
      ∃ t, exec (.swpb c rn rd rm) s = .next t ∧ Entered .dataAbort s t)

/-! ### Coprocessors -/

/-- CDP, MCR and MRC with a coprocessor that accepts: the coprocessor's own operation, the register it sends or is sent,
and for MRC to r15 the flags from the top four bits (49_coprocessor_brk_unused.md R352, R355, R356). MCR of r15 is
refused (93_implementation_defined.md U25; R355 names the two values it could send, and yields, the model's reading,
notes/assumptions/11.md). That MRC leaves the coprocessor's state as it was is the model's choice
(notes/assumptions/32.md). -/
def Obligations.CoprocessorOperations : Prop :=
  (∀ (c : Cond) (cop1 : BitVec 4) (crn crd crm : CReg) (cp : CpNum) (cop2 : BitVec 3) (s : State), RunsOn c s →
    s.cpAccepts cp (encode (.cdp c cop1 crn crd cp cop2 crm)) = true →
    ∃ t, exec (.cdp c cop1 crn crd cp cop2 crm) s = .next t
      ∧ CoprocFrame s t cp (Config.cpCdp cp (s.cpState cp) cop1 crd crn crm cop2) []
      ∧ t.pc = s.pc + 4 ∧ memoryKept s t) ∧
  (∀ (c : Cond) (cop1 : BitVec 3) (crn crm : CReg) (rd : Reg) (cp : CpNum) (cop2 : BitVec 3) (s : State), RunsOn c s →
    s.cpAccepts cp (encode (.mcr c cop1 crn rd cp cop2 crm)) = true →
    (rd = 15 → exec (.mcr c cop1 crn rd cp cop2 crm) s = .refused .pcOperand) ∧
    (rd ≠ 15 →
      ∃ t, exec (.mcr c cop1 crn rd cp cop2 crm) s = .next t
        ∧ CoprocFrame s t cp (Config.cpMcr cp (s.cpState cp) cop1 crn crm cop2 (s.readReg rd)) []
        ∧ t.pc = s.pc + 4 ∧ memoryKept s t)) ∧
  (∀ (c : Cond) (cop1 : BitVec 3) (crn crm : CReg) (rd : Reg) (cp : CpNum) (cop2 : BitVec 3) (s : State), RunsOn c s →
    s.cpAccepts cp (encode (.mrc c cop1 crn rd cp cop2 crm)) = true →
    let v := Config.cpMrc cp (s.cpState cp) cop1 crn crm cop2
    ∃ t, exec (.mrc c cop1 crn rd cp cop2 crm) s = .next t
      ∧ (rd ≠ 15 → t.readReg rd = v ∧ t.cpsr = s.cpsr)
      ∧ (rd = 15 → FlagsAre s.cpsr t.cpsr (v.getLsbD 31) (v.getLsbD 30) (v.getLsbD 29) (v.getLsbD 28))
      ∧ t.pc = s.pc + 4 ∧ Frame s t [physOf rd s.mode] ∧ memoryKept s t)

/-- LDC and STC with a coprocessor that accepts: as many words as the coprocessor says, at ascending addresses, received
by it or supplied by it; the base is written back with W (49_coprocessor_brk_unused.md R353, R354, R357; the unindexed
form by the spec's decision D26). Where the access for some word is the first to fault, the data abort, the base as
`ABORT_MODEL` says (45_single_data_transfer.md R253); an aborted STC changes no memory, by the spec's decision D8, which
the model reads as coming before the order of writes of R354 (notes/assumptions/36.md). The model's choices: the option
byte is an argument of the coprocessor's operations (notes/assumptions/5.md), STC leaves the coprocessor's state as it was
(notes/assumptions/32.md), an aborted LDC leaves it to an opaque operation of the words received
(notes/assumptions/23.md), and the list of addresses noted as stored (notes/assumptions/21.md). -/
def Obligations.CoprocessorTransfers : Prop :=
  (∀ (f : CpTransfer) (c : Cond) (s : State), f.allowed = true → RunsOn c s → s.cpAccepts f.cp (encode (f.ldc c)) = true →
    (∀ j, j < f.loadCount s → Accessible s .read .word (f.wordAddress s j) s.privileged) →
    ∃ t, exec (f.ldc c) s = .next t
      ∧ CoprocFrame s t f.cp (f.received s (f.loadCount s)) [if f.w then physOf f.rn s.mode else none]
      ∧ (f.w = true → t.readReg f.rn = s.indexed f.indexing) ∧ t.pc = s.pc + 4 ∧ memoryKept s t) ∧
  (∀ (f : CpTransfer) (c : Cond) (s : State), f.allowed = true → RunsOn c s → s.cpAccepts f.cp (encode (f.stc c)) = true →
    Memory.wf s.mem = true → (∀ j, j < f.storeCount s → Accessible s .write .word (f.wordAddress s j) s.privileged) →
    ∃ t, exec (f.stc c) s = .next t
      ∧ StoredWords s t (fun j => j < f.storeCount s) (fun j => s.effectiveAddress .word (f.wordAddress s j)) (f.supplied s)
      ∧ (f.w = true → t.readReg f.rn = s.indexed f.indexing) ∧ t.pc = s.pc + 4 ∧ t.cpsr = s.cpsr
      ∧ Frame s t [if f.w then physOf f.rn s.mode else none]) ∧
  (∀ (f : CpTransfer) (c : Cond) (s : State) (first : Nat), f.allowed = true → Runs c s →
    s.cpAccepts f.cp (encode (f.ldc c)) = true → first < f.loadCount s →
    Faulting s .read .word (f.wordAddress s first) s.privileged →
    (∀ j, j < first → Accessible s .read .word (f.wordAddress s j) s.privileged) →
    ∃ v t, exec (f.ldc c) s = .next t
      ∧ Entered .dataAbort (v.withAbortedBase f.w f.rn (s.indexed f.indexing)) t
      ∧ CoprocFrame s v f.cp (Config.cpLdcAborted f.cp (f.received s first)) [] ∧ memoryKept s v ∧ v.pc = s.pc) ∧
  (∀ (f : CpTransfer) (c : Cond) (s : State) (first : Nat), f.allowed = true → Runs c s →
    s.cpAccepts f.cp (encode (f.stc c)) = true → first < f.storeCount s →
    Faulting s .write .word (f.wordAddress s first) s.privileged →
    (∀ j, j < first → Accessible s .write .word (f.wordAddress s j) s.privileged) →
    ∃ t, exec (f.stc c) s = .next t
      ∧ Entered .dataAbort (s.withAbortedBase f.w f.rn (s.indexed f.indexing)) t ∧ memoryKept s t)

/-! ### User mode -/

/-- From User mode a step changes the mode, I, F, a banked register or an SPSR only by entering an exception, which
writes r14 and the SPSR of the mode entered and no other, or by reset (60_exceptions.md R431, R432). -/
def Obligations.UserModeContained : Prop :=
  ∀ s t : State, s.mode? = some .usr → step s = .next t →
    s.lines.reset = true ∧ t = resetEntry s.nextInputs ∨ (∃ e, UserEntered e s t) ∨ UserContained s t

/-- What User mode does never depends on the banked registers and the SPSRs: from two User-mode states that differ in
them only, a step leads to states that differ in them only, or stops both for the same reason (60_exceptions.md
R431). The two states have drawn equally many free values and so draw equal ones: that a draw, which 00_scope.md R7
chooses afresh each time, is a function of the counter `draws`, held equal by `UserAgree.draws`, is the model's choice
(notes/assumptions/8.md). -/
def Obligations.UserModeCannotReadBanks : Prop :=
  ∀ s t : State, s.mode? = some .usr → UserAgree s t → outcomesAgree UserAgree (step s) (step t)

end
end

