-- ==== Sys2Proof/Laws/Flags.lean ====
section
/-!
SUPPORT. What the sixteen operations compute, in exact arithmetic (spec/00_scope.md R8, spec/43_data_processing.md R186
to R204).
-/

namespace Sys2Proof.Machine

/-- The sum of `AddWithCarry` (R8). -/
theorem addWithCarry_result (a b : Word) (c : Bool) :
    (addWithCarry a b c).result = a + b + BitVec.ofNat 32 c.toNat := by
  apply BitVec.eq_of_toNat_eq
  simp [addWithCarry, BitVec.toNat_add]

/-- The carry of `AddWithCarry` (R8). -/
theorem addWithCarry_c (a b : Word) (c : Bool) :
    (addWithCarry a b c).c = decide (2 ^ 32 ≤ a.toNat + b.toNat + c.toNat) := rfl

/-- The overflow of `AddWithCarry`: the exact sum is outside the signed range (R8). -/
theorem addWithCarry_v (a b : Word) (c : Bool) :
    (addWithCarry a b c).v =
      (decide (a.toInt + b.toInt + c.toNat < -2 ^ 31) || decide (2 ^ 31 ≤ a.toInt + b.toInt + c.toNat)) := by
  have hr : (BitVec.ofNat 32 (a.toNat + b.toNat + c.toNat) : Word).toInt = (a.toInt + b.toInt + c.toNat).bmod (2 ^ 32) := by
    rw [BitVec.toInt_ofNat', BitVec.toInt_eq_toNat_bmod, BitVec.toInt_eq_toNat_bmod]
    simp only [Int.bmod_def, Nat.cast_add]
    omega
  have ha := a.toInt_lt
  have ha' := a.le_toInt
  have hb := b.toInt_lt
  have hb' := b.le_toInt
  have hc : c.toNat ≤ 1 := by cases c <;> simp
  unfold addWithCarry
  simp only [hr, Int.bmod_def]
  rw [← Bool.decide_or, decide_eq_decide]
  simp only [Nat.reduceSub, Nat.reducePow, Int.reducePow] at *
  omega

/-- Adding the complement and one is subtracting. -/
theorem add_not_one (a b : Word) : a + ~~~b + BitVec.ofNat 32 1 = a - b := by
  bv_omega

/-- Adding the complement alone is subtracting one more. -/
theorem add_not_carry (a b : Word) (c : Bool) :
    a + ~~~b + BitVec.ofNat 32 c.toNat = a - b - BitVec.ofNat 32 (!c).toNat := by
  cases c <;> simp only [Bool.toNat_false, Bool.toNat_true, Bool.not_false, Bool.not_true] <;> bv_omega

/-- The complement as a number. -/
theorem not_toNat (b : Word) : (~~~b).toNat = 2 ^ 32 - 1 - b.toNat := by
  simp [BitVec.toNat_not]

/-- The complement as a signed number. -/
theorem not_toInt (b : Word) : (~~~b).toInt = -1 - b.toInt := by
  rw [BitVec.toInt_not, Int.bmod_def, BitVec.toInt_eq_toNat_bmod, Int.bmod_def]
  have := b.isLt
  omega

/-- N and Z are those of the result. -/
theorem dpCompute_nz (op : DpOp) (a : Word) (o : Shifted) (c v : Bool) :
    (dpCompute op a o c v).n = (dpCompute op a o c v).result.getLsbD 31
      ∧ (dpCompute op a o c v).z = ((dpCompute op a o c v).result == 0) := by
  cases op <;> exact ⟨rfl, rfl⟩

/-- The result of every operation (R189 to R204). -/
theorem dpCompute_result (op : DpOp) (a : Word) (o : Shifted) (c v : Bool) :
    (dpCompute op a o c v).result = dpResult op a o.value c := by
  cases op <;> simp only [dpCompute, dpResult, logical, addWithCarry_result, Bool.toNat_true, Bool.toNat_false,
    add_not_one, add_not_carry] <;> simp

/-- The carry of every operation (R186, R187). -/
theorem dpCompute_c (op : DpOp) (a : Word) (o : Shifted) (c v : Bool) :
    (dpCompute op a o c v).c = dpCarry op a o.value c o.carry := by
  have ha := a.isLt
  have ho := o.value.isLt
  cases op <;> simp only [dpCompute, dpCarry, logical, addWithCarry_c, not_toNat, decide_eq_decide, Bool.toNat_true,
    Bool.toNat_false] <;> cases c <;>
    (try simp only [Bool.toNat_true, Bool.toNat_false, Bool.not_true, Bool.not_false]) <;> omega

/-- The overflow of every operation (R186, R187). -/
theorem dpCompute_v (op : DpOp) (a : Word) (o : Shifted) (c v : Bool) :
    (dpCompute op a o c v).v = dpOverflow op a o.value c v := by
  cases op <;> simp only [dpCompute, dpOverflow, dpExact, logical, addWithCarry_v, not_toInt] <;>
    (try rw [← Bool.decide_or, ← Bool.decide_or, decide_eq_decide]) <;> cases c <;>
    (try simp only [Bool.toNat_true, Bool.toNat_false, Bool.not_true, Bool.not_false]) <;> omega

end Sys2Proof.Machine
end

