-- ==== Sys2Proof/Laws/State.lean ====
section
/-!
SUPPORT. One lemma for each field of the state and each update: what the update leaves of the field, or puts there.
-/

namespace Sys2Proof.Machine

variable (s : State)

/-! ### setFlags -/

@[simp] theorem State.setFlags_usr (n z c v : Bool) : (s.setFlags n z c v).usr = s.usr := rfl
@[simp] theorem State.setFlags_fiq (n z c v : Bool) : (s.setFlags n z c v).fiq = s.fiq := rfl
@[simp] theorem State.setFlags_irq (n z c v : Bool) : (s.setFlags n z c v).irq = s.irq := rfl
@[simp] theorem State.setFlags_svc (n z c v : Bool) : (s.setFlags n z c v).svc = s.svc := rfl
@[simp] theorem State.setFlags_abt (n z c v : Bool) : (s.setFlags n z c v).abt = s.abt := rfl
@[simp] theorem State.setFlags_und (n z c v : Bool) : (s.setFlags n z c v).und = s.und := rfl
@[simp] theorem State.setFlags_pc (n z c v : Bool) : (s.setFlags n z c v).pc = s.pc := rfl
@[simp] theorem State.setFlags_cpsr (n z c v : Bool) : (s.setFlags n z c v).cpsr = psrSetFlags s.cpsr n z c v := rfl
@[simp] theorem State.setFlags_spsrFiq (n z c v : Bool) : (s.setFlags n z c v).spsrFiq = s.spsrFiq := rfl
@[simp] theorem State.setFlags_spsrIrq (n z c v : Bool) : (s.setFlags n z c v).spsrIrq = s.spsrIrq := rfl
@[simp] theorem State.setFlags_spsrSvc (n z c v : Bool) : (s.setFlags n z c v).spsrSvc = s.spsrSvc := rfl
@[simp] theorem State.setFlags_spsrAbt (n z c v : Bool) : (s.setFlags n z c v).spsrAbt = s.spsrAbt := rfl
@[simp] theorem State.setFlags_spsrUnd (n z c v : Bool) : (s.setFlags n z c v).spsrUnd = s.spsrUnd := rfl
@[simp] theorem State.setFlags_mem (n z c v : Bool) : (s.setFlags n z c v).mem = s.mem := rfl
@[simp] theorem State.setFlags_stored (n z c v : Bool) : (s.setFlags n z c v).stored = s.stored := rfl
@[simp] theorem State.setFlags_coproc (n z c v : Bool) : (s.setFlags n z c v).coproc = s.coproc := rfl
@[simp] theorem State.setFlags_inputs (n z c v : Bool) : (s.setFlags n z c v).inputs = s.inputs := rfl
@[simp] theorem State.setFlags_platform (n z c v : Bool) : (s.setFlags n z c v).platform = s.platform := rfl
@[simp] theorem State.setFlags_draws (n z c v : Bool) : (s.setFlags n z c v).draws = s.draws := rfl

/-! ### setMem -/

@[simp] theorem State.setMem_usr (size : AccessSize) (a v : Word) : (s.setMem size a v).usr = s.usr := rfl
@[simp] theorem State.setMem_fiq (size : AccessSize) (a v : Word) : (s.setMem size a v).fiq = s.fiq := rfl
@[simp] theorem State.setMem_irq (size : AccessSize) (a v : Word) : (s.setMem size a v).irq = s.irq := rfl
@[simp] theorem State.setMem_svc (size : AccessSize) (a v : Word) : (s.setMem size a v).svc = s.svc := rfl
@[simp] theorem State.setMem_abt (size : AccessSize) (a v : Word) : (s.setMem size a v).abt = s.abt := rfl
@[simp] theorem State.setMem_und (size : AccessSize) (a v : Word) : (s.setMem size a v).und = s.und := rfl
@[simp] theorem State.setMem_pc (size : AccessSize) (a v : Word) : (s.setMem size a v).pc = s.pc := rfl
@[simp] theorem State.setMem_cpsr (size : AccessSize) (a v : Word) : (s.setMem size a v).cpsr = s.cpsr := rfl
@[simp] theorem State.setMem_spsrFiq (size : AccessSize) (a v : Word) : (s.setMem size a v).spsrFiq = s.spsrFiq := rfl
@[simp] theorem State.setMem_spsrIrq (size : AccessSize) (a v : Word) : (s.setMem size a v).spsrIrq = s.spsrIrq := rfl
@[simp] theorem State.setMem_spsrSvc (size : AccessSize) (a v : Word) : (s.setMem size a v).spsrSvc = s.spsrSvc := rfl
@[simp] theorem State.setMem_spsrAbt (size : AccessSize) (a v : Word) : (s.setMem size a v).spsrAbt = s.spsrAbt := rfl
@[simp] theorem State.setMem_spsrUnd (size : AccessSize) (a v : Word) : (s.setMem size a v).spsrUnd = s.spsrUnd := rfl
@[simp] theorem State.setMem_mem (size : AccessSize) (a v : Word) : (s.setMem size a v).mem = Memory.setValue s.mem s.platform.endian a size v := rfl
@[simp] theorem State.setMem_stored (size : AccessSize) (a v : Word) : (s.setMem size a v).stored = (byteAddresses a (accessBytes size)).foldl addressInsert s.stored := rfl
@[simp] theorem State.setMem_coproc (size : AccessSize) (a v : Word) : (s.setMem size a v).coproc = s.coproc := rfl
@[simp] theorem State.setMem_inputs (size : AccessSize) (a v : Word) : (s.setMem size a v).inputs = s.inputs := rfl
@[simp] theorem State.setMem_platform (size : AccessSize) (a v : Word) : (s.setMem size a v).platform = s.platform := rfl
@[simp] theorem State.setMem_draws (size : AccessSize) (a v : Word) : (s.setMem size a v).draws = s.draws := rfl

/-! ### placeWord -/

@[simp] theorem State.placeWord_usr (w : Word) : (s.placeWord w).usr = s.usr := rfl
@[simp] theorem State.placeWord_fiq (w : Word) : (s.placeWord w).fiq = s.fiq := rfl
@[simp] theorem State.placeWord_irq (w : Word) : (s.placeWord w).irq = s.irq := rfl
@[simp] theorem State.placeWord_svc (w : Word) : (s.placeWord w).svc = s.svc := rfl
@[simp] theorem State.placeWord_abt (w : Word) : (s.placeWord w).abt = s.abt := rfl
@[simp] theorem State.placeWord_und (w : Word) : (s.placeWord w).und = s.und := rfl
@[simp] theorem State.placeWord_pc (w : Word) : (s.placeWord w).pc = s.pc := rfl
@[simp] theorem State.placeWord_cpsr (w : Word) : (s.placeWord w).cpsr = s.cpsr := rfl
@[simp] theorem State.placeWord_spsrFiq (w : Word) : (s.placeWord w).spsrFiq = s.spsrFiq := rfl
@[simp] theorem State.placeWord_spsrIrq (w : Word) : (s.placeWord w).spsrIrq = s.spsrIrq := rfl
@[simp] theorem State.placeWord_spsrSvc (w : Word) : (s.placeWord w).spsrSvc = s.spsrSvc := rfl
@[simp] theorem State.placeWord_spsrAbt (w : Word) : (s.placeWord w).spsrAbt = s.spsrAbt := rfl
@[simp] theorem State.placeWord_spsrUnd (w : Word) : (s.placeWord w).spsrUnd = s.spsrUnd := rfl
@[simp] theorem State.placeWord_mem (w : Word) : (s.placeWord w).mem = Memory.setValue s.mem s.platform.endian s.pc .word w := rfl
@[simp] theorem State.placeWord_stored (w : Word) : (s.placeWord w).stored = (wordAddresses s.pc).foldl addressErase s.stored := rfl
@[simp] theorem State.placeWord_coproc (w : Word) : (s.placeWord w).coproc = s.coproc := rfl
@[simp] theorem State.placeWord_inputs (w : Word) : (s.placeWord w).inputs = s.inputs := rfl
@[simp] theorem State.placeWord_platform (w : Word) : (s.placeWord w).platform = s.platform := rfl
@[simp] theorem State.placeWord_draws (w : Word) : (s.placeWord w).draws = s.draws := rfl

/-! ### nextInputs -/

@[simp] theorem State.nextInputs_usr : (s.nextInputs).usr = s.usr := rfl
@[simp] theorem State.nextInputs_fiq : (s.nextInputs).fiq = s.fiq := rfl
@[simp] theorem State.nextInputs_irq : (s.nextInputs).irq = s.irq := rfl
@[simp] theorem State.nextInputs_svc : (s.nextInputs).svc = s.svc := rfl
@[simp] theorem State.nextInputs_abt : (s.nextInputs).abt = s.abt := rfl
@[simp] theorem State.nextInputs_und : (s.nextInputs).und = s.und := rfl
@[simp] theorem State.nextInputs_pc : (s.nextInputs).pc = s.pc := rfl
@[simp] theorem State.nextInputs_cpsr : (s.nextInputs).cpsr = s.cpsr := rfl
@[simp] theorem State.nextInputs_spsrFiq : (s.nextInputs).spsrFiq = s.spsrFiq := rfl
@[simp] theorem State.nextInputs_spsrIrq : (s.nextInputs).spsrIrq = s.spsrIrq := rfl
@[simp] theorem State.nextInputs_spsrSvc : (s.nextInputs).spsrSvc = s.spsrSvc := rfl
@[simp] theorem State.nextInputs_spsrAbt : (s.nextInputs).spsrAbt = s.spsrAbt := rfl
@[simp] theorem State.nextInputs_spsrUnd : (s.nextInputs).spsrUnd = s.spsrUnd := rfl
@[simp] theorem State.nextInputs_mem : (s.nextInputs).mem = s.mem := rfl
@[simp] theorem State.nextInputs_stored : (s.nextInputs).stored = s.stored := rfl
@[simp] theorem State.nextInputs_coproc : (s.nextInputs).coproc = s.coproc := rfl
@[simp] theorem State.nextInputs_inputs : (s.nextInputs).inputs = s.inputs.tail := rfl
@[simp] theorem State.nextInputs_platform : (s.nextInputs).platform = s.platform := rfl
@[simp] theorem State.nextInputs_draws : (s.nextInputs).draws = s.draws := rfl

/-! ### setCpState -/

@[simp] theorem State.setCpState_usr (cp : CpNum) (x : CpState) : (s.setCpState cp x).usr = s.usr := rfl
@[simp] theorem State.setCpState_fiq (cp : CpNum) (x : CpState) : (s.setCpState cp x).fiq = s.fiq := rfl
@[simp] theorem State.setCpState_irq (cp : CpNum) (x : CpState) : (s.setCpState cp x).irq = s.irq := rfl
@[simp] theorem State.setCpState_svc (cp : CpNum) (x : CpState) : (s.setCpState cp x).svc = s.svc := rfl
@[simp] theorem State.setCpState_abt (cp : CpNum) (x : CpState) : (s.setCpState cp x).abt = s.abt := rfl
@[simp] theorem State.setCpState_und (cp : CpNum) (x : CpState) : (s.setCpState cp x).und = s.und := rfl
@[simp] theorem State.setCpState_pc (cp : CpNum) (x : CpState) : (s.setCpState cp x).pc = s.pc := rfl
@[simp] theorem State.setCpState_cpsr (cp : CpNum) (x : CpState) : (s.setCpState cp x).cpsr = s.cpsr := rfl
@[simp] theorem State.setCpState_spsrFiq (cp : CpNum) (x : CpState) : (s.setCpState cp x).spsrFiq = s.spsrFiq := rfl
@[simp] theorem State.setCpState_spsrIrq (cp : CpNum) (x : CpState) : (s.setCpState cp x).spsrIrq = s.spsrIrq := rfl
@[simp] theorem State.setCpState_spsrSvc (cp : CpNum) (x : CpState) : (s.setCpState cp x).spsrSvc = s.spsrSvc := rfl
@[simp] theorem State.setCpState_spsrAbt (cp : CpNum) (x : CpState) : (s.setCpState cp x).spsrAbt = s.spsrAbt := rfl
@[simp] theorem State.setCpState_spsrUnd (cp : CpNum) (x : CpState) : (s.setCpState cp x).spsrUnd = s.spsrUnd := rfl
@[simp] theorem State.setCpState_mem (cp : CpNum) (x : CpState) : (s.setCpState cp x).mem = s.mem := rfl
@[simp] theorem State.setCpState_stored (cp : CpNum) (x : CpState) : (s.setCpState cp x).stored = s.stored := rfl
@[simp] theorem State.setCpState_coproc (cp : CpNum) (x : CpState) : (s.setCpState cp x).coproc = s.coproc.set (cpIndex cp) x := rfl
@[simp] theorem State.setCpState_inputs (cp : CpNum) (x : CpState) : (s.setCpState cp x).inputs = s.inputs := rfl
@[simp] theorem State.setCpState_platform (cp : CpNum) (x : CpState) : (s.setCpState cp x).platform = s.platform := rfl
@[simp] theorem State.setCpState_draws (cp : CpNum) (x : CpState) : (s.setCpState cp x).draws = s.draws := rfl

/-! ### exchangeTo -/

@[simp] theorem State.exchangeTo_usr (v : Word) : (s.exchangeTo v).usr = s.usr := rfl
@[simp] theorem State.exchangeTo_fiq (v : Word) : (s.exchangeTo v).fiq = s.fiq := rfl
@[simp] theorem State.exchangeTo_irq (v : Word) : (s.exchangeTo v).irq = s.irq := rfl
@[simp] theorem State.exchangeTo_svc (v : Word) : (s.exchangeTo v).svc = s.svc := rfl
@[simp] theorem State.exchangeTo_abt (v : Word) : (s.exchangeTo v).abt = s.abt := rfl
@[simp] theorem State.exchangeTo_und (v : Word) : (s.exchangeTo v).und = s.und := rfl
@[simp] theorem State.exchangeTo_pc (v : Word) : (s.exchangeTo v).pc = if v.getLsbD 0 then alignHalf v else alignWord v := rfl
@[simp] theorem State.exchangeTo_cpsr (v : Word) : (s.exchangeTo v).cpsr = psrSetT s.cpsr (v.getLsbD 0) := rfl
@[simp] theorem State.exchangeTo_spsrFiq (v : Word) : (s.exchangeTo v).spsrFiq = s.spsrFiq := rfl
@[simp] theorem State.exchangeTo_spsrIrq (v : Word) : (s.exchangeTo v).spsrIrq = s.spsrIrq := rfl
@[simp] theorem State.exchangeTo_spsrSvc (v : Word) : (s.exchangeTo v).spsrSvc = s.spsrSvc := rfl
@[simp] theorem State.exchangeTo_spsrAbt (v : Word) : (s.exchangeTo v).spsrAbt = s.spsrAbt := rfl
@[simp] theorem State.exchangeTo_spsrUnd (v : Word) : (s.exchangeTo v).spsrUnd = s.spsrUnd := rfl
@[simp] theorem State.exchangeTo_mem (v : Word) : (s.exchangeTo v).mem = s.mem := rfl
@[simp] theorem State.exchangeTo_stored (v : Word) : (s.exchangeTo v).stored = s.stored := rfl
@[simp] theorem State.exchangeTo_coproc (v : Word) : (s.exchangeTo v).coproc = s.coproc := rfl
@[simp] theorem State.exchangeTo_inputs (v : Word) : (s.exchangeTo v).inputs = s.inputs := rfl
@[simp] theorem State.exchangeTo_platform (v : Word) : (s.exchangeTo v).platform = s.platform := rfl
@[simp] theorem State.exchangeTo_draws (v : Word) : (s.exchangeTo v).draws = s.draws := rfl

/-! ### writePhys -/

@[simp] theorem State.writePhys_pc (p : PhysReg) (v : Word) : (s.writePhys p v).pc = s.pc := by cases p <;> rfl
@[simp] theorem State.writePhys_cpsr (p : PhysReg) (v : Word) : (s.writePhys p v).cpsr = s.cpsr := by cases p <;> rfl
@[simp] theorem State.writePhys_spsrFiq (p : PhysReg) (v : Word) : (s.writePhys p v).spsrFiq = s.spsrFiq := by cases p <;> rfl
@[simp] theorem State.writePhys_spsrIrq (p : PhysReg) (v : Word) : (s.writePhys p v).spsrIrq = s.spsrIrq := by cases p <;> rfl
@[simp] theorem State.writePhys_spsrSvc (p : PhysReg) (v : Word) : (s.writePhys p v).spsrSvc = s.spsrSvc := by cases p <;> rfl
@[simp] theorem State.writePhys_spsrAbt (p : PhysReg) (v : Word) : (s.writePhys p v).spsrAbt = s.spsrAbt := by cases p <;> rfl
@[simp] theorem State.writePhys_spsrUnd (p : PhysReg) (v : Word) : (s.writePhys p v).spsrUnd = s.spsrUnd := by cases p <;> rfl
@[simp] theorem State.writePhys_mem (p : PhysReg) (v : Word) : (s.writePhys p v).mem = s.mem := by cases p <;> rfl
@[simp] theorem State.writePhys_stored (p : PhysReg) (v : Word) : (s.writePhys p v).stored = s.stored := by cases p <;> rfl
@[simp] theorem State.writePhys_coproc (p : PhysReg) (v : Word) : (s.writePhys p v).coproc = s.coproc := by cases p <;> rfl
@[simp] theorem State.writePhys_inputs (p : PhysReg) (v : Word) : (s.writePhys p v).inputs = s.inputs := by cases p <;> rfl
@[simp] theorem State.writePhys_platform (p : PhysReg) (v : Word) : (s.writePhys p v).platform = s.platform := by cases p <;> rfl
@[simp] theorem State.writePhys_draws (p : PhysReg) (v : Word) : (s.writePhys p v).draws = s.draws := by cases p <;> rfl

/-! ### writeRegIn -/

@[simp] theorem State.writeRegIn_pc (m : Mode) (r : Reg) (v : Word) : (s.writeRegIn m r v).pc = s.pc := by
  unfold State.writeRegIn; split <;> simp
@[simp] theorem State.writeRegIn_cpsr (m : Mode) (r : Reg) (v : Word) : (s.writeRegIn m r v).cpsr = s.cpsr := by
  unfold State.writeRegIn; split <;> simp
@[simp] theorem State.writeRegIn_spsrFiq (m : Mode) (r : Reg) (v : Word) : (s.writeRegIn m r v).spsrFiq = s.spsrFiq := by
  unfold State.writeRegIn; split <;> simp
@[simp] theorem State.writeRegIn_spsrIrq (m : Mode) (r : Reg) (v : Word) : (s.writeRegIn m r v).spsrIrq = s.spsrIrq := by
  unfold State.writeRegIn; split <;> simp
@[simp] theorem State.writeRegIn_spsrSvc (m : Mode) (r : Reg) (v : Word) : (s.writeRegIn m r v).spsrSvc = s.spsrSvc := by
  unfold State.writeRegIn; split <;> simp
@[simp] theorem State.writeRegIn_spsrAbt (m : Mode) (r : Reg) (v : Word) : (s.writeRegIn m r v).spsrAbt = s.spsrAbt := by
  unfold State.writeRegIn; split <;> simp
@[simp] theorem State.writeRegIn_spsrUnd (m : Mode) (r : Reg) (v : Word) : (s.writeRegIn m r v).spsrUnd = s.spsrUnd := by
  unfold State.writeRegIn; split <;> simp
@[simp] theorem State.writeRegIn_mem (m : Mode) (r : Reg) (v : Word) : (s.writeRegIn m r v).mem = s.mem := by
  unfold State.writeRegIn; split <;> simp
@[simp] theorem State.writeRegIn_stored (m : Mode) (r : Reg) (v : Word) : (s.writeRegIn m r v).stored = s.stored := by
  unfold State.writeRegIn; split <;> simp
@[simp] theorem State.writeRegIn_coproc (m : Mode) (r : Reg) (v : Word) : (s.writeRegIn m r v).coproc = s.coproc := by
  unfold State.writeRegIn; split <;> simp
@[simp] theorem State.writeRegIn_inputs (m : Mode) (r : Reg) (v : Word) : (s.writeRegIn m r v).inputs = s.inputs := by
  unfold State.writeRegIn; split <;> simp
@[simp] theorem State.writeRegIn_platform (m : Mode) (r : Reg) (v : Word) : (s.writeRegIn m r v).platform = s.platform := by
  unfold State.writeRegIn; split <;> simp
@[simp] theorem State.writeRegIn_draws (m : Mode) (r : Reg) (v : Word) : (s.writeRegIn m r v).draws = s.draws := by
  unfold State.writeRegIn; split <;> simp

/-! ### writeReg -/

@[simp] theorem State.writeReg_pc (r : Reg) (v : Word) : (s.writeReg r v).pc = s.pc := by
  simp [State.writeReg]
@[simp] theorem State.writeReg_cpsr (r : Reg) (v : Word) : (s.writeReg r v).cpsr = s.cpsr := by
  simp [State.writeReg]
@[simp] theorem State.writeReg_spsrFiq (r : Reg) (v : Word) : (s.writeReg r v).spsrFiq = s.spsrFiq := by
  simp [State.writeReg]
@[simp] theorem State.writeReg_spsrIrq (r : Reg) (v : Word) : (s.writeReg r v).spsrIrq = s.spsrIrq := by
  simp [State.writeReg]
@[simp] theorem State.writeReg_spsrSvc (r : Reg) (v : Word) : (s.writeReg r v).spsrSvc = s.spsrSvc := by
  simp [State.writeReg]
@[simp] theorem State.writeReg_spsrAbt (r : Reg) (v : Word) : (s.writeReg r v).spsrAbt = s.spsrAbt := by
  simp [State.writeReg]
@[simp] theorem State.writeReg_spsrUnd (r : Reg) (v : Word) : (s.writeReg r v).spsrUnd = s.spsrUnd := by
  simp [State.writeReg]
@[simp] theorem State.writeReg_mem (r : Reg) (v : Word) : (s.writeReg r v).mem = s.mem := by
  simp [State.writeReg]
@[simp] theorem State.writeReg_stored (r : Reg) (v : Word) : (s.writeReg r v).stored = s.stored := by
  simp [State.writeReg]
@[simp] theorem State.writeReg_coproc (r : Reg) (v : Word) : (s.writeReg r v).coproc = s.coproc := by
  simp [State.writeReg]
@[simp] theorem State.writeReg_inputs (r : Reg) (v : Word) : (s.writeReg r v).inputs = s.inputs := by
  simp [State.writeReg]
@[simp] theorem State.writeReg_platform (r : Reg) (v : Word) : (s.writeReg r v).platform = s.platform := by
  simp [State.writeReg]
@[simp] theorem State.writeReg_draws (r : Reg) (v : Word) : (s.writeReg r v).draws = s.draws := by
  simp [State.writeReg]

/-! ### setSpsr -/

@[simp] theorem State.setSpsr_usr (m : Mode) (v : Word) : (s.setSpsr m v).usr = s.usr := by cases m <;> rfl
@[simp] theorem State.setSpsr_fiq (m : Mode) (v : Word) : (s.setSpsr m v).fiq = s.fiq := by cases m <;> rfl
@[simp] theorem State.setSpsr_irq (m : Mode) (v : Word) : (s.setSpsr m v).irq = s.irq := by cases m <;> rfl
@[simp] theorem State.setSpsr_svc (m : Mode) (v : Word) : (s.setSpsr m v).svc = s.svc := by cases m <;> rfl
@[simp] theorem State.setSpsr_abt (m : Mode) (v : Word) : (s.setSpsr m v).abt = s.abt := by cases m <;> rfl
@[simp] theorem State.setSpsr_und (m : Mode) (v : Word) : (s.setSpsr m v).und = s.und := by cases m <;> rfl
@[simp] theorem State.setSpsr_pc (m : Mode) (v : Word) : (s.setSpsr m v).pc = s.pc := by cases m <;> rfl
@[simp] theorem State.setSpsr_cpsr (m : Mode) (v : Word) : (s.setSpsr m v).cpsr = s.cpsr := by cases m <;> rfl
@[simp] theorem State.setSpsr_mem (m : Mode) (v : Word) : (s.setSpsr m v).mem = s.mem := by cases m <;> rfl
@[simp] theorem State.setSpsr_stored (m : Mode) (v : Word) : (s.setSpsr m v).stored = s.stored := by cases m <;> rfl
@[simp] theorem State.setSpsr_coproc (m : Mode) (v : Word) : (s.setSpsr m v).coproc = s.coproc := by cases m <;> rfl
@[simp] theorem State.setSpsr_inputs (m : Mode) (v : Word) : (s.setSpsr m v).inputs = s.inputs := by cases m <;> rfl
@[simp] theorem State.setSpsr_platform (m : Mode) (v : Word) : (s.setSpsr m v).platform = s.platform := by cases m <;> rfl
@[simp] theorem State.setSpsr_draws (m : Mode) (v : Word) : (s.setSpsr m v).draws = s.draws := by cases m <;> rfl

/-! ### countPsrRead -/

@[simp] theorem State.countPsrRead_usr : (s.countPsrRead).usr = s.usr := by
  unfold State.countPsrRead; split <;> rfl
@[simp] theorem State.countPsrRead_fiq : (s.countPsrRead).fiq = s.fiq := by
  unfold State.countPsrRead; split <;> rfl
@[simp] theorem State.countPsrRead_irq : (s.countPsrRead).irq = s.irq := by
  unfold State.countPsrRead; split <;> rfl
@[simp] theorem State.countPsrRead_svc : (s.countPsrRead).svc = s.svc := by
  unfold State.countPsrRead; split <;> rfl
@[simp] theorem State.countPsrRead_abt : (s.countPsrRead).abt = s.abt := by
  unfold State.countPsrRead; split <;> rfl
@[simp] theorem State.countPsrRead_und : (s.countPsrRead).und = s.und := by
  unfold State.countPsrRead; split <;> rfl
@[simp] theorem State.countPsrRead_pc : (s.countPsrRead).pc = s.pc := by
  unfold State.countPsrRead; split <;> rfl
@[simp] theorem State.countPsrRead_cpsr : (s.countPsrRead).cpsr = s.cpsr := by
  unfold State.countPsrRead; split <;> rfl
@[simp] theorem State.countPsrRead_spsrFiq : (s.countPsrRead).spsrFiq = s.spsrFiq := by
  unfold State.countPsrRead; split <;> rfl
@[simp] theorem State.countPsrRead_spsrIrq : (s.countPsrRead).spsrIrq = s.spsrIrq := by
  unfold State.countPsrRead; split <;> rfl
@[simp] theorem State.countPsrRead_spsrSvc : (s.countPsrRead).spsrSvc = s.spsrSvc := by
  unfold State.countPsrRead; split <;> rfl
@[simp] theorem State.countPsrRead_spsrAbt : (s.countPsrRead).spsrAbt = s.spsrAbt := by
  unfold State.countPsrRead; split <;> rfl
@[simp] theorem State.countPsrRead_spsrUnd : (s.countPsrRead).spsrUnd = s.spsrUnd := by
  unfold State.countPsrRead; split <;> rfl
@[simp] theorem State.countPsrRead_mem : (s.countPsrRead).mem = s.mem := by
  unfold State.countPsrRead; split <;> rfl
@[simp] theorem State.countPsrRead_stored : (s.countPsrRead).stored = s.stored := by
  unfold State.countPsrRead; split <;> rfl
@[simp] theorem State.countPsrRead_coproc : (s.countPsrRead).coproc = s.coproc := by
  unfold State.countPsrRead; split <;> rfl
@[simp] theorem State.countPsrRead_inputs : (s.countPsrRead).inputs = s.inputs := by
  unfold State.countPsrRead; split <;> rfl
@[simp] theorem State.countPsrRead_platform : (s.countPsrRead).platform = s.platform := by
  unfold State.countPsrRead; split <;> rfl

/-! ### setMultiplyFlags -/

@[simp] theorem State.setMultiplyFlags_usr (f long n z : Bool) : (s.setMultiplyFlags f long n z).usr = s.usr := by
  cases f <;> rfl
@[simp] theorem State.setMultiplyFlags_fiq (f long n z : Bool) : (s.setMultiplyFlags f long n z).fiq = s.fiq := by
  cases f <;> rfl
@[simp] theorem State.setMultiplyFlags_irq (f long n z : Bool) : (s.setMultiplyFlags f long n z).irq = s.irq := by
  cases f <;> rfl
@[simp] theorem State.setMultiplyFlags_svc (f long n z : Bool) : (s.setMultiplyFlags f long n z).svc = s.svc := by
  cases f <;> rfl
@[simp] theorem State.setMultiplyFlags_abt (f long n z : Bool) : (s.setMultiplyFlags f long n z).abt = s.abt := by
  cases f <;> rfl
@[simp] theorem State.setMultiplyFlags_und (f long n z : Bool) : (s.setMultiplyFlags f long n z).und = s.und := by
  cases f <;> rfl
@[simp] theorem State.setMultiplyFlags_pc (f long n z : Bool) : (s.setMultiplyFlags f long n z).pc = s.pc := by
  cases f <;> rfl
@[simp] theorem State.setMultiplyFlags_spsrFiq (f long n z : Bool) : (s.setMultiplyFlags f long n z).spsrFiq = s.spsrFiq := by
  cases f <;> rfl
@[simp] theorem State.setMultiplyFlags_spsrIrq (f long n z : Bool) : (s.setMultiplyFlags f long n z).spsrIrq = s.spsrIrq := by
  cases f <;> rfl
@[simp] theorem State.setMultiplyFlags_spsrSvc (f long n z : Bool) : (s.setMultiplyFlags f long n z).spsrSvc = s.spsrSvc := by
  cases f <;> rfl
@[simp] theorem State.setMultiplyFlags_spsrAbt (f long n z : Bool) : (s.setMultiplyFlags f long n z).spsrAbt = s.spsrAbt := by
  cases f <;> rfl
@[simp] theorem State.setMultiplyFlags_spsrUnd (f long n z : Bool) : (s.setMultiplyFlags f long n z).spsrUnd = s.spsrUnd := by
  cases f <;> rfl
@[simp] theorem State.setMultiplyFlags_mem (f long n z : Bool) : (s.setMultiplyFlags f long n z).mem = s.mem := by
  cases f <;> rfl
@[simp] theorem State.setMultiplyFlags_stored (f long n z : Bool) : (s.setMultiplyFlags f long n z).stored = s.stored := by
  cases f <;> rfl
@[simp] theorem State.setMultiplyFlags_coproc (f long n z : Bool) : (s.setMultiplyFlags f long n z).coproc = s.coproc := by
  cases f <;> rfl
@[simp] theorem State.setMultiplyFlags_inputs (f long n z : Bool) : (s.setMultiplyFlags f long n z).inputs = s.inputs := by
  cases f <;> rfl
@[simp] theorem State.setMultiplyFlags_platform (f long n z : Bool) : (s.setMultiplyFlags f long n z).platform = s.platform := by
  cases f <;> rfl

/-! ### writeBackTo -/

@[simp] theorem State.writeBackTo_pc (w : Bool) (r : Reg) (v : Word) : (s.writeBackTo w r v).pc = s.pc := by
  unfold State.writeBackTo; split <;> simp
@[simp] theorem State.writeBackTo_cpsr (w : Bool) (r : Reg) (v : Word) : (s.writeBackTo w r v).cpsr = s.cpsr := by
  unfold State.writeBackTo; split <;> simp
@[simp] theorem State.writeBackTo_spsrFiq (w : Bool) (r : Reg) (v : Word) : (s.writeBackTo w r v).spsrFiq = s.spsrFiq := by
  unfold State.writeBackTo; split <;> simp
@[simp] theorem State.writeBackTo_spsrIrq (w : Bool) (r : Reg) (v : Word) : (s.writeBackTo w r v).spsrIrq = s.spsrIrq := by
  unfold State.writeBackTo; split <;> simp
@[simp] theorem State.writeBackTo_spsrSvc (w : Bool) (r : Reg) (v : Word) : (s.writeBackTo w r v).spsrSvc = s.spsrSvc := by
  unfold State.writeBackTo; split <;> simp
@[simp] theorem State.writeBackTo_spsrAbt (w : Bool) (r : Reg) (v : Word) : (s.writeBackTo w r v).spsrAbt = s.spsrAbt := by
  unfold State.writeBackTo; split <;> simp
@[simp] theorem State.writeBackTo_spsrUnd (w : Bool) (r : Reg) (v : Word) : (s.writeBackTo w r v).spsrUnd = s.spsrUnd := by
  unfold State.writeBackTo; split <;> simp
@[simp] theorem State.writeBackTo_mem (w : Bool) (r : Reg) (v : Word) : (s.writeBackTo w r v).mem = s.mem := by
  unfold State.writeBackTo; split <;> simp
@[simp] theorem State.writeBackTo_stored (w : Bool) (r : Reg) (v : Word) : (s.writeBackTo w r v).stored = s.stored := by
  unfold State.writeBackTo; split <;> simp
@[simp] theorem State.writeBackTo_coproc (w : Bool) (r : Reg) (v : Word) : (s.writeBackTo w r v).coproc = s.coproc := by
  unfold State.writeBackTo; split <;> simp
@[simp] theorem State.writeBackTo_inputs (w : Bool) (r : Reg) (v : Word) : (s.writeBackTo w r v).inputs = s.inputs := by
  unfold State.writeBackTo; split <;> simp
@[simp] theorem State.writeBackTo_platform (w : Bool) (r : Reg) (v : Word) : (s.writeBackTo w r v).platform = s.platform := by
  unfold State.writeBackTo; split <;> simp
@[simp] theorem State.writeBackTo_draws (w : Bool) (r : Reg) (v : Word) : (s.writeBackTo w r v).draws = s.draws := by
  unfold State.writeBackTo; split <;> simp

/-! ### abortBase -/

@[simp] theorem State.abortBase_pc (w : Bool) (r : Reg) (v : Word) : (s.abortBase w r v).pc = s.pc := by
  unfold State.abortBase; split <;> (try split) <;> simp
@[simp] theorem State.abortBase_cpsr (w : Bool) (r : Reg) (v : Word) : (s.abortBase w r v).cpsr = s.cpsr := by
  unfold State.abortBase; split <;> (try split) <;> simp
@[simp] theorem State.abortBase_spsrFiq (w : Bool) (r : Reg) (v : Word) : (s.abortBase w r v).spsrFiq = s.spsrFiq := by
  unfold State.abortBase; split <;> (try split) <;> simp
@[simp] theorem State.abortBase_spsrIrq (w : Bool) (r : Reg) (v : Word) : (s.abortBase w r v).spsrIrq = s.spsrIrq := by
  unfold State.abortBase; split <;> (try split) <;> simp
@[simp] theorem State.abortBase_spsrSvc (w : Bool) (r : Reg) (v : Word) : (s.abortBase w r v).spsrSvc = s.spsrSvc := by
  unfold State.abortBase; split <;> (try split) <;> simp
@[simp] theorem State.abortBase_spsrAbt (w : Bool) (r : Reg) (v : Word) : (s.abortBase w r v).spsrAbt = s.spsrAbt := by
  unfold State.abortBase; split <;> (try split) <;> simp
@[simp] theorem State.abortBase_spsrUnd (w : Bool) (r : Reg) (v : Word) : (s.abortBase w r v).spsrUnd = s.spsrUnd := by
  unfold State.abortBase; split <;> (try split) <;> simp
@[simp] theorem State.abortBase_mem (w : Bool) (r : Reg) (v : Word) : (s.abortBase w r v).mem = s.mem := by
  unfold State.abortBase; split <;> (try split) <;> simp
@[simp] theorem State.abortBase_stored (w : Bool) (r : Reg) (v : Word) : (s.abortBase w r v).stored = s.stored := by
  unfold State.abortBase; split <;> (try split) <;> simp
@[simp] theorem State.abortBase_coproc (w : Bool) (r : Reg) (v : Word) : (s.abortBase w r v).coproc = s.coproc := by
  unfold State.abortBase; split <;> (try split) <;> simp
@[simp] theorem State.abortBase_inputs (w : Bool) (r : Reg) (v : Word) : (s.abortBase w r v).inputs = s.inputs := by
  unfold State.abortBase; split <;> (try split) <;> simp
@[simp] theorem State.abortBase_platform (w : Bool) (r : Reg) (v : Word) : (s.abortBase w r v).platform = s.platform := by
  unfold State.abortBase; split <;> (try split) <;> simp
@[simp] theorem State.abortBase_draws (w : Bool) (r : Reg) (v : Word) : (s.abortBase w r v).draws = s.draws := by
  unfold State.abortBase; split <;> (try split) <;> simp

/-! ### withAbortedBase -/

@[simp] theorem State.withAbortedBase_pc (w : Bool) (r : Reg) (v : Word) : (s.withAbortedBase w r v).pc = s.pc := by
  unfold State.withAbortedBase; split <;> simp
@[simp] theorem State.withAbortedBase_cpsr (w : Bool) (r : Reg) (v : Word) : (s.withAbortedBase w r v).cpsr = s.cpsr := by
  unfold State.withAbortedBase; split <;> simp
@[simp] theorem State.withAbortedBase_spsrFiq (w : Bool) (r : Reg) (v : Word) : (s.withAbortedBase w r v).spsrFiq = s.spsrFiq := by
  unfold State.withAbortedBase; split <;> simp
@[simp] theorem State.withAbortedBase_spsrIrq (w : Bool) (r : Reg) (v : Word) : (s.withAbortedBase w r v).spsrIrq = s.spsrIrq := by
  unfold State.withAbortedBase; split <;> simp
@[simp] theorem State.withAbortedBase_spsrSvc (w : Bool) (r : Reg) (v : Word) : (s.withAbortedBase w r v).spsrSvc = s.spsrSvc := by
  unfold State.withAbortedBase; split <;> simp
@[simp] theorem State.withAbortedBase_spsrAbt (w : Bool) (r : Reg) (v : Word) : (s.withAbortedBase w r v).spsrAbt = s.spsrAbt := by
  unfold State.withAbortedBase; split <;> simp
@[simp] theorem State.withAbortedBase_spsrUnd (w : Bool) (r : Reg) (v : Word) : (s.withAbortedBase w r v).spsrUnd = s.spsrUnd := by
  unfold State.withAbortedBase; split <;> simp
@[simp] theorem State.withAbortedBase_mem (w : Bool) (r : Reg) (v : Word) : (s.withAbortedBase w r v).mem = s.mem := by
  unfold State.withAbortedBase; split <;> simp
@[simp] theorem State.withAbortedBase_stored (w : Bool) (r : Reg) (v : Word) : (s.withAbortedBase w r v).stored = s.stored := by
  unfold State.withAbortedBase; split <;> simp
@[simp] theorem State.withAbortedBase_coproc (w : Bool) (r : Reg) (v : Word) : (s.withAbortedBase w r v).coproc = s.coproc := by
  unfold State.withAbortedBase; split <;> simp
@[simp] theorem State.withAbortedBase_inputs (w : Bool) (r : Reg) (v : Word) : (s.withAbortedBase w r v).inputs = s.inputs := by
  unfold State.withAbortedBase; split <;> simp
@[simp] theorem State.withAbortedBase_platform (w : Bool) (r : Reg) (v : Word) : (s.withAbortedBase w r v).platform = s.platform := by
  unfold State.withAbortedBase; split <;> simp
@[simp] theorem State.withAbortedBase_draws (w : Bool) (r : Reg) (v : Word) : (s.withAbortedBase w r v).draws = s.draws := by
  unfold State.withAbortedBase; split <;> simp

/-! ### writeRegsIn -/

@[simp] theorem writeRegsIn_pc (m : Mode) (l : List (Reg × Word)) : (writeRegsIn m s l).pc = s.pc := by
  induction l generalizing s with
  | nil => rfl
  | cons x xs ih => simp [writeRegsIn, ih]
@[simp] theorem writeRegsIn_cpsr (m : Mode) (l : List (Reg × Word)) : (writeRegsIn m s l).cpsr = s.cpsr := by
  induction l generalizing s with
  | nil => rfl
  | cons x xs ih => simp [writeRegsIn, ih]
@[simp] theorem writeRegsIn_spsrFiq (m : Mode) (l : List (Reg × Word)) : (writeRegsIn m s l).spsrFiq = s.spsrFiq := by
  induction l generalizing s with
  | nil => rfl
  | cons x xs ih => simp [writeRegsIn, ih]
@[simp] theorem writeRegsIn_spsrIrq (m : Mode) (l : List (Reg × Word)) : (writeRegsIn m s l).spsrIrq = s.spsrIrq := by
  induction l generalizing s with
  | nil => rfl
  | cons x xs ih => simp [writeRegsIn, ih]
@[simp] theorem writeRegsIn_spsrSvc (m : Mode) (l : List (Reg × Word)) : (writeRegsIn m s l).spsrSvc = s.spsrSvc := by
  induction l generalizing s with
  | nil => rfl
  | cons x xs ih => simp [writeRegsIn, ih]
@[simp] theorem writeRegsIn_spsrAbt (m : Mode) (l : List (Reg × Word)) : (writeRegsIn m s l).spsrAbt = s.spsrAbt := by
  induction l generalizing s with
  | nil => rfl
  | cons x xs ih => simp [writeRegsIn, ih]
@[simp] theorem writeRegsIn_spsrUnd (m : Mode) (l : List (Reg × Word)) : (writeRegsIn m s l).spsrUnd = s.spsrUnd := by
  induction l generalizing s with
  | nil => rfl
  | cons x xs ih => simp [writeRegsIn, ih]
@[simp] theorem writeRegsIn_mem (m : Mode) (l : List (Reg × Word)) : (writeRegsIn m s l).mem = s.mem := by
  induction l generalizing s with
  | nil => rfl
  | cons x xs ih => simp [writeRegsIn, ih]
@[simp] theorem writeRegsIn_stored (m : Mode) (l : List (Reg × Word)) : (writeRegsIn m s l).stored = s.stored := by
  induction l generalizing s with
  | nil => rfl
  | cons x xs ih => simp [writeRegsIn, ih]
@[simp] theorem writeRegsIn_coproc (m : Mode) (l : List (Reg × Word)) : (writeRegsIn m s l).coproc = s.coproc := by
  induction l generalizing s with
  | nil => rfl
  | cons x xs ih => simp [writeRegsIn, ih]
@[simp] theorem writeRegsIn_inputs (m : Mode) (l : List (Reg × Word)) : (writeRegsIn m s l).inputs = s.inputs := by
  induction l generalizing s with
  | nil => rfl
  | cons x xs ih => simp [writeRegsIn, ih]
@[simp] theorem writeRegsIn_platform (m : Mode) (l : List (Reg × Word)) : (writeRegsIn m s l).platform = s.platform := by
  induction l generalizing s with
  | nil => rfl
  | cons x xs ih => simp [writeRegsIn, ih]
@[simp] theorem writeRegsIn_draws (m : Mode) (l : List (Reg × Word)) : (writeRegsIn m s l).draws = s.draws := by
  induction l generalizing s with
  | nil => rfl
  | cons x xs ih => simp [writeRegsIn, ih]

/-! ### loadListed -/

@[simp] theorem State.loadListed_pc (l : BitVec 16) (vs : List Word) :
    (s.loadListed l vs).pc = s.pc := by
  simp [State.loadListed]
@[simp] theorem State.loadListed_cpsr (l : BitVec 16) (vs : List Word) :
    (s.loadListed l vs).cpsr = s.cpsr := by
  simp [State.loadListed]
@[simp] theorem State.loadListed_spsrFiq (l : BitVec 16) (vs : List Word) :
    (s.loadListed l vs).spsrFiq = s.spsrFiq := by
  simp [State.loadListed]
@[simp] theorem State.loadListed_spsrIrq (l : BitVec 16) (vs : List Word) :
    (s.loadListed l vs).spsrIrq = s.spsrIrq := by
  simp [State.loadListed]
@[simp] theorem State.loadListed_spsrSvc (l : BitVec 16) (vs : List Word) :
    (s.loadListed l vs).spsrSvc = s.spsrSvc := by
  simp [State.loadListed]
@[simp] theorem State.loadListed_spsrAbt (l : BitVec 16) (vs : List Word) :
    (s.loadListed l vs).spsrAbt = s.spsrAbt := by
  simp [State.loadListed]
@[simp] theorem State.loadListed_spsrUnd (l : BitVec 16) (vs : List Word) :
    (s.loadListed l vs).spsrUnd = s.spsrUnd := by
  simp [State.loadListed]
@[simp] theorem State.loadListed_mem (l : BitVec 16) (vs : List Word) :
    (s.loadListed l vs).mem = s.mem := by
  simp [State.loadListed]
@[simp] theorem State.loadListed_stored (l : BitVec 16) (vs : List Word) :
    (s.loadListed l vs).stored = s.stored := by
  simp [State.loadListed]
@[simp] theorem State.loadListed_coproc (l : BitVec 16) (vs : List Word) :
    (s.loadListed l vs).coproc = s.coproc := by
  simp [State.loadListed]
@[simp] theorem State.loadListed_inputs (l : BitVec 16) (vs : List Word) :
    (s.loadListed l vs).inputs = s.inputs := by
  simp [State.loadListed]
@[simp] theorem State.loadListed_platform (l : BitVec 16) (vs : List Word) :
    (s.loadListed l vs).platform = s.platform := by
  simp [State.loadListed]

/-! ### Readings of a state built field by field -/

/-- A physical register depends on the six banks only. -/
@[simp] theorem State.readPhys_mk (p : PhysReg) (pc cpsr f i v a u : Word) (mem : List Host.Cell) (st : List Nat)
    (co : Vector CpState 16) (li : List Lines) (pl : Platform) (d : Nat) :
    State.readPhys ⟨s.usr, s.fiq, s.irq, s.svc, s.abt, s.und, pc, cpsr, f, i, v, a, u, mem, st, co, li, pl, d⟩ p
      = s.readPhys p := by
  cases p <;> rfl

/-- An SPSR depends on the five SPSRs only. -/
@[simp] theorem State.spsr_mk (m : Mode) (us : Vector Word 15) (fq : Vector Word 7) (ir sv ab un : Vector Word 2)
    (pc cpsr : Word) (mem : List Host.Cell) (st : List Nat) (co : Vector CpState 16) (li : List Lines) (pl : Platform)
    (d : Nat) :
    State.spsr ⟨us, fq, ir, sv, ab, un, pc, cpsr, s.spsrFiq, s.spsrIrq, s.spsrSvc, s.spsrAbt, s.spsrUnd, mem, st, co,
      li, pl, d⟩ m = s.spsr m := by
  cases m <;> rfl

end Sys2Proof.Machine
end

