-- ==== Sys2Proof/Laws/Memory.lean ====
section
/-!
SUPPORT. Memory: reading after a write, and the canonical form, which every memory operation keeps
(spec/20_memory.md R60, R63, R65).
-/

namespace Sys2Proof.Machine

/-! ### One byte -/

theorem Memory.read_cons_same (a : Nat) (v : Byte) (m : Memory) (h : Memory.read m a = unlistedByte) :
    Memory.read (Memory.cons a v m) a = v := by
  unfold Memory.cons
  split
  · next e => rw [h, e]
  · simp [Memory.read]

theorem Memory.read_cons_other {a b : Nat} (v : Byte) (m : Memory) (h : b ≠ a) :
    Memory.read (Memory.cons a v m) b = Memory.read m b := by
  unfold Memory.cons
  split <;> simp [Memory.read, h]

/-- A write leaves every other byte, whatever the form of the list. -/
theorem Memory.read_write_other (m : Memory) {a b : Nat} (v : Byte) (h : b ≠ a) :
    Memory.read (Memory.write m a v) b = Memory.read m b := by
  induction m with
  | nil => simp [Memory.write, Memory.read_cons_other v [] h]
  | cons c rest ih =>
    obtain ⟨k, w⟩ := c
    simp only [Memory.write]
    split
    · rw [Memory.read_cons_other v _ h]
    · split
      · next e => subst e; rw [Memory.read_cons_other v _ h]; simp [Memory.read, h]
      · simp [Memory.read, ih]

/-- Below the bound of the canonical form nothing is listed. -/
theorem Memory.read_of_lt {lo a : Nat} {m : Memory} (h : Memory.wfFrom lo m = true) (ha : a < lo) :
    Memory.read m a = unlistedByte := by
  induction m generalizing lo with
  | nil => rfl
  | cons c rest ih =>
    obtain ⟨k, w⟩ := c
    simp only [Memory.wfFrom, Bool.and_eq_true, decide_eq_true_eq] at h
    simp only [Memory.read]
    rw [if_neg (by omega)]
    exact ih h.2 (by omega)

/-- A byte written reads as written. -/
theorem Memory.read_write_same {lo a : Nat} {m : Memory} (v : Byte) (h : Memory.wfFrom lo m = true) :
    Memory.read (Memory.write m a v) a = v := by
  induction m generalizing lo with
  | nil => exact Memory.read_cons_same a v [] rfl
  | cons c rest ih =>
    obtain ⟨k, w⟩ := c
    simp only [Memory.wfFrom, Bool.and_eq_true, decide_eq_true_eq] at h
    simp only [Memory.write]
    split
    · next hlt =>
      refine Memory.read_cons_same a v _ ?_
      simp only [Memory.read]
      rw [if_neg (by omega)]
      exact Memory.read_of_lt h.2 (by omega)
    · split
      · next e =>
        subst e
        exact Memory.read_cons_same a v _ (Memory.read_of_lt h.2 (by omega))
      · next hne =>
        simp only [Memory.read]
        rw [if_neg hne]
        exact ih h.2

/-- The canonical form from a bound is one from any lower bound. -/
theorem Memory.wfFrom_mono {lo lo' : Nat} {m : Memory} (h : Memory.wfFrom lo m = true) (hle : lo' ≤ lo) :
    Memory.wfFrom lo' m = true := by
  cases m with
  | nil => rfl
  | cons c rest =>
    obtain ⟨k, w⟩ := c
    simp only [Memory.wfFrom, Bool.and_eq_true, decide_eq_true_eq] at h ⊢
    exact ⟨⟨⟨by omega, h.1.1.2⟩, h.1.2⟩, h.2⟩

theorem Memory.wfFrom_consCell {lo a : Nat} {v : Byte} {m : Memory} (h : Memory.wfFrom (a + 1) m = true) (hlo : lo ≤ a)
    (ha : a < 2 ^ 32) : Memory.wfFrom lo (Memory.cons a v m) = true := by
  unfold Memory.cons
  split
  · exact Memory.wfFrom_mono h (by omega)
  · next hv =>
    simp only [Memory.wfFrom, Bool.and_eq_true, decide_eq_true_eq, bne_iff_ne, ne_eq]
    exact ⟨⟨⟨hlo, ha⟩, hv⟩, h⟩

/-- A write keeps the canonical form. -/
theorem Memory.wfFrom_write {lo a : Nat} {m : Memory} (v : Byte) (h : Memory.wfFrom lo m = true) (hlo : lo ≤ a)
    (ha : a < 2 ^ 32) : Memory.wfFrom lo (Memory.write m a v) = true := by
  induction m generalizing lo with
  | nil => exact Memory.wfFrom_consCell rfl hlo ha
  | cons c rest ih =>
    obtain ⟨k, w⟩ := c
    have h' := h
    simp only [Memory.wfFrom, Bool.and_eq_true, decide_eq_true_eq] at h
    simp only [Memory.write]
    split
    · next hlt =>
      refine Memory.wfFrom_consCell ?_ hlo ha
      simp only [Memory.wfFrom, Bool.and_eq_true, decide_eq_true_eq]
      exact ⟨⟨⟨by omega, h.1.1.2⟩, h.1.2⟩, h.2⟩
    · split
      · next e => subst e; exact Memory.wfFrom_consCell h.2 hlo ha
      · simp only [Memory.wfFrom, Bool.and_eq_true, decide_eq_true_eq]
        exact ⟨h.1, ih h.2 (by omega)⟩

/-- A write keeps the canonical form. -/
theorem Memory.wf_write {m : Memory} (a : Word) (v : Byte) (h : Memory.wf m = true) :
    Memory.wf (Memory.write m a.toNat v) = true := Memory.wfFrom_write v h (Nat.zero_le _) a.isLt

/-- The memory at reset is in canonical form. -/
theorem Memory.wf_reset : Memory.wf State.reset.mem = true := rfl

/-! ### Several bytes -/

/-- One byte on, then `k` more. -/
theorem word_add_succ (a : Word) (k : Nat) : a + 1 + BitVec.ofNat 32 k = a + BitVec.ofNat 32 (k + 1) := by
  rw [BitVec.add_assoc, Nat.add_comm k 1, BitVec.ofNat_add]
  rfl

/-- Writing bytes keeps the canonical form. -/
theorem Memory.wf_writeBytes {m : Memory} (a : Word) (bs : List Byte) (h : Memory.wf m = true) :
    Memory.wf (Memory.writeBytes m a bs) = true := by
  induction bs generalizing m a with
  | nil => exact h
  | cons b rest ih => exact ih _ (Memory.wf_write a b h)

/-- Writing a value keeps the canonical form. -/
theorem Memory.wf_setValue {m : Memory} (e : Endian) (a : Word) (size : AccessSize) (v : Word)
    (h : Memory.wf m = true) : Memory.wf (Memory.setValue m e a size v) = true := Memory.wf_writeBytes a _ h

/-- Writing bytes leaves every byte that is none of theirs. -/
theorem Memory.byteAt_writeBytes_other {m : Memory} {a b : Word} (bs : List Byte)
    (h : ∀ k, k < bs.length → b ≠ a + BitVec.ofNat 32 k) :
    Memory.byteAt (Memory.writeBytes m a bs) b = Memory.byteAt m b := by
  induction bs generalizing m a with
  | nil => rfl
  | cons x rest ih =>
    simp only [Memory.writeBytes]
    rw [ih]
    · refine Memory.read_write_other _ _ fun e => h 0 (by simp) ?_
      simpa using BitVec.eq_of_toNat_eq e
    · intro k hk e
      exact h (k + 1) (by simpa using hk) (e.trans (word_add_succ a k))

/-- A byte written among others reads as written, up to 2^32 bytes. -/
theorem Memory.byteAt_writeBytes_same {m : Memory} (a : Word) (bs : List Byte) (hm : Memory.wf m = true)
    (hlen : bs.length ≤ 2 ^ 32) (k : Nat) (hk : k < bs.length) :
    Memory.byteAt (Memory.writeBytes m a bs) (a + BitVec.ofNat 32 k) = bs[k] := by
  induction bs generalizing m a k with
  | nil => simp at hk
  | cons x rest ih =>
    simp only [Memory.writeBytes]
    cases k with
    | zero =>
      rw [Memory.byteAt_writeBytes_other]
      · simpa [Memory.byteAt] using Memory.read_write_same x hm
      · intro j hj e
        have hlen' : rest.length < 2 ^ 32 := by simpa using hlen
        have := congrArg BitVec.toNat e
        simp only [BitVec.toNat_add, BitVec.toNat_ofNat] at this
        have ha := a.isLt
        have h1 : (1 : BitVec 32).toNat = 1 := rfl
        omega
    | succ k =>
      rw [← word_add_succ, ih _ (Memory.wf_write a x hm) (by simp at hlen; omega) k (by simpa using hk)]
      rfl

@[simp] theorem bytesOfValue_length (e : Endian) (v : Word) (size : AccessSize) :
    (bytesOfValue e v size).length = accessBytes size := by
  cases size <;> cases e <;> rfl

/-- The bytes of a value, in ascending address order, are those of R63. -/
theorem bytesOfValue_getElem (e : Endian) (v : Word) (size : AccessSize) (k : Nat) (hk : k < accessBytes size) :
    (bytesOfValue e v size)[k]'(by simpa using hk) = storedByte e (accessBytes size) v k := by
  cases size <;> cases e <;> simp only [accessBytes] at hk <;> interval_cases k <;> rfl

/-- Writing a value leaves every byte outside it. -/
theorem Memory.byteAt_setValue_other {m : Memory} (e : Endian) {a b : Word} (size : AccessSize) (v : Word)
    (h : b ∉ byteRange a (accessBytes size)) : Memory.byteAt (Memory.setValue m e a size v) b = Memory.byteAt m b := by
  refine Memory.byteAt_writeBytes_other _ fun k hk hb => h ?_
  rw [bytesOfValue_length] at hk
  exact List.mem_map.mpr ⟨k, List.mem_range.mpr hk, hb.symm⟩

/-- The bytes of a value written read as R63 says. -/
theorem Memory.byteAt_setValue_same {m : Memory} (e : Endian) (a : Word) (size : AccessSize) (v : Word)
    (hm : Memory.wf m = true) (k : Nat) (hk : k < accessBytes size) :
    Memory.byteAt (Memory.setValue m e a size v) (a + BitVec.ofNat 32 k) = storedByte e (accessBytes size) v k := by
  rw [← bytesOfValue_getElem e v size k hk]
  exact Memory.byteAt_writeBytes_same a _ hm (by cases size <;> simp [accessBytes]) k (by simpa using hk)

/-! ### The list of stored addresses -/

/-- The canonical form of addresses from a bound is one from any lower bound. -/
theorem addressesWfFrom_mono {lo lo' : Nat} {l : List Nat} (h : addressesWfFrom lo l = true) (hle : lo' ≤ lo) :
    addressesWfFrom lo' l = true := by
  cases l with
  | nil => rfl
  | cons k rest =>
    simp only [addressesWfFrom, Bool.and_eq_true, decide_eq_true_eq] at h ⊢
    exact ⟨⟨by omega, h.1.2⟩, h.2⟩

/-- Inserting an address keeps the addresses strictly rising. -/
theorem addressesWfFrom_insert {lo a : Nat} {l : List Nat} (h : addressesWfFrom lo l = true) (hlo : lo ≤ a)
    (ha : a < 2 ^ 32) : addressesWfFrom lo (addressInsert l a) = true := by
  induction l generalizing lo with
  | nil => simpa [addressInsert, addressesWfFrom, hlo] using ha
  | cons k rest ih =>
    simp only [addressesWfFrom, Bool.and_eq_true, decide_eq_true_eq] at h
    simp only [addressInsert]
    split
    · simp only [addressesWfFrom, Bool.and_eq_true, decide_eq_true_eq]
      exact ⟨⟨hlo, ha⟩, ⟨by omega, h.1.2⟩, h.2⟩
    · split
      · simp only [addressesWfFrom, Bool.and_eq_true, decide_eq_true_eq]
        exact h
      · simp only [addressesWfFrom, Bool.and_eq_true, decide_eq_true_eq]
        exact ⟨h.1, ih h.2 (by omega)⟩

/-- Inserting the addresses of an access keeps the addresses strictly rising. -/
theorem addressesWf_foldl_insert (a : Word) (n : Nat) {l : List Nat} (h : addressesWf l = true) :
    addressesWf ((byteAddresses a n).foldl addressInsert l) = true := by
  induction n generalizing a l with
  | zero => exact h
  | succ n ih => exact ih _ (addressesWfFrom_insert h (Nat.zero_le _) a.isLt)

@[simp] theorem mem_addressInsert (l : List Nat) (a b : Nat) : b ∈ addressInsert l a ↔ b ∈ l ∨ b = a := by
  induction l with
  | nil => simp [addressInsert]
  | cons k rest ih =>
    simp only [addressInsert]
    split
    · simp; tauto
    · split
      · next e => subst e; simp; tauto
      · simp [ih]; tauto

/-- The addresses of an access are those of its bytes. -/
theorem mem_byteAddresses (a b : Word) (n : Nat) : b.toNat ∈ byteAddresses a n ↔ b ∈ byteRange a n := by
  unfold byteRange
  induction n generalizing a with
  | zero => simp [byteAddresses]
  | succ n ih =>
    rw [byteAddresses, List.mem_cons, ih, List.range_succ_eq_map]
    simp only [List.map_cons, List.map_map, List.mem_cons, List.mem_map, List.mem_range, Function.comp]
    constructor
    · rintro (h | ⟨k, hk, rfl⟩)
      · left; simpa using BitVec.eq_of_toNat_eq h
      · right
        exact ⟨k, hk, (word_add_succ a k).symm⟩
    · rintro (h | ⟨k, hk, rfl⟩)
      · left; subst h; simp
      · right
        exact ⟨k, hk, word_add_succ a k⟩

/-- The addresses noted as stored after a store. -/
theorem mem_foldl_addressInsert (l m : List Nat) (b : Nat) : b ∈ l.foldl addressInsert m ↔ b ∈ m ∨ b ∈ l := by
  induction l generalizing m with
  | nil => simp
  | cons a rest ih => simp [ih, or_assoc, or_comm (a := b = a)]

/-- What a store of one value does to memory: its bytes, nothing else. -/
theorem State.stored_setMem (s : State) (size : AccessSize) (a v : Word) (h : Memory.wf s.mem = true) :
    Stored s (s.setMem size a v) size a v where
  bytes k hk := Memory.byteAt_setValue_same _ a size v h k hk
  others _ hb := Memory.byteAt_setValue_other _ size v hb
  noted b := by rw [State.setMem_stored s, mem_foldl_addressInsert, mem_byteAddresses]

end Sys2Proof.Machine
end

