-- ==== Sys2Proof/Laws/Psr.lean ====
section
/-!
SUPPORT. What the updates of a program status register leave of each of its fields: one lemma for the bits of each
update, and from it the fields.
-/

namespace Sys2Proof.Machine

/-! ### N, Z, C, V replaced -/

/-- Each bit after the flags are replaced. -/
theorem psrSetFlags_getLsbD (p : Word) (n z c v : Bool) (i : Nat) :
    (psrSetFlags p n z c v).getLsbD i =
      if i < 28 then p.getLsbD i else if i = 28 then v else if i = 29 then c else if i = 30 then z
      else if i = 31 then n else false := by
  unfold psrSetFlags
  change BitVec.getLsbD (w := 1 + 1 + 1 + 1 + 28) _ i = _
  simp only [BitVec.getLsbD_append, BitVec.getLsbD_extractLsb', BitVec.getLsbD_ofBool]
  rcases (by omega : i < 28 ∨ i = 28 ∨ i = 29 ∨ i = 30 ∨ i = 31 ∨ 32 ≤ i) with h | h | h | h | h | h
  · simp [h]
  all_goals first | (subst h; simp) | grind

@[simp] theorem psrSetFlags_n (p : Word) (n z c v : Bool) : psrN (psrSetFlags p n z c v) = n :=
  psrSetFlags_getLsbD p n z c v 31

@[simp] theorem psrSetFlags_z (p : Word) (n z c v : Bool) : psrZ (psrSetFlags p n z c v) = z :=
  psrSetFlags_getLsbD p n z c v 30

@[simp] theorem psrSetFlags_c (p : Word) (n z c v : Bool) : psrC (psrSetFlags p n z c v) = c :=
  psrSetFlags_getLsbD p n z c v 29

@[simp] theorem psrSetFlags_v (p : Word) (n z c v : Bool) : psrV (psrSetFlags p n z c v) = v :=
  psrSetFlags_getLsbD p n z c v 28

@[simp] theorem psrSetFlags_t (p : Word) (n z c v : Bool) : psrT (psrSetFlags p n z c v) = psrT p :=
  psrSetFlags_getLsbD p n z c v 5

@[simp] theorem psrSetFlags_i (p : Word) (n z c v : Bool) : psrI (psrSetFlags p n z c v) = psrI p :=
  psrSetFlags_getLsbD p n z c v 7

@[simp] theorem psrSetFlags_f (p : Word) (n z c v : Bool) : psrF (psrSetFlags p n z c v) = psrF p :=
  psrSetFlags_getLsbD p n z c v 6

/-- Every field below the flags is as before. -/
theorem psrSetFlags_field (p : Word) (n z c v : Bool) (lo len : Nat) (h : lo + len ≤ 28) :
    (psrSetFlags p n z c v).extractLsb' lo len = p.extractLsb' lo len := by
  apply BitVec.eq_of_getLsbD_eq
  intro i hi
  simp [psrSetFlags_getLsbD, show lo + i < 28 by omega]

@[simp] theorem psrSetFlags_low (p : Word) (n z c v : Bool) :
    (psrSetFlags p n z c v).extractLsb' 0 28 = p.extractLsb' 0 28 := psrSetFlags_field p n z c v 0 28 (by omega)

@[simp] theorem psrSetFlags_modeBits (p : Word) (n z c v : Bool) :
    (psrSetFlags p n z c v).extractLsb' 0 5 = p.extractLsb' 0 5 := psrSetFlags_field p n z c v 0 5 (by omega)

@[simp] theorem psrSetFlags_control (p : Word) (n z c v : Bool) :
    (psrSetFlags p n z c v).extractLsb' 6 22 = p.extractLsb' 6 22 := psrSetFlags_field p n z c v 6 22 (by omega)

@[simp] theorem psrSetFlags_mode (p : Word) (n z c v : Bool) : psrMode (psrSetFlags p n z c v) = psrMode p := by
  simp [psrMode]

/-- The four flags are those given, and the rest is as before. -/
theorem psrSetFlags_flagsAre (p : Word) (n z c v : Bool) : FlagsAre p (psrSetFlags p n z c v) n z c v :=
  ⟨by simp, by simp, by simp, by simp, by simp⟩

/-! ### T replaced -/

/-- Each bit after T is replaced. -/
theorem psrSetT_getLsbD (p : Word) (t : Bool) (i : Nat) :
    (psrSetT p t).getLsbD i = if i = 5 then t else p.getLsbD i := by
  unfold psrSetT
  change BitVec.getLsbD (w := 26 + 1 + 5) _ i = _
  simp only [BitVec.getLsbD_append, BitVec.getLsbD_extractLsb', BitVec.getLsbD_ofBool]
  grind

@[simp] theorem psrSetT_n (p : Word) (t : Bool) : psrN (psrSetT p t) = psrN p := psrSetT_getLsbD p t 31

@[simp] theorem psrSetT_z (p : Word) (t : Bool) : psrZ (psrSetT p t) = psrZ p := psrSetT_getLsbD p t 30

@[simp] theorem psrSetT_c (p : Word) (t : Bool) : psrC (psrSetT p t) = psrC p := psrSetT_getLsbD p t 29

@[simp] theorem psrSetT_v (p : Word) (t : Bool) : psrV (psrSetT p t) = psrV p := psrSetT_getLsbD p t 28

@[simp] theorem psrSetT_t (p : Word) (t : Bool) : psrT (psrSetT p t) = t := psrSetT_getLsbD p t 5

@[simp] theorem psrSetT_modeBits (p : Word) (t : Bool) : (psrSetT p t).extractLsb' 0 5 = p.extractLsb' 0 5 := by
  apply BitVec.eq_of_getLsbD_eq
  intro i hi
  simp [psrSetT_getLsbD, hi, show i ≠ 5 by omega]

/-- Every field above T is as before. -/
theorem psrSetT_field (p : Word) (t : Bool) (lo len : Nat) (h : 6 ≤ lo) :
    (psrSetT p t).extractLsb' lo len = p.extractLsb' lo len := by
  apply BitVec.eq_of_getLsbD_eq
  intro i hi
  simp [psrSetT_getLsbD, hi, show lo + i ≠ 5 by omega]

@[simp] theorem psrSetT_high (p : Word) (t : Bool) : (psrSetT p t).extractLsb' 6 26 = p.extractLsb' 6 26 :=
  psrSetT_field p t 6 26 (by omega)

@[simp] theorem psrSetT_control (p : Word) (t : Bool) : (psrSetT p t).extractLsb' 6 22 = p.extractLsb' 6 22 :=
  psrSetT_field p t 6 22 (by omega)

@[simp] theorem psrSetT_mode (p : Word) (t : Bool) : psrMode (psrSetT p t) = psrMode p := by
  simp [psrMode]

/-! ### Exception entry -/

/-- Each bit after exception entry. -/
theorem psrEnter_getLsbD (p : Word) (f : Bool) (m : Mode) (i : Nat) :
    (psrEnter p f m).getLsbD i =
      if i < 5 then m.bits.getLsbD i else if i = 5 then false else if i = 6 then f else if i = 7 then true
      else p.getLsbD i := by
  unfold psrEnter
  change BitVec.getLsbD (w := 24 + 1 + 1 + 1 + 5) _ i = _
  simp only [BitVec.getLsbD_append, BitVec.getLsbD_extractLsb', BitVec.getLsbD_ofBool]
  grind

@[simp] theorem psrEnter_modeBits (p : Word) (f : Bool) (m : Mode) : (psrEnter p f m).extractLsb' 0 5 = m.bits := by
  apply BitVec.eq_of_getLsbD_eq
  intro i hi
  simp [psrEnter_getLsbD, hi]

@[simp] theorem psrEnter_t (p : Word) (f : Bool) (m : Mode) : psrT (psrEnter p f m) = false :=
  psrEnter_getLsbD p f m 5

@[simp] theorem psrEnter_f (p : Word) (f : Bool) (m : Mode) : psrF (psrEnter p f m) = f := psrEnter_getLsbD p f m 6

@[simp] theorem psrEnter_i (p : Word) (f : Bool) (m : Mode) : psrI (psrEnter p f m) = true := psrEnter_getLsbD p f m 7

@[simp] theorem psrEnter_high (p : Word) (f : Bool) (m : Mode) :
    (psrEnter p f m).extractLsb' 8 24 = p.extractLsb' 8 24 := by
  apply BitVec.eq_of_getLsbD_eq
  intro i hi
  simp [psrEnter_getLsbD, hi, show ¬ (8 + i < 5) by omega, show 8 + i ≠ 5 by omega, show 8 + i ≠ 6 by omega,
    show 8 + i ≠ 7 by omega]

@[simp] theorem Mode.ofBits_bits (m : Mode) : Mode.ofBits m.bits = some m := by
  cases m <;> rfl

/-- A mode number names at most one mode. -/
theorem Mode.ofBits_eq_some {v : BitVec 5} {m : Mode} (h : Mode.ofBits v = some m) : v = m.bits := by
  unfold Mode.ofBits at h
  repeat' split at h
  all_goals first | (cases h; assumption) | cases h

@[simp] theorem psrEnter_mode (p : Word) (f : Bool) (m : Mode) : psrMode (psrEnter p f m) = some m := by
  simp [psrMode]

/-! ### MSR -/

/-- Each bit after a masked write. -/
theorem psrMerge_getLsbD (p v m : Word) (i : Nat) :
    (psrMerge p v m).getLsbD i = if m.getLsbD i then v.getLsbD i else p.getLsbD i := by
  by_cases hi : i < 32
  · cases h : m.getLsbD i <;> simp only [psrMerge, BitVec.getLsbD_or, BitVec.getLsbD_and, BitVec.getLsbD_not, hi, h] <;> simp
  · simp [BitVec.getLsbD_of_ge _ i (show 32 ≤ i by omega)]

/-! ### The reserved bits -/

/-- Each bit of the mask of the reserved bits. -/
theorem psrReservedBits_getLsbD (i : Nat) : psrReservedBits.getLsbD i = (decide (8 ≤ i) && decide (i < 28)) := by
  by_cases hi : i < 32
  · revert hi; revert i; decide
  · rw [BitVec.getLsbD_of_ge _ i (by omega)]; simp; omega

/-- Each bit of the mask of the bits that exist. -/
theorem psrWritable_getLsbD (i : Nat) :
    psrWritable.getLsbD i = (decide (i < 8) || (decide (28 ≤ i) && decide (i < 32))) := by
  by_cases hi : i < 32
  · revert hi; revert i; decide
  · rw [BitVec.getLsbD_of_ge _ i (by omega)]; simp; omega

/-- The reserved bits are zero just if each of them is. -/
theorem reserved_zero_iff (p : Word) : p &&& psrReservedBits = 0 ↔ ∀ i, 8 ≤ i → i < 28 → p.getLsbD i = false := by
  constructor
  · intro h i h8 h28
    have := congrArg (fun w => BitVec.getLsbD w i) h
    simpa [psrReservedBits_getLsbD, h8, h28] using this
  · intro h
    apply BitVec.eq_of_getLsbD_eq
    intro i hi
    rw [BitVec.getLsbD_and, psrReservedBits_getLsbD]
    by_cases h8 : 8 ≤ i <;> by_cases h28 : i < 28 <;> simp [h8, h28]
    simpa [BitVec.getLsbD_eq_getElem hi] using h i h8 h28

/-- Replacing the flags keeps the reserved bits zero. -/
theorem psrSetFlags_reserved {p : Word} (h : p &&& psrReservedBits = 0) (n z c v : Bool) :
    psrSetFlags p n z c v &&& psrReservedBits = 0 := by
  rw [reserved_zero_iff] at h ⊢
  intro i h8 h28
  rw [psrSetFlags_getLsbD, if_pos h28, h i h8 h28]

/-- Replacing T keeps the reserved bits zero. -/
theorem psrSetT_reserved {p : Word} (h : p &&& psrReservedBits = 0) (t : Bool) :
    psrSetT p t &&& psrReservedBits = 0 := by
  rw [reserved_zero_iff] at h ⊢
  intro i h8 h28
  rw [psrSetT_getLsbD, if_neg (by omega), h i h8 h28]

/-- Exception entry keeps the reserved bits zero. -/
theorem psrEnter_reserved {p : Word} (h : p &&& psrReservedBits = 0) (f : Bool) (m : Mode) :
    psrEnter p f m &&& psrReservedBits = 0 := by
  rw [reserved_zero_iff] at h ⊢
  intro i h8 h28
  rw [psrEnter_getLsbD, if_neg (by omega), if_neg (by omega), if_neg (by omega), if_neg (by omega), h i h8 h28]

/-- A masked write of bits that exist keeps the reserved bits zero. -/
theorem psrMerge_reserved {p : Word} (h : p &&& psrReservedBits = 0) (v m : Word) :
    psrMerge p v (m &&& psrWritable) &&& psrReservedBits = 0 := by
  rw [reserved_zero_iff] at h ⊢
  intro i h8 h28
  rw [psrMerge_getLsbD, BitVec.getLsbD_and, psrWritable_getLsbD]
  simp [h i h8 h28, show ¬ i < 8 by omega, show ¬ 28 ≤ i by omega]

/-- The bits that exist of any word have no reserved bit. -/
theorem and_psrWritable_reserved (p : Word) : p &&& psrWritable &&& psrReservedBits = 0 := by
  rw [reserved_zero_iff]
  intro i h8 h28
  rw [BitVec.getLsbD_and, psrWritable_getLsbD]
  simp [show ¬ i < 8 by omega, show ¬ 28 ≤ i by omega]

end Sys2Proof.Machine
end

