-- ==== Sys2Proof/Laws/Registers.lean ====
section
/-!
SUPPORT. Reading a register or an SPSR after an update: the physical registers (spec/10_state.md R21), the register
selection (R23) and the SPSRs (R35).
-/

namespace Sys2Proof.Machine

variable (s : State)

/-! ### Physical registers -/

@[simp] theorem State.readPhys_writePhys_same (p : PhysReg) (v : Word) : (s.writePhys p v).readPhys p = v := by
  cases p <;> simp [State.readPhys, State.writePhys, Vector.get_eq_getElem]

/-- A write of one physical register leaves the others. -/
theorem State.readPhys_writePhys_other {p q : PhysReg} (v : Word) (h : p ≠ q) :
    (s.writePhys q v).readPhys p = s.readPhys p := by
  cases q <;> cases p <;> simp only [State.readPhys, State.writePhys, Vector.get_eq_getElem] <;>
    exact Vector.getElem_set_ne _ _ fun e => h (by rw [Fin.ext e])

theorem State.readPhys_writePhys (p q : PhysReg) (v : Word) :
    (s.writePhys q v).readPhys p = if p = q then v else s.readPhys p := by
  split
  · next h => subst h; simp
  · next h => exact s.readPhys_writePhys_other v h

@[simp] theorem State.readPhys_setFlags (n z c v : Bool) (p : PhysReg) :
    (s.setFlags n z c v).readPhys p = s.readPhys p := by
  cases p <;> rfl

@[simp] theorem State.readPhys_setMem (z : AccessSize) (a v : Word) (p : PhysReg) :
    (s.setMem z a v).readPhys p = s.readPhys p := by
  cases p <;> rfl

@[simp] theorem State.readPhys_nextInputs (p : PhysReg) : s.nextInputs.readPhys p = s.readPhys p := by
  cases p <;> rfl

@[simp] theorem State.readPhys_setCpState (cp : CpNum) (x : CpState) (p : PhysReg) :
    (s.setCpState cp x).readPhys p = s.readPhys p := by
  cases p <;> rfl

@[simp] theorem State.readPhys_exchangeTo (v : Word) (p : PhysReg) : (s.exchangeTo v).readPhys p = s.readPhys p := by
  cases p <;> rfl

@[simp] theorem State.readPhys_setSpsr (m : Mode) (v : Word) (p : PhysReg) :
    (s.setSpsr m v).readPhys p = s.readPhys p := by
  cases m <;> cases p <;> rfl

@[simp] theorem State.readPhys_countPsrRead (p : PhysReg) : s.countPsrRead.readPhys p = s.readPhys p := by
  unfold State.countPsrRead; split <;> cases p <;> rfl

@[simp] theorem State.readPhys_setMultiplyFlags (f long n z : Bool) (p : PhysReg) :
    (s.setMultiplyFlags f long n z).readPhys p = s.readPhys p := by
  cases f <;> cases p <;> rfl

/-! ### The mode -/

/-- The mode is a reading of the CPSR. -/
theorem State.mode_congr {s t : State} (h : t.cpsr = s.cpsr) : t.mode = s.mode := by
  simp [State.mode, State.mode?, h]

/-- The mode is a reading of the mode bits. -/
theorem State.mode?_congr {s t : State} (h : t.cpsr.extractLsb' 0 5 = s.cpsr.extractLsb' 0 5) : t.mode? = s.mode? := by
  simp [State.mode?, psrMode, h]

/-- The mode is a reading of the mode bits. -/
theorem State.mode_congr_bits {s t : State} (h : t.cpsr.extractLsb' 0 5 = s.cpsr.extractLsb' 0 5) :
    t.mode = s.mode := by
  simp [State.mode, State.mode?_congr h]

/-- A legal mode is the mode. -/
theorem State.mode?_eq_some {s : State} (h : s.mode?.isSome = true) : s.mode? = some s.mode := by
  unfold State.mode
  cases hm : s.mode? with
  | none => simp [hm] at h
  | some m => rfl

@[simp] theorem State.mode_writePhys (p : PhysReg) (v : Word) : (s.writePhys p v).mode = s.mode :=
  State.mode_congr (by simp)

@[simp] theorem State.mode_writeRegIn (m : Mode) (r : Reg) (v : Word) : (s.writeRegIn m r v).mode = s.mode :=
  State.mode_congr (by simp)

@[simp] theorem State.mode_writeReg (r : Reg) (v : Word) : (s.writeReg r v).mode = s.mode :=
  State.mode_congr (by simp)

@[simp] theorem State.mode_setSpsr (m : Mode) (v : Word) : (s.setSpsr m v).mode = s.mode :=
  State.mode_congr (by simp)

@[simp] theorem State.mode_setMem (z : AccessSize) (a v : Word) : (s.setMem z a v).mode = s.mode :=
  State.mode_congr (by simp)

@[simp] theorem State.mode_nextInputs : s.nextInputs.mode = s.mode := State.mode_congr (by simp)

@[simp] theorem State.mode_setCpState (cp : CpNum) (x : CpState) : (s.setCpState cp x).mode = s.mode :=
  State.mode_congr (by simp)

@[simp] theorem State.mode_countPsrRead : s.countPsrRead.mode = s.mode := State.mode_congr (by simp)

@[simp] theorem State.mode_writeBackTo (w : Bool) (r : Reg) (v : Word) : (s.writeBackTo w r v).mode = s.mode :=
  State.mode_congr (by simp)

@[simp] theorem State.mode_abortBase (w : Bool) (r : Reg) (v : Word) : (s.abortBase w r v).mode = s.mode :=
  State.mode_congr (by simp)

@[simp] theorem State.mode_setFlags (n z c v : Bool) : (s.setFlags n z c v).mode = s.mode :=
  State.mode_congr_bits (by simp)

@[simp] theorem State.mode_exchangeTo (v : Word) : (s.exchangeTo v).mode = s.mode := State.mode_congr_bits (by simp)

/-- The mode of a state built field by field. -/
theorem State.mode_setPc (v : Word) : State.mode { s with pc := v } = s.mode := rfl

/-! ### Register selection -/

/-- r0 to r14 have a physical register in every mode. -/
theorem physOf_isSome {r : Reg} (m : Mode) (h : r ≠ 15) : ∃ p, physOf r m = some p := by
  have : r.toNat < 15 := by
    have := r.isLt
    have : r.toNat ≠ 15 := fun e => h (BitVec.eq_of_toNat_eq e)
    omega
  exact ⟨_, dif_pos this⟩

@[simp] theorem physOf_pc (m : Mode) : physOf 15 m = none := rfl

/-- In one mode two register numbers have different physical registers. -/
theorem phys_injective (m : Mode) : Function.Injective fun i : Fin 15 => phys i m := by
  cases m <;> decide

/-- In one mode two register numbers have different physical registers. -/
theorem physOf_inj {r q : Reg} {m : Mode} {p : PhysReg} (hr : physOf r m = some p) (hq : physOf q m = some p) :
    r = q := by
  unfold physOf at hr hq
  split at hr <;> split at hq <;> simp_all
  have := phys_injective m (hr.trans hq.symm)
  exact BitVec.eq_of_toNat_eq (by simpa using this)

/-- A register written in a mode's bank reads as the value written. -/
theorem State.readRegIn_writeRegIn_same (m : Mode) {r : Reg} (v : Word) (h : r ≠ 15) :
    (s.writeRegIn m r v).readRegIn m r = v := by
  obtain ⟨p, hp⟩ := physOf_isSome m h
  simp [State.readRegIn, State.writeRegIn, hp]

/-- A register other than the one written in the same mode's bank is as before. -/
theorem State.readRegIn_writeRegIn_other (m : Mode) {r q : Reg} (v : Word) (h : r ≠ q) :
    (s.writeRegIn m q v).readRegIn m r = s.readRegIn m r := by
  unfold State.readRegIn State.writeRegIn
  split
  · next p hp =>
    split
    · next p' hq =>
      exact s.readPhys_writePhys_other v (fun e => h (physOf_inj hp (e ▸ hq)))
    · rfl
  · split <;> simp

/-- A register written in the current mode reads as the value written. -/
theorem State.readReg_writeReg_same {r : Reg} (v : Word) (h : r ≠ 15) : (s.writeReg r v).readReg r = v := by
  simp only [State.readReg, State.mode_writeReg]
  exact s.readRegIn_writeRegIn_same _ v h

/-- A register other than the one written in the current mode is as before. -/
theorem State.readReg_writeReg_other {r q : Reg} (v : Word) (h : r ≠ q) :
    (s.writeReg q v).readReg r = s.readReg r := by
  simp only [State.readReg, State.mode_writeReg]
  exact s.readRegIn_writeRegIn_other _ v h

/-- A write of register 15 as a register does nothing (spec/00_scope.md R7). -/
@[simp] theorem State.writeRegIn_r15 (m : Mode) (v : Word) : s.writeRegIn m 15 v = s := rfl

@[simp] theorem State.writeReg_r15 (v : Word) : s.writeReg 15 v = s := rfl

/-- A register write leaves every physical register but its own. -/
theorem State.readPhys_writeRegIn_other (m : Mode) (r : Reg) (v : Word) {p : PhysReg} (h : some p ≠ physOf r m) :
    (s.writeRegIn m r v).readPhys p = s.readPhys p := by
  unfold State.writeRegIn
  split
  · next q hq => exact s.readPhys_writePhys_other v (fun e => h (by rw [hq, e]))
  · rfl

/-- A register write leaves every physical register but its own. -/
theorem State.readPhys_writeReg_other (r : Reg) (v : Word) {p : PhysReg} (h : some p ≠ physOf r s.mode) :
    (s.writeReg r v).readPhys p = s.readPhys p := s.readPhys_writeRegIn_other _ r v h

/-- Every register reads the same where the mode, the physical registers and the pc are the same. -/
theorem State.readRegIn_congr {s t : State} (m : Mode) (r : Reg) (hr : ∀ p, t.readPhys p = s.readPhys p)
    (hpc : t.pc = s.pc) : t.readRegIn m r = s.readRegIn m r := by
  unfold State.readRegIn
  split <;> simp [hr, hpc]

/-- r0 to r14 read the same where the mode and the physical registers are the same. -/
theorem State.readRegIn_congr_reg {s t : State} (m : Mode) {r : Reg} (h : r ≠ 15)
    (hr : ∀ p, t.readPhys p = s.readPhys p) : t.readRegIn m r = s.readRegIn m r := by
  obtain ⟨p, hp⟩ := physOf_isSome m h
  simp [State.readRegIn, hp, hr]

/-- r0 to r14 of the current mode read the same where the mode and the physical registers are the same. -/
theorem State.readReg_congr_reg {s t : State} {r : Reg} (h : r ≠ 15) (hm : t.mode = s.mode)
    (hr : ∀ p, t.readPhys p = s.readPhys p) : t.readReg r = s.readReg r := by
  unfold State.readReg
  rw [hm]
  exact State.readRegIn_congr_reg _ h hr

/-! ### Saved program status registers -/

@[simp] theorem State.spsr_setSpsr_same {m : Mode} (v : Word) (h : m.hasSpsr = true) : (s.setSpsr m v).spsr m = v := by
  cases m <;> first | rfl | simp [Mode.hasSpsr] at h

/-- A write of one SPSR leaves the others. -/
theorem State.spsr_setSpsr_other {m m' : Mode} (v : Word) (h : m' ≠ m) : (s.setSpsr m v).spsr m' = s.spsr m' := by
  cases m <;> cases m' <;> first | rfl | exact absurd rfl h

@[simp] theorem State.spsr_writePhys (p : PhysReg) (v : Word) (m : Mode) : (s.writePhys p v).spsr m = s.spsr m := by
  cases m <;> simp [State.spsr]

@[simp] theorem State.spsr_writeRegIn (m' : Mode) (r : Reg) (v : Word) (m : Mode) :
    (s.writeRegIn m' r v).spsr m = s.spsr m := by
  cases m <;> simp [State.spsr]

@[simp] theorem State.spsr_writeReg (r : Reg) (v : Word) (m : Mode) : (s.writeReg r v).spsr m = s.spsr m := by
  cases m <;> simp [State.spsr]

@[simp] theorem State.spsr_setFlags (n z c v : Bool) (m : Mode) : (s.setFlags n z c v).spsr m = s.spsr m := by
  cases m <;> rfl

@[simp] theorem State.spsr_setMem (z : AccessSize) (a v : Word) (m : Mode) : (s.setMem z a v).spsr m = s.spsr m := by
  cases m <;> rfl

@[simp] theorem State.spsr_nextInputs (m : Mode) : s.nextInputs.spsr m = s.spsr m := by
  cases m <;> rfl

@[simp] theorem State.spsr_setCpState (cp : CpNum) (x : CpState) (m : Mode) :
    (s.setCpState cp x).spsr m = s.spsr m := by
  cases m <;> rfl

@[simp] theorem State.spsr_exchangeTo (v : Word) (m : Mode) : (s.exchangeTo v).spsr m = s.spsr m := by
  cases m <;> rfl

@[simp] theorem State.spsr_countPsrRead (m : Mode) : s.countPsrRead.spsr m = s.spsr m := by
  cases m <;> simp [State.spsr]

@[simp] theorem State.spsr_setMultiplyFlags (f long n z : Bool) (m : Mode) :
    (s.setMultiplyFlags f long n z).spsr m = s.spsr m := by
  cases m <;> simp [State.spsr]

@[simp] theorem State.spsr_writeBackTo (w : Bool) (r : Reg) (v : Word) (m : Mode) :
    (s.writeBackTo w r v).spsr m = s.spsr m := by
  cases m <;> simp [State.spsr]

@[simp] theorem State.spsr_abortBase (w : Bool) (r : Reg) (v : Word) (m : Mode) :
    (s.abortBase w r v).spsr m = s.spsr m := by
  cases m <;> simp [State.spsr]

@[simp] theorem State.spsr_loadListed (l : BitVec 16) (vs : List Word) (m : Mode) :
    (s.loadListed l vs).spsr m = s.spsr m := by
  cases m <;> simp [State.spsr]

@[simp] theorem spsr_writeRegsIn (m' : Mode) (l : List (Reg × Word)) (m : Mode) :
    (writeRegsIn m' s l).spsr m = s.spsr m := by
  cases m <;> simp [State.spsr]

/-- After a base write-back, registers other than the base are as before. -/
theorem State.readPhys_writeBackTo_other (w : Bool) (r : Reg) (v : Word) {p : PhysReg}
    (h : some p ≠ physOf r s.mode) : (s.writeBackTo w r v).readPhys p = s.readPhys p := by
  unfold State.writeBackTo
  split
  · exact s.readPhys_writeReg_other r v h
  · rfl

/-- After an aborted transfer, registers other than the base are as before. -/
theorem State.readPhys_abortBase_other (w : Bool) (r : Reg) (v : Word) {p : PhysReg}
    (h : some p ≠ physOf r s.mode) : (s.abortBase w r v).readPhys p = s.readPhys p := by
  unfold State.abortBase
  split
  · rfl
  · split
    · exact s.readPhys_writeReg_other r v h
    · rfl

/-- The two ways of saying what an abort leaves of the base are the same. -/
theorem State.withAbortedBase_eq (w : Bool) (r : Reg) (v : Word) : s.withAbortedBase w r v = s.abortBase w r v := by
  unfold State.withAbortedBase State.abortBase
  cases h : s.platform.abortModel <;> cases w <;> simp

end Sys2Proof.Machine
end

