-- ==== Sys2Proof/Laws/Ops.lean ====
section
/-!
SUPPORT. For each shared operation of the machine one lemma that says all it can do: when it answers a next state, and
which.
-/

namespace Sys2Proof.Machine

/-! ### The frame of an instruction -/

theorem require_next {ok : Bool} {r : Refusal} {k : Result State} {t : State} :
    require ok r k = .next t ↔ ok = true ∧ k = .next t := by
  cases ok <;> simp [require]

@[simp] theorem require_true (r : Refusal) (k : Result State) : require true r k = k := rfl

@[simp] theorem require_false (r : Refusal) (k : Result State) : require false r k = .refused r := rfl

theorem inMode_next {s t : State} {k : Result State} : inMode s k = .next t ↔ s.mode?.isSome = true ∧ k = .next t := by
  unfold inMode
  split <;> simp_all

theorem inMode_of_mode {s : State} (h : s.mode?.isSome = true) (k : Result State) : inMode s k = k := if_pos h

theorem State.advance_next {s t : State} :
    s.advance = .next t ↔ s.pc ≠ 0xFFFFFFFC ∧ t = { s with pc := s.pc + 4 } := by
  unfold State.advance
  split <;> simp_all [eq_comm]

/-- Where the next sequential address exists, the end of an instruction moves the pc on. -/
theorem State.advance_of_notLast {s : State} (h : s.pc ≠ 0xFFFFFFFC) : s.advance = .next { s with pc := s.pc + 4 } :=
  if_neg h

theorem conditional_next {c : Cond} {s t : State} {k : Result State} :
    conditional c s k = .next t ↔ s.mode?.isSome = true ∧
      (condHolds c s.cpsr = true ∧ k = .next t ∨ condHolds c s.cpsr = false ∧ s.advance = .next t) := by
  unfold conditional
  rw [inMode_next]
  cases h : condHolds c s.cpsr <;> simp

/-- An executed instruction does what follows its condition. -/
theorem conditional_of_runs {c : Cond} {s : State} (h : Runs c s) (k : Result State) : conditional c s k = k := by
  unfold conditional
  rw [inMode_of_mode h.mode, if_pos h.passes]

/-- An instruction whose condition fails ends at once. -/
theorem conditional_of_failed {c : Cond} {s : State} (hm : s.mode?.isSome = true) (h : condHolds c s.cpsr = false)
    (k : Result State) : conditional c s k = s.advance := by
  unfold conditional
  rw [inMode_of_mode hm, if_neg (by simp [h])]

theorem ifPresent_next {present : Bool} {s t : State} {k : Result State} :
    ifPresent present s k = .next t ↔
      present = true ∧ k = .next t ∨ present = false ∧ t = takeException .undefined s := by
  cases present <;> simp [ifPresent, undefinedTrap, eq_comm]

@[simp] theorem ifPresent_true (s : State) (k : Result State) : ifPresent true s k = k := rfl

@[simp] theorem ifPresent_false (s : State) (k : Result State) : ifPresent false s k = undefinedTrap s := rfl

theorem stopWith_next {e : Stop} {s t : State} :
    stopWith e s = .next t ↔ e = .abort ∧ t = takeException .dataAbort s := by
  cases e <;> simp [stopWith, eq_comm]

/-! ### Exceptions -/

/-- The table of exceptions as the machine has it. -/
theorem entryRow_eq (e : Exception) : (entryRow e).mode = e.mode ∧ (entryRow e).modeBits = e.mode.bits
    ∧ (entryRow e).vector = e.vector ∧ (entryRow e).offset = e.returnOffset ∧ (entryRow e).setsF = (e == .fiq) := by
  cases e <;> exact ⟨rfl, rfl, rfl, rfl, rfl⟩

/-- The mode an exception enters has an SPSR. -/
theorem Exception.mode_hasSpsr (e : Exception) : e.mode.hasSpsr = true := by cases e <;> rfl

@[simp] theorem takeException_cpsr (e : Exception) (s : State) :
    (takeException e s).cpsr = psrEnter s.cpsr (psrF s.cpsr || e == .fiq) e.mode := rfl

@[simp] theorem takeException_pc (e : Exception) (s : State) : (takeException e s).pc = e.vector := rfl

@[simp] theorem takeException_mem (e : Exception) (s : State) : (takeException e s).mem = s.mem := by
  simp [takeException]

@[simp] theorem takeException_stored (e : Exception) (s : State) : (takeException e s).stored = s.stored := by
  simp [takeException]

@[simp] theorem takeException_coproc (e : Exception) (s : State) : (takeException e s).coproc = s.coproc := by
  simp [takeException]

@[simp] theorem takeException_inputs (e : Exception) (s : State) : (takeException e s).inputs = s.inputs := by
  simp [takeException]

@[simp] theorem takeException_platform (e : Exception) (s : State) : (takeException e s).platform = s.platform := by
  simp [takeException]

@[simp] theorem takeException_draws (e : Exception) (s : State) : (takeException e s).draws = s.draws := by
  simp [takeException]

@[simp] theorem takeException_mode? (e : Exception) (s : State) : (takeException e s).mode? = some e.mode := by
  simp [State.mode?]

/-- A physical register after exception entry. -/
theorem takeException_readPhys (e : Exception) (s : State) (p : PhysReg) :
    (takeException e s).readPhys p = (s.writeRegIn e.mode 14 (s.pc + e.returnOffset)).readPhys p := by
  simp [takeException]

/-- An SPSR after exception entry. -/
theorem takeException_spsr (e : Exception) (s : State) (m : Mode) :
    (takeException e s).spsr m = if m = e.mode then s.cpsr else s.spsr m := by
  simp only [takeException, State.spsr_mk]
  split
  · next h => subst h; exact State.spsr_setSpsr_same _ _ e.mode_hasSpsr
  · next h => rw [State.spsr_setSpsr_other _ _ h, State.spsr_writeRegIn]

/-- r14 of the mode an exception enters. -/
theorem takeException_link (e : Exception) (s : State) :
    (takeException e s).readRegIn e.mode 14 = s.pc + e.returnOffset := by
  rw [State.readRegIn_congr_reg e.mode (by decide) (takeException_readPhys e s)]
  exact s.readRegIn_writeRegIn_same _ _ (by decide)

/-! ### Writes of the pc -/

/-- The two low bits are zero just if the address is a multiple of four. -/
theorem low_two_zero_iff (a : Word) : a.extractLsb' 0 2 = 0 ↔ a.toNat % 4 = 0 := by
  rw [← BitVec.toNat_inj]
  simp [BitVec.extractLsb'_toNat]

/-- Each bit of an address with its two low bits cleared. -/
theorem alignWord_getLsbD (a : Word) (i : Nat) : (alignWord a).getLsbD i = (decide (2 ≤ i) && a.getLsbD i) := by
  unfold alignWord
  by_cases hi : i < 32
  · have h : (0xFFFFFFFC : Word).getLsbD i = decide (2 ≤ i) := by revert hi; revert i; decide
    rw [BitVec.getLsbD_and, h, Bool.and_comm]
  · simp [BitVec.getLsbD_of_ge _ i (show 32 ≤ i by omega)]

/-- Each bit of an address with its lowest bit cleared. -/
theorem alignHalf_getLsbD (a : Word) (i : Nat) : (alignHalf a).getLsbD i = (decide (1 ≤ i) && a.getLsbD i) := by
  unfold alignHalf
  by_cases hi : i < 32
  · have h : (0xFFFFFFFE : Word).getLsbD i = decide (1 ≤ i) := by revert hi; revert i; decide
    rw [BitVec.getLsbD_and, h, Bool.and_comm]
  · simp [BitVec.getLsbD_of_ge _ i (show 32 ≤ i by omega)]

/-- An address with its two low bits cleared is word-aligned. -/
theorem alignWord_aligned (a : Word) : (alignWord a).extractLsb' 0 2 = 0 := by
  apply BitVec.eq_of_getLsbD_eq
  intro i hi
  rw [BitVec.getLsbD_extractLsb', alignWord_getLsbD]
  simp [hi]

/-- An address with its lowest bit cleared is half-word-aligned. -/
theorem alignHalf_aligned (a : Word) : (alignHalf a).getLsbD 0 = false := by
  rw [alignHalf_getLsbD]
  simp

/-- A word-aligned address is half-word-aligned. -/
theorem half_aligned_of_word {a : Word} (h : a.extractLsb' 0 2 = 0) : a.getLsbD 0 = false := by
  have := congrArg (fun w => BitVec.getLsbD w 0) h
  simpa using this

/-- An aligned address is its own aligned address. -/
theorem alignWord_of_aligned {a : Word} (h : a.extractLsb' 0 2 = 0) : alignWord a = a := by
  apply BitVec.eq_of_getLsbD_eq
  intro i hi
  rw [alignWord_getLsbD]
  by_cases h2 : 2 ≤ i
  · simp [h2]
  · have := congrArg (fun w => BitVec.getLsbD w i) h
    simp only [BitVec.getLsbD_extractLsb', show i < 2 by omega, decide_true, Bool.true_and, Nat.zero_add] at this
    simp only [h2, decide_false, Bool.false_and]
    rw [this]
    simp

theorem State.writePc_next {s t : State} {v : Word} :
    s.writePc v = .next t ↔
      (v.extractLsb' 0 2 = 0 ∨ s.platform.pcWriteAlign = .mask) ∧ t = { s with pc := alignWord v } := by
  unfold State.writePc
  split
  · next h => simp [h, alignWord_of_aligned h, eq_comm (b := t)]
  · next h =>
    have h' : ¬ v.extractLsb' 0 2 = 0#2 := h
    cases hp : s.platform.pcWriteAlign <;> simp [h', eq_comm (b := t)]

/-- A write of the pc is made or refused. -/
theorem State.writePc_refused {s : State} {v : Word} (h : ¬ (v.extractLsb' 0 2 = 0 ∨ s.platform.pcWriteAlign = .mask)) :
    s.writePc v = .refused .pcWriteAlignment := by
  unfold State.writePc
  rw [if_neg (fun e => h (.inl e))]
  cases hp : s.platform.pcWriteAlign
  · rfl
  · exact absurd (.inr hp) h

theorem State.loadPc_next {s t : State} {v : Word} :
    s.loadPc v = .next t ↔
      (s.platform.arch = .v5T ∧ v.extractLsb' 0 2 ≠ 2
          ∧ t = { s with cpsr := psrSetT s.cpsr (v.getLsbD 0), pc := alignHalf v }) ∨
      (s.platform.arch ≠ .v5T ∧ s.writePc v = .next t) := by
  unfold State.loadPc
  cases h : s.platform.arch <;> simp
  split <;> simp_all [eq_comm (a := t)]

theorem State.restoreCpsr_next {s t : State} {k : State → Result State} :
    s.restoreCpsr k = .next t ↔ s.mode.hasSpsr = true ∧ (psrMode (s.spsr s.mode)).isSome = true
      ∧ k { s with cpsr := s.spsr s.mode } = .next t := by
  unfold State.restoreCpsr
  split
  · next h => split <;> simp_all
  · next h => simp_all

theorem State.exceptionReturn_next {s t : State} {v : Word} :
    s.exceptionReturn v = .next t ↔ s.mode.hasSpsr = true ∧ (psrMode (s.spsr s.mode)).isSome = true ∧
      ((psrT (s.spsr s.mode) = true ∧ t = { s with cpsr := s.spsr s.mode, pc := alignHalf v }) ∨
       (psrT (s.spsr s.mode) = false ∧ State.writePc { s with cpsr := s.spsr s.mode } v = .next t)) := by
  unfold State.exceptionReturn
  rw [State.restoreCpsr_next]
  cases h : psrT (s.spsr s.mode) <;> simp [eq_comm (b := t)]

/-! ### Memory accesses -/

/-- The lowest bit is zero just if the address is even. -/
theorem low_bit_zero_iff (a : Word) : a.getLsbD 0 = false ↔ a.toNat % 2 = 0 := by
  simp [BitVec.getLsbD, Nat.testBit_zero]

/-- The stop of a misaligned access, by `MISALIGN` (spec/20_memory.md R67). -/
def misalignedStop (s : State) : Stop :=
  match s.platform.misalign with
  | .abort => .abort
  | .refuse | .rotate => .refuse .misaligned

@[simp] theorem State.effectiveAddress_byte (s : State) (a : Word) : s.effectiveAddress .byte a = a := rfl

@[simp] theorem State.effectiveAddress_half (s : State) (a : Word) : s.effectiveAddress .half a = a := rfl

theorem State.effectiveAddress_word (s : State) (a : Word) :
    s.effectiveAddress .word a = if s.platform.misalign = .rotate then alignWord a else a := by
  unfold State.effectiveAddress
  cases s.platform.misalign <;> rfl

/-- An aligned address is its own effective address. -/
theorem State.effectiveAddress_of_aligned (s : State) {a : Word} (h : a.toNat % 4 = 0) :
    s.effectiveAddress .word a = a := by
  rw [State.effectiveAddress_word, alignWord_of_aligned ((low_two_zero_iff a).mpr h)]
  simp

/-- An access is made at its effective address where that is aligned, and stops otherwise. -/
theorem State.alignedAddress_eq (s : State) (size : AccessSize) (a : Word) :
    s.alignedAddress size a =
      if alignedTo size (s.effectiveAddress size a) then .ok (s.effectiveAddress size a)
      else .error (misalignedStop s) := by
  cases size with
  | byte => rfl
  | half =>
    rw [State.effectiveAddress_half]
    have h : alignedTo .half a = !a.getLsbD 0 := by
      have := low_bit_zero_iff a
      cases hb : a.getLsbD 0 <;> rw [hb] at this <;> simp at this <;> simpa [alignedTo] using this
    rw [h]
    unfold State.alignedAddress misalignedStop
    cases a.getLsbD 0 <;> cases s.platform.misalign <;> rfl
  | word =>
    rw [State.effectiveAddress_word]
    unfold State.alignedAddress misalignedStop
    by_cases ho : a.extractLsb' 0 2 = 0
    · have hal : alignedTo .word a = true := by simpa [alignedTo] using (low_two_zero_iff a).mp ho
      simp only [ho, alignWord_of_aligned ho, if_true, ite_self, hal]
    · have hal : alignedTo .word a = false := by
        have := fun e => ho ((low_two_zero_iff a).mpr e)
        simpa [alignedTo] using this
      have hw : alignedTo .word (alignWord a) = true := by
        simpa [alignedTo] using (low_two_zero_iff (alignWord a)).mp (alignWord_aligned a)
      rw [if_neg ho]
      cases s.platform.misalign <;> simp [hal, hw]

/-- An access is answered by its address just if it is aligned and allowed. -/
theorem State.access_ok {s : State} {kind : AccessKind} {size : AccessSize} {a ea : Word} {privileged : Bool} :
    s.access kind size a privileged = .ok ea ↔
      Accessible s kind size a privileged ∧ ea = s.effectiveAddress size a := by
  unfold State.access
  rw [State.alignedAddress_eq]
  split
  · next x hx =>
    split at hx
    · next hal =>
      cases hx
      cases hf : memFaults s.platform.memSys (s.effectiveAddress size a) size kind privileged
      · simp only [Bool.false_eq_true, if_false, Except.ok.injEq]
        exact ⟨fun h => ⟨⟨hal, hf⟩, h.symm⟩, fun h => h.2.symm⟩
      · simp only [if_true, reduceCtorEq, false_iff]
        exact fun h => absurd h.1.allowed (by simp [hf])
    · cases hx
  · next e hx =>
    split at hx
    · cases hx
    · next hal =>
      simp only [reduceCtorEq, false_iff]
      exact fun h => hal h.1.aligned

/-- An access stops just if it is misaligned or faults. -/
theorem State.access_error {s : State} {kind : AccessKind} {size : AccessSize} {a : Word} {privileged : Bool}
    {e : Stop} :
    s.access kind size a privileged = .error e ↔
      (Faulting s kind size a privileged ∧ e = .abort) ∨
      (alignedTo size (s.effectiveAddress size a) = false ∧ e = misalignedStop s) := by
  unfold State.access
  rw [State.alignedAddress_eq]
  cases hal : alignedTo size (s.effectiveAddress size a)
  · simp only [Bool.false_eq_true, if_false, Except.error.injEq]
    constructor
    · intro h; exact .inr ⟨trivial, h.symm⟩
    · rintro (⟨⟨h, _⟩, _⟩ | ⟨_, h⟩)
      · simp [hal] at h
      · exact h.symm
  · simp only [if_true]
    cases hf : memFaults s.platform.memSys (s.effectiveAddress size a) size kind privileged
    · simp only [Bool.false_eq_true, if_false, reduceCtorEq, false_iff, not_or, not_and]
      exact ⟨fun h => by have := h.faults; simp [hf] at this, fun h => by simp at h⟩
    · simp only [if_true, Except.error.injEq, reduceCtorEq, false_and, or_false]
      exact ⟨fun h => ⟨⟨hal, hf⟩, h.symm⟩, fun h => h.2.symm⟩

theorem State.access_of_accessible {s : State} {kind : AccessKind} {size : AccessSize} {a : Word} {privileged : Bool}
    (h : Accessible s kind size a privileged) :
    s.access kind size a privileged = .ok (s.effectiveAddress size a) := State.access_ok.mpr ⟨h, rfl⟩

theorem State.access_of_faulting {s : State} {kind : AccessKind} {size : AccessSize} {a : Word} {privileged : Bool}
    (h : Faulting s kind size a privileged) : s.access kind size a privileged = .error .abort :=
  State.access_error.mpr (.inl ⟨h, rfl⟩)

/-- A read gives the value at the effective address. -/
theorem State.load_of_accessible {s : State} {size : AccessSize} {a : Word} {privileged : Bool}
    (h : Accessible s .read size a privileged) : s.load size a privileged = .ok (s.valueAt size a) := by
  unfold State.load
  rw [State.access_of_accessible h]
  rfl

theorem State.load_ok {s : State} {size : AccessSize} {a v : Word} {privileged : Bool} :
    s.load size a privileged = .ok v ↔ Accessible s .read size a privileged ∧ v = s.valueAt size a := by
  constructor
  · intro h
    unfold State.load at h
    split at h
    · next ea he =>
      obtain ⟨ha, rfl⟩ := State.access_ok.mp he
      cases h
      exact ⟨ha, rfl⟩
    · cases h
  · rintro ⟨h, rfl⟩
    exact State.load_of_accessible h

theorem State.load_error {s : State} {size : AccessSize} {a : Word} {privileged : Bool} {e : Stop} :
    s.load size a privileged = .error e ↔ s.access .read size a privileged = .error e := by
  unfold State.load
  split <;> simp_all

/-- A write of an accessible place stores the value at the effective address. -/
theorem State.store_of_accessible {s : State} {size : AccessSize} {a : Word} {privileged : Bool} (v : Word)
    (h : Accessible s .write size a privileged) :
    s.store size a v privileged = .ok (s.setMem size (s.effectiveAddress size a) v) := by
  unfold State.store
  rw [State.access_of_accessible h]

theorem State.store_ok {s t : State} {size : AccessSize} {a v : Word} {privileged : Bool} :
    s.store size a v privileged = .ok t ↔
      Accessible s .write size a privileged ∧ t = s.setMem size (s.effectiveAddress size a) v := by
  constructor
  · intro h
    unfold State.store at h
    split at h
    · next ea he =>
      obtain ⟨ha, rfl⟩ := State.access_ok.mp he
      cases h
      exact ⟨ha, rfl⟩
    · cases h
  · rintro ⟨h, rfl⟩
    exact State.store_of_accessible v h

theorem State.store_error {s : State} {size : AccessSize} {a v : Word} {privileged : Bool} {e : Stop} :
    s.store size a v privileged = .error e ↔ s.access .write size a privileged = .error e := by
  unfold State.store
  split <;> simp_all

theorem State.loadRotated_ok {s : State} {a v : Word} {privileged : Bool} :
    s.loadRotated a privileged = .ok v ↔
      Accessible s .read .word a privileged ∧ v = rotateRead s.platform.endian a (s.valueAt .word a) := by
  unfold State.loadRotated
  split
  · next x hx =>
    obtain ⟨h, rfl⟩ := State.load_ok.mp hx
    simp [h, eq_comm (b := v)]
  · next e hx =>
    simp only [reduceCtorEq, false_iff, not_and]
    intro h
    rw [State.load_of_accessible h] at hx
    cases hx

theorem State.loadRotated_error {s : State} {a : Word} {privileged : Bool} {e : Stop} :
    s.loadRotated a privileged = .error e ↔ s.access .read .word a privileged = .error e := by
  unfold State.loadRotated
  rw [← State.load_error]
  split <;> simp_all

/-- The rotation of a read in little-endian order, or of an aligned one. -/
theorem rotateRead_eq {e : Endian} {a : Word} (v : Word) (h : e = .little ∨ a.toNat % 4 = 0) :
    rotateRead e a v = v.rotateRight (8 * (a.toNat % 4)) := by
  unfold rotateRead
  split
  · next h0 =>
    rw [(low_two_zero_iff a).mp h0]
    simp [BitVec.rotateRight, BitVec.rotateRightAux]
  · next h0 =>
    rcases h with rfl | h
    · simp [BitVec.extractLsb'_toNat]
    · exact absurd ((low_two_zero_iff a).mpr h) h0

/-! ### Indexed transfers -/

theorem loadIndexed_next {s t : State} {x : Indexing} {read : Except Stop Word} {k : State → Word → Result State} :
    loadIndexed s x read k = .next t ↔
      (∃ v, read = .ok v ∧ k (s.writeBackTo x.writeBack x.rn (s.indexed x)) v = .next t) ∨
      (read = .error .abort ∧ t = takeException .dataAbort (s.abortBase x.writeBack x.rn (s.indexed x))) := by
  unfold loadIndexed
  split <;> simp [stopWith_next]

theorem storeIndexed_next {s t : State} {x : Indexing} {size : AccessSize} {v : Word} {privileged : Bool} :
    storeIndexed s x size v privileged = .next t ↔
      (∃ u, s.store size (s.addressOf x) v privileged = .ok u
        ∧ (u.writeBackTo x.writeBack x.rn (s.indexed x)).advance = .next t) ∨
      (s.store size (s.addressOf x) v privileged = .error .abort
        ∧ t = takeException .dataAbort (s.abortBase x.writeBack x.rn (s.indexed x))) := by
  unfold storeIndexed
  split <;> simp_all [stopWith_next]

theorem withBase_next {x : Indexing} {rd : Reg} {k : Result State} {t : State} :
    withBase x rd k = .next t ↔ writeBackWf x.writeBack x.rn rd = true ∧ k = .next t := require_next

theorem withRegisterOffset_next {x : Indexing} {rd rm : Reg} {k : Result State} {t : State} :
    withRegisterOffset x rd rm k = .next t ↔
      rm ≠ 15 ∧ (x.writeBack = true → rm ≠ x.rn) ∧ writeBackWf x.writeBack x.rn rd = true ∧ k = .next t := by
  unfold withRegisterOffset
  rw [require_next, require_next, withBase_next]
  cases x.writeBack <;> simp

end Sys2Proof.Machine
end

