-- ==== Sys2Proof/Laws/Frames.lean ====
section
/-!
SUPPORT. Frames: what a register write, a base write-back, a flag write, a store and the advance of the pc leave of the
rest of the state, and the reading of a register after them.
-/

namespace Sys2Proof.Machine

/-! ### The pc -/

/-- A move of the pc leaves r0 to r14. -/
theorem State.readReg_setPc (s : State) {r : Reg} (h : r ≠ 15) (v : Word) :
    State.readReg { s with pc := v } r = s.readReg r :=
  State.readReg_congr_reg h rfl fun p => by simp

/-- A flag write leaves r0 to r14. -/
theorem State.readReg_setFlags (s : State) {r : Reg} (h : r ≠ 15) (n z c v : Bool) :
    (s.setFlags n z c v).readReg r = s.readReg r :=
  State.readReg_congr_reg h (by simp) fun p => by simp

/-- Every register frame holds of no change. -/
theorem RegisterFrame.refl (s : State) (l : List (Option PhysReg)) : RegisterFrame s s l :=
  ⟨⟨fun _ _ => rfl, fun _ => rfl, rfl, rfl, rfl⟩, rfl, fun _ => rfl, rfl⟩

theorem Frame.setPc {s t : State} {l : List (Option PhysReg)} (h : Frame s t l) (v : Word) :
    Frame s { t with pc := v } l :=
  ⟨fun p hp => by simpa using h.registers p hp, fun m => by simpa using h.spsrs m, h.coproc, h.outside⟩

theorem memoryKept.setPc {s t : State} (h : memoryKept s t) (v : Word) : memoryKept s { t with pc := v } := h

theorem RegisterFrame.setPc {s t : State} {l : List (Option PhysReg)} (h : RegisterFrame s t l) (v : Word) :
    RegisterFrame s { t with pc := v } l :=
  ⟨h.toFrame.setPc v, h.cpsr, h.memory⟩

/-! ### The CPSR -/

theorem Frame.setCpsr {s t : State} {l : List (Option PhysReg)} (h : Frame s t l) (v : Word) :
    Frame s { t with cpsr := v } l :=
  ⟨fun p hp => by simpa using h.registers p hp, fun m => by simpa using h.spsrs m, h.coproc, h.outside⟩

theorem Frame.setFlags {s t : State} {l : List (Option PhysReg)} (h : Frame s t l) (n z c v : Bool) :
    Frame s (t.setFlags n z c v) l := h.setCpsr _

/-! ### Registers -/

theorem Frame.mono {s t : State} {l m : List (Option PhysReg)} (h : Frame s t l) (hlm : ∀ p, p ∈ l → p ∈ m) :
    Frame s t m :=
  ⟨fun p hp => h.registers p fun e => hp (hlm _ e), h.spsrs, h.coproc, h.outside⟩

theorem RegisterFrame.mono {s t : State} {l m : List (Option PhysReg)} (h : RegisterFrame s t l)
    (hlm : ∀ p, p ∈ l → p ∈ m) : RegisterFrame s t m :=
  ⟨h.toFrame.mono hlm, h.cpsr, h.memory⟩

/-- A register write adds its register to the frame. -/
theorem Frame.writeReg {s t : State} {l : List (Option PhysReg)} (h : Frame s t l) (hm : t.mode = s.mode) (r : Reg)
    (v : Word) (hr : physOf r s.mode ∈ l) : Frame s (t.writeReg r v) l := by
  refine ⟨fun p hp => ?_, fun m => by simpa using h.spsrs m, by simpa using h.coproc, ?_, ?_⟩
  · rw [State.readPhys_writeReg_other t r v (by rw [hm]; exact fun e => hp (e ▸ hr))]
    exact h.registers p hp
  · simpa using h.outside.1
  · simpa using h.outside.2

/-- A register write adds its register to the frame. -/
theorem RegisterFrame.writeReg {s t : State} {l : List (Option PhysReg)} (h : RegisterFrame s t l) (r : Reg) (v : Word)
    (hr : physOf r s.mode ∈ l) : RegisterFrame s (t.writeReg r v) l :=
  ⟨h.toFrame.writeReg (State.mode_congr h.cpsr) r v hr, by simpa using h.cpsr, by simpa [memoryKept] using h.memory⟩

/-- A base write-back adds the base to the frame, if it is made. -/
theorem RegisterFrame.writeBackTo {s t : State} {l : List (Option PhysReg)} (h : RegisterFrame s t l) (w : Bool)
    (r : Reg) (v : Word) (hr : w = true → physOf r s.mode ∈ l) : RegisterFrame s (t.writeBackTo w r v) l := by
  unfold State.writeBackTo
  split
  · next hw => exact h.writeReg r v (hr hw)
  · exact h

/-- A base write-back adds the base to the frame, if it is made. -/
theorem Frame.writeBackTo {s t : State} {l : List (Option PhysReg)} (h : Frame s t l) (hm : t.mode = s.mode) (w : Bool)
    (r : Reg) (v : Word) (hr : w = true → physOf r s.mode ∈ l) : Frame s (t.writeBackTo w r v) l := by
  unfold State.writeBackTo
  split
  · next hw => exact h.writeReg hm r v (hr hw)
  · exact h

/-- A store leaves every register. -/
theorem Frame.setMem {s t : State} {l : List (Option PhysReg)} (h : Frame s t l) (size : AccessSize) (a v : Word) :
    Frame s (t.setMem size a v) l :=
  ⟨fun p hp => by simpa using h.registers p hp, fun m => by simpa using h.spsrs m, h.coproc, h.outside⟩

/-- The base written back reads as written. -/
theorem State.readReg_writeBackTo_same (s : State) {w : Bool} {r : Reg} (v : Word) (h : r ≠ 15) (hw : w = true) :
    (s.writeBackTo w r v).readReg r = v := by
  subst hw
  exact s.readReg_writeReg_same v h

/-- A register other than the base is as before. -/
theorem State.readReg_writeBackTo_other (s : State) (w : Bool) {r q : Reg} (v : Word) (h : r ≠ q) :
    (s.writeBackTo w q v).readReg r = s.readReg r := by
  unfold State.writeBackTo
  split
  · exact s.readReg_writeReg_other v h
  · rfl

/-! ### Exception entry -/

/-- Taking an exception is entering it as the table says (spec/60_exceptions.md R401, R405). -/
theorem takeException_registersKept (e : Exception) (s : State) :
    registersKept s (takeException e s) [physOf 14 e.mode] := by
  intro p hp
  rw [takeException_readPhys]
  exact State.readPhys_writeRegIn_other _ _ _ _ (by simpa using hp)

end Sys2Proof.Machine
end

