-- ==== Sys2Proof/Laws/Block.lean ====
section
/-!
SUPPORT. Block transfers: which register is transferred at which address, words read and written at ascending addresses,
registers loaded in order (spec/47_multiple_transfer_swap.md R301 to R311).
-/

namespace Sys2Proof.Machine

/-! ### The register list -/

/-- A register is transferred just if its bit is set. -/
theorem mem_regsOf {list : BitVec 16} {r : Reg} : r ∈ regsOf list ↔ list.getLsbD r.toNat = true := by
  have h : r ∈ allRegs := by revert r; decide
  simp [regsOf, h]

/-- No register is transferred twice. -/
theorem regsOf_nodup (list : BitVec 16) : (regsOf list).Nodup := by
  have h : allRegs.Nodup := by decide
  exact h.filter _

/-- The register numbers in order, with those below a register first. -/
theorem allRegs_split (r : Reg) :
    allRegs = (List.range r.toNat).map (BitVec.ofNat 4) ++ r :: allRegs.drop (r.toNat + 1) := by
  revert r
  decide

/-- The listed registers with a lower number come first. -/
theorem regsOf_below (list : BitVec 16) (n : Nat) (h : n ≤ 16) :
    (((List.range n).map (BitVec.ofNat 4)).filter fun r => list.getLsbD r.toNat).length = listRank list n := by
  unfold listRank
  rw [List.filter_map, List.length_map]
  congr 1
  apply List.filter_congr
  intro j hj
  have : j < 16 := by have := List.mem_range.mp hj; omega
  simp [Function.comp, Nat.mod_eq_of_lt this]

/-- As many registers are transferred as the list has. -/
theorem regsOf_length (list : BitVec 16) : (regsOf list).length = listCount list := by
  have h : allRegs = (List.range 16).map (BitVec.ofNat 4) := by decide
  unfold regsOf listCount
  rw [h]
  exact regsOf_below list 16 (by omega)

/-- A listed register stands in the list after those with a lower number. -/
theorem regsOf_getElem? {list : BitVec 16} {r : Reg} (h : list.getLsbD r.toNat = true) :
    (regsOf list)[listRank list r.toNat]? = some r := by
  unfold regsOf
  rw [allRegs_split r, List.filter_append, List.getElem?_append_right]
  · rw [regsOf_below list r.toNat (by omega)]
    simp [h]
  · rw [regsOf_below list r.toNat (by omega)]

/-- The rank of a listed register is below the count. -/
theorem listRank_lt {list : BitVec 16} {r : Reg} (h : list.getLsbD r.toNat = true) :
    listRank list r.toNat < listCount list := by
  rw [← regsOf_length]
  exact (List.getElem?_eq_some_iff.mp (regsOf_getElem? h)).1

/-- A place in the list is the rank of the register that stands there. -/
theorem listRank_of_getElem? {list : BitVec 16} {r : Reg} {k : Nat} (h : (regsOf list)[k]? = some r) :
    list.getLsbD r.toNat = true ∧ listRank list r.toNat = k := by
  have hm : list.getLsbD r.toNat = true := mem_regsOf.mp (List.mem_of_getElem? h)
  refine ⟨hm, ?_⟩
  have h' := regsOf_getElem? hm
  exact (List.getElem?_inj (List.getElem?_eq_some_iff.mp h').1 (regsOf_nodup list)).mp (h'.trans h.symm)

/-- r15, where it is listed, is the last. -/
theorem regsOf_getLast {list : BitVec 16} (h : list.getLsbD 15 = true) : listRank list 15 + 1 = listCount list := by
  have e : List.range 16 = List.range 15 ++ [15] := List.range_succ
  unfold listCount listRank
  rw [e, List.filter_append, List.length_append]
  simp [h]

/-- There are at most sixteen registers. -/
theorem listCount_le (list : BitVec 16) : listCount list ≤ 16 := by
  unfold listCount listRank
  exact (List.length_filter_le _ _).trans (by simp)

/-- A lower number has a lower rank. -/
theorem listRank_lt_of_lt {list : BitVec 16} {r q : Reg} (hr : list.getLsbD r.toNat = true) (h : r.toNat < q.toNat) :
    listRank list r.toNat < listRank list q.toNat := by
  unfold listRank
  have e : List.range q.toNat
      = List.range (r.toNat + 1) ++ (List.range (q.toNat - (r.toNat + 1))).map (r.toNat + 1 + ·) := by
    rw [← List.range_add]
    congr 1
    omega
  rw [e, List.filter_append, List.length_append, List.range_succ, List.filter_append, List.length_append]
  simp [hr]
  omega

/-! ### Words at ascending addresses -/

/-- The address of the `k`-th word from `a` up. -/
def wordAt (a : Word) (k : Nat) : Word := a + BitVec.ofNat 32 (4 * k)

@[simp] theorem wordAt_zero (a : Word) : wordAt a 0 = a := by simp [wordAt]

theorem wordAt_succ (a : Word) (k : Nat) : wordAt (a + 4) k = wordAt a (k + 1) := by
  unfold wordAt
  rw [BitVec.add_assoc, Nat.mul_add, Nat.add_comm (4 * k), BitVec.ofNat_add]
  rfl

/-- Every word read, where every one can be. -/
theorem State.loadWords_of_accessible (s : State) (a : Word) (n : Nat)
    (h : ∀ k, k < n → Accessible s .read .word (wordAt a k) s.privileged) :
    s.loadWords a n = ((List.range n).map fun k => s.valueAt .word (wordAt a k), none) := by
  induction n generalizing a with
  | zero => rfl
  | succ n ih =>
    have h0 := State.load_of_accessible (h 0 (by omega))
    have ih' := ih (a + 4) fun k hk => by rw [wordAt_succ]; exact h (k + 1) (by omega)
    rw [wordAt_zero] at h0
    simp only [State.loadWords, h0, ih', List.range_succ_eq_map, List.map_cons, List.map_map, Function.comp_def,
      wordAt_zero, wordAt_succ]

/-- What can be said of words read without a stop. -/
theorem State.loadWords_none {s : State} {a : Word} {n : Nat} {vs : List Word} (h : s.loadWords a n = (vs, none)) :
    vs.length = n := by
  induction n generalizing a vs with
  | zero => cases h; rfl
  | succ n ih =>
    simp only [State.loadWords] at h
    split at h
    · simp only [Prod.mk.injEq] at h
      have := ih (a := a + 4) (vs := (s.loadWords (a + 4) n).1) (Prod.ext rfl h.2)
      rw [← h.1, List.length_cons, this]
    · cases h

/-- Words read up to the first that faults. -/
theorem State.loadWords_of_faulting (s : State) (a : Word) (n first : Nat) (hn : first < n)
    (h : ∀ k, k < first → Accessible s .read .word (wordAt a k) s.privileged)
    (hf : Faulting s .read .word (wordAt a first) s.privileged) :
    s.loadWords a n = ((List.range first).map fun k => s.valueAt .word (wordAt a k), some .abort) := by
  induction n generalizing a first with
  | zero => omega
  | succ n ih =>
    cases first with
    | zero =>
      rw [wordAt_zero] at hf
      simp only [State.loadWords, State.load_error.mpr (State.access_of_faulting hf), List.range_zero, List.map_nil]
    | succ first =>
      have h0 := State.load_of_accessible (h 0 (by omega))
      have ih' := ih (a + 4) first (by omega) (fun k hk => by rw [wordAt_succ]; exact h (k + 1) (by omega))
        (by rw [wordAt_succ]; exact hf)
      rw [wordAt_zero] at h0
      simp only [State.loadWords, h0, ih', List.range_succ_eq_map, List.map_cons, List.map_map, Function.comp_def,
        wordAt_zero, wordAt_succ]

/-- Accessibility depends on the parameters only. -/
theorem Accessible.congr {s t : State} {kind : AccessKind} {size : AccessSize} {a : Word} {privileged : Bool}
    (h : Accessible s kind size a privileged) (hp : t.platform = s.platform) :
    Accessible t kind size a privileged := by
  have e : t.effectiveAddress size a = s.effectiveAddress size a := by
    unfold State.effectiveAddress
    rw [hp]
  exact ⟨by rw [e]; exact h.aligned, by rw [e, hp]; exact h.allowed⟩

/-- Faulting depends on the parameters only. -/
theorem Faulting.congr {s t : State} {kind : AccessKind} {size : AccessSize} {a : Word} {privileged : Bool}
    (h : Faulting s kind size a privileged) (hp : t.platform = s.platform) : Faulting t kind size a privileged := by
  have e : t.effectiveAddress size a = s.effectiveAddress size a := by
    unfold State.effectiveAddress
    rw [hp]
  exact ⟨by rw [e]; exact h.aligned, by rw [e, hp]; exact h.faults⟩

/-- The state after words are stored from `a` up, each at its effective address. -/
def State.withWords (s : State) (a : Word) : List Word → State
  | [] => s
  | v :: rest => (s.setMem .word (s.effectiveAddress .word a) v).withWords (a + 4) rest

/-- Storing words changes memory and the list of stored addresses only. -/
theorem State.withWords_eq (s : State) (a : Word) (vs : List Word) :
    s.withWords a vs = { s with mem := (s.withWords a vs).mem, stored := (s.withWords a vs).stored } := by
  induction vs generalizing s a with
  | nil => rfl
  | cons v rest ih =>
    rw [State.withWords, ih]
    rfl

@[simp] theorem State.withWords_platform (s : State) (a : Word) (vs : List Word) :
    (s.withWords a vs).platform = s.platform := by rw [State.withWords_eq]

@[simp] theorem State.withWords_pc (s : State) (a : Word) (vs : List Word) : (s.withWords a vs).pc = s.pc := by
  rw [State.withWords_eq]

@[simp] theorem State.withWords_cpsr (s : State) (a : Word) (vs : List Word) : (s.withWords a vs).cpsr = s.cpsr := by
  rw [State.withWords_eq]

@[simp] theorem State.withWords_coproc (s : State) (a : Word) (vs : List Word) :
    (s.withWords a vs).coproc = s.coproc := by rw [State.withWords_eq]

@[simp] theorem State.withWords_inputs (s : State) (a : Word) (vs : List Word) :
    (s.withWords a vs).inputs = s.inputs := by rw [State.withWords_eq]

@[simp] theorem State.withWords_draws (s : State) (a : Word) (vs : List Word) :
    (s.withWords a vs).draws = s.draws := by rw [State.withWords_eq]

@[simp] theorem State.withWords_readPhys (s : State) (a : Word) (vs : List Word) (p : PhysReg) :
    (s.withWords a vs).readPhys p = s.readPhys p := by rw [State.withWords_eq]; simp

@[simp] theorem State.withWords_spsr (s : State) (a : Word) (vs : List Word) (m : Mode) :
    (s.withWords a vs).spsr m = s.spsr m := by rw [State.withWords_eq]; simp

@[simp] theorem State.withWords_mode (s : State) (a : Word) (vs : List Word) : (s.withWords a vs).mode = s.mode :=
  State.mode_congr (by simp)

/-- Storing words keeps the canonical form of memory. -/
theorem State.withWords_wf {s : State} (a : Word) (vs : List Word) (h : Memory.wf s.mem = true) :
    Memory.wf (s.withWords a vs).mem = true := by
  induction vs generalizing s a with
  | nil => exact h
  | cons v rest ih => exact ih _ (Memory.wf_setValue _ _ _ _ h)

/-- Storing words keeps the list of stored addresses strictly rising. -/
theorem State.withWords_addressesWf {s : State} (a : Word) (vs : List Word) (h : addressesWf s.stored = true) :
    addressesWf (s.withWords a vs).stored = true := by
  induction vs generalizing s a with
  | nil => exact h
  | cons v rest ih => exact ih _ (addressesWf_foldl_insert _ _ h)

/-- What storing words can do: it stores a first part of them, and stops at the next or not at all. -/
theorem State.storeWords_eq (s : State) (a : Word) (vs : List Word) :
    ∃ k e, s.storeWords a vs = (s.withWords a (vs.take k), e) ∧ (e = none → k = vs.length) := by
  induction vs generalizing s a with
  | nil => exact ⟨0, none, rfl, fun _ => rfl⟩
  | cons v rest ih =>
    simp only [State.storeWords]
    split
    · next t ht =>
      obtain ⟨_, rfl⟩ := State.store_ok.mp ht
      obtain ⟨k, e, hk, he⟩ := ih (s.setMem .word (s.effectiveAddress .word a) v) (a + 4)
      exact ⟨k + 1, e, by rw [hk]; rfl, fun h => by rw [he h]; rfl⟩
    · next e _ => exact ⟨0, some e, rfl, fun h => by cases h⟩

/-- Every word stored, where every one can be. -/
theorem State.storeWords_of_accessible (s : State) (a : Word) (vs : List Word)
    (h : ∀ k, k < vs.length → Accessible s .write .word (wordAt a k) s.privileged) :
    s.storeWords a vs = (s.withWords a vs, none) := by
  induction vs generalizing s a with
  | nil => rfl
  | cons v rest ih =>
    have h0 := h 0 (by simp)
    rw [wordAt_zero] at h0
    simp only [State.storeWords, State.store_of_accessible v h0, State.withWords]
    apply ih
    intro k hk
    rw [wordAt_succ]
    have : State.privileged (s.setMem .word (s.effectiveAddress .word a) v) = s.privileged := by
      simp [State.privileged]
    rw [this]
    exact (h (k + 1) (by simpa using hk)).congr (by simp)

/-- Words stored up to the first that faults. -/
theorem State.storeWords_of_faulting (s : State) (a : Word) (vs : List Word) (first : Nat) (hn : first < vs.length)
    (h : ∀ k, k < first → Accessible s .write .word (wordAt a k) s.privileged)
    (hf : Faulting s .write .word (wordAt a first) s.privileged) :
    s.storeWords a vs = (s.withWords a (vs.take first), some .abort) := by
  induction vs generalizing s a first with
  | nil => simp at hn
  | cons v rest ih =>
    cases first with
    | zero =>
      rw [wordAt_zero] at hf
      simp only [State.storeWords, State.store_error.mpr (State.access_of_faulting hf)]
      rfl
    | succ first =>
      have h0 := h 0 (by omega)
      rw [wordAt_zero] at h0
      have hp : State.privileged (s.setMem .word (s.effectiveAddress .word a) v) = s.privileged := by
        simp [State.privileged]
      simp only [State.storeWords, State.store_of_accessible v h0]
      rw [ih _ _ first (by simpa using hn)]
      · rfl
      · intro k hk
        rw [wordAt_succ, hp]
        exact (h (k + 1) (by omega)).congr (by simp)
      · rw [wordAt_succ, hp]
        exact hf.congr (by simp)

/-- The effective address of a word some words on. -/
theorem State.effectiveAddress_wordAt (s : State) (a : Word) (k : Nat) :
    s.effectiveAddress .word (wordAt a k) = wordAt (s.effectiveAddress .word a) k := by
  rw [State.effectiveAddress_word, State.effectiveAddress_word]
  split
  · unfold wordAt
    have hm : ∀ x : Word, alignWord x = x - BitVec.ofNat 32 (x.toNat % 4) := by
      intro x
      apply BitVec.eq_of_toNat_eq
      have h1 : (alignWord x).toNat = x.toNat / 4 * 4 := by
        apply Nat.eq_of_testBit_eq
        intro i
        have := alignWord_getLsbD x i
        rw [BitVec.getLsbD, BitVec.getLsbD] at this
        rw [this, show x.toNat / 4 * 4 = (x.toNat >>> 2) <<< 2 by rw [Nat.shiftLeft_eq, Nat.shiftRight_eq_div_pow],
          Nat.testBit_shiftLeft, Nat.testBit_shiftRight]
        by_cases h2 : 2 ≤ i
        · simp [h2]
        · simp [h2]
      rw [h1]
      have := x.isLt
      rw [BitVec.toNat_sub]
      simp only [BitVec.toNat_ofNat]
      omega
    rw [hm, hm]
    have hmod : (a + BitVec.ofNat 32 (4 * k)).toNat % 4 = a.toNat % 4 := by
      rw [BitVec.toNat_add, BitVec.toNat_ofNat]
      omega
    rw [hmod]
    bv_omega
  · rfl

/-- The bytes of a word and of another, fewer than 2^30 words on, are apart. -/
theorem byteRange_wordAt_disjoint {a b : Word} {j k : Nat} (hj : j < 2 ^ 30) (hk : k < 2 ^ 30) (h : j ≠ k)
    (hb : b ∈ byteRange (wordAt a j) 4) : b ∉ byteRange (wordAt a k) 4 := by
  unfold byteRange wordAt at *
  simp only [List.mem_map, List.mem_range] at *
  obtain ⟨x, hx, rfl⟩ := hb
  rintro ⟨y, hy, e⟩
  have := congrArg BitVec.toNat e
  simp only [BitVec.toNat_add, BitVec.toNat_ofNat] at this
  omega

/-- A byte outside every word stored is as before. -/
theorem State.withWords_byteAt_other (s : State) (a b : Word) (vs : List Word)
    (h : ∀ k, k < vs.length → b ∉ byteRange (s.effectiveAddress .word (wordAt a k)) 4) :
    (s.withWords a vs).byteAt b = s.byteAt b := by
  induction vs generalizing s a with
  | nil => rfl
  | cons v rest ih =>
    rw [State.withWords, ih]
    · have h0 := h 0 (by simp)
      rw [wordAt_zero] at h0
      exact Memory.byteAt_setValue_other _ .word v h0
    · intro k hk
      have := h (k + 1) (by simpa using hk)
      rw [wordAt_succ]
      simpa [State.effectiveAddress] using this

/-- Every word stored stands in memory, up to 2^30 words. -/
theorem State.withWords_holdsValue (s : State) (a : Word) (vs : List Word) (hm : Memory.wf s.mem = true)
    (hlen : vs.length ≤ 2 ^ 30) (k : Nat) (hk : k < vs.length) :
    holdsValue (s.withWords a vs) .word (s.effectiveAddress .word (wordAt a k)) vs[k] := by
  induction vs generalizing s a k with
  | nil => simp at hk
  | cons v rest ih =>
    have heff : ∀ x, (s.setMem .word (s.effectiveAddress .word a) v).effectiveAddress .word x
        = s.effectiveAddress .word x := fun x => rfl
    cases k with
    | zero =>
      intro j hj
      have hst := (s.stored_setMem .word (s.effectiveAddress .word a) v hm).bytes j hj
      rw [State.withWords, wordAt_zero, State.withWords_byteAt_other]
      · simpa using hst
      · intro i hi
        rw [heff, wordAt_succ, State.effectiveAddress_wordAt]
        have hi' : rest.length < 2 ^ 30 := by simpa using hlen
        refine byteRange_wordAt_disjoint (j := 0) (by omega) (by omega) (by omega) ?_
        rw [wordAt_zero]
        exact List.mem_map.mpr ⟨j, List.mem_range.mpr hj, rfl⟩
    | succ k =>
      have := ih (s.setMem .word (s.effectiveAddress .word a) v) (a + 4) (Memory.wf_setValue _ _ _ _ hm)
        (by simp at hlen; omega) k (by simpa using hk)
      rw [heff, wordAt_succ] at this
      exact this

/-- The addresses noted as stored after words are stored. -/
theorem State.withWords_noted (s : State) (a b : Word) (vs : List Word) :
    b.toNat ∈ (s.withWords a vs).stored ↔
      b.toNat ∈ s.stored ∨ ∃ k, k < vs.length ∧ b ∈ byteRange (s.effectiveAddress .word (wordAt a k)) 4 := by
  induction vs generalizing s a with
  | nil => simp [State.withWords]
  | cons v rest ih =>
    have heff : ∀ x, (s.setMem .word (s.effectiveAddress .word a) v).effectiveAddress .word x
        = s.effectiveAddress .word x := fun _ => rfl
    rw [State.withWords, ih, State.setMem_stored, mem_foldl_addressInsert, mem_byteAddresses]
    simp only [heff, wordAt_succ, accessBytes, List.length_cons]
    constructor
    · rintro ((h | h) | ⟨k, hk, h⟩)
      · exact .inl h
      · exact .inr ⟨0, by omega, by simpa using h⟩
      · exact .inr ⟨k + 1, by omega, h⟩
    · rintro (h | ⟨k, hk, h⟩)
      · exact .inl (.inl h)
      · cases k with
        | zero => exact .inl (.inr (by simpa using h))
        | succ k => exact .inr ⟨k, by omega, h⟩

/-- Words stored in a row, up to 2^30 of them. -/
theorem State.withWords_storedWords (s : State) (a : Word) (vs : List Word) (hm : Memory.wf s.mem = true)
    (hlen : vs.length ≤ 2 ^ 30) (f : Nat → Word) (hf : ∀ k (h : k < vs.length), vs[k] = f k) :
    StoredWords s (s.withWords a vs) (fun k => k < vs.length) (fun k => s.effectiveAddress .word (wordAt a k)) f :=
  ⟨fun k hk => hf k hk ▸ s.withWords_holdsValue a vs hm hlen k hk, fun b hb => s.withWords_byteAt_other a b vs hb,
    fun b => s.withWords_noted a b vs⟩

/-- What is stored depends on memory, the byte order and the list of stored addresses only. -/
theorem StoredWords.congr {ι : Type} {s t u : State} {chosen : ι → Prop} {place value : ι → Word}
    (h : StoredWords s t chosen place value) (hm : u.mem = t.mem) (hp : u.platform = t.platform)
    (hs : u.stored = t.stored) : StoredWords s u chosen place value :=
  ⟨fun i hi k hk => by rw [State.byteAt, hm, hp]; exact h.bytes i hi k hk,
    fun b hb => by rw [State.byteAt, hm]; exact h.others b hb, fun b => by rw [hs]; exact h.noted b⟩

/-! ### Registers loaded in order -/

/-- A register that is not loaded is as before. -/
theorem writeRegsIn_readPhys_other (m : Mode) (s : State) (l : List (Reg × Word)) {p : PhysReg}
    (h : ∀ r, r ∈ l.map Prod.fst → some p ≠ physOf r m) : (writeRegsIn m s l).readPhys p = s.readPhys p := by
  induction l generalizing s with
  | nil => rfl
  | cons x rest ih =>
    rw [writeRegsIn, ih _ fun r hr => h r (by simp [hr])]
    exact State.readPhys_writeRegIn_other s m x.1 x.2 (h x.1 (by simp))

/-- A register of the bank that is not loaded is as before. -/
theorem writeRegsIn_readRegIn_other (m : Mode) (s : State) (l : List (Reg × Word)) {r : Reg}
    (h : r ∉ l.map Prod.fst) : (writeRegsIn m s l).readRegIn m r = s.readRegIn m r := by
  induction l generalizing s with
  | nil => rfl
  | cons x rest ih =>
    rw [writeRegsIn, ih _ fun hr => h (by simp [hr])]
    exact State.readRegIn_writeRegIn_other s m x.2 fun e => h (by simp [e])

/-- A register loaded once holds its value. -/
theorem writeRegsIn_readRegIn (m : Mode) (s : State) (rs : List Reg) (vs : List Word) (hn : rs.Nodup) {k : Nat}
    {r : Reg} {v : Word} (hr : rs[k]? = some r) (hv : vs[k]? = some v) (h15 : r ≠ 15) :
    (writeRegsIn m s (rs.zip vs)).readRegIn m r = v := by
  induction rs generalizing s vs k with
  | nil => simp at hr
  | cons q rest ih =>
    cases vs with
    | nil => simp at hv
    | cons w ws =>
      rw [List.zip_cons_cons, writeRegsIn]
      cases k with
      | zero =>
        simp only [List.getElem?_cons_zero, Option.some.injEq] at hr hv
        subst hr; subst hv
        rw [writeRegsIn_readRegIn_other]
        · exact s.readRegIn_writeRegIn_same m _ h15
        · intro hmem
          refine (List.nodup_cons.mp hn).1 ?_
          simp only [List.mem_map] at hmem
          obtain ⟨⟨a, b⟩, hab, rfl⟩ := hmem
          exact (List.of_mem_zip hab).1
      | succ k =>
        exact ih _ ws (List.nodup_cons.mp hn).2 (by simpa using hr) (by simpa using hv)

end Sys2Proof.Machine
end

