-- ==== Sys2Proof/Laws/Encode.lean ====
section
/-!
SUPPORT. The words the encoder writes as sums of their fields (spec/30_encoding.md R103 to R120), and the fields of a word
as quotients, so that the round trip of decoder and encoder is arithmetic.
-/

namespace Sys2Proof

/-! ### Fields of a word -/

/-- A field is a quotient. -/
theorem field_toNat (w : Word) (lo len : Nat) : (field w lo len).toNat = w.toNat / 2 ^ lo % 2 ^ len := by
  simp [field, BitVec.extractLsb'_toNat, Nat.shiftRight_eq_div_pow]

/-- A bit is a quotient. -/
theorem bit_toNat (w : Word) (k : Nat) : (bit w k).toNat = w.toNat / 2 ^ k % 2 := by
  rw [bit, BitVec.getLsbD, Nat.testBit_eq_decide_div_mod_eq]
  have := Nat.mod_two_eq_zero_or_one (w.toNat / 2 ^ k)
  rcases this with h | h <;> simp [h]

/-- Two fields side by side. -/
theorem toNat_append {n m : Nat} (x : BitVec n) (y : BitVec m) : (x ++ y).toNat = x.toNat * 2 ^ m + y.toNat := by
  rw [BitVec.toNat_append, ← Nat.shiftLeft_add_eq_or_of_lt y.isLt, Nat.shiftLeft_eq]

theorem b1_toNat (b : Bool) : (b1 b).toNat = b.toNat := by simp [b1]

/-- A truth value is 0 or 1. -/
theorem bool_toNat_lt (b : Bool) : b.toNat < 2 := by cases b <;> decide

/-! ### Codes of the enumerations -/

/-- A condition is read back from its code. -/
@[simp] theorem Cond.ofBits_bits (c : Cond) : Cond.ofBits c.bits = some c := by cases c <;> rfl

/-- A code that is a condition is the condition's code. -/
theorem Cond.bits_of_ofBits {v : BitVec 4} {c : Cond} (h : Cond.ofBits v = some c) : c.bits = v := by
  revert v c
  decide

/-- An operation is read back from its code. -/
@[simp] theorem DpOp.ofBits_bits (op : DpOp) : DpOp.ofBits op.bits = op := by cases op <;> rfl

/-- Every code is the code of its operation. -/
@[simp] theorem DpOp.bits_ofBits (v : BitVec 4) : (DpOp.ofBits v).bits = v := by revert v; decide

/-- A shift type is read back from its code. -/
@[simp] theorem ShiftType.ofBits_bits (t : ShiftType) : ShiftType.ofBits t.bits = t := by cases t <;> rfl

/-- Every code is the code of its shift type. -/
@[simp] theorem ShiftType.bits_ofBits (v : BitVec 2) : (ShiftType.ofBits v).bits = v := by revert v; decide

/-! ### Words as sums -/

theorem RotImm.bits_toNat (o : RotImm) : o.bits.toNat = o.rot.toNat * 2 ^ 8 + o.imm.toNat := by
  rw [RotImm.bits, toNat_append]

theorem ImmShift.bits_toNat (o : ImmShift) :
    o.bits.toNat = o.amount.toNat * 2 ^ 7 + o.type.bits.toNat * 2 ^ 5 + o.rm.toNat := by
  unfold ImmShift.bits
  change BitVec.toNat (w := 5 + 2 + 1 + 4) _ = _
  simp only [toNat_append, BitVec.toNat_ofNat]
  omega

theorem RegShift.bits_toNat (o : RegShift) :
    o.bits.toNat = o.rs.toNat * 2 ^ 8 + o.type.bits.toNat * 2 ^ 5 + 1 * 2 ^ 4 + o.rm.toNat := by
  unfold RegShift.bits
  change BitVec.toNat (w := 4 + 1 + 2 + 1 + 4) _ = _
  simp only [toNat_append, BitVec.toNat_ofNat]
  omega

theorem encodeDp_toNat (c : Cond) (imm : Bool) (op : DpOp) (s : Bool) (rn rd : Reg) (op2 : BitVec 12) :
    (encodeDp c imm op s rn rd op2).toNat =
      c.bits.toNat * 2 ^ 28 + imm.toNat * 2 ^ 25 + op.bits.toNat * 2 ^ 21 + s.toNat * 2 ^ 20 + rn.toNat * 2 ^ 16
        + rd.toNat * 2 ^ 12 + op2.toNat := by
  unfold encodeDp
  change BitVec.toNat (w := 4 + 2 + 1 + 4 + 1 + 4 + 4 + 12) _ = _
  simp only [toNat_append, b1_toNat, BitVec.toNat_ofNat]
  omega

theorem encodeMultiply_toNat (c : Cond) (kind : BitVec 3) (s : Bool) (hi lo rs rm : Reg) :
    (encodeMultiply c kind s hi lo rs rm).toNat =
      c.bits.toNat * 2 ^ 28 + kind.toNat * 2 ^ 21 + s.toNat * 2 ^ 20 + hi.toNat * 2 ^ 16 + lo.toNat * 2 ^ 12
        + rs.toNat * 2 ^ 8 + 9 * 2 ^ 4 + rm.toNat := by
  unfold encodeMultiply
  change BitVec.toNat (w := 4 + 4 + 3 + 1 + 4 + 4 + 4 + 4 + 4) _ = _
  simp only [toNat_append, b1_toNat, BitVec.toNat_ofNat]
  omega

theorem encodeSwap_toNat (c : Cond) (byte : Bool) (rn rd rm : Reg) :
    (encodeSwap c byte rn rd rm).toNat =
      c.bits.toNat * 2 ^ 28 + 1 * 2 ^ 24 + byte.toNat * 2 ^ 22 + rn.toNat * 2 ^ 16 + rd.toNat * 2 ^ 12 + 9 * 2 ^ 4
        + rm.toNat := by
  unfold encodeSwap
  change BitVec.toNat (w := 4 + 5 + 1 + 2 + 4 + 4 + 8 + 4) _ = _
  simp only [toNat_append, b1_toNat, BitVec.toNat_ofNat]
  omega

theorem encodeHalfword_toNat (c : Cond) (p u imm w l : Bool) (rn rd : Reg) (hi : BitVec 4) (sh : BitVec 2)
    (lo : BitVec 4) :
    (encodeHalfword c p u imm w l rn rd hi sh lo).toNat =
      c.bits.toNat * 2 ^ 28 + p.toNat * 2 ^ 24 + u.toNat * 2 ^ 23 + imm.toNat * 2 ^ 22 + w.toNat * 2 ^ 21
        + l.toNat * 2 ^ 20 + rn.toNat * 2 ^ 16 + rd.toNat * 2 ^ 12 + hi.toNat * 2 ^ 8 + 1 * 2 ^ 7 + sh.toNat * 2 ^ 5
        + 1 * 2 ^ 4 + lo.toNat := by
  unfold encodeHalfword
  change BitVec.toNat (w := 4 + 3 + 1 + 1 + 1 + 1 + 1 + 4 + 4 + 4 + 1 + 2 + 1 + 4) _ = _
  simp only [toNat_append, b1_toNat, BitVec.toNat_ofNat]
  omega

theorem encodeSingle_toNat (c : Cond) (reg p u byte w l : Bool) (rn rd : Reg) (off : BitVec 12) :
    (encodeSingle c reg p u byte w l rn rd off).toNat =
      c.bits.toNat * 2 ^ 28 + 1 * 2 ^ 26 + reg.toNat * 2 ^ 25 + p.toNat * 2 ^ 24 + u.toNat * 2 ^ 23
        + byte.toNat * 2 ^ 22 + w.toNat * 2 ^ 21 + l.toNat * 2 ^ 20 + rn.toNat * 2 ^ 16 + rd.toNat * 2 ^ 12
        + off.toNat := by
  unfold encodeSingle
  change BitVec.toNat (w := 4 + 2 + 1 + 1 + 1 + 1 + 1 + 1 + 4 + 4 + 12) _ = _
  simp only [toNat_append, b1_toNat, BitVec.toNat_ofNat]
  omega

theorem encodeBlock_toNat (c : Cond) (p u s w l : Bool) (rn : Reg) (list : BitVec 16) :
    (encodeBlock c p u s w l rn list).toNat =
      c.bits.toNat * 2 ^ 28 + 1 * 2 ^ 27 + p.toNat * 2 ^ 24 + u.toNat * 2 ^ 23 + s.toNat * 2 ^ 22 + w.toNat * 2 ^ 21
        + l.toNat * 2 ^ 20 + rn.toNat * 2 ^ 16 + list.toNat := by
  unfold encodeBlock
  change BitVec.toNat (w := 4 + 3 + 1 + 1 + 1 + 1 + 1 + 4 + 16) _ = _
  simp only [toNat_append, b1_toNat, BitVec.toNat_ofNat]
  omega

theorem encodeCoprocessorTransfer_toNat (c : Cond) (p u n w l : Bool) (rn : Reg) (crd : CReg) (cp : CpNum)
    (off : BitVec 8) :
    (encodeCoprocessorTransfer c p u n w l rn crd cp off).toNat =
      c.bits.toNat * 2 ^ 28 + 6 * 2 ^ 25 + p.toNat * 2 ^ 24 + u.toNat * 2 ^ 23 + n.toNat * 2 ^ 22 + w.toNat * 2 ^ 21
        + l.toNat * 2 ^ 20 + rn.toNat * 2 ^ 16 + crd.toNat * 2 ^ 12 + cp.toNat * 2 ^ 8 + off.toNat := by
  unfold encodeCoprocessorTransfer
  change BitVec.toNat (w := 4 + 3 + 1 + 1 + 1 + 1 + 1 + 4 + 4 + 4 + 8) _ = _
  simp only [toNat_append, b1_toNat, BitVec.toNat_ofNat]
  omega

theorem encodeCoprocessorRegister_toNat (c : Cond) (cop1 : BitVec 3) (l : Bool) (crn : CReg) (rd : Reg) (cp : CpNum)
    (cop2 : BitVec 3) (crm : CReg) :
    (encodeCoprocessorRegister c cop1 l crn rd cp cop2 crm).toNat =
      c.bits.toNat * 2 ^ 28 + 14 * 2 ^ 24 + cop1.toNat * 2 ^ 21 + l.toNat * 2 ^ 20 + crn.toNat * 2 ^ 16
        + rd.toNat * 2 ^ 12 + cp.toNat * 2 ^ 8 + cop2.toNat * 2 ^ 5 + 1 * 2 ^ 4 + crm.toNat := by
  unfold encodeCoprocessorRegister
  change BitVec.toNat (w := 4 + 4 + 3 + 1 + 4 + 4 + 4 + 3 + 1 + 4) _ = _
  simp only [toNat_append, b1_toNat, BitVec.toNat_ofNat]
  omega

theorem encode_bx_toNat (c : Cond) (rm : Reg) :
    (encode (.bx c rm)).toNat =
      c.bits.toNat * 2 ^ 28 + 0x12FFF1 * 2 ^ 4 + rm.toNat := by
  unfold encode
  change BitVec.toNat (w := 4 + 24 + 4) _ = _
  simp only [toNat_append, BitVec.toNat_ofNat]
  omega

theorem encode_blxReg_toNat (c : Cond) (rm : Reg) :
    (encode (.blxReg c rm)).toNat =
      c.bits.toNat * 2 ^ 28 + 0x12FFF3 * 2 ^ 4 + rm.toNat := by
  unfold encode
  change BitVec.toNat (w := 4 + 24 + 4) _ = _
  simp only [toNat_append, BitVec.toNat_ofNat]
  omega

theorem encode_clz_toNat (c : Cond) (rd rm : Reg) :
    (encode (.clz c rd rm)).toNat =
      c.bits.toNat * 2 ^ 28 + 0x16F * 2 ^ 16 + rd.toNat * 2 ^ 12 + 0xF1 * 2 ^ 4 + rm.toNat := by
  unfold encode
  change BitVec.toNat (w := 4 + 12 + 4 + 8 + 4) _ = _
  simp only [toNat_append, BitVec.toNat_ofNat]
  omega

theorem encode_mrs_toNat (c : Cond) (spsr : Bool) (rd : Reg) :
    (encode (.mrs c spsr rd)).toNat =
      c.bits.toNat * 2 ^ 28 + 1 * 2 ^ 24 + spsr.toNat * 2 ^ 22 + 15 * 2 ^ 16 + rd.toNat * 2 ^ 12 := by
  unfold encode
  change BitVec.toNat (w := 4 + 5 + 1 + 2 + 4 + 4 + 12) _ = _
  simp only [toNat_append, b1_toNat, BitVec.toNat_ofNat]
  omega

theorem encode_msrReg_toNat (c : Cond) (spsr : Bool) (mask : BitVec 4) (rm : Reg) :
    (encode (.msrReg c spsr mask rm)).toNat =
      c.bits.toNat * 2 ^ 28 + 1 * 2 ^ 24 + spsr.toNat * 2 ^ 22 + 1 * 2 ^ 21 + mask.toNat * 2 ^ 16 + 15 * 2 ^ 12
        + rm.toNat := by
  unfold encode
  change BitVec.toNat (w := 4 + 5 + 1 + 2 + 4 + 4 + 8 + 4) _ = _
  simp only [toNat_append, b1_toNat, BitVec.toNat_ofNat]
  omega

theorem encode_msrImm_toNat (c : Cond) (spsr : Bool) (mask : BitVec 4) (o : RotImm) :
    (encode (.msrImm c spsr mask o)).toNat =
      c.bits.toNat * 2 ^ 28 + 3 * 2 ^ 24 + spsr.toNat * 2 ^ 22 + 1 * 2 ^ 21 + mask.toNat * 2 ^ 16 + 15 * 2 ^ 12
        + o.bits.toNat := by
  unfold encode
  change BitVec.toNat (w := 4 + 5 + 1 + 2 + 4 + 4 + 12) _ = _
  simp only [toNat_append, b1_toNat, BitVec.toNat_ofNat]
  omega

theorem encode_undefined_toNat (c : Cond) (high : BitVec 20) (low : BitVec 4) :
    (encode (.undefined c high low)).toNat =
      c.bits.toNat * 2 ^ 28 + 3 * 2 ^ 25 + high.toNat * 2 ^ 5 + 1 * 2 ^ 4 + low.toNat := by
  unfold encode
  change BitVec.toNat (w := 4 + 3 + 20 + 1 + 4) _ = _
  simp only [toNat_append, BitVec.toNat_ofNat]
  omega

theorem encode_b_toNat (c : Cond) (off : BitVec 24) :
    (encode (.b c off)).toNat =
      c.bits.toNat * 2 ^ 28 + 10 * 2 ^ 24 + off.toNat := by
  unfold encode
  change BitVec.toNat (w := 4 + 4 + 24) _ = _
  simp only [toNat_append, BitVec.toNat_ofNat]
  omega

theorem encode_bl_toNat (c : Cond) (off : BitVec 24) :
    (encode (.bl c off)).toNat =
      c.bits.toNat * 2 ^ 28 + 11 * 2 ^ 24 + off.toNat := by
  unfold encode
  change BitVec.toNat (w := 4 + 4 + 24) _ = _
  simp only [toNat_append, BitVec.toNat_ofNat]
  omega

theorem encode_cdp_toNat (c : Cond) (cop1 : BitVec 4) (crn crd : CReg) (cp : CpNum) (cop2 : BitVec 3) (crm : CReg) :
    (encode (.cdp c cop1 crn crd cp cop2 crm)).toNat =
      c.bits.toNat * 2 ^ 28 + 14 * 2 ^ 24 + cop1.toNat * 2 ^ 20 + crn.toNat * 2 ^ 16 + crd.toNat * 2 ^ 12
        + cp.toNat * 2 ^ 8 + cop2.toNat * 2 ^ 5 + crm.toNat := by
  unfold encode
  change BitVec.toNat (w := 4 + 4 + 4 + 4 + 4 + 4 + 3 + 1 + 4) _ = _
  simp only [toNat_append, BitVec.toNat_ofNat]
  omega

theorem encode_swi_toNat (c : Cond) (imm : BitVec 24) :
    (encode (.swi c imm)).toNat =
      c.bits.toNat * 2 ^ 28 + 15 * 2 ^ 24 + imm.toNat := by
  unfold encode
  change BitVec.toNat (w := 4 + 4 + 24) _ = _
  simp only [toNat_append, BitVec.toNat_ofNat]
  omega

theorem encode_unallocated_toNat (c : Cond) (body : BitVec 28) :
    (encode (.unallocated c body)).toNat =
      c.bits.toNat * 2 ^ 28 + body.toNat := by
  unfold encode
  change BitVec.toNat (w := 4 + 28) _ = _
  rw [toNat_append]

theorem encode_brk_toNat (imm : BitVec 16) :
    (encode (.brk imm)).toNat = 0xE12 * 2 ^ 20 + imm.toNat / 2 ^ 4 * 2 ^ 8 + 7 * 2 ^ 4 + imm.toNat % 2 ^ 4 := by
  unfold encode
  change BitVec.toNat (w := 12 + 12 + 4 + 4) _ = _
  simp only [toNat_append, BitVec.toNat_ofNat, BitVec.extractLsb'_toNat, Nat.shiftRight_eq_div_pow]
  have := imm.isLt
  omega

theorem encode_blxLabel_toNat (h : Bool) (off : BitVec 24) :
    (encode (.blxLabel h off)).toNat = 0x7D * 2 ^ 25 + h.toNat * 2 ^ 24 + off.toNat := by
  unfold encode
  change BitVec.toNat (w := 7 + 1 + 24) _ = _
  simp only [toNat_append, b1_toNat, BitVec.toNat_ofNat]
  omega

/-! ### The condition field of every format -/

theorem encodeDp_condition (c : Cond) (imm : Bool) (op : DpOp) (s : Bool) (rn rd : Reg) (op2 : BitVec 12) :
    (encodeDp c imm op s rn rd op2).extractLsb' 28 4 = c.bits := by
  apply BitVec.eq_of_toNat_eq
  rw [BitVec.extractLsb'_toNat, Nat.shiftRight_eq_div_pow, encodeDp_toNat]
  have := bool_toNat_lt imm
  have := bool_toNat_lt s
  have := c.bits.isLt
  have := op.bits.isLt
  have := rn.isLt
  have := rd.isLt
  have := op2.isLt
  omega

theorem encodeMultiply_condition (c : Cond) (kind : BitVec 3) (s : Bool) (hi lo rs rm : Reg) :
    (encodeMultiply c kind s hi lo rs rm).extractLsb' 28 4 = c.bits := by
  apply BitVec.eq_of_toNat_eq
  rw [BitVec.extractLsb'_toNat, Nat.shiftRight_eq_div_pow, encodeMultiply_toNat]
  have := bool_toNat_lt s
  have := c.bits.isLt
  have := kind.isLt
  have := hi.isLt
  have := lo.isLt
  have := rs.isLt
  have := rm.isLt
  omega

theorem encodeSwap_condition (c : Cond) (byte : Bool) (rn rd rm : Reg) :
    (encodeSwap c byte rn rd rm).extractLsb' 28 4 = c.bits := by
  apply BitVec.eq_of_toNat_eq
  rw [BitVec.extractLsb'_toNat, Nat.shiftRight_eq_div_pow, encodeSwap_toNat]
  have := bool_toNat_lt byte
  have := c.bits.isLt
  have := rn.isLt
  have := rd.isLt
  have := rm.isLt
  omega

theorem encodeHalfword_condition (c : Cond) (p u imm w l : Bool) (rn rd : Reg) (hi : BitVec 4) (sh : BitVec 2)
    (lo : BitVec 4) :
    (encodeHalfword c p u imm w l rn rd hi sh lo).extractLsb' 28 4 = c.bits := by
  apply BitVec.eq_of_toNat_eq
  rw [BitVec.extractLsb'_toNat, Nat.shiftRight_eq_div_pow, encodeHalfword_toNat]
  have := bool_toNat_lt p
  have := bool_toNat_lt u
  have := bool_toNat_lt imm
  have := bool_toNat_lt w
  have := bool_toNat_lt l
  have := c.bits.isLt
  have := rn.isLt
  have := rd.isLt
  have := hi.isLt
  have := sh.isLt
  have := lo.isLt
  omega

theorem encodeSingle_condition (c : Cond) (reg p u byte w l : Bool) (rn rd : Reg) (off : BitVec 12) :
    (encodeSingle c reg p u byte w l rn rd off).extractLsb' 28 4 = c.bits := by
  apply BitVec.eq_of_toNat_eq
  rw [BitVec.extractLsb'_toNat, Nat.shiftRight_eq_div_pow, encodeSingle_toNat]
  have := bool_toNat_lt reg
  have := bool_toNat_lt p
  have := bool_toNat_lt u
  have := bool_toNat_lt byte
  have := bool_toNat_lt w
  have := bool_toNat_lt l
  have := c.bits.isLt
  have := rn.isLt
  have := rd.isLt
  have := off.isLt
  omega

theorem encodeBlock_condition (c : Cond) (p u s w l : Bool) (rn : Reg) (list : BitVec 16) :
    (encodeBlock c p u s w l rn list).extractLsb' 28 4 = c.bits := by
  apply BitVec.eq_of_toNat_eq
  rw [BitVec.extractLsb'_toNat, Nat.shiftRight_eq_div_pow, encodeBlock_toNat]
  have := bool_toNat_lt p
  have := bool_toNat_lt u
  have := bool_toNat_lt s
  have := bool_toNat_lt w
  have := bool_toNat_lt l
  have := c.bits.isLt
  have := rn.isLt
  have := list.isLt
  omega

theorem encodeCoprocessorTransfer_condition (c : Cond) (p u n w l : Bool) (rn : Reg) (crd : CReg) (cp : CpNum)
    (off : BitVec 8) :
    (encodeCoprocessorTransfer c p u n w l rn crd cp off).extractLsb' 28 4 = c.bits := by
  apply BitVec.eq_of_toNat_eq
  rw [BitVec.extractLsb'_toNat, Nat.shiftRight_eq_div_pow, encodeCoprocessorTransfer_toNat]
  have := bool_toNat_lt p
  have := bool_toNat_lt u
  have := bool_toNat_lt n
  have := bool_toNat_lt w
  have := bool_toNat_lt l
  have := c.bits.isLt
  have := rn.isLt
  have := crd.isLt
  have := cp.isLt
  have := off.isLt
  omega

theorem encodeCoprocessorRegister_condition (c : Cond) (cop1 : BitVec 3) (l : Bool) (crn : CReg) (rd : Reg) (cp : CpNum)
    (cop2 : BitVec 3) (crm : CReg) :
    (encodeCoprocessorRegister c cop1 l crn rd cp cop2 crm).extractLsb' 28 4 = c.bits := by
  apply BitVec.eq_of_toNat_eq
  rw [BitVec.extractLsb'_toNat, Nat.shiftRight_eq_div_pow, encodeCoprocessorRegister_toNat]
  have := bool_toNat_lt l
  have := c.bits.isLt
  have := cop1.isLt
  have := crn.isLt
  have := rd.isLt
  have := cp.isLt
  have := cop2.isLt
  have := crm.isLt
  omega

theorem encode_bx_condition (c : Cond) (rm : Reg) :
    (encode (.bx c rm)).extractLsb' 28 4 = c.bits := by
  apply BitVec.eq_of_toNat_eq
  rw [BitVec.extractLsb'_toNat, Nat.shiftRight_eq_div_pow, encode_bx_toNat]
  have := c.bits.isLt
  have := rm.isLt
  omega

theorem encode_blxReg_condition (c : Cond) (rm : Reg) :
    (encode (.blxReg c rm)).extractLsb' 28 4 = c.bits := by
  apply BitVec.eq_of_toNat_eq
  rw [BitVec.extractLsb'_toNat, Nat.shiftRight_eq_div_pow, encode_blxReg_toNat]
  have := c.bits.isLt
  have := rm.isLt
  omega

theorem encode_clz_condition (c : Cond) (rd rm : Reg) :
    (encode (.clz c rd rm)).extractLsb' 28 4 = c.bits := by
  apply BitVec.eq_of_toNat_eq
  rw [BitVec.extractLsb'_toNat, Nat.shiftRight_eq_div_pow, encode_clz_toNat]
  have := c.bits.isLt
  have := rd.isLt
  have := rm.isLt
  omega

theorem encode_mrs_condition (c : Cond) (spsr : Bool) (rd : Reg) :
    (encode (.mrs c spsr rd)).extractLsb' 28 4 = c.bits := by
  apply BitVec.eq_of_toNat_eq
  rw [BitVec.extractLsb'_toNat, Nat.shiftRight_eq_div_pow, encode_mrs_toNat]
  have := bool_toNat_lt spsr
  have := c.bits.isLt
  have := rd.isLt
  omega

theorem encode_msrReg_condition (c : Cond) (spsr : Bool) (mask : BitVec 4) (rm : Reg) :
    (encode (.msrReg c spsr mask rm)).extractLsb' 28 4 = c.bits := by
  apply BitVec.eq_of_toNat_eq
  rw [BitVec.extractLsb'_toNat, Nat.shiftRight_eq_div_pow, encode_msrReg_toNat]
  have := bool_toNat_lt spsr
  have := c.bits.isLt
  have := mask.isLt
  have := rm.isLt
  omega

theorem encode_msrImm_condition (c : Cond) (spsr : Bool) (mask : BitVec 4) (o : RotImm) :
    (encode (.msrImm c spsr mask o)).extractLsb' 28 4 = c.bits := by
  apply BitVec.eq_of_toNat_eq
  rw [BitVec.extractLsb'_toNat, Nat.shiftRight_eq_div_pow, encode_msrImm_toNat]
  have := bool_toNat_lt spsr
  have := c.bits.isLt
  have := mask.isLt
  have := o.bits.isLt
  omega

theorem encode_undefined_condition (c : Cond) (high : BitVec 20) (low : BitVec 4) :
    (encode (.undefined c high low)).extractLsb' 28 4 = c.bits := by
  apply BitVec.eq_of_toNat_eq
  rw [BitVec.extractLsb'_toNat, Nat.shiftRight_eq_div_pow, encode_undefined_toNat]
  have := c.bits.isLt
  have := high.isLt
  have := low.isLt
  omega

theorem encode_b_condition (c : Cond) (off : BitVec 24) :
    (encode (.b c off)).extractLsb' 28 4 = c.bits := by
  apply BitVec.eq_of_toNat_eq
  rw [BitVec.extractLsb'_toNat, Nat.shiftRight_eq_div_pow, encode_b_toNat]
  have := c.bits.isLt
  have := off.isLt
  omega

theorem encode_bl_condition (c : Cond) (off : BitVec 24) :
    (encode (.bl c off)).extractLsb' 28 4 = c.bits := by
  apply BitVec.eq_of_toNat_eq
  rw [BitVec.extractLsb'_toNat, Nat.shiftRight_eq_div_pow, encode_bl_toNat]
  have := c.bits.isLt
  have := off.isLt
  omega

theorem encode_cdp_condition (c : Cond) (cop1 : BitVec 4) (crn crd : CReg) (cp : CpNum) (cop2 : BitVec 3) (crm : CReg) :
    (encode (.cdp c cop1 crn crd cp cop2 crm)).extractLsb' 28 4 = c.bits := by
  apply BitVec.eq_of_toNat_eq
  rw [BitVec.extractLsb'_toNat, Nat.shiftRight_eq_div_pow, encode_cdp_toNat]
  have := c.bits.isLt
  have := cop1.isLt
  have := crn.isLt
  have := crd.isLt
  have := cp.isLt
  have := cop2.isLt
  have := crm.isLt
  omega

theorem encode_swi_condition (c : Cond) (imm : BitVec 24) :
    (encode (.swi c imm)).extractLsb' 28 4 = c.bits := by
  apply BitVec.eq_of_toNat_eq
  rw [BitVec.extractLsb'_toNat, Nat.shiftRight_eq_div_pow, encode_swi_toNat]
  have := c.bits.isLt
  have := imm.isLt
  omega

theorem encode_unallocated_condition (c : Cond) (body : BitVec 28) :
    (encode (.unallocated c body)).extractLsb' 28 4 = c.bits := by
  apply BitVec.eq_of_toNat_eq
  rw [BitVec.extractLsb'_toNat, Nat.shiftRight_eq_div_pow, encode_unallocated_toNat]
  have := c.bits.isLt
  have := body.isLt
  omega

theorem encode_brk_condition (imm : BitVec 16) : (encode (.brk imm)).extractLsb' 28 4 = Cond.bits .al := by
  apply BitVec.eq_of_toNat_eq
  rw [BitVec.extractLsb'_toNat, Nat.shiftRight_eq_div_pow, encode_brk_toNat]
  have h1 : imm.toNat / 2 ^ 4 < 2 ^ 12 := by have := imm.isLt; omega
  have h2 : imm.toNat % 2 ^ 4 < 2 ^ 4 := Nat.mod_lt _ (by decide)
  generalize imm.toNat / 2 ^ 4 = x at *
  generalize imm.toNat % 2 ^ 4 = y at *
  rw [show (Cond.bits .al).toNat = 14 from rfl]
  omega

theorem encode_blxLabel_condition (h : Bool) (off : BitVec 24) :
    (encode (.blxLabel h off)).extractLsb' 28 4 = 15 := by
  apply BitVec.eq_of_toNat_eq
  rw [BitVec.extractLsb'_toNat, Nat.shiftRight_eq_div_pow, encode_blxLabel_toNat]
  have := bool_toNat_lt h
  have := off.isLt
  rw [show (15 : BitVec 4).toNat = 15 from rfl]
  omega

end Sys2Proof
end

