-- ==== Sys2Proof/Laws/Instructions.lean ====
section
/-!
SUPPORT. For each operation shared by the instructions of a family one lemma that says all it can do: when it answers a
next state, and which; and the same of the fetch and of the step (spec/43_data_processing.md to
49_coprocessor_brk_unused.md, 60_exceptions.md R419).
-/

namespace Sys2Proof.Machine

/-! ### Data processing and multiplies -/

theorem dpFinish_next {op : DpOp} {s t : State} {f : Bool} {rd : Reg} {r : Alu} :
    dpFinish op s f rd r = .next t ↔
      (isCompare op = true ∧ (s.setFlags r.n r.z r.c r.v).advance = .next t) ∨
      (isCompare op = false ∧ rd = 15 ∧ f = true ∧ s.exceptionReturn r.result = .next t) ∨
      (isCompare op = false ∧ rd = 15 ∧ f = false ∧ s.writePc r.result = .next t) ∨
      (isCompare op = false ∧ rd ≠ 15 ∧ f = true ∧
        ((s.writeReg rd r.result).setFlags r.n r.z r.c r.v).advance = .next t) ∨
      (isCompare op = false ∧ rd ≠ 15 ∧ f = false ∧ (s.writeReg rd r.result).advance = .next t) := by
  unfold dpFinish
  have h15 : (15 : Reg) = 15#4 := rfl
  cases isCompare op <;> cases f <;> by_cases h : rd = 15 <;> rw [h15] at h ⊢ <;> simp [h]

theorem dataProcess_next {op : DpOp} {s t : State} {f : Bool} {rn rd : Reg} {o : Shifted} :
    dataProcess op s f rn rd o = .next t ↔
      dpFieldsZero op rn rd = true ∧ dpFinish op s f rd (dpCompute op (s.readReg rn) o s.c s.v) = .next t :=
  require_next

theorem multiplyShort_next {s t : State} {f : Bool} {rd rm : Reg} {others : List Reg} {r : Word} :
    multiplyShort s f rd rm others r = .next t ↔
      noPc (rd :: rm :: others) = true ∧ rd ≠ rm ∧
        ((s.writeReg rd r).setMultiplyFlags f false (r.getLsbD 31) (r == 0)).advance = .next t := by
  unfold multiplyShort
  rw [require_next, require_next]
  simp

theorem multiplyLong_next {s t : State} {f : Bool} {rdHi rdLo rs rm : Reg} {r : BitVec 64} :
    multiplyLong s f rdHi rdLo rs rm r = .next t ↔
      longMultiplyWf rdHi rdLo rs rm = true ∧
        (((s.writeReg rdLo (r.extractLsb' 0 32)).writeReg rdHi (r.extractLsb' 32 32)).setMultiplyFlags f true
          (r.getLsbD 63) (r == 0)).advance = .next t := by
  unfold multiplyLong longMultiplyWf
  rw [require_next, require_next]
  simp [and_assoc]

/-! ### Status registers -/

theorem msrCpsr_next {s t : State} {mask : BitVec 4} {operand : Word} :
    msrCpsr s mask operand = .next t ↔
      psrT (psrMerge s.cpsr operand (s.msrMask mask)) = psrT s.cpsr ∧
      (psrMode (psrMerge s.cpsr operand (s.msrMask mask))).isSome = true ∧
      State.advance { s with cpsr := psrMerge s.cpsr operand (s.msrMask mask) } = .next t := by
  unfold msrCpsr
  rw [require_next, require_next]
  simp

theorem msrSpsr_next {s t : State} {mask : BitVec 4} {operand : Word} :
    msrSpsr s mask operand = .next t ↔
      s.mode.hasSpsr = true ∧
      (s.setSpsr s.mode (psrMerge (s.spsr s.mode) operand (psrByteMask mask &&& psrWritable))).advance = .next t :=
  require_next

theorem moveToStatus_next {s t : State} {spsr : Bool} {mask : BitVec 4} {operand : Word} :
    moveToStatus s spsr mask operand = .next t ↔
      (spsr = true ∧ msrSpsr s mask operand = .next t) ∨ (spsr = false ∧ msrCpsr s mask operand = .next t) := by
  cases spsr <;> simp [moveToStatus]

/-! ### Block transfers and swap -/

theorem withBlock_next {list : BitVec 16} {rn : Reg} {baseWf : Bool} {k : Result State} {t : State} :
    withBlock list rn baseWf k = .next t ↔ list ≠ 0 ∧ rn ≠ 15 ∧ baseWf = true ∧ k = .next t := by
  unfold withBlock
  rw [require_next, require_next, require_next]
  simp

theorem loadBlock_next {s t : State} {p u w : Bool} {rn : Reg} {list : BitVec 16}
    {k : State → List Word → Result State} :
    loadBlock s p u w rn list k = .next t ↔
      (∃ vs, s.loadWords (blockStart p u (s.readReg rn) (listCount list)) (listCount list) = (vs, none)
        ∧ k (s.writeBackTo w rn (s.newBase u rn list)) vs = .next t) ∨
      (∃ vs, s.loadWords (blockStart p u (s.readReg rn) (listCount list)) (listCount list) = (vs, some .abort)
        ∧ t = takeException .dataAbort (s.abortBase w rn (s.newBase u rn list))) := by
  unfold loadBlock State.newBase
  simp only [regsOf_length]
  split
  · next vs h => simp [h]
  · next vs e h => cases e <;> simp [h, stopWith_next]

theorem storeBlock_next {s t : State} {p u w : Bool} {rn : Reg} {values : List Word} :
    storeBlock s p u w rn values = .next t ↔
      (∃ v, s.storeWords (blockStart p u (s.readReg rn) values.length) values = (v, none)
        ∧ (v.writeBackTo w rn (blockNewBase u (s.readReg rn) values.length)).advance = .next t) ∨
      (∃ v, s.storeWords (blockStart p u (s.readReg rn) values.length) values = (v, some .abort)
        ∧ t = takeException .dataAbort (v.abortBase w rn (blockNewBase u (s.readReg rn) values.length))) := by
  unfold storeBlock
  simp only
  split
  · next v h => simp [h]
  · next v e h => cases e <;> simp [h, stopWith_next]

theorem swap_next {s t : State} {size : AccessSize} {rn rd rm : Reg} {read : Except Stop Word} :
    swap s size rn rd rm read = .next t ↔
      swapWf rn rd rm = true ∧
      ((read = .error .abort ∧ t = takeException .dataAbort s) ∨
       (∃ v, read = .ok v ∧ s.store size (s.readReg rn) (s.readReg rm) s.privileged = .error .abort
          ∧ t = takeException .dataAbort s) ∨
       (∃ v u, read = .ok v ∧ s.store size (s.readReg rn) (s.readReg rm) s.privileged = .ok u
          ∧ (u.writeReg rd v).advance = .next t)) := by
  unfold swap swapWf
  rw [require_next, require_next, ← and_assoc, ← Bool.and_eq_true]
  have e : (noPc [rn, rd, rm] && (rn != rm && rn != rd)) = (noPc [rn, rd, rm] && rn != rm && rn != rd) := by
    rw [Bool.and_assoc]
  rw [e]
  refine and_congr_right fun _ => ?_
  split
  · next e => simp [stopWith_next]
  · next v => split <;> simp_all [stopWith_next]

/-! ### Coprocessors -/

theorem withCoprocessor_next {cp : CpNum} {i : Instr} {s t : State} {k : Result State} :
    withCoprocessor cp i s k = .next t ↔
      (s.cpAccepts cp (encode i) = true ∧ k = .next t) ∨
      (s.cpAccepts cp (encode i) = false ∧ t = takeException .undefined s) := by
  unfold withCoprocessor undefinedTrap
  cases s.cpAccepts cp (encode i) <;> simp [eq_comm (b := t)]

theorem withCoprocessorTransfer_next {p u w : Bool} {rn : Reg} {cp : CpNum} {i : Instr} {s t : State}
    {k : Result State} :
    withCoprocessorTransfer p u w rn cp i s k = .next t ↔
      (s.cpAccepts cp (encode i) = true ∧ coprocessorTransferWf p u w rn = true ∧ k = .next t) ∨
      (s.cpAccepts cp (encode i) = false ∧ (p || w || u) = true ∧ t = takeException .undefined s) := by
  unfold withCoprocessorTransfer coprocessorTransferWf
  rw [require_next, withCoprocessor_next, require_next, Bool.and_eq_true]
  tauto

/-- How many words an LDC reads. -/
def ldcCount (s : State) (n : Bool) (crd : CReg) (cp : CpNum) (option : Option (BitVec 8)) : Nat :=
  (Config.cpLdcCount cp (s.cpState cp) n crd option).val + 1

/-- How many words an STC writes. -/
def stcCount (s : State) (n : Bool) (crd : CReg) (cp : CpNum) (option : Option (BitVec 8)) : Nat :=
  (Config.cpStcCount cp (s.cpState cp) n crd option).val + 1

theorem loadCoprocessor_next {s t : State} {x : Indexing} {n : Bool} {crd : CReg} {cp : CpNum}
    {option : Option (BitVec 8)} :
    loadCoprocessor s x n crd cp option = .next t ↔
      (∃ vs, s.loadWords (s.addressOf x) (ldcCount s n crd cp option) = (vs, none)
        ∧ ((s.setCpState cp (receiveWords cp n crd option 0 (s.cpState cp) vs)).writeBackTo x.writeBack x.rn
            (s.indexed x)).advance = .next t) ∨
      (∃ vs, s.loadWords (s.addressOf x) (ldcCount s n crd cp option) = (vs, some .abort)
        ∧ t = takeException .dataAbort
            ((s.setCpState cp (Config.cpLdcAborted cp (receiveWords cp n crd option 0 (s.cpState cp) vs))).abortBase
              x.writeBack x.rn (s.indexed x))) := by
  unfold loadCoprocessor ldcCount
  simp only
  split
  · next vs h => simp [h]
  · next vs e h => cases e <;> simp [h, stopWith_next]

theorem storeCoprocessor_next {s t : State} {x : Indexing} {n : Bool} {crd : CReg} {cp : CpNum}
    {option : Option (BitVec 8)} :
    storeCoprocessor s x n crd cp option = .next t ↔
      (∃ v, s.storeWords (s.addressOf x) (supplyWords cp (s.cpState cp) n crd option (stcCount s n crd cp option))
            = (v, none)
        ∧ (v.writeBackTo x.writeBack x.rn (s.indexed x)).advance = .next t) ∨
      (∃ v, s.storeWords (s.addressOf x) (supplyWords cp (s.cpState cp) n crd option (stcCount s n crd cp option))
            = (v, some .abort)
        ∧ t = takeException .dataAbort (s.abortBase x.writeBack x.rn (s.indexed x))) := by
  unfold storeCoprocessor stcCount
  simp only
  split
  · next v h => simp [h]
  · next v e h => cases e <;> simp [h, stopWith_next]

theorem receiveMrc_next {s t : State} {rd : Reg} {w : Word} :
    receiveMrc s rd w = .next t ↔
      (rd = 15 ∧ (s.setFlags (w.getLsbD 31) (w.getLsbD 30) (w.getLsbD 29) (w.getLsbD 28)).advance = .next t) ∨
      (rd ≠ 15 ∧ (s.writeReg rd w).advance = .next t) := by
  unfold receiveMrc
  split <;> simp_all

/-! ### Fetch and step -/

theorem State.fetch_ok {s : State} {w : Word} :
    s.fetch = .ok w ↔
      memFaults s.platform.memSys s.pc .word .fetch s.privileged = false
        ∧ (s.storedWord s.pc = false ∨ s.platform.ifetchCoherent = true)
        ∧ w = Memory.value s.mem s.platform.endian s.pc .word := by
  unfold State.fetch
  cases memFaults s.platform.memSys s.pc .word .fetch s.privileged <;> cases s.storedWord s.pc <;>
    cases s.platform.ifetchCoherent <;> simp [eq_comm (b := w)]

theorem State.fetch_abort {s : State} :
    s.fetch = .error .abort ↔ memFaults s.platform.memSys s.pc .word .fetch s.privileged = true := by
  unfold State.fetch
  cases memFaults s.platform.memSys s.pc .word .fetch s.privileged <;> cases s.storedWord s.pc <;>
    cases s.platform.ifetchCoherent <;> simp

theorem executeAtPc_next {s t : State} :
    executeAtPc s = .next t ↔
      (s.fetch = .error .abort ∧ t = takeException .prefetchAbort s) ∨
      (∃ w i, s.fetch = .ok w ∧ decode w = .ok i ∧ exec i s = .next t) := by
  unfold executeAtPc
  split
  · next h => simp [h, eq_comm (b := t)]
  · next h => simp [h]
  · next w h => split <;> simp_all

theorem step_next {s t : State} :
    step s = .next t ↔
      psrT s.cpsr = false ∧
      ((s.lines.reset = true ∧ t = resetEntry s.nextInputs) ∨
       (s.lines.reset = false ∧ (s.lines.fiq && !psrF s.cpsr) = true ∧ t = takeException .fiq s.nextInputs) ∨
       (s.lines.reset = false ∧ (s.lines.fiq && !psrF s.cpsr) = false ∧ (s.lines.irq && !psrI s.cpsr) = true
          ∧ t = takeException .irq s.nextInputs) ∨
       (s.lines.reset = false ∧ (s.lines.fiq && !psrF s.cpsr) = false ∧ (s.lines.irq && !psrI s.cpsr) = false
          ∧ s.pc.extractLsb' 0 2 = 0 ∧ executeAtPc s.nextInputs = .next t)) := by
  unfold step
  cases psrT s.cpsr
  · cases s.lines.reset
    · cases (s.lines.fiq && !psrF s.cpsr)
      · cases (s.lines.irq && !psrI s.cpsr)
        · by_cases h : s.pc.extractLsb' 0 2 = 0#2 <;> simp [h]
        · simp [eq_comm (b := t)]
      · simp [eq_comm (b := t)]
    · simp [eq_comm (b := t)]
  · simp

end Sys2Proof.Machine
end

