-- ==== Sys2Proof/Laws/Invariant.lean ====
section
/-!
SUPPORT. Which operations keep the invariant of spec/10_state.md R25, R33, R34 and of memory's canonical form.
-/

namespace Sys2Proof.Machine

/-- The invariant holds, in ARM state. -/
structure Ready (s : State) : Prop where
  inv : s.Inv
  arm : psrT s.cpsr = false

/-- A change that leaves the lower bits of the CPSR, the pc, memory's form and the SPSRs keeps the invariant. -/
theorem Ready.congr {s t : State} (h : Ready s) (hc : ∀ i, i < 28 → t.cpsr.getLsbD i = s.cpsr.getLsbD i)
    (hpc : t.pc = s.pc) (hm : Memory.wf t.mem = true) (hst : addressesWf t.stored = true)
    (hsp : ∀ m, t.spsr m = s.spsr m) : Ready t := by
  have hbits : t.cpsr.extractLsb' 0 5 = s.cpsr.extractLsb' 0 5 := by
    apply BitVec.eq_of_getLsbD_eq
    intro i hi
    simp only [BitVec.getLsbD_extractLsb', hi, decide_true, Bool.true_and, Nat.zero_add]
    exact hc i (by omega)
  have ht : psrT t.cpsr = psrT s.cpsr := hc 5 (by omega)
  refine ⟨⟨by rw [State.mode?_congr hbits]; exact h.inv.mode, fun e => ?_, ?_, hm, hst, ?_, fun m => ?_⟩, ?_⟩
  · rw [hpc]; exact h.inv.pcWord h.arm
  · rw [hpc]; exact h.inv.pcHalf
  · rw [reserved_zero_iff]
    intro i h8 h28
    rw [hc i h28]
    exact (reserved_zero_iff _).mp h.inv.cpsr i h8 h28
  · rw [hsp]; exact h.inv.spsrs m
  · rw [ht]; exact h.arm

/-- A change of registers, coprocessors, inputs or the counter of free values keeps the invariant. -/
theorem Ready.registers {s t : State} (h : Ready s) (hc : t.cpsr = s.cpsr) (hpc : t.pc = s.pc) (hm : t.mem = s.mem)
    (hst : t.stored = s.stored) (hsp : ∀ m, t.spsr m = s.spsr m) : Ready t :=
  h.congr (fun _ _ => by rw [hc]) hpc (by rw [hm]; exact h.inv.mem) (by rw [hst]; exact h.inv.stored) hsp

theorem Ready.writeReg {s : State} (h : Ready s) (r : Reg) (v : Word) : Ready (s.writeReg r v) :=
  h.registers (by simp) (by simp) (by simp) (by simp) (by simp)

theorem Ready.writeBackTo {s : State} (h : Ready s) (w : Bool) (r : Reg) (v : Word) : Ready (s.writeBackTo w r v) :=
  h.registers (by simp) (by simp) (by simp) (by simp) (by simp)

theorem Ready.abortBase {s : State} (h : Ready s) (w : Bool) (r : Reg) (v : Word) : Ready (s.abortBase w r v) :=
  h.registers (by simp) (by simp) (by simp) (by simp) (by simp)

theorem Ready.writeRegsIn {s : State} (h : Ready s) (m : Mode) (l : List (Reg × Word)) :
    Ready (Machine.writeRegsIn m s l) :=
  h.registers (by simp) (by simp) (by simp) (by simp) (by simp)

theorem Ready.loadListed {s : State} (h : Ready s) (l : BitVec 16) (vs : List Word) :
    Ready (s.loadListed l vs) :=
  h.registers (by simp) (by simp) (by simp) (by simp) (by simp)

theorem Ready.setCpState {s : State} (h : Ready s) (cp : CpNum) (x : CpState) : Ready (s.setCpState cp x) :=
  h.registers (by simp) (by simp) (by simp) (by simp) (by simp)

theorem Ready.countPsrRead {s : State} (h : Ready s) : Ready s.countPsrRead :=
  h.registers (by simp) (by simp) (by simp) (by simp) (by simp)

theorem Ready.nextInputs {s : State} (h : Ready s) : Ready s.nextInputs :=
  h.registers (by simp) (by simp) (by simp) (by simp) (by simp)

theorem Ready.setFlags {s : State} (h : Ready s) (n z c v : Bool) : Ready (s.setFlags n z c v) :=
  h.congr (fun i hi => by rw [State.setFlags_cpsr, psrSetFlags_getLsbD, if_pos hi]) (by simp) (by simpa using h.inv.mem)
    (by simpa using h.inv.stored) (by simp)

theorem Ready.setMultiplyFlags {s : State} (h : Ready s) (f long n z : Bool) :
    Ready (s.setMultiplyFlags f long n z) := by
  unfold State.setMultiplyFlags
  split
  · exact (h.setFlags _ _ _ _).registers rfl rfl rfl rfl fun m => by cases m <;> rfl
  · exact h

theorem Ready.setMem {s : State} (h : Ready s) (size : AccessSize) (a v : Word) : Ready (s.setMem size a v) :=
  h.congr (fun _ _ => by simp) (by simp) (by simpa using Memory.wf_setValue _ _ _ _ h.inv.mem)
    (by simpa using addressesWf_foldl_insert _ _ h.inv.stored) (by simp)

theorem Ready.withWords {s : State} (h : Ready s) (a : Word) (vs : List Word) : Ready (s.withWords a vs) :=
  h.congr (fun _ _ => by simp) (by simp) (State.withWords_wf a vs h.inv.mem)
    (State.withWords_addressesWf a vs h.inv.stored) (by simp)

/-- A write of an SPSR that stores its reserved bits as zero keeps the invariant. -/
theorem Ready.setSpsr {s : State} (h : Ready s) (m : Mode) {v : Word} (hv : v &&& psrReservedBits = 0) :
    Ready (s.setSpsr m v) := by
  refine ⟨⟨?_, ?_, ?_, ?_, ?_, ?_, fun m' => ?_⟩, ?_⟩
  · simpa [State.mode?] using h.inv.mode
  · simpa using h.inv.pcWord
  · simpa using h.inv.pcHalf
  · simpa using h.inv.mem
  · simpa using h.inv.stored
  · simpa using h.inv.cpsr
  · by_cases hm : m' = m
    · subst hm
      cases m' <;> first | exact hv | exact h.inv.spsrs _
    · rw [State.spsr_setSpsr_other s v hm]; exact h.inv.spsrs m'
  · simpa using h.arm

/-- A word-aligned pc keeps the invariant. -/
theorem Ready.setPc {s : State} (h : Ready s) {v : Word} (hv : v.extractLsb' 0 2 = 0) : Ready { s with pc := v } :=
  ⟨⟨h.inv.mode, fun _ => hv, half_aligned_of_word hv, h.inv.mem, h.inv.stored, h.inv.cpsr,
    fun m => by simpa using h.inv.spsrs m⟩, h.arm⟩

/-- The end of an instruction keeps the invariant. -/
theorem Ready.advance {s t : State} (h : Ready s) (ht : s.advance = .next t) : Ready t := by
  obtain ⟨_, rfl⟩ := State.advance_next.mp ht
  apply h.setPc
  have := (low_two_zero_iff _).mp (h.inv.pcWord h.arm)
  rw [low_two_zero_iff, BitVec.toNat_add]
  change (s.pc.toNat + 4) % 2 ^ 32 % 4 = 0
  omega

/-- A write of the pc keeps the invariant. -/
theorem Ready.writePc {s t : State} {v : Word} (h : Ready s) (ht : s.writePc v = .next t) : Ready t := by
  obtain ⟨_, rfl⟩ := State.writePc_next.mp ht
  exact h.setPc (alignWord_aligned v)

/-- A change of T with a pc aligned for the state entered keeps the invariant. -/
theorem Ready.setT {s : State} (h : Ready s) {b : Bool} {v : Word} (hv : v.getLsbD 0 = false)
    (hb : b = false → v.extractLsb' 0 2 = 0) : State.Inv { s with cpsr := psrSetT s.cpsr b, pc := v } :=
  ⟨by simpa [State.mode?] using h.inv.mode, by simpa using hb, hv, h.inv.mem, h.inv.stored,
    psrSetT_reserved h.inv.cpsr b, fun m => by simpa using h.inv.spsrs m⟩

/-- A load of the pc keeps the invariant. -/
theorem Ready.loadPc {s t : State} {v : Word} (h : Ready s) (ht : s.loadPc v = .next t) : t.Inv := by
  rcases State.loadPc_next.mp ht with ⟨_, h2, rfl⟩ | ⟨_, ht⟩
  · refine h.setT (alignHalf_aligned v) fun h0 => ?_
    apply BitVec.eq_of_getLsbD_eq
    intro i hi
    rw [BitVec.getLsbD_extractLsb', Nat.zero_add, alignHalf_getLsbD]
    by_cases h1 : i = 0
    · subst h1; rfl
    · obtain rfl : i = 1 := by omega
      cases hb : v.getLsbD 1
      · rfl
      · exfalso
        apply h2
        apply BitVec.eq_of_getLsbD_eq
        intro j hj
        rw [BitVec.getLsbD_extractLsb', Nat.zero_add]
        interval_cases j
        · simpa using h0
        · simpa using hb
  · exact (h.writePc ht).inv

/-- BX keeps the invariant. -/
theorem Ready.exchangeTo {s : State} (h : Ready s) (v : Word) : (s.exchangeTo v).Inv := by
  refine h.setT ?_ fun hb => ?_
  · split
    · exact alignHalf_aligned v
    · exact half_aligned_of_word (alignWord_aligned v)
  · rw [hb, if_neg (by decide)]
    exact alignWord_aligned v

/-- Taking an exception keeps the invariant. -/
theorem Ready.takeException {s : State} (h : Ready s) (e : Exception) : (Machine.takeException e s).Inv := by
  refine ⟨by simp, fun _ => ?_, ?_, by simpa using h.inv.mem, by simpa using h.inv.stored, ?_, fun m => ?_⟩
  · rw [takeException_pc]; cases e <;> rfl
  · rw [takeException_pc]; cases e <;> rfl
  · exact psrEnter_reserved h.inv.cpsr _ _
  · rw [takeException_spsr]
    split
    · exact h.inv.cpsr
    · exact h.inv.spsrs m

/-- The CPSR restored from an SPSR that names a mode, with a pc aligned for the state entered, keeps the invariant. -/
theorem Ready.restore {s : State} (h : Ready s) {v : Word} (hm : (psrMode (s.spsr s.mode)).isSome = true)
    (hv : v.getLsbD 0 = false) (hb : psrT (s.spsr s.mode) = false → v.extractLsb' 0 2 = 0) :
    State.Inv { s with cpsr := s.spsr s.mode, pc := v } :=
  ⟨hm, hb, hv, h.inv.mem, h.inv.stored, h.inv.spsrs _, fun m => by simpa using h.inv.spsrs m⟩

/-- The returns from exceptions keep the invariant. -/
theorem Ready.exceptionReturn {s t : State} {v : Word} (h : Ready s) (ht : s.exceptionReturn v = .next t) : t.Inv := by
  obtain ⟨_, hm, ⟨hT, rfl⟩ | ⟨hT, ht⟩⟩ := State.exceptionReturn_next.mp ht
  · exact h.restore hm (alignHalf_aligned v) (by simp [hT])
  · obtain ⟨_, rfl⟩ := State.writePc_next.mp ht
    exact h.restore hm (half_aligned_of_word (alignWord_aligned v)) fun _ => alignWord_aligned v

/-! ### The operations of the instructions -/

/-- A next state of a conditional instruction meets the invariant if one of what follows its condition does. -/
theorem Ready.conditional {c : Cond} {s t : State} {k : Result State} (h : Ready s) (hk : k = .next t → t.Inv)
    (ht : Machine.conditional c s k = .next t) : t.Inv := by
  obtain ⟨_, ⟨_, h1⟩ | ⟨_, h1⟩⟩ := conditional_next.mp ht
  · exact hk h1
  · exact (h.advance h1).inv

theorem Ready.undefinedTrap {s t : State} (h : Ready s) (ht : Machine.undefinedTrap s = .next t) : t.Inv := by
  cases ht
  exact h.takeException _

theorem inv_of_require {b : Bool} {r : Refusal} {k : Result State} {t : State} (hk : k = .next t → t.Inv)
    (ht : require b r k = .next t) : t.Inv := hk (require_next.mp ht).2

theorem Ready.ifPresent {b : Bool} {s t : State} {k : Result State} (h : Ready s) (hk : k = .next t → t.Inv)
    (ht : Machine.ifPresent b s k = .next t) : t.Inv := by
  rcases ifPresent_next.mp ht with ⟨_, h1⟩ | ⟨_, rfl⟩
  · exact hk h1
  · exact h.takeException _

theorem Ready.dataProcess {op : DpOp} {s t : State} {f : Bool} {rn rd : Reg} {o : Shifted} (h : Ready s)
    (ht : Machine.dataProcess op s f rn rd o = .next t) : t.Inv := by
  obtain ⟨_, ht⟩ := dataProcess_next.mp ht
  rcases dpFinish_next.mp ht with ⟨_, h1⟩ | ⟨_, _, _, h1⟩ | ⟨_, _, _, h1⟩ | ⟨_, _, _, h1⟩ | ⟨_, _, _, h1⟩
  · exact ((h.setFlags _ _ _ _).advance h1).inv
  · exact h.exceptionReturn h1
  · exact (h.writePc h1).inv
  · exact (((h.writeReg _ _).setFlags _ _ _ _).advance h1).inv
  · exact ((h.writeReg _ _).advance h1).inv

theorem Ready.multiplyShort {s t : State} {f : Bool} {rd rm : Reg} {l : List Reg} {r : Word} (h : Ready s)
    (ht : Machine.multiplyShort s f rd rm l r = .next t) : t.Inv :=
  (((h.writeReg _ _).setMultiplyFlags _ _ _ _).advance (multiplyShort_next.mp ht).2.2).inv

theorem Ready.multiplyLong {s t : State} {f : Bool} {rdHi rdLo rs rm : Reg} {r : BitVec 64} (h : Ready s)
    (ht : Machine.multiplyLong s f rdHi rdLo rs rm r = .next t) : t.Inv :=
  ((((h.writeReg _ _).writeReg _ _).setMultiplyFlags _ _ _ _).advance (multiplyLong_next.mp ht).2).inv

theorem Ready.loadIndexed {s t : State} {x : Indexing} {read : Except Stop Word} {k : State → Word → Result State}
    (h : Ready s) (hk : ∀ u v, Ready u → k u v = .next t → t.Inv)
    (ht : Machine.loadIndexed s x read k = .next t) : t.Inv := by
  rcases loadIndexed_next.mp ht with ⟨v, _, h1⟩ | ⟨_, rfl⟩
  · exact hk _ _ (h.writeBackTo _ _ _) h1
  · exact (h.abortBase _ _ _).takeException _

theorem Ready.storeIndexed {s t : State} {x : Indexing} {size : AccessSize} {v : Word} {privileged : Bool}
    (h : Ready s) (ht : Machine.storeIndexed s x size v privileged = .next t) : t.Inv := by
  rcases storeIndexed_next.mp ht with ⟨u, hu, h1⟩ | ⟨_, rfl⟩
  · obtain ⟨_, rfl⟩ := State.store_ok.mp hu
    exact (((h.setMem _ _ _).writeBackTo _ _ _).advance h1).inv
  · exact (h.abortBase _ _ _).takeException _

theorem Ready.loadBlock {s t : State} {p u w : Bool} {rn : Reg} {list : BitVec 16}
    {k : State → List Word → Result State} (h : Ready s) (hk : ∀ v vs, Ready v → k v vs = .next t → t.Inv)
    (ht : Machine.loadBlock s p u w rn list k = .next t) : t.Inv := by
  rcases loadBlock_next.mp ht with ⟨vs, _, h1⟩ | ⟨vs, _, rfl⟩
  · exact hk _ _ (h.writeBackTo _ _ _) h1
  · exact (h.abortBase _ _ _).takeException _

/-- Words stored, whether all of them or those below one that stops. -/
theorem Ready.storeWords {s v : State} {a : Word} {vs : List Word} {e : Option Stop} (h : Ready s)
    (hv : s.storeWords a vs = (v, e)) : Ready v := by
  obtain ⟨k, e', hk, _⟩ := State.storeWords_eq s a vs
  rw [hk] at hv
  cases hv
  exact h.withWords _ _

theorem Ready.storeBlock {s t : State} {p u w : Bool} {rn : Reg} {values : List Word} (h : Ready s)
    (ht : Machine.storeBlock s p u w rn values = .next t) : t.Inv := by
  rcases storeBlock_next.mp ht with ⟨v, hv, h1⟩ | ⟨v, hv, rfl⟩
  · exact (((h.storeWords hv).writeBackTo _ _ _).advance h1).inv
  · exact ((h.storeWords hv).abortBase _ _ _).takeException _

theorem Ready.swap {s t : State} {size : AccessSize} {rn rd rm : Reg} {read : Except Stop Word} (h : Ready s)
    (ht : Machine.swap s size rn rd rm read = .next t) : t.Inv := by
  obtain ⟨_, ⟨_, rfl⟩ | ⟨_, _, _, rfl⟩ | ⟨v, u, _, hu, h1⟩⟩ := swap_next.mp ht
  · exact h.takeException _
  · exact h.takeException _
  · obtain ⟨_, rfl⟩ := State.store_ok.mp hu
    exact (((h.setMem _ _ _).writeReg _ _).advance h1).inv

theorem Ready.moveToStatus {s t : State} {spsr : Bool} {mask : BitVec 4} {operand : Word} (h : Ready s)
    (ht : Machine.moveToStatus s spsr mask operand = .next t) : t.Inv := by
  rcases moveToStatus_next.mp ht with ⟨_, ht⟩ | ⟨_, ht⟩
  · obtain ⟨_, h1⟩ := msrSpsr_next.mp ht
    exact ((h.setSpsr s.mode (psrMerge_reserved (h.inv.spsrs _) _ _)).advance h1).inv
  · obtain ⟨hT, hm, h1⟩ := msrCpsr_next.mp ht
    have hr : Ready { s with cpsr := psrMerge s.cpsr operand (s.msrMask mask) } :=
      ⟨⟨hm, fun _ => h.inv.pcWord h.arm, h.inv.pcHalf, h.inv.mem, h.inv.stored, psrMerge_reserved h.inv.cpsr _ _,
        fun m => by simpa using h.inv.spsrs m⟩, hT.trans h.arm⟩
    exact (hr.advance h1).inv

theorem Ready.withCoprocessor {cp : CpNum} {i : Instr} {s t : State} {k : Result State} (h : Ready s)
    (hk : k = .next t → t.Inv) (ht : Machine.withCoprocessor cp i s k = .next t) : t.Inv := by
  rcases withCoprocessor_next.mp ht with ⟨_, h1⟩ | ⟨_, rfl⟩
  · exact hk h1
  · exact h.takeException _

theorem Ready.loadCoprocessor {s t : State} {x : Indexing} {n : Bool} {crd : CReg} {cp : CpNum}
    {option : Option (BitVec 8)} (h : Ready s) (ht : Machine.loadCoprocessor s x n crd cp option = .next t) :
    t.Inv := by
  rcases loadCoprocessor_next.mp ht with ⟨vs, _, h1⟩ | ⟨vs, _, rfl⟩
  · exact (((h.setCpState _ _).writeBackTo _ _ _).advance h1).inv
  · exact ((h.setCpState _ _).abortBase _ _ _).takeException _

theorem Ready.storeCoprocessor {s t : State} {x : Indexing} {n : Bool} {crd : CReg} {cp : CpNum}
    {option : Option (BitVec 8)} (h : Ready s) (ht : Machine.storeCoprocessor s x n crd cp option = .next t) :
    t.Inv := by
  rcases storeCoprocessor_next.mp ht with ⟨v, hv, h1⟩ | ⟨_, _, rfl⟩
  · exact (((h.storeWords hv).writeBackTo _ _ _).advance h1).inv
  · exact (h.abortBase _ _ _).takeException _

theorem Ready.receiveMrc {s t : State} {rd : Reg} {w : Word} (h : Ready s)
    (ht : Machine.receiveMrc s rd w = .next t) : t.Inv := by
  rcases receiveMrc_next.mp ht with ⟨_, h1⟩ | ⟨_, h1⟩
  · exact ((h.setFlags _ _ _ _).advance h1).inv
  · exact ((h.writeReg _ _).advance h1).inv

end Sys2Proof.Machine
end

