-- ==== Sys2Proof/Laws/PerInstr.lean ====
section
/-!
SUPPORT. Statements about every instruction, one lemma per constructor.
-/

/-- The top four bits of the word of an instruction are its condition (spec/30_encoding.md R102), 1111 for BLX label
(R116). -/
def Sys2Proof.Laws.Condition.Statement (i : Sys2Proof.Instr) : Prop :=
  (Sys2Proof.encode i).extractLsb' 28 4 = i.condField

namespace Sys2Proof.Laws.Condition

theorem andImm (c : Cond) (s : Bool) (rn rd : Reg) (o : RotImm) : Statement (.andImm c s rn rd o) :=
  encodeDp_condition ..

theorem andShift (c : Cond) (s : Bool) (rn rd : Reg) (o : ImmShift) : Statement (.andShift c s rn rd o) :=
  encodeDp_condition ..

theorem andReg (c : Cond) (s : Bool) (rn rd : Reg) (o : RegShift) : Statement (.andReg c s rn rd o) :=
  encodeDp_condition ..

theorem eorImm (c : Cond) (s : Bool) (rn rd : Reg) (o : RotImm) : Statement (.eorImm c s rn rd o) :=
  encodeDp_condition ..

theorem eorShift (c : Cond) (s : Bool) (rn rd : Reg) (o : ImmShift) : Statement (.eorShift c s rn rd o) :=
  encodeDp_condition ..

theorem eorReg (c : Cond) (s : Bool) (rn rd : Reg) (o : RegShift) : Statement (.eorReg c s rn rd o) :=
  encodeDp_condition ..

theorem subImm (c : Cond) (s : Bool) (rn rd : Reg) (o : RotImm) : Statement (.subImm c s rn rd o) :=
  encodeDp_condition ..

theorem subShift (c : Cond) (s : Bool) (rn rd : Reg) (o : ImmShift) : Statement (.subShift c s rn rd o) :=
  encodeDp_condition ..

theorem subReg (c : Cond) (s : Bool) (rn rd : Reg) (o : RegShift) : Statement (.subReg c s rn rd o) :=
  encodeDp_condition ..

theorem rsbImm (c : Cond) (s : Bool) (rn rd : Reg) (o : RotImm) : Statement (.rsbImm c s rn rd o) :=
  encodeDp_condition ..

theorem rsbShift (c : Cond) (s : Bool) (rn rd : Reg) (o : ImmShift) : Statement (.rsbShift c s rn rd o) :=
  encodeDp_condition ..

theorem rsbReg (c : Cond) (s : Bool) (rn rd : Reg) (o : RegShift) : Statement (.rsbReg c s rn rd o) :=
  encodeDp_condition ..

theorem addImm (c : Cond) (s : Bool) (rn rd : Reg) (o : RotImm) : Statement (.addImm c s rn rd o) :=
  encodeDp_condition ..

theorem addShift (c : Cond) (s : Bool) (rn rd : Reg) (o : ImmShift) : Statement (.addShift c s rn rd o) :=
  encodeDp_condition ..

theorem addReg (c : Cond) (s : Bool) (rn rd : Reg) (o : RegShift) : Statement (.addReg c s rn rd o) :=
  encodeDp_condition ..

theorem adcImm (c : Cond) (s : Bool) (rn rd : Reg) (o : RotImm) : Statement (.adcImm c s rn rd o) :=
  encodeDp_condition ..

theorem adcShift (c : Cond) (s : Bool) (rn rd : Reg) (o : ImmShift) : Statement (.adcShift c s rn rd o) :=
  encodeDp_condition ..

theorem adcReg (c : Cond) (s : Bool) (rn rd : Reg) (o : RegShift) : Statement (.adcReg c s rn rd o) :=
  encodeDp_condition ..

theorem sbcImm (c : Cond) (s : Bool) (rn rd : Reg) (o : RotImm) : Statement (.sbcImm c s rn rd o) :=
  encodeDp_condition ..

theorem sbcShift (c : Cond) (s : Bool) (rn rd : Reg) (o : ImmShift) : Statement (.sbcShift c s rn rd o) :=
  encodeDp_condition ..

theorem sbcReg (c : Cond) (s : Bool) (rn rd : Reg) (o : RegShift) : Statement (.sbcReg c s rn rd o) :=
  encodeDp_condition ..

theorem rscImm (c : Cond) (s : Bool) (rn rd : Reg) (o : RotImm) : Statement (.rscImm c s rn rd o) :=
  encodeDp_condition ..

theorem rscShift (c : Cond) (s : Bool) (rn rd : Reg) (o : ImmShift) : Statement (.rscShift c s rn rd o) :=
  encodeDp_condition ..

theorem rscReg (c : Cond) (s : Bool) (rn rd : Reg) (o : RegShift) : Statement (.rscReg c s rn rd o) :=
  encodeDp_condition ..

theorem tstImm (c : Cond) (rn rd : Reg) (o : RotImm) : Statement (.tstImm c rn rd o) :=
  encodeDp_condition ..

theorem tstShift (c : Cond) (rn rd : Reg) (o : ImmShift) : Statement (.tstShift c rn rd o) :=
  encodeDp_condition ..

theorem tstReg (c : Cond) (rn rd : Reg) (o : RegShift) : Statement (.tstReg c rn rd o) :=
  encodeDp_condition ..

theorem teqImm (c : Cond) (rn rd : Reg) (o : RotImm) : Statement (.teqImm c rn rd o) :=
  encodeDp_condition ..

theorem teqShift (c : Cond) (rn rd : Reg) (o : ImmShift) : Statement (.teqShift c rn rd o) :=
  encodeDp_condition ..

theorem teqReg (c : Cond) (rn rd : Reg) (o : RegShift) : Statement (.teqReg c rn rd o) :=
  encodeDp_condition ..

theorem cmpImm (c : Cond) (rn rd : Reg) (o : RotImm) : Statement (.cmpImm c rn rd o) :=
  encodeDp_condition ..

theorem cmpShift (c : Cond) (rn rd : Reg) (o : ImmShift) : Statement (.cmpShift c rn rd o) :=
  encodeDp_condition ..

theorem cmpReg (c : Cond) (rn rd : Reg) (o : RegShift) : Statement (.cmpReg c rn rd o) :=
  encodeDp_condition ..

theorem cmnImm (c : Cond) (rn rd : Reg) (o : RotImm) : Statement (.cmnImm c rn rd o) :=
  encodeDp_condition ..

theorem cmnShift (c : Cond) (rn rd : Reg) (o : ImmShift) : Statement (.cmnShift c rn rd o) :=
  encodeDp_condition ..

theorem cmnReg (c : Cond) (rn rd : Reg) (o : RegShift) : Statement (.cmnReg c rn rd o) :=
  encodeDp_condition ..

theorem orrImm (c : Cond) (s : Bool) (rn rd : Reg) (o : RotImm) : Statement (.orrImm c s rn rd o) :=
  encodeDp_condition ..

theorem orrShift (c : Cond) (s : Bool) (rn rd : Reg) (o : ImmShift) : Statement (.orrShift c s rn rd o) :=
  encodeDp_condition ..

theorem orrReg (c : Cond) (s : Bool) (rn rd : Reg) (o : RegShift) : Statement (.orrReg c s rn rd o) :=
  encodeDp_condition ..

theorem movImm (c : Cond) (s : Bool) (rn rd : Reg) (o : RotImm) : Statement (.movImm c s rn rd o) :=
  encodeDp_condition ..

theorem movShift (c : Cond) (s : Bool) (rn rd : Reg) (o : ImmShift) : Statement (.movShift c s rn rd o) :=
  encodeDp_condition ..

theorem movReg (c : Cond) (s : Bool) (rn rd : Reg) (o : RegShift) : Statement (.movReg c s rn rd o) :=
  encodeDp_condition ..

theorem bicImm (c : Cond) (s : Bool) (rn rd : Reg) (o : RotImm) : Statement (.bicImm c s rn rd o) :=
  encodeDp_condition ..

theorem bicShift (c : Cond) (s : Bool) (rn rd : Reg) (o : ImmShift) : Statement (.bicShift c s rn rd o) :=
  encodeDp_condition ..

theorem bicReg (c : Cond) (s : Bool) (rn rd : Reg) (o : RegShift) : Statement (.bicReg c s rn rd o) :=
  encodeDp_condition ..

theorem mvnImm (c : Cond) (s : Bool) (rn rd : Reg) (o : RotImm) : Statement (.mvnImm c s rn rd o) :=
  encodeDp_condition ..

theorem mvnShift (c : Cond) (s : Bool) (rn rd : Reg) (o : ImmShift) : Statement (.mvnShift c s rn rd o) :=
  encodeDp_condition ..

theorem mvnReg (c : Cond) (s : Bool) (rn rd : Reg) (o : RegShift) : Statement (.mvnReg c s rn rd o) :=
  encodeDp_condition ..

theorem mul (c : Cond) (s : Bool) (rd : Reg) (sbz : BitVec 4) (rs rm : Reg) : Statement (.mul c s rd sbz rs rm) :=
  encodeMultiply_condition ..

theorem mla (c : Cond) (s : Bool) (rd rn rs rm : Reg) : Statement (.mla c s rd rn rs rm) :=
  encodeMultiply_condition ..

theorem umull (c : Cond) (s : Bool) (rdHi rdLo rs rm : Reg) : Statement (.umull c s rdHi rdLo rs rm) :=
  encodeMultiply_condition ..

theorem umlal (c : Cond) (s : Bool) (rdHi rdLo rs rm : Reg) : Statement (.umlal c s rdHi rdLo rs rm) :=
  encodeMultiply_condition ..

theorem smull (c : Cond) (s : Bool) (rdHi rdLo rs rm : Reg) : Statement (.smull c s rdHi rdLo rs rm) :=
  encodeMultiply_condition ..

theorem smlal (c : Cond) (s : Bool) (rdHi rdLo rs rm : Reg) : Statement (.smlal c s rdHi rdLo rs rm) :=
  encodeMultiply_condition ..

theorem swp (c : Cond) (rn rd rm : Reg) : Statement (.swp c rn rd rm) :=
  encodeSwap_condition ..

theorem swpb (c : Cond) (rn rd rm : Reg) : Statement (.swpb c rn rd rm) :=
  encodeSwap_condition ..

theorem bx (c : Cond) (rm : Reg) : Statement (.bx c rm) :=
  encode_bx_condition ..

theorem blxReg (c : Cond) (rm : Reg) : Statement (.blxReg c rm) :=
  encode_blxReg_condition ..

theorem clz (c : Cond) (rd rm : Reg) : Statement (.clz c rd rm) :=
  encode_clz_condition ..

theorem brk (imm : BitVec 16) : Statement (.brk imm) :=
  encode_brk_condition ..

theorem mrs (c : Cond) (spsr : Bool) (rd : Reg) : Statement (.mrs c spsr rd) :=
  encode_mrs_condition ..

theorem msrReg (c : Cond) (spsr : Bool) (mask : BitVec 4) (rm : Reg) : Statement (.msrReg c spsr mask rm) :=
  encode_msrReg_condition ..

theorem msrImm (c : Cond) (spsr : Bool) (mask : BitVec 4) (o : RotImm) : Statement (.msrImm c spsr mask o) :=
  encode_msrImm_condition ..

theorem strhImm (c : Cond) (p u w : Bool) (rn rd : Reg) (off : BitVec 8) : Statement (.strhImm c p u w rn rd off) :=
  encodeHalfword_condition ..

theorem strhReg (c : Cond) (p u w : Bool) (rn rd rm : Reg) : Statement (.strhReg c p u w rn rd rm) :=
  encodeHalfword_condition ..

theorem ldrhImm (c : Cond) (p u w : Bool) (rn rd : Reg) (off : BitVec 8) : Statement (.ldrhImm c p u w rn rd off) :=
  encodeHalfword_condition ..

theorem ldrhReg (c : Cond) (p u w : Bool) (rn rd rm : Reg) : Statement (.ldrhReg c p u w rn rd rm) :=
  encodeHalfword_condition ..

theorem ldrsbImm (c : Cond) (p u w : Bool) (rn rd : Reg) (off : BitVec 8) : Statement (.ldrsbImm c p u w rn rd off) :=
  encodeHalfword_condition ..

theorem ldrsbReg (c : Cond) (p u w : Bool) (rn rd rm : Reg) : Statement (.ldrsbReg c p u w rn rd rm) :=
  encodeHalfword_condition ..

theorem ldrshImm (c : Cond) (p u w : Bool) (rn rd : Reg) (off : BitVec 8) : Statement (.ldrshImm c p u w rn rd off) :=
  encodeHalfword_condition ..

theorem ldrshReg (c : Cond) (p u w : Bool) (rn rd rm : Reg) : Statement (.ldrshReg c p u w rn rd rm) :=
  encodeHalfword_condition ..

theorem ldrPreImm (c : Cond) (u w : Bool) (rn rd : Reg) (off : BitVec 12) : Statement (.ldrPreImm c u w rn rd off) :=
  encodeSingle_condition ..

theorem ldrPostImm (c : Cond) (u : Bool) (rn rd : Reg) (off : BitVec 12) : Statement (.ldrPostImm c u rn rd off) :=
  encodeSingle_condition ..

theorem ldrPreReg (c : Cond) (u w : Bool) (rn rd : Reg) (o : ImmShift) : Statement (.ldrPreReg c u w rn rd o) :=
  encodeSingle_condition ..

theorem ldrPostReg (c : Cond) (u : Bool) (rn rd : Reg) (o : ImmShift) : Statement (.ldrPostReg c u rn rd o) :=
  encodeSingle_condition ..

theorem strPreImm (c : Cond) (u w : Bool) (rn rd : Reg) (off : BitVec 12) : Statement (.strPreImm c u w rn rd off) :=
  encodeSingle_condition ..

theorem strPostImm (c : Cond) (u : Bool) (rn rd : Reg) (off : BitVec 12) : Statement (.strPostImm c u rn rd off) :=
  encodeSingle_condition ..

theorem strPreReg (c : Cond) (u w : Bool) (rn rd : Reg) (o : ImmShift) : Statement (.strPreReg c u w rn rd o) :=
  encodeSingle_condition ..

theorem strPostReg (c : Cond) (u : Bool) (rn rd : Reg) (o : ImmShift) : Statement (.strPostReg c u rn rd o) :=
  encodeSingle_condition ..

theorem ldrbPreImm (c : Cond) (u w : Bool) (rn rd : Reg) (off : BitVec 12) :
    Statement (.ldrbPreImm c u w rn rd off) :=
  encodeSingle_condition ..

theorem ldrbPostImm (c : Cond) (u : Bool) (rn rd : Reg) (off : BitVec 12) : Statement (.ldrbPostImm c u rn rd off) :=
  encodeSingle_condition ..

theorem ldrbPreReg (c : Cond) (u w : Bool) (rn rd : Reg) (o : ImmShift) : Statement (.ldrbPreReg c u w rn rd o) :=
  encodeSingle_condition ..

theorem ldrbPostReg (c : Cond) (u : Bool) (rn rd : Reg) (o : ImmShift) : Statement (.ldrbPostReg c u rn rd o) :=
  encodeSingle_condition ..

theorem strbPreImm (c : Cond) (u w : Bool) (rn rd : Reg) (off : BitVec 12) :
    Statement (.strbPreImm c u w rn rd off) :=
  encodeSingle_condition ..

theorem strbPostImm (c : Cond) (u : Bool) (rn rd : Reg) (off : BitVec 12) : Statement (.strbPostImm c u rn rd off) :=
  encodeSingle_condition ..

theorem strbPreReg (c : Cond) (u w : Bool) (rn rd : Reg) (o : ImmShift) : Statement (.strbPreReg c u w rn rd o) :=
  encodeSingle_condition ..

theorem strbPostReg (c : Cond) (u : Bool) (rn rd : Reg) (o : ImmShift) : Statement (.strbPostReg c u rn rd o) :=
  encodeSingle_condition ..

theorem ldrtImm (c : Cond) (u : Bool) (rn rd : Reg) (off : BitVec 12) : Statement (.ldrtImm c u rn rd off) :=
  encodeSingle_condition ..

theorem ldrtReg (c : Cond) (u : Bool) (rn rd : Reg) (o : ImmShift) : Statement (.ldrtReg c u rn rd o) :=
  encodeSingle_condition ..

theorem strtImm (c : Cond) (u : Bool) (rn rd : Reg) (off : BitVec 12) : Statement (.strtImm c u rn rd off) :=
  encodeSingle_condition ..

theorem strtReg (c : Cond) (u : Bool) (rn rd : Reg) (o : ImmShift) : Statement (.strtReg c u rn rd o) :=
  encodeSingle_condition ..

theorem ldrbtImm (c : Cond) (u : Bool) (rn rd : Reg) (off : BitVec 12) : Statement (.ldrbtImm c u rn rd off) :=
  encodeSingle_condition ..

theorem ldrbtReg (c : Cond) (u : Bool) (rn rd : Reg) (o : ImmShift) : Statement (.ldrbtReg c u rn rd o) :=
  encodeSingle_condition ..

theorem strbtImm (c : Cond) (u : Bool) (rn rd : Reg) (off : BitVec 12) : Statement (.strbtImm c u rn rd off) :=
  encodeSingle_condition ..

theorem strbtReg (c : Cond) (u : Bool) (rn rd : Reg) (o : ImmShift) : Statement (.strbtReg c u rn rd o) :=
  encodeSingle_condition ..

theorem undefined (c : Cond) (high : BitVec 20) (low : BitVec 4) : Statement (.undefined c high low) :=
  encode_undefined_condition ..

theorem ldm (c : Cond) (p u w : Bool) (rn : Reg) (list : BitVec 16) : Statement (.ldm c p u w rn list) :=
  encodeBlock_condition ..

theorem stm (c : Cond) (p u w : Bool) (rn : Reg) (list : BitVec 16) : Statement (.stm c p u w rn list) :=
  encodeBlock_condition ..

theorem ldmReturn (c : Cond) (p u w : Bool) (rn : Reg) (list : BitVec 15) : Statement (.ldmReturn c p u w rn list) :=
  encodeBlock_condition ..

theorem ldmUser (c : Cond) (p u w : Bool) (rn : Reg) (list : BitVec 15) : Statement (.ldmUser c p u w rn list) :=
  encodeBlock_condition ..

theorem stmUser (c : Cond) (p u w : Bool) (rn : Reg) (list : BitVec 16) : Statement (.stmUser c p u w rn list) :=
  encodeBlock_condition ..

theorem b (c : Cond) (off : BitVec 24) : Statement (.b c off) :=
  encode_b_condition ..

theorem bl (c : Cond) (off : BitVec 24) : Statement (.bl c off) :=
  encode_bl_condition ..

theorem blxLabel (h : Bool) (off : BitVec 24) : Statement (.blxLabel h off) :=
  encode_blxLabel_condition ..

theorem ldc (c : Cond) (p u n w : Bool) (rn : Reg) (crd : CReg) (cp : CpNum) (off : BitVec 8) :
    Statement (.ldc c p u n w rn crd cp off) :=
  encodeCoprocessorTransfer_condition ..

theorem stc (c : Cond) (p u n w : Bool) (rn : Reg) (crd : CReg) (cp : CpNum) (off : BitVec 8) :
    Statement (.stc c p u n w rn crd cp off) :=
  encodeCoprocessorTransfer_condition ..

theorem cdp (c : Cond) (cop1 : BitVec 4) (crn crd : CReg) (cp : CpNum) (cop2 : BitVec 3) (crm : CReg) :
    Statement (.cdp c cop1 crn crd cp cop2 crm) :=
  encode_cdp_condition ..

theorem mcr (c : Cond) (cop1 : BitVec 3) (crn : CReg) (rd : Reg) (cp : CpNum) (cop2 : BitVec 3) (crm : CReg) :
    Statement (.mcr c cop1 crn rd cp cop2 crm) :=
  encodeCoprocessorRegister_condition ..

theorem mrc (c : Cond) (cop1 : BitVec 3) (crn : CReg) (rd : Reg) (cp : CpNum) (cop2 : BitVec 3) (crm : CReg) :
    Statement (.mrc c cop1 crn rd cp cop2 crm) :=
  encodeCoprocessorRegister_condition ..

theorem swi (c : Cond) (imm : BitVec 24) : Statement (.swi c imm) :=
  encode_swi_condition ..

theorem unallocated (c : Cond) (body : BitVec 28) : Statement (.unallocated c body) :=
  encode_unallocated_condition ..

end Sys2Proof.Laws.Condition
end

