-- ==== Sys2Proof/Laws/Run.lean ====
section
/-!
SUPPORT. What a run under a predicate `HALT` does (spec/92_eei_decisions.md D29), and the induction along a run.
-/

namespace Sys2Proof.Machine

@[simp] theorem run_zero (halt : State → Bool) (s : State) : run halt 0 s = .next s := rfl

/-- A run ends where the predicate holds. -/
theorem run_of_halt {halt : State → Bool} {s : State} (n : Nat) (h : halt s = true) : run halt n s = .next s := by
  cases n <;> simp [run, h]

/-- A run that goes on makes one step and runs on. -/
theorem run_succ_next {halt : State → Bool} {n : Nat} {s t : State} :
    run halt (n + 1) s = .next t ↔
      (halt s = true ∧ t = s) ∨ (halt s = false ∧ ∃ u, step s = .next u ∧ run halt n u = .next t) := by
  rw [run.eq_2]
  cases halt s
  · cases step s <;> simp
  · simp [eq_comm (a := t)]

/-- What every step keeps, every run keeps, whatever the predicate. -/
theorem run_induction {P : State → Prop} (hP : ∀ s t, P s → step s = .next t → P t) {halt : State → Bool} {n : Nat}
    {s t : State} (hs : P s) (ht : run halt n s = .next t) : P t := by
  induction n generalizing s with
  | zero => cases ht; exact hs
  | succ n ih =>
    rcases run_succ_next.mp ht with ⟨_, rfl⟩ | ⟨_, u, hu, h⟩
    · exact hs
    · exact ih (hP s u hs hu) h

end Sys2Proof.Machine
end

