-- ==== Sys2Proof/Laws/Transfers.lean ====
section
/-!
SUPPORT. What the block transfers read, load and store, register by register (spec/47_multiple_transfer_swap.md R301 to
R311), and the frames of loads and stores with a base that is written back.
-/

namespace Sys2Proof.Machine

/-! ### LDM -/

/-- A listed register is transferred at the address of its rank. -/
theorem State.slotAddress_eq (s : State) (p u : Bool) (rn : Reg) (list : BitVec 16) (r : Reg) :
    s.slotAddress p u rn list r
      = wordAt (blockStart p u (s.readReg rn) (listCount list)) (listRank list r.toNat) := rfl

/-- Where every listed register's access is allowed, every word's is. -/
theorem blockAccessible.word {s : State} {kind : AccessKind} {p u : Bool} {rn : Reg} {list : BitVec 16}
    (h : blockAccessible s kind p u rn list) {k : Nat} (hk : k < listCount list) :
    Accessible s kind .word (wordAt (blockStart p u (s.readReg rn) (listCount list)) k) s.privileged := by
  rw [← regsOf_length] at hk
  obtain ⟨hm, hr⟩ := listRank_of_getElem? (List.getElem?_eq_getElem hk)
  have := h _ hm
  rwa [State.slotAddress_eq, hr] at this

/-- The words an LDM reads, the lowest register's first. -/
def State.blockWords (s : State) (p u : Bool) (rn : Reg) (list : BitVec 16) : List Word :=
  (List.range (listCount list)).map fun k =>
    s.valueAt .word (wordAt (blockStart p u (s.readReg rn) (listCount list)) k)

/-- The word of a listed register stands at its rank. -/
theorem State.blockWords_getElem? (s : State) (p u : Bool) (rn : Reg) {list : BitVec 16} {r : Reg}
    (h : list.getLsbD r.toNat = true) :
    (s.blockWords p u rn list)[listRank list r.toNat]? = some (s.valueAt .word (s.slotAddress p u rn list r)) := by
  have := listRank_lt h
  simp [State.blockWords, this, State.slotAddress_eq]

/-- The word of r15, where it is listed, is the last. -/
theorem State.blockWords_getLastD (s : State) (p u : Bool) (rn : Reg) {list : BitVec 16}
    (h : list.getLsbD 15 = true) :
    (s.blockWords p u rn list).getLastD 0 = s.valueAt .word (s.slotAddress p u rn list 15) := by
  have h1 := regsOf_getLast h
  have h2 := s.blockWords_getElem? p u rn (r := 15) h
  have hl : (s.blockWords p u rn list).length = listCount list := by simp [State.blockWords]
  rw [List.getLastD_eq_getLast?, List.getLast?_eq_getElem?, hl, ← h1]
  rw [show (15 : Reg).toNat = 15 from rfl] at h2
  simpa using congrArg (Option.getD · 0) h2

/-- An LDM whose accesses are allowed reads its words and writes the base back. -/
theorem loadBlock_of_accessible {s : State} {p u w : Bool} {rn : Reg} {list : BitVec 16}
    (k : State → List Word → Result State) (h : blockAccessible s .read p u rn list) :
    loadBlock s p u w rn list k = k (s.writeBackTo w rn (s.newBase u rn list)) (s.blockWords p u rn list) := by
  unfold loadBlock
  simp only [regsOf_length, State.loadWords_of_accessible _ _ _ fun _ hk => h.word hk]
  rfl

theorem withBlock_of_wf {list : BitVec 16} {rn : Reg} (k : Result State) (h : list ≠ 0) (hn : rn ≠ 15) :
    withBlock list rn true k = k := by
  unfold withBlock
  rw [bne_iff_ne.mpr h, bne_iff_ne.mpr hn]
  rfl

/-- What a base that is written back may be in the list of an LDM. -/
theorem loadBaseWf_iff {w : Bool} {list : BitVec 16} {rn : Reg} :
    loadBaseWf w list rn = true ↔ (w = true → list.getLsbD rn.toNat = false) := by
  unfold loadBaseWf
  cases w <;> simp

/-- A register is the lowest of a list just if its rank is 0. -/
theorem isLowest_iff {list : BitVec 16} {rn : Reg} : isLowest list rn = true ↔ listRank list rn.toNat = 0 := by
  unfold isLowest listRank
  simp [List.filter_eq_nil_iff]

/-- What a base that is written back may be in the list of an STM. -/
theorem storeBaseWf_iff {w : Bool} {list : BitVec 16} {rn : Reg} :
    storeBaseWf w list rn = true ↔
      (w = true → list.getLsbD rn.toNat = true → listRank list rn.toNat = 0) := by
  unfold storeBaseWf
  rw [Bool.or_eq_true, isLowest_iff]
  cases w <;> cases list.getLsbD rn.toNat <;> simp

/-- A register loaded is a listed one. -/
theorem listed_of_mem_zip {list : BitVec 16} {vs : List Word} {r : Reg}
    (h : r ∈ ((regsOf list).zip vs).map Prod.fst) : list.getLsbD r.toNat = true := by
  simp only [List.mem_map] at h
  obtain ⟨⟨a, b⟩, hab, rfl⟩ := h
  exact mem_regsOf.mp (List.of_mem_zip hab).1

@[simp] theorem writeRegsIn_mode (m : Mode) (s : State) (l : List (Reg × Word)) :
    (writeRegsIn m s l).mode = s.mode := State.mode_congr (by simp)

@[simp] theorem State.loadListed_mode (s : State) (list : BitVec 16) (vs : List Word) :
    (s.loadListed list vs).mode = s.mode := State.mode_congr (by simp)

/-- A listed register holds its word. -/
theorem State.loadListed_readReg (u : State) {list : BitVec 16} {vs : List Word} {r : Reg} {v : Word}
    (hr : list.getLsbD r.toNat = true) (hv : vs[listRank list r.toNat]? = some v) (h15 : r ≠ 15) :
    (u.loadListed list vs).readRegIn u.mode r = v :=
  writeRegsIn_readRegIn u.mode u (regsOf list) vs (regsOf_nodup list) (regsOf_getElem? hr) hv h15

/-- A register that is not listed is as before. -/
theorem State.loadListed_readReg_other (u : State) {list : BitVec 16} (vs : List Word) {r : Reg}
    (hr : list.getLsbD r.toNat = false) : (u.loadListed list vs).readRegIn u.mode r = u.readRegIn u.mode r :=
  writeRegsIn_readRegIn_other _ _ _ fun hm => by rw [listed_of_mem_zip hm] at hr; cases hr

/-- The frame of the registers an LDM loads: they and no other. -/
theorem State.loadListed_frame (u : State) (list : BitVec 16) (vs : List Word) :
    RegisterFrame u (u.loadListed list vs) ((regsOf list).map fun r => physOf r u.mode) := by
  refine ⟨⟨fun q hq => ?_, fun m => by simp, by simp, by simp, by simp⟩, by simp, fun _ => by simp, by simp⟩
  exact writeRegsIn_readPhys_other _ _ _ fun r hr e =>
    hq (List.mem_map.mpr ⟨r, mem_regsOf.mpr (listed_of_mem_zip hr), e.symm⟩)

/-- Frames compose. -/
theorem RegisterFrame.trans {s u t : State} {l m : List (Option PhysReg)} (h : RegisterFrame s u l)
    (g : RegisterFrame u t m) : RegisterFrame s t (m ++ l) := by
  refine ⟨⟨fun q hq => ?_, fun x => (g.spsrs x).trans (h.spsrs x), g.coproc.trans h.coproc,
    g.outside.1.trans h.outside.1, g.outside.2.trans h.outside.2⟩, g.cpsr.trans h.cpsr,
    fun a => (g.memory.1 a).trans (h.memory.1 a), g.memory.2.trans h.memory.2⟩
  simp only [List.mem_append, not_or] at hq
  rw [g.registers q hq.1, h.registers q hq.2]

/-- The frame of an LDM: the listed registers and the base. -/
theorem State.loadListed_writeBackTo_frame (s : State) (w : Bool) (rn : Reg) (list : BitVec 16) (vs : List Word)
    (v : Word) : RegisterFrame s ((s.writeBackTo w rn v).loadListed list vs)
      ((regsOf list).map (fun r => physOf r s.mode) ++ [if w then physOf rn s.mode else none]) := by
  have h1 : RegisterFrame s (s.writeBackTo w rn v) [if w then physOf rn s.mode else none] :=
    (RegisterFrame.refl s _).writeBackTo w rn v (by intro hw; simp [hw])
  have h2 := (s.writeBackTo w rn v).loadListed_frame list vs
  rw [State.mode_writeBackTo] at h2
  exact h1.trans h2

/-- A listed register after an LDM. -/
theorem State.loadListed_writeBackTo_readReg (s : State) (p u w : Bool) {rn : Reg} {list : BitVec 16} {r : Reg}
    (hr : list.getLsbD r.toNat = true) (h15 : r ≠ 15) (v : Word) :
    ((s.writeBackTo w rn v).loadListed list (s.blockWords p u rn list)).readRegIn s.mode r
      = s.valueAt .word (s.slotAddress p u rn list r) := by
  have := (s.writeBackTo w rn v).loadListed_readReg hr (s.blockWords_getElem? p u rn hr) h15
  rwa [State.mode_writeBackTo] at this

/-- The base after an LDM with write-back, where it is not listed. -/
theorem State.loadListed_writeBackTo_base (s : State) {rn : Reg} {list : BitVec 16} (vs : List Word) (hn : rn ≠ 15)
    (hr : list.getLsbD rn.toNat = false) (v : Word) :
    ((s.writeBackTo true rn v).loadListed list vs).readRegIn s.mode rn = v := by
  have h := (s.writeBackTo true rn v).loadListed_readReg_other vs hr
  rw [State.mode_writeBackTo] at h
  rw [h]
  have h2 := s.readReg_writeBackTo_same v hn (w := true) rfl
  rwa [State.readReg, State.mode_writeBackTo] at h2

/-- A list that has a register is not empty. -/
theorem list_ne_zero {list : BitVec 16} {r : Nat} (h : list.getLsbD r = true) : list ≠ 0 := by
  rintro rfl
  simp at h

/-! ### STM -/

/-- What a store of a register stores. -/
theorem State.storeValueIn_eq (s : State) (m : Mode) (r : Reg) : s.storeValueIn m r = storedRegister s m r := by
  unfold State.storeValueIn storedRegister State.storedPc
  rfl

theorem State.storeValue_eq (s : State) (r : Reg) : s.storeValue r = storedRegister s s.mode r :=
  s.storeValueIn_eq s.mode r

/-- Every word of an STM stored, where every one can be. -/
theorem storeWords_of_blockAccessible {s : State} {p u : Bool} {rn : Reg} {list : BitVec 16} {vs : List Word}
    (hl : vs.length = listCount list) (h : blockAccessible s .write p u rn list) :
    s.storeWords (blockStart p u (s.readReg rn) (listCount list)) vs
      = (s.withWords (blockStart p u (s.readReg rn) (listCount list)) vs, none) :=
  State.storeWords_of_accessible _ _ _ fun _ hk => h.word (hl ▸ hk)

/-- A register that stands below a place of the list has a lower number. -/
theorem listed_below {list : BitVec 16} {first : Reg} (h : list.getLsbD first.toNat = true) {k : Nat}
    (hk : k < listRank list first.toNat) :
    ∃ r : Reg, list.getLsbD r.toNat = true ∧ listRank list r.toNat = k ∧ r.toNat < first.toNat := by
  have hlt := listRank_lt h
  rw [← regsOf_length] at hlt
  obtain ⟨hm, hr⟩ := listRank_of_getElem? (List.getElem?_eq_getElem (show k < (regsOf list).length by omega))
  refine ⟨_, hm, hr, ?_⟩
  by_contra hge
  rcases Nat.lt_or_eq_of_le (Nat.le_of_not_lt hge) with h1 | h1
  · have := listRank_lt_of_lt h h1
    omega
  · rw [h1] at hk
    omega

/-- The values of a first part of the listed registers, each at its slot, and nothing else. -/
theorem State.withWords_slots (s : State) (p u : Bool) (rn : Reg) (list : BitVec 16) (f : Reg → Word) (n : Nat)
    (hm : Memory.wf s.mem = true) :
    StoredWords s (s.withWords (blockStart p u (s.readReg rn) (listCount list)) (((regsOf list).map f).take n))
      (fun r : Reg => list.getLsbD r.toNat = true ∧ listRank list r.toNat < n)
      (fun r => s.effectiveAddress .word (s.slotAddress p u rn list r)) f := by
  have hlen : (((regsOf list).map f).take n).length = min n (listCount list) := by
    rw [List.length_take, List.length_map, regsOf_length]
  have key := s.withWords_storedWords (blockStart p u (s.readReg rn) (listCount list)) (((regsOf list).map f).take n) hm
    (by rw [hlen]; have := listCount_le list; omega)
    (fun k => (((regsOf list).map f).take n)[k]?.getD 0) (fun k hk => by simp [List.getElem?_eq_getElem hk])
  have slot : ∀ k, k < (((regsOf list).map f).take n).length →
      ∃ r : Reg, list.getLsbD r.toNat = true ∧ listRank list r.toNat = k ∧ k < n := fun k hk => by
    rw [hlen] at hk
    obtain ⟨h1, h2⟩ := listRank_of_getElem? (List.getElem?_eq_getElem (l := regsOf list)
      (show k < (regsOf list).length by rw [regsOf_length]; omega))
    exact ⟨_, h1, h2, by omega⟩
  refine ⟨fun r hr => ?_, fun b hb => key.others b fun k hk => ?_, fun b => (key.noted b).trans (or_congr_right ?_)⟩
  · have hlt := listRank_lt hr.1
    have h := key.bytes (listRank list r.toNat) (by rw [hlen]; omega)
    rwa [List.getElem?_take_of_lt hr.2, List.getElem?_map, regsOf_getElem? hr.1] at h
  · obtain ⟨r, h1, rfl, h3⟩ := slot k hk
    exact hb r ⟨h1, h3⟩
  · constructor
    · rintro ⟨k, hk, hb⟩
      obtain ⟨r, h1, rfl, h3⟩ := slot k hk
      exact ⟨r, ⟨h1, h3⟩, hb⟩
    · rintro ⟨r, hr, hb⟩
      have hlt := listRank_lt hr.1
      exact ⟨listRank list r.toNat, by rw [hlen]; omega, hb⟩

/-! ### Single transfers -/

/-- What the restrictions on write-back and offset register say. -/
theorem transferAllowed_iff {w : Bool} {rn rd : Reg} {o : Option Reg} :
    transferAllowed w rn rd o = true ↔
      writeBackWf w rn rd = true ∧ o ≠ some 15 ∧ (w = true → o ≠ some rn) := by
  unfold transferAllowed writeBackWf
  cases w <;> simp [and_assoc]

/-- A base that is written back is neither r15 nor the transferred register. -/
theorem base_of_transferAllowed {w : Bool} {rn rd : Reg} {o : Option Reg} (h : transferAllowed w rn rd o = true)
    (hw : w = true) : rn ≠ 15 ∧ rn ≠ rd := by
  have := (transferAllowed_iff.mp h).1
  simpa [writeBackWf, hw] using this

theorem withBase_of_allowed {x : Indexing} {rd : Reg} {o : Option Reg} (k : Result State)
    (h : transferAllowed x.writeBack x.rn rd o = true) : withBase x rd k = k := by
  simp [withBase, (transferAllowed_iff.mp h).1]

theorem withRegisterOffset_of_allowed {x : Indexing} {rd rm : Reg} (k : Result State)
    (h : transferAllowed x.writeBack x.rn rd (some rm) = true) : withRegisterOffset x rd rm k = k := by
  obtain ⟨_, h15, hrn⟩ := transferAllowed_iff.mp h
  have h1 : (rm != 15) = true := by simpa using h15
  have h2 : (!x.writeBack || rm != x.rn) = true := by
    cases hw : x.writeBack
    · rfl
    · simpa using hrn hw
  rw [withRegisterOffset, h1, h2]
  exact withBase_of_allowed k h

@[simp] theorem SingleForm.indexing_rn (f : SingleForm) (s : State) (rn : Reg) : (f.indexing s rn).rn = rn := by
  cases f <;> rfl

@[simp] theorem HalfForm.indexing_rn (f : HalfForm) (s : State) (p u w : Bool) (rn : Reg) :
    (f.indexing s p u w rn).rn = rn := by
  cases f <;> rfl

/-- An executed load to a register: the value, the base, the pc and the frame. -/
theorem loaded_of_allowed {s : State} {x : Indexing} {rd : Reg} {o : Option Reg} (v : Word) (hrd : rd ≠ 15)
    (h : transferAllowed x.writeBack x.rn rd o = true) (hl : s.pc ≠ 0xFFFFFFFC) :
    ∃ t, ((s.writeBackTo x.writeBack x.rn (s.indexed x)).writeReg rd v).advance = .next t ∧ t.readReg rd = v
      ∧ (x.writeBack = true → t.readReg x.rn = s.indexed x) ∧ t.pc = s.pc + 4
      ∧ RegisterFrame s t [physOf rd s.mode, if x.writeBack then physOf x.rn s.mode else none] := by
  rw [State.advance_of_notLast (by simpa using hl)]
  refine ⟨_, rfl, ?_, fun hw => ?_, by simp, ?_⟩
  · rw [State.readReg_setPc _ hrd, State.readReg_writeReg_same _ _ hrd]
  · obtain ⟨h1, h2⟩ := base_of_transferAllowed h hw
    rw [State.readReg_setPc _ h1, State.readReg_writeReg_other _ _ h2, State.readReg_writeBackTo_same _ _ h1 hw]
  · apply RegisterFrame.setPc
    apply RegisterFrame.writeReg
    · apply RegisterFrame.writeBackTo (RegisterFrame.refl _ _)
      intro hw
      simp [hw]
    · simp

/-- An executed store: the bytes, the base, the pc, the CPSR and the frame. -/
theorem stored_of_allowed {s : State} {x : Indexing} {rd : Reg} {o : Option Reg} (size : AccessSize) (a v : Word)
    (hm : Memory.wf s.mem = true) (h : transferAllowed x.writeBack x.rn rd o = true) (hl : s.pc ≠ 0xFFFFFFFC) :
    ∃ t, ((s.setMem size a v).writeBackTo x.writeBack x.rn (s.indexed x)).advance = .next t ∧ Stored s t size a v
      ∧ (x.writeBack = true → t.readReg x.rn = s.indexed x) ∧ t.pc = s.pc + 4 ∧ t.cpsr = s.cpsr
      ∧ Frame s t [if x.writeBack then physOf x.rn s.mode else none] := by
  rw [State.advance_of_notLast (by simpa using hl)]
  have st := State.stored_setMem s size a v hm
  refine ⟨_, rfl, ⟨fun k hk => ?_, fun b hb => ?_, fun b => ?_⟩, fun hw => ?_, by simp, by simp, ?_⟩
  · simpa [State.byteAt] using st.bytes k hk
  · simpa [State.byteAt] using st.others b hb
  · simpa using st.noted b
  · obtain ⟨h1, _⟩ := base_of_transferAllowed h hw
    rw [State.readReg_setPc _ h1, State.readReg_writeBackTo_same _ _ h1 hw]
  · apply Frame.setPc
    apply Frame.writeBackTo _ (by simp)
    · intro hw
      simp [hw]
    · exact Frame.setMem (RegisterFrame.refl _ _).toFrame _ _ _

/-! ### Coprocessors -/

/-- `cpstate_n` after it is replaced, and the others. -/
@[simp] theorem State.cpState_setCpState_same (s : State) (cp : CpNum) (x : CpState) :
    (s.setCpState cp x).cpState cp = x := by
  show (s.coproc.set (cpIndex cp).val x (cpIndex cp).isLt)[(cpIndex cp).val] = x
  exact Vector.getElem_set_self _

theorem State.cpState_setCpState_other (s : State) {cp n : CpNum} (x : CpState) (h : n ≠ cp) :
    (s.setCpState cp x).cpState n = s.cpState n := by
  show (s.coproc.set (cpIndex cp).val x (cpIndex cp).isLt)[(cpIndex n).val] = s.coproc[(cpIndex n).val]
  exact Vector.getElem_set_ne _ _ fun e => h (BitVec.eq_of_toNat_eq e.symm)

/-- A coprocessor's state is read from one field. -/
theorem State.cpState_congr {s t : State} (h : t.coproc = s.coproc) (n : CpNum) : t.cpState n = s.cpState n :=
  congrArg (fun v => Vector.get v (cpIndex n)) h

theorem withCoprocessor_of_accepts {cp : CpNum} {i : Instr} {s : State} (k : Result State)
    (h : s.cpAccepts cp (encode i) = true) : withCoprocessor cp i s k = k := if_pos h

theorem withCoprocessorTransfer_of_wf {p u w : Bool} {rn : Reg} {cp : CpNum} {i : Instr} {s : State} (k : Result State)
    (hw : coprocessorTransferWf p u w rn = true) (h : s.cpAccepts cp (encode i) = true) :
    withCoprocessorTransfer p u w rn cp i s k = k := by
  unfold coprocessorTransferWf at hw
  rw [Bool.and_eq_true] at hw
  unfold withCoprocessorTransfer
  rw [hw.1, require_true, withCoprocessor_of_accepts _ h, hw.2, require_true]

/-- The option byte goes with the unindexed form. -/
theorem CpTransfer.option_eq (f : CpTransfer) : coprocessorOption f.p f.w f.off = f.option := by
  unfold coprocessorOption CpTransfer.option transferOption
  cases f.p <;> cases f.w <;> rfl

/-- Words received in order are a fold over their places. -/
theorem receiveWords_range (cp : CpNum) (n : Bool) (crd : CReg) (option : Option (BitVec 8)) (g : Nat → Word) (m : Nat) :
    ∀ (k : Nat) (st : CpState), receiveWords cp n crd option k st ((List.range m).map fun j => g (k + j))
      = (List.range m).foldl (fun st j => Config.cpLdcWord cp st n crd option (k + j) (g (k + j))) st := by
  induction m with
  | zero => intro k st; rfl
  | succ m ih =>
    intro k st
    rw [List.range_succ_eq_map, List.map_cons, receiveWords, List.foldl_cons, List.map_map, List.foldl_map]
    have := ih (k + 1) (Config.cpLdcWord cp st n crd option k (g k))
    simp only [Function.comp_def, Nat.add_zero, Nat.add_assoc, Nat.add_comm 1] at this ⊢
    exact this

/-- The coprocessor's state after the first words of an LDC. -/
theorem CpTransfer.received_eq (f : CpTransfer) (s : State) (m : Nat) :
    receiveWords f.cp f.n f.crd f.option 0 (s.cpState f.cp)
      ((List.range m).map fun j => s.valueAt .word (wordAt (s.addressOf f.indexing) j)) = f.received s m := by
  have := receiveWords_range f.cp f.n f.crd f.option (fun j => s.valueAt .word (wordAt (s.addressOf f.indexing) j)) m 0
    (s.cpState f.cp)
  simp only [Nat.zero_add] at this
  exact this

/-- The base of an LDC or STC with write-back. -/
theorem CpTransfer.base_of_allowed {f : CpTransfer} (h : f.allowed = true) (hw : f.w = true) : f.rn ≠ 15 := by
  unfold CpTransfer.allowed coprocessorTransferWf at h
  simpa [hw] using h

end Sys2Proof.Machine
end

