-- ==== Sys2Proof/Tests/Slice0.lean ====
section
/-!
SUPPORT. Tests: ill-formed terms that each check refuses, words written from the spec's encodings that decode to their
instructions, single steps on the vectors of spec/95_test_vectors.md (T1 to T15, S1 to S9), and for every statement
with hypotheses a state and operands that meet them.
-/

namespace Sys2Proof.Tests

open Sys2Proof Sys2Proof.Machine

/-! ### Well-formedness: each check refuses an ill-formed term -/

/-- Every term is refused. -/
def allRefused (l : List Instr) : Bool := l.all fun i => !i.wf

/-- A should-be-zero field that is not zero (spec/30_encoding.md R129). -/
theorem test_wf_should_be_zero : allRefused [
    .movImm .al true 1 0 ⟨0, 0⟩, .movShift .al true 1 0 ⟨0, .lsl, 2⟩, .movReg .al true 1 0 ⟨3, .lsl, 2⟩,
    .mvnImm .al true 1 0 ⟨0, 0⟩, .mvnShift .al true 1 0 ⟨0, .lsl, 2⟩, .mvnReg .al true 1 0 ⟨3, .lsl, 2⟩,
    .tstImm .al 0 1 ⟨0, 0⟩, .tstShift .al 0 1 ⟨0, .lsl, 2⟩, .tstReg .al 0 1 ⟨3, .lsl, 2⟩,
    .teqImm .al 0 1 ⟨0, 0⟩, .teqShift .al 0 1 ⟨0, .lsl, 2⟩, .teqReg .al 0 1 ⟨3, .lsl, 2⟩,
    .cmpImm .al 0 1 ⟨0, 0⟩, .cmpShift .al 0 1 ⟨0, .lsl, 2⟩, .cmpReg .al 0 1 ⟨3, .lsl, 2⟩,
    .cmnImm .al 0 1 ⟨0, 0⟩, .cmnShift .al 0 1 ⟨0, .lsl, 2⟩, .cmnReg .al 0 1 ⟨3, .lsl, 2⟩,
    .mul .al true 0 1 2 3] = true := by decide

/-- r15 in the register-shift form, as Rn, Rd, Rs and Rm (43_data_processing.md R183). -/
theorem test_wf_register_shift : allRefused [
    .andReg .al true 15 0 ⟨1, .lsl, 2⟩, .eorReg .al true 0 15 ⟨1, .lsl, 2⟩, .subReg .al true 0 0 ⟨15, .lsl, 2⟩,
    .rsbReg .al true 0 0 ⟨1, .lsl, 15⟩, .addReg .al true 15 0 ⟨1, .lsl, 2⟩, .adcReg .al true 0 15 ⟨1, .lsl, 2⟩,
    .sbcReg .al true 0 0 ⟨15, .lsl, 2⟩, .rscReg .al true 0 0 ⟨1, .lsl, 15⟩, .orrReg .al true 15 0 ⟨1, .lsl, 2⟩,
    .bicReg .al true 0 15 ⟨1, .lsl, 2⟩, .movReg .al true 0 15 ⟨1, .lsl, 2⟩, .mvnReg .al true 0 0 ⟨1, .lsl, 15⟩,
    .tstReg .al 15 0 ⟨1, .lsl, 2⟩, .teqReg .al 0 0 ⟨15, .lsl, 2⟩, .cmpReg .al 0 0 ⟨1, .lsl, 15⟩,
    .cmnReg .al 15 0 ⟨1, .lsl, 2⟩] = true := by decide

/-- r15 in a multiply, Rd = Rm, and RdHi, RdLo, Rm not all different (44_multiply_clz.md R230, R238). -/
theorem test_wf_multiply : allRefused [
    .mul .al true 15 0 1 2, .mul .al true 0 0 15 2, .mul .al true 0 0 1 15, .mul .al true 2 0 1 2,
    .mla .al true 0 15 1 2, .mla .al true 2 0 1 2, .umull .al true 15 1 2 3, .umull .al true 1 1 2 3,
    .umlal .al true 0 15 2 3, .umlal .al true 3 1 2 3, .smull .al true 0 1 15 3, .smull .al true 0 3 2 3,
    .smlal .al true 0 1 2 15, .smlal .al true 0 0 2 3, .clz .al 15 0, .clz .al 0 15] = true := by decide

/-- r15 in BLX Rm, MRS and MSR (41_branch.md R154, 48_status_register_transfer.md R331, R333). -/
theorem test_wf_branch_status : allRefused [
    .blxReg .al 15, .mrs .al true 15, .msrReg .al true 0 15] = true := by decide

/-- The half-word family: Rd = 15, P = 0 with W = 1, write-back to r15 or Rd, Rm = 15 or the base
(46_halfword_signed_transfer.md R281, R283 to R286). -/
theorem test_wf_halfword : allRefused [
    .strhImm .al true true false 0 15 0, .ldrhImm .al false true true 0 1 0, .ldrsbImm .al true true true 15 1 0,
    .ldrshImm .al true true true 1 1 0, .strhReg .al true true false 0 1 15, .ldrhReg .al true true true 0 1 0,
    .ldrsbReg .al true true false 0 15 2, .ldrshReg .al false true true 0 1 2] = true := by decide

/-- The word and byte transfers: write-back to r15 or Rd, Rm = 15 or the base, and Rd = 15 where it is not allowed
(45_single_data_transfer.md R250, R251, R257 to R262, 93_implementation_defined.md U12). -/
theorem test_wf_word_byte : allRefused [
    .ldrPreImm .al true true 15 0 0, .ldrPostImm .al true 1 1 0, .ldrPreReg .al true false 0 1 ⟨0, .lsl, 15⟩,
    .ldrPostReg .al true 0 1 ⟨0, .lsl, 0⟩, .strPreImm .al true true 1 1 0, .strPostImm .al true 15 1 0,
    .strPreReg .al true true 0 1 ⟨0, .lsl, 0⟩, .strPostReg .al true 0 1 ⟨0, .lsl, 15⟩,
    .ldrbPreImm .al true false 0 15 0, .ldrbPostImm .al true 15 1 0, .ldrbPreReg .al true false 0 15 ⟨0, .lsl, 2⟩,
    .ldrbPostReg .al true 0 15 ⟨0, .lsl, 2⟩, .strbPreImm .al true false 0 15 0, .strbPostImm .al true 0 15 0,
    .strbPreReg .al true true 1 1 ⟨0, .lsl, 2⟩, .strbPostReg .al true 15 1 ⟨0, .lsl, 2⟩,
    .ldrtImm .al true 0 15 0, .ldrtReg .al true 0 15 ⟨0, .lsl, 2⟩, .strtImm .al true 1 1 0,
    .strtReg .al true 0 1 ⟨0, .lsl, 0⟩, .ldrbtImm .al true 0 15 0, .ldrbtReg .al true 1 1 ⟨0, .lsl, 2⟩,
    .strbtImm .al true 0 15 0, .strbtReg .al true 0 1 ⟨0, .lsl, 15⟩, .strtImm .al true 0 15 0,
    .strtReg .al true 0 15 ⟨0, .lsl, 2⟩] = true := by decide

/-- An empty list, Rn = 15, a base written back and listed, write-back with the user bank (47_multiple_transfer_swap.md
R300, R306, R307, R310), and the register restrictions of the swaps (R312). -/
theorem test_wf_block_swap : allRefused [
    .ldm .al true true true 0 0, .ldm .al true true true 15 1, .stm .al true true true 0 0,
    .stm .al true true true 15 1, .ldmReturn .al true true true 15 1, .ldmUser .al true true true 0 1,
    .ldmUser .al true true false 0 0, .ldmUser .al true true false 15 1, .stmUser .al true true true 0 1,
    .stmUser .al true true false 0 0, .stmUser .al true true false 15 1, .swp .al 15 0 1, .swp .al 0 15 1,
    .swp .al 0 1 15, .swp .al 0 1 0, .swpb .al 0 0 1, .ldm .al true true true 1 3, .ldmReturn .al true true true 1 3,
    .stm .al true true true 1 3] = true := by decide

/-- LDC and STC: the unindexed form with U = 0, write-back to r15 (49_coprocessor_brk_unused.md R357), MCR of r15
(93_implementation_defined.md U25), and a body that belongs to a row (30_encoding.md R135). -/
theorem test_wf_coprocessor_unallocated : allRefused [
    .ldc .al false false true false 0 0 0 0, .ldc .al true true true true 15 0 0 0,
    .stc .al false false true false 0 0 0 0, .stc .al false true true true 15 0 0 0,
    .mcr .al 0 0 15 0 0 0, .unallocated .al 0x1A00000, .unallocated .eq 0x1200070] = true := by decide

/-! ### Decoding: every row's word, written from the encodings of spec/30_encoding.md R103 to R120 -/

/-- The word decodes to the instruction. -/
def decodesTo (w : Word) (i : Instr) : Bool :=
  match decode w with
  | .ok j => j == i
  | .error _ => false

/-- Every word decodes to its instruction. -/
def decodesAll (l : List (Word × Instr)) : Bool := l.all fun x => decodesTo x.1 x.2

theorem test_decode_data_processing : decodesAll [
    (0x1213C9A5, (.andImm .ne true 3 12 ⟨9, 0xa5⟩)),
    (0x5003C9C6, (.andShift .pl false 3 12 ⟨19, .asr, 6⟩)),
    (0x9013CB56, (.andReg .ls true 3 12 ⟨11, .asr, 6⟩)),
    (0xD223C9A5, (.eorImm .le false 3 12 ⟨9, 0xa5⟩)),
    (0x2033C9C6, (.eorShift .cs true 3 12 ⟨19, .asr, 6⟩)),
    (0x6023CB76, (.eorReg .vs false 3 12 ⟨11, .ror, 6⟩)),
    (0xA253C9A5, (.subImm .ge true 3 12 ⟨9, 0xa5⟩)),
    (0xE043C9C6, (.subShift .al false 3 12 ⟨19, .asr, 6⟩)),
    (0x3053CB56, (.subReg .cc true 3 12 ⟨11, .asr, 6⟩)),
    (0x7263C9A5, (.rsbImm .vc false 3 12 ⟨9, 0xa5⟩)),
    (0xB073C9C6, (.rsbShift .lt true 3 12 ⟨19, .asr, 6⟩)),
    (0x0063CB76, (.rsbReg .eq false 3 12 ⟨11, .ror, 6⟩)),
    (0x4293C9A5, (.addImm .mi true 3 12 ⟨9, 0xa5⟩)),
    (0x8083C9C6, (.addShift .hi false 3 12 ⟨19, .asr, 6⟩)),
    (0xC093CB56, (.addReg .gt true 3 12 ⟨11, .asr, 6⟩)),
    (0x12A3C9A5, (.adcImm .ne false 3 12 ⟨9, 0xa5⟩)),
    (0x50B3C9C6, (.adcShift .pl true 3 12 ⟨19, .asr, 6⟩)),
    (0x90A3CB76, (.adcReg .ls false 3 12 ⟨11, .ror, 6⟩)),
    (0xD2D3C9A5, (.sbcImm .le true 3 12 ⟨9, 0xa5⟩)),
    (0x20C3C9C6, (.sbcShift .cs false 3 12 ⟨19, .asr, 6⟩)),
    (0x60D3CB56, (.sbcReg .vs true 3 12 ⟨11, .asr, 6⟩)),
    (0xA2E3C9A5, (.rscImm .ge false 3 12 ⟨9, 0xa5⟩)),
    (0xE0F3C9C6, (.rscShift .al true 3 12 ⟨19, .asr, 6⟩)),
    (0x30E3CB76, (.rscReg .cc false 3 12 ⟨11, .ror, 6⟩))] = true := by decide

theorem test_decode_data_processing_upper : decodesAll [
    (0x731309A5, (.tstImm .vc 3 0 ⟨9, 0xa5⟩)),
    (0xB11309C6, (.tstShift .lt 3 0 ⟨19, .asr, 6⟩)),
    (0x01130B56, (.tstReg .eq 3 0 ⟨11, .asr, 6⟩)),
    (0x433309A5, (.teqImm .mi 3 0 ⟨9, 0xa5⟩)),
    (0x813309C6, (.teqShift .hi 3 0 ⟨19, .asr, 6⟩)),
    (0xC1330B76, (.teqReg .gt 3 0 ⟨11, .ror, 6⟩)),
    (0x135309A5, (.cmpImm .ne 3 0 ⟨9, 0xa5⟩)),
    (0x515309C6, (.cmpShift .pl 3 0 ⟨19, .asr, 6⟩)),
    (0x91530B56, (.cmpReg .ls 3 0 ⟨11, .asr, 6⟩)),
    (0xD37309A5, (.cmnImm .le 3 0 ⟨9, 0xa5⟩)),
    (0x217309C6, (.cmnShift .cs 3 0 ⟨19, .asr, 6⟩)),
    (0x61730B76, (.cmnReg .vs 3 0 ⟨11, .ror, 6⟩)),
    (0xA393C9A5, (.orrImm .ge true 3 12 ⟨9, 0xa5⟩)),
    (0xE183C9C6, (.orrShift .al false 3 12 ⟨19, .asr, 6⟩)),
    (0x3193CB56, (.orrReg .cc true 3 12 ⟨11, .asr, 6⟩)),
    (0x73A0C9A5, (.movImm .vc false 0 12 ⟨9, 0xa5⟩)),
    (0xB1B0C9C6, (.movShift .lt true 0 12 ⟨19, .asr, 6⟩)),
    (0x01A0CB76, (.movReg .eq false 0 12 ⟨11, .ror, 6⟩)),
    (0x43D3C9A5, (.bicImm .mi true 3 12 ⟨9, 0xa5⟩)),
    (0x81C3C9C6, (.bicShift .hi false 3 12 ⟨19, .asr, 6⟩)),
    (0xC1D3CB56, (.bicReg .gt true 3 12 ⟨11, .asr, 6⟩)),
    (0x13E0C9A5, (.mvnImm .ne false 0 12 ⟨9, 0xa5⟩)),
    (0x51F0C9C6, (.mvnShift .pl true 0 12 ⟨19, .asr, 6⟩)),
    (0x91E0CB76, (.mvnReg .ls false 0 12 ⟨11, .ror, 6⟩))] = true := by decide

theorem test_decode_multiply_swap_branch_exchange_status : decodesAll [
    (0xD01C0B96, (.mul .le true 12 0 11 6)),
    (0x202C3B96, (.mla .cs false 12 3 11 6)),
    (0x60985B96, (.umull .vs true 8 5 11 6)),
    (0xA0A85B96, (.umlal .ge false 8 5 11 6)),
    (0xE0D85B96, (.smull .al true 8 5 11 6)),
    (0x30E85B96, (.smlal .cc false 8 5 11 6)),
    (0x7103C097, (.swp .vc 3 12 7)),
    (0xB143C097, (.swpb .lt 3 12 7)),
    (0x012FFF16, (.bx .eq 6)),
    (0x412FFF36, (.blxReg .mi 6)),
    (0x816FCF16, (.clz .hi 12 6)),
    (0xE12A1B7C, (.brk 0xA1BC)),
    (0x114FC000, (.mrs .ne true 12)),
    (0x5169F006, (.msrReg .pl true 9 6)),
    (0x9369F9A5, (.msrImm .ls true 9 ⟨9, 0xa5⟩))] = true := by decide

theorem test_decode_halfword : decodesAll [
    (0xD0C3CAB5, (.strhImm .le false true false 3 12 0xA5)),
    (0x2123C0B6, (.strhReg .cs true false true 3 12 6)),
    (0x61D3CAB5, (.ldrhImm .vs true true false 3 12 0xA5)),
    (0xA013C0B6, (.ldrhReg .ge false false false 3 12 6)),
    (0xE1F3CAD5, (.ldrsbImm .al true true true 3 12 0xA5)),
    (0x3133C0D6, (.ldrsbReg .cc true false true 3 12 6)),
    (0x70D3CAF5, (.ldrshImm .vc false true false 3 12 0xA5)),
    (0xB113C0F6, (.ldrshReg .lt true false false 3 12 6))] = true := by decide

theorem test_decode_word_byte : decodesAll [
    (0x05B3CA53, (.ldrPreImm .eq true true 3 12 0xA53)),
    (0x4413CA53, (.ldrPostImm .mi false 3 12 0xA53)),
    (0x87B3C9C6, (.ldrPreReg .hi true true 3 12 ⟨19, .asr, 6⟩)),
    (0xC613C9C6, (.ldrPostReg .gt false 3 12 ⟨19, .asr, 6⟩)),
    (0x1583CA53, (.strPreImm .ne true false 3 12 0xA53)),
    (0x5403CA53, (.strPostImm .pl false 3 12 0xA53)),
    (0x97A3C9E6, (.strPreReg .ls true true 3 12 ⟨19, .ror, 6⟩)),
    (0xD603C9C6, (.strPostReg .le false 3 12 ⟨19, .asr, 6⟩)),
    (0x25F3CA53, (.ldrbPreImm .cs true true 3 12 0xA53)),
    (0x6453CA53, (.ldrbPostImm .vs false 3 12 0xA53)),
    (0xA7F3C9A6, (.ldrbPreReg .ge true true 3 12 ⟨19, .lsr, 6⟩)),
    (0xE653C9C6, (.ldrbPostReg .al false 3 12 ⟨19, .asr, 6⟩)),
    (0x35E3CA53, (.strbPreImm .cc true true 3 12 0xA53)),
    (0x7443CA53, (.strbPostImm .vc false 3 12 0xA53)),
    (0xB7C3C9C6, (.strbPreReg .lt true false 3 12 ⟨19, .asr, 6⟩)),
    (0x0643C9C6, (.strbPostReg .eq false 3 12 ⟨19, .asr, 6⟩)),
    (0x44B3CA53, (.ldrtImm .mi true 3 12 0xA53)),
    (0x8633C9C6, (.ldrtReg .hi false 3 12 ⟨19, .asr, 6⟩)),
    (0xC4A3CA53, (.strtImm .gt true 3 12 0xA53)),
    (0x1623C9C6, (.strtReg .ne false 3 12 ⟨19, .asr, 6⟩)),
    (0x54F3CA53, (.ldrbtImm .pl true 3 12 0xA53)),
    (0x9673C9C6, (.ldrbtReg .ls false 3 12 ⟨19, .asr, 6⟩)),
    (0xD4E3CA53, (.strbtImm .le true 3 12 0xA53)),
    (0x2663C9C6, (.strbtReg .cs false 3 12 ⟨19, .asr, 6⟩))] = true := by decide

theorem test_decode_block_branch_coprocessor : decodesAll [
    (0x662468B9, (.undefined .vs 0x12345 9)),
    (0xA8338A53, (.ldm .ge false false true 3 0x8a53)),
    (0xE9A38A53, (.stm .al true true true 3 0x8a53)),
    (0x39738A53, (.ldmReturn .cc true false true 3 0xa53)),
    (0x78F34A53, (.ldmUser .vc false true true 3 0x4a53)),
    (0xB9438A53, (.stmUser .lt true false false 3 0x8a53)),
    (0x0AA1B2C3, (.b .eq 0xA1B2C3)),
    (0x4BA1B2C3, (.bl .mi 0xA1B2C3)),
    (0xFBA1B2C3, (.blxLabel true 0xA1B2C3)),
    (0xCD73C5A5, (.ldc .gt true false true true 3 12 5 0xA5)),
    (0x1CC3C5A5, (.stc .ne false true true false 3 12 5 0xA5)),
    (0x5E53C5C9, (.cdp .pl 5 3 12 5 6 9)),
    (0x9EA3C5D9, (.mcr .ls 5 3 12 5 6 9)),
    (0xDEB3C5D9, (.mrc .le 5 3 12 5 6 9)),
    (0x2FA1B2C3, (.swi .cs 0xA1B2C3)),
    (0x63000000, (.unallocated .vs 0x3000000))] = true := by decide


/-- The words of the spec's own examples (95_test_vectors.md S1 to S9). -/
theorem test_decode_examples : decodesAll [
    (0xE1B0F00E, .movShift .al true 0 15 ⟨0, .lsl, 14⟩), (0xE25EF004, .subImm .al true 14 15 ⟨0, 4⟩),
    (0xE8FD800F, .ldmReturn .al false true true 13 0xF), (0xE12FFF10, .bx .al 0), (0xFB00003E, .blxLabel true 0x3E),
    (0xE59F1004, .ldrPreImm .al true false 15 1 4), (0xE5C10000, .strbPreImm .al true false 1 0 0),
    (0xE0D100F2, .ldrshImm .al false true false 1 0 2), (0xE4820004, .strPostImm .al true 2 0 4),
    (0xE1510003, .cmpShift .al 1 0 ⟨0, .lsl, 3⟩), (0xBAFFFFFB, .b .lt 0xFFFFFB), (0xE1401091, .swpb .al 0 1 1),
    (0xE14F3000, .mrs .al true 3), (0xE328F20F, .msrImm .al false 8 ⟨2, 0xF⟩), (0xE128F000, .msrReg .al false 8 0),
    (0xEE310202, .cdp .al 3 1 0 2 0 2), (0x0E651387, .cdp .eq 6 5 1 3 4 7),
    (0xED910600, .ldc .al true true false false 1 0 6 0), (0x0CE01501, .stc .eq false true true true 0 1 5 1),
    (0xEE610E12, .mcr .al 3 1 0 14 0 2), (0x2E9332D4, .mrc .cs 4 3 3 2 6 4)] = true := by decide

/-- Condition field 1111 is no instruction but BLX label (30_encoding.md R128). -/
theorem test_decode_condition_1111 :
    decode 0xF0000000 = .error .condition1111 ∧ decode 0xFFFFFFFF = .error .condition1111
      ∧ decode 0xFA000000 = .ok (.blxLabel false 0) := ⟨rfl, rfl, rfl⟩

/-- Bytes are read in ascending address order, by the byte order (20_memory.md R63, R64). -/
theorem test_decode_bytes :
    decodeBytes .little [0x0E, 0xF0, 0xB0, 0xE1] = .ok (.movShift .al true 0 15 ⟨0, .lsl, 14⟩, []) ∧
    decodeBytes .big [0xE1, 0xB0, 0xF0, 0x0E, 0x55] = .ok (.movShift .al true 0 15 ⟨0, .lsl, 14⟩, [0x55]) ∧
    decodeBytes .little [0x0E, 0xF0, 0xB0] = .error .truncated := ⟨rfl, rfl, rfl⟩

/-- A table word is numbered from the least significant bit of the word. -/
theorem test_decode_table_word : decodeTableWord 32 0xE5910004 = some (.ldrPreImm .al true false 1 0 4) := by decide

/-! ### One step, on the vectors of spec/95_test_vectors.md -/

/-- A state at 0x8000 with the CPSR given, registers of its mode and words of memory set. -/
def sample (cpsr : Word) (regs mem : List (Nat × Word)) : State :=
  let s := { State.reset with cpsr := cpsr, pc := 0x8000 }
  let s := regs.foldl (fun s x => s.writeReg (BitVec.ofNat 4 x.1) x.2) s
  mem.foldl (fun s x => { s with mem := Memory.setValue s.mem .little (BitVec.ofNat 32 x.1) .word x.2 }) s

/-- One step on a word at the pc goes on, and the state after it is as the test says. -/
def after (s : State) (w : Word) (ok : State → Bool) : Bool :=
  match step (s.placeWord w) with
  | .next t => ok t
  | .fault _ => false
  | .refused _ => false

/-- One step on a word at the pc is refused for a reason. -/
def refuses (s : State) (w : Word) (r : Refusal) : Bool :=
  match step (s.placeWord w) with
  | .next _ => false
  | .fault _ => false
  | .refused q => q == r

/-- Registers of the current mode, the CPSR and the pc after the step. -/
def shows (t : State) (regs : List (Nat × Word)) (cpsr pc : Word) : Bool :=
  regs.all (fun x => t.readReg (BitVec.ofNat 4 x.1) == x.2) && t.cpsr == cpsr && t.pc == pc

/-- A word of memory, in little-endian order. -/
def wordIs (t : State) (a v : Word) : Bool := Memory.value t.mem .little a .word == v

/-- The state with another parameter. -/
def withPlatform (s : State) (f : Platform → Platform) : State := { s with platform := f s.platform }

/-- An access of one kind to one address faults, whatever its size and privilege. -/
def faulting (s : State) (kind : AccessKind) (a : Word) : State :=
  withPlatform s fun p => { p with memSys := [⟨a, a, kind, none, true, true⟩] }

/-- T1: the operation on 0x80000001 and 0x7FFFFFFF with C set, and on 5 and 5 with C clear; r0 and NZCV. -/
def dpVector (w a nzcvA b nzcvB : Word) : Bool :=
  after (sample 0x20000010 [(1, 0x80000001), (2, 0x7FFFFFFF)] []) w (fun t => shows t [(0, a)] (nzcvA + 0x10) 0x8004)
    && after (sample 0x10 [(1, 5), (2, 5)] []) w (fun t => shows t [(0, b)] (nzcvB + 0x10) 0x8004)

theorem test_and : dpVector 0xE0110002 0x1 0x20000000 0x5 0 = true := by decide

theorem test_eor : dpVector 0xE0310002 0xFFFFFFFE 0xA0000000 0x0 0x40000000 = true := by decide

theorem test_sub : dpVector 0xE0510002 0x2 0x30000000 0x0 0x60000000 = true := by decide

theorem test_rsb : dpVector 0xE0710002 0xFFFFFFFE 0x90000000 0x0 0x60000000 = true := by decide

theorem test_add : dpVector 0xE0910002 0x0 0x60000000 0xA 0 = true := by decide

theorem test_adc : dpVector 0xE0B10002 0x1 0x20000000 0xA 0 = true := by decide

theorem test_sbc : dpVector 0xE0D10002 0x2 0x30000000 0xFFFFFFFF 0x80000000 = true := by decide

theorem test_rsc : dpVector 0xE0F10002 0xFFFFFFFE 0x90000000 0xFFFFFFFF 0x80000000 = true := by decide

theorem test_tst : dpVector 0xE1110002 0x0 0x20000000 0x0 0 = true := by decide

theorem test_teq : dpVector 0xE1310002 0x0 0xA0000000 0x0 0x40000000 = true := by decide

theorem test_cmp : dpVector 0xE1510002 0x0 0x30000000 0x0 0x60000000 = true := by decide

theorem test_cmn : dpVector 0xE1710002 0x0 0x60000000 0x0 0 = true := by decide

theorem test_orr : dpVector 0xE1910002 0xFFFFFFFF 0xA0000000 0x5 0 = true := by decide

theorem test_mov : dpVector 0xE1B00002 0x7FFFFFFF 0x20000000 0x5 0 = true := by decide

theorem test_bic : dpVector 0xE1D10002 0x80000000 0xA0000000 0x0 0x40000000 = true := by decide

theorem test_mvn : dpVector 0xE1F00002 0x80000000 0xA0000000 0xFFFFFFFA 0x80000000 = true := by decide

/-- T2: the corners of C and V. -/
theorem test_add_overflow :
    after (sample 0x10 [(1, 0x80000000), (2, 0x80000000)] []) 0xE0910002 (fun t => shows t [(0, 0)] 0x70000010 0x8004)
      = true := by decide

theorem test_sub_overflow :
    after (sample 0x10 [(1, 0x80000000), (2, 1)] []) 0xE0510002
      (fun t => shows t [(0, 0x7FFFFFFF)] 0x30000010 0x8004) = true := by decide

/-- T3: every row of the immediate shifts of 0x80000003 with C clear. -/
theorem test_immediate_shifts :
    ([(0xE1B00002, 0x80000003, 8), (0xE1B00082, 6, 2), (0xE1B00F82, 0x80000000, 10), (0xE1B00022, 0, 6),
      (0xE1B000A2, 0x40000001, 2), (0xE1B00FA2, 1, 0), (0xE1B00042, 0xFFFFFFFF, 10), (0xE1B000C2, 0xC0000001, 10),
      (0xE1B00FC2, 0xFFFFFFFF, 8), (0xE1B00062, 0x40000001, 2), (0xE1B000E2, 0xC0000001, 10), (0xE1B00FE2, 7, 0)] :
        List (Word × Word × Word)).all (fun x => after (sample 0x10 [(2, 0x80000003)] []) x.1
      (fun t => shows t [(0, x.2.1)] (x.2.2 * 0x10000000 + 0x10) 0x8004)) = true := by decide

/-- T4: the shifts by register, by 0, 1, 31, 32, 33, 255 and 256, in the order LSL, LSR, ASR, ROR. -/
theorem test_register_shifts :
    ([(0, [(0x80000003, 8), (0x80000003, 8), (0x80000003, 8), (0x80000003, 8)]),
      (1, [(6, 2), (0x40000001, 2), (0xC0000001, 10), (0xC0000001, 10)]),
      (0x1F, [(0x80000000, 10), (1, 0), (0xFFFFFFFF, 8), (7, 0)]),
      (0x20, [(0, 6), (0, 6), (0xFFFFFFFF, 10), (0x80000003, 10)]),
      (0x21, [(0, 4), (0, 4), (0xFFFFFFFF, 10), (0xC0000001, 10)]),
      (0xFF, [(0, 4), (0, 4), (0xFFFFFFFF, 10), (7, 0)]),
      (0x100, [(0x80000003, 8), (0x80000003, 8), (0x80000003, 8), (0x80000003, 8)])] :
        List (Word × List (Word × Word))).all (fun x =>
      (x.2.zip [0xE1B00312, 0xE1B00332, 0xE1B00352, 0xE1B00372]).all fun y =>
        after (sample 0x10 [(2, 0x80000003), (3, x.1)] []) y.2
          (fun t => shows t [(0, y.1.1)] (y.1.2 * 0x10000000 + 0x10) 0x8004)) = true := by decide

/-- T5: rotated immediates, C set before. -/
theorem test_immediate_operands :
    ([(0xE3B000FF, 0xFF, 2), (0xE3B004FF, 0xFF000000, 10), (0xE3B00102, 0x80000000, 10), (0xE3B00FFF, 0x3FC, 0),
      (0xE3B0020F, 0xF0000000, 10), (0xE3B00000, 0, 6)] : List (Word × Word × Word)).all (fun x =>
      after (sample 0x20000010 [] []) x.1 (fun t => shows t [(0, x.2.1)] (x.2.2 * 0x10000000 + 0x10) 0x8004))
      = true := by decide

/-- T5: r15 as an operand and as a destination. -/
theorem test_pc_operand :
    (after (sample 0x10 [] []) 0xE1A0000F (fun t => shows t [(0, 0x8008)] 0x10 0x8004)
      && after (sample 0x10 [(0, 3)] []) 0xE08FF100 (fun t => shows t [] 0x10 0x8014)
      && refuses (sample 0x10 [(14, 0x9000)] []) 0xE1B0F00E .noSpsr) = true := by decide

/-- S1: the returns from exceptions. -/
theorem test_exception_returns :
    (after { sample 0xD3 [(14, 0x8004)] [] with spsrSvc := 0x60000010 } 0xE1B0F00E
        (fun t => shows t [] 0x60000010 0x8004)
      && after { sample 0xD2 [(14, 0x8018)] [] with spsrIrq := 0x80000010 } 0xE25EF004
        (fun t => shows t [] 0x80000010 0x8014)
      && after { sample 0xD7 [(14, 0x8028)] [] with spsrAbt := 0x1F } 0xE25EF008
        (fun t => shows t [] 0x1F 0x8020)) = true := by decide

/-! Branches (T6) -/

theorem test_b : (after (sample 0x10 [] []) 0xEA000000 (fun t => shows t [] 0x10 0x8008)
    && after (sample 0x10 [] []) 0xEAFFFFFA (fun t => shows t [] 0x10 0x7FF0)
    && after (sample 0x10 [] []) 0xEA7FFFFF (fun t => shows t [] 0x10 0x02008004)
    && after { sample 0x10 [] [] with pc := 0 } 0xEAFFFFFA (fun t => shows t [] 0x10 0xFFFFFFF0)) = true := by decide

theorem test_b_conditional : (after (sample 0x40000010 [] []) 0x0A000002 (fun t => shows t [] 0x40000010 0x8010)
    && after (sample 0x10 [] []) 0x0A000002 (fun t => shows t [] 0x10 0x8004)) = true := by decide

theorem test_bl : after (sample 0x10 [] []) 0xEB0003FE (fun t => shows t [(14, 0x8004)] 0x10 0x9000) = true := by
  decide

theorem test_bx : (after (sample 0x10 [(0, 0x9000)] []) 0xE12FFF10 (fun t => shows t [] 0x10 0x9000)
    && after (sample 0x10 [(0, 0x9001)] []) 0xE12FFF10 (fun t => shows t [] 0x30 0x9000)
    && after (sample 0x10 [(0, 0x9002)] []) 0xE12FFF10 (fun t => shows t [] 0x10 0x9000)
    && after (sample 0x10 [(0, 0x9003)] []) 0xE12FFF10 (fun t => shows t [] 0x30 0x9002)) = true := by decide

theorem test_blx_register : after { sample 0x10 [(2, 0x9001)] [] with pc := 0x8010 } 0xE12FFF32
    (fun t => shows t [(14, 0x8014)] 0x30 0x9000) = true := by decide

theorem test_blx_label : (after (sample 0x10 [] []) 0xFB00003E (fun t => shows t [(14, 0x8004)] 0x30 0x8102)
    && after (sample 0x10 [] []) 0xFAFFFFFE (fun t => shows t [(14, 0x8004)] 0x30 0x8000)) = true := by decide

/-! Multiplies (T7) -/

theorem test_mul : (after (sample 0x10 [(1, 0xFFFFFFFF), (2, 2)] []) 0xE0000291
      (fun t => shows t [(0, 0xFFFFFFFE)] 0x10 0x8004)
    && refuses (sample 0x10 [] []) 0xE0000290 .multiplyRegisters) = true := by decide

theorem test_mla : after (sample 0x10 [(1, 0x10001), (2, 0x10001), (3, 0xFFFFFFFF)] []) 0xE0203291
    (fun t => shows t [(0, 0x20000)] 0x10 0x8004) = true := by decide

theorem test_umull : after (sample 0x10 [(1, 0xFFFFFFFF), (2, 0xFFFFFFFF)] []) 0xE0854291
    (fun t => shows t [(4, 1), (5, 0xFFFFFFFE)] 0x10 0x8004) = true := by decide

theorem test_umlal : after (sample 0x10 [(1, 0xFFFFFFFF), (2, 2), (4, 0xFFFFFFFF), (5, 1)] []) 0xE0A54291
    (fun t => shows t [(4, 0xFFFFFFFD), (5, 3)] 0x10 0x8004) = true := by decide

theorem test_smull : after (sample 0x10 [(1, 0x80000000), (2, 2), (4, 3)] []) 0xE0C54291
    (fun t => shows t [(4, 0), (5, 0xFFFFFFFF)] 0x10 0x8004) = true := by decide

theorem test_smlal : after (sample 0x10 [(1, 0xFFFFFFFF), (2, 1)] []) 0xE0E54291
    (fun t => shows t [(4, 0xFFFFFFFF), (5, 0xFFFFFFFF)] 0x10 0x8004) = true := by decide

theorem test_clz : ([(0, 32), (1, 31), (0x10000, 15), (0x80000000, 0), (0xFFFFFFFF, 0)] : List (Word × Word)).all
    (fun x => after (sample 0x10 [(1, x.1)] []) 0xE16F0F11 (fun t => shows t [(0, x.2)] 0x10 0x8004)) = true := by decide

/-! Word and byte transfers (T8, T9) -/

/-- The words of T8. -/
def wordsT8 : List (Nat × Word) :=
  [(0xFFC, 0xDDEEFF00), (0x1000, 0x11223344), (0x1004, 0x55667788), (0x1008, 0x99AABBCC)]

/-- A load of T8: r0 and r1 after it. -/
def loadT8 (w r0 r1 : Word) : Bool :=
  after (sample 0x10 [(1, 0x1004), (2, 4)] wordsT8) w (fun t => shows t [(0, r0), (1, r1)] 0x10 0x8004)

/-- A store of T8: the word at an address and r1 after it. -/
def storeT8 (w a v r1 : Word) : Bool :=
  after (sample 0x10 [(0, 0xCAFEBABE), (1, 0x1004), (2, 4)] wordsT8) w
    (fun t => shows t [(1, r1)] 0x10 0x8004 && wordIs t a v && wordIs t 0x1008 0x99AABBCC)

theorem test_ldr_immediate : (loadT8 0xE5910004 0x99AABBCC 0x1004 && loadT8 0xE5110004 0x11223344 0x1004
    && loadT8 0xE5B10004 0x99AABBCC 0x1008 && loadT8 0xE4110008 0x55667788 0xFFC) = true := by decide

theorem test_ldr_register : (loadT8 0xE7110002 0x11223344 0x1004 && loadT8 0xE7B10002 0x99AABBCC 0x1008
    && loadT8 0xE7110082 0xDDEEFF00 0x1004 && loadT8 0xE69100A2 0x55667788 0x1006) = true := by decide

theorem test_ldrt : loadT8 0xE4B10004 0x55667788 0x1008 = true := by decide

theorem test_ldrb : (loadT8 0xE5D10003 0x55 0x1004 && loadT8 0xE5510001 0x11 0x1004
    && after (withPlatform (sample 0x10 [(1, 0x1004)] [(0x1004, 0x88776655)]) fun p => { p with endian := .big })
      0xE5D10003 (fun t => shows t [(0, 0x88)] 0x10 0x8004)) = true := by decide

theorem test_ldrbt : loadT8 0xE4F10001 0x88 0x1005 = true := by decide

theorem test_ldr_misaligned : (refuses (sample 0x10 [(1, 0x1004)] wordsT8) 0xE5910001 .misaligned
    && after (withPlatform (sample 0x10 [(1, 0x1004)] wordsT8) fun p => { p with misalign := .rotate }) 0xE5910001
      (fun t => shows t [(0, 0x88556677)] 0x10 0x8004)) = true := by decide

theorem test_str : (storeT8 0xE5810000 0x1004 0xCAFEBABE 0x1004 && storeT8 0xE5210004 0x1000 0xCAFEBABE 0x1000
    && storeT8 0xE4810004 0x1004 0xCAFEBABE 0x1008) = true := by decide

/-- STRT, and STRT of r15 (93_implementation_defined.md U12). -/
theorem test_strt : (storeT8 0xE4A10004 0x1004 0xCAFEBABE 0x1008
    && refuses (sample 0x10 [(1, 0x1004)] []) 0xE4A1F004 .pcOperand) = true := by decide

theorem test_strb : (storeT8 0xE5C10001 0x1004 0x5566BE88 0x1004 && storeT8 0xE4C10001 0x1004 0x556677BE 0x1005)
    = true := by decide

theorem test_strbt : storeT8 0xE4610001 0x1004 0x556677BE 0x1003 = true := by decide

theorem test_ldr_pc : (after (sample 0x10 [(13, 0x1000)] [(0x1000, 0x9000)]) 0xE49DF004
      (fun t => shows t [(13, 0x1004)] 0x10 0x9000)
    && after (sample 0x10 [(13, 0x1000)] [(0x1000, 0x9001)]) 0xE49DF004 (fun t => shows t [(13, 0x1004)] 0x30 0x9000)
    && refuses (sample 0x10 [(13, 0x1000)] [(0x1000, 0x9002)]) 0xE49DF004 .pcLoadAlignment
    && refuses (withPlatform (sample 0x10 [(13, 0x1000)] [(0x1000, 0x9001)]) fun p => { p with arch := .v4 })
      0xE49DF004 .pcWriteAlignment) = true := by decide

theorem test_str_pc :
    (after (withPlatform (sample 0x10 [(1, 0x1004)] []) fun p => { p with storePcOffset := .twelve }) 0xE581F000
        (fun t => wordIs t 0x1004 0x800C)
      && after (withPlatform (sample 0x10 [(1, 0x1004)] []) fun p => { p with storePcOffset := .eight }) 0xE581F000
        (fun t => wordIs t 0x1004 0x8008)) = true := by decide

/-! Half-word and signed byte transfers (T10) -/

/-- A load of T10: r0 and r1 after it. -/
def loadT10 (w r0 r1 : Word) : Bool :=
  after (sample 0x10 [(1, 0x1004), (2, 4)] [(0x1000, 0x12348001), (0x1004, 0x7F80FFFE), (0x1100, 0x80000000)]) w
    (fun t => shows t [(0, r0), (1, r1)] 0x10 0x8004)

/-- A store of T10: the word at an address and r1 after it. -/
def storeT10 (w a v r1 : Word) : Bool :=
  after (sample 0x10 [(0, 0xCAFEBABE), (1, 0x1004), (2, 4)] [(0x1000, 0x11223344), (0x1004, 0x55667788)]) w
    (fun t => shows t [(1, r1)] 0x10 0x8004 && wordIs t a v)

theorem test_ldrh : (loadT10 0xE1D100B2 0x7F80 0x1004 && loadT10 0xE17100B2 0x1234 0x1002
    && loadT10 0xE0D101B2 0xFFFE 0x1016 && loadT10 0xE01100B2 0xFFFE 0x1000) = true := by decide

theorem test_ldrh_misaligned : refuses (sample 0x10 [(1, 0x1004)] []) 0xE1D100B1 .misaligned = true := by decide

theorem test_ldrsh : (loadT10 0xE1D100F0 0xFFFFFFFE 0x1004 && loadT10 0xE1D100F2 0x7F80 0x1004) = true := by decide

theorem test_ldrsb : (loadT10 0xE1D100D0 0xFFFFFFFE 0x1004 && loadT10 0xE1D100D3 0x7F 0x1004
    && loadT10 0xE1D10FDF 0xFFFFFF80 0x1004) = true := by decide

theorem test_strh : (storeT10 0xE1C100B0 0x1004 0x5566BABE 0x1004 && storeT10 0xE1C100B2 0x1004 0xBABE7788 0x1004
    && storeT10 0xE0C100B2 0x1004 0x5566BABE 0x1006 && storeT10 0xE12100B2 0x1000 0x1122BABE 0x1000) = true := by decide

/-! Block transfers and swap (T11, T12) -/

/-- The words of T11 from 0x1004 up. -/
def wordsT11 : List (Nat × Word) := [(0x1004, 0x101), (0x1008, 0x102), (0x100C, 0x103), (0x1010, 0x104),
  (0x1014, 0x105), (0x1018, 0x106), (0x101C, 0x107)]

/-- An LDM of T11 of r1 to r3: the first value loaded, and the base after it. -/
def ldmT11 (w v r0 : Word) : Bool :=
  after (sample 0x10 [(0, 0x1010)] wordsT11) w
    (fun t => shows t [(0, r0), (1, v), (2, v + 1), (3, v + 2)] 0x10 0x8004)

/-- An STM of T11 of r1 to r3: the lowest address, and the base after it. -/
def stmT11 (w a r0 : Word) : Bool :=
  after (sample 0x10 [(0, 0x1010), (1, 0xA1), (2, 0xA2), (3, 0xA3)] []) w
    (fun t => shows t [(0, r0)] 0x10 0x8004 && wordIs t a 0xA1 && wordIs t (a + 4) 0xA2 && wordIs t (a + 8) 0xA3
      && wordIs t (a - 4) 0 && wordIs t (a + 12) 0)

theorem test_ldm : (ldmT11 0xE890000E 0x104 0x1010 && ldmT11 0xE9B0000E 0x105 0x101C
    && ldmT11 0xE830000E 0x102 0x1004 && ldmT11 0xE930000E 0x101 0x1004) = true := by decide

theorem test_ldm_pc : (after (sample 0x10 [(13, 0x1000)] [(0x1000, 0x44), (0x1004, 0x9001)]) 0xE8BD8010
      (fun t => shows t [(4, 0x44), (13, 0x1008)] 0x30 0x9000)
    && after (sample 0x10 [(0, 0x1010)] wordsT11) 0xE8900003 (fun t => shows t [(0, 0x104), (1, 0x105)] 0x10 0x8004)
    && refuses (sample 0x10 [] []) 0xE8900000 .emptyList) = true := by decide

theorem test_stm : (stmT11 0xE8A0000E 0x1010 0x101C && stmT11 0xE9A0000E 0x1014 0x101C
    && stmT11 0xE820000E 0x1008 0x1004 && stmT11 0xE900000E 0x1004 0x1010) = true := by decide

theorem test_stm_pc : (after (sample 0x10 [(13, 0x1008), (0, 5)] []) 0xE92D8001
      (fun t => shows t [(13, 0x1000)] 0x10 0x8004 && wordIs t 0x1000 5 && wordIs t 0x1004 0x800C)
    && after (sample 0x10 [(0, 0x1010), (1, 0xA1)] []) 0xE8A00003
      (fun t => shows t [(0, 0x1018)] 0x10 0x8004 && wordIs t 0x1010 0x1010 && wordIs t 0x1014 0xA1)) = true := by decide

/-- T11: a base that is written back and listed, in LDM, in STM where it is not lowest, and in LDM with `^` (R306). -/
theorem test_block_base_in_list :
    ([0xE8B00003, 0xE8A10003, 0xE8F08001] : List Word).all
      (fun w => refuses (sample 0xD2 [(0, 0x1010), (1, 0x1010)] wordsT11) w .blockBaseInList) = true := by decide

/-- LDM with `^` of a misaligned word for the pc, under both values of `PCWRITE_ALIGN` (10_state.md R27,
93_implementation_defined.md U21). -/
theorem test_ldm_return_misaligned :
    let s := { sample 0xD2 [(13, 0x7000)] [(0x7000, 0x8016)] with spsrIrq := 0x60000010 }
    (refuses s 0xE8FD8000 .pcWriteAlignment
      && after (withPlatform s fun p => { p with pcWriteAlign := .mask }) 0xE8FD8000
        (fun t => shows t [] 0x60000010 0x8014)) = true := by decide

/-- S2. -/
theorem test_ldm_return :
    after { sample 0xD2 [(13, 0x7000)] [(0x7000, 1), (0x7004, 2), (0x7008, 3), (0x700C, 4), (0x7010, 0x8014)] with
        spsrIrq := 0x60000010 } 0xE8FD800F
      (fun t => shows t [(0, 1), (1, 2), (2, 3), (3, 4)] 0x60000010 0x8014 && t.readRegIn .irq 13 == 0x7014)
      = true := by decide

theorem test_ldm_user :
    (after (sample 0xD3 [(0, 0x1010), (13, 1), (14, 2)] [(0x1010, 0xAAAA0000), (0x1014, 0xBBBB0000)]) 0xE8D06000
      (fun t => shows t [(13, 1), (14, 2)] 0xD3 0x8004 && t.readRegIn .usr 13 == 0xAAAA0000
        && t.readRegIn .usr 14 == 0xBBBB0000)
    && refuses (sample 0xD3 [(0, 0x1010)] []) 0xE8F06000 .userBankWriteBack) = true := by decide

theorem test_stm_user :
    after ((sample 0xD1 [(0, 0x1010), (8, 99)] []).writeRegIn .usr 8 0x88) 0xE8C07F00
      (fun t => wordIs t 0x1010 0x88 && wordIs t 0x1014 0) = true := by decide

theorem test_ldm_abort :
    after (faulting (sample 0x10 [(0, 0x1010), (1, 1), (2, 2), (3, 3)] wordsT11) .read 0x1014) 0xE8B0000E
      (fun t => shows t [(0, 0x1010), (1, 1), (2, 2), (3, 3), (14, 0x8008)] 0x97 0x10) = true := by decide

theorem test_swp :
    (after (sample 0x10 [(1, 0xAAAAAAAA), (2, 0x1000)] [(0x1000, 0x55555555)]) 0xE1020091
        (fun t => shows t [(0, 0x55555555)] 0x10 0x8004 && wordIs t 0x1000 0xAAAAAAAA)
      && after (sample 0x10 [(1, 0xAAAAAAAA), (2, 0x1000)] [(0x1000, 0x55555555)]) 0xE1021091
        (fun t => shows t [(1, 0x55555555)] 0x10 0x8004 && wordIs t 0x1000 0xAAAAAAAA)
      && refuses (sample 0x10 [] []) 0xE10F0091 .pcOperand) = true := by decide

theorem test_swpb :
    after (sample 0x10 [(0, 0x1001), (1, 0xFFFFFF01)] [(0x1000, 0x11223344)]) 0xE1401091
      (fun t => shows t [(1, 0x33)] 0x10 0x8004 && wordIs t 0x1000 0x11220144) = true := by decide

/-! Status registers (T13) -/

theorem test_msr_immediate : (after (sample 0x10 [] []) 0xE328F20F (fun t => shows t [] 0xF0000010 0x8004)
    && after (sample 0xD3 [] []) 0xE321F092 (fun t => shows t [] 0x92 0x8004)) = true := by decide

theorem test_msr_register : (after (sample 0x10 [(0, 0xF00000D3)] []) 0xE12FF000
      (fun t => shows t [] 0xF0000010 0x8004)
    && after (sample 0xD3 [(0, 0xFFFFFF10)] []) 0xE12FF000 (fun t => shows t [] 0xF0000010 0x8004)
    && refuses (sample 0xD3 [(0, 0x33)] []) 0xE121F000 .msrChangesT
    && refuses (sample 0xD3 [(0, 0x14)] []) 0xE121F000 .illegalModeWritten) = true := by decide

theorem test_msr_spsr : (after (sample 0xD3 [(0, 0xF00000FF)] []) 0xE169F000 (fun t => t.spsrSvc == 0xF00000FF)
    && refuses (sample 0x10 [(0, 0x14)] []) 0xE161F000 .noSpsr) = true := by decide

theorem test_mrs : (after (sample 0x600000D3 [] []) 0xE10F0000 (fun t => shows t [(0, 0x600000D3)] 0x600000D3 0x8004)
    && after { sample 0xD2 [] [] with spsrIrq := 0x80000010 } 0xE14F3000
      (fun t => shows t [(3, 0x80000010)] 0xD2 0x8004)
    && refuses (sample 0x1F [] []) 0xE14F0000 .noSpsr) = true := by decide

/-! Exceptions and interrupts (T14, T15) -/

theorem test_swi : (after (sample 0x60000010 [] []) 0xEF000011
      (fun t => shows t [(14, 0x8004)] 0x60000093 8 && t.spsrSvc == 0x60000010)
    && after (sample 0x10 [] []) 0x0F000011 (fun t => shows t [] 0x10 0x8004)
    && after (sample 0x50 [] []) 0xEF000011 (fun t => shows t [] 0xD3 8)) = true := by decide

theorem test_undefined : after (sample 0x20000010 [] []) 0xE7F000F0
    (fun t => shows t [(14, 0x8004)] 0x2000009B 4 && t.spsrUnd == 0x20000010) = true := by decide

/-- Every coprocessor absent. -/
theorem test_coprocessor_absent : ([0xEE312002, 0xED916000, 0xEE610F12, 0xEE110F10, 0xEC816000] : List Word).all
    (fun w => after (sample 0x1F [(1, 0x2000)] []) w
      (fun t => shows t [(14, 0x8004), (1, 0x2000)] 0x9B 4 && t.spsrUnd == 0x1F)) = true := by decide

/-- LDC and STC with P = U = W = 0 are refused, not trapped, though the coprocessor is absent (R361). -/
theorem test_coprocessor_unindexed_down : ([0xEC110500, 0xEC010500] : List Word).all
    (fun w => refuses (sample 0x1F [(1, 0x2000)] []) w .unindexedDown) = true := by decide

theorem test_brk : (after (sample 0x10 [] []) 0xE1200070
      (fun t => shows t [(14, 0x8004)] 0x97 0xC && t.spsrAbt == 0x10)
    && after (withPlatform (sample 0x10 [] []) fun p => { p with arch := .v4 }) 0xE1200070
      (fun t => shows t [(14, 0x8004)] 0x9B 4)) = true := by decide

theorem test_unused_encodings :
    ([0xE1200090, 0xE1600070, 0xE3000000, 0xE1000000, 0xE1C100F0, 0xE1C100D0] : List Word).all
      (fun w => after (sample 0x10 [] []) w (fun t => shows t [(14, 0x8004)] 0x9B 4)) = true := by decide

theorem test_prefetch_abort : after (faulting (sample 0x10 [] []) .fetch 0x8000) 0xE1A00000
    (fun t => shows t [(14, 0x8004)] 0x97 0xC && t.spsrAbt == 0x10) = true := by decide

theorem test_data_abort : after (faulting (sample 0x10 [(1, 0x1000), (0, 5)] []) .read 0x1000) 0xE5910000
    (fun t => shows t [(14, 0x8008), (0, 5)] 0x97 0x10 && t.spsrAbt == 0x10) = true := by decide

theorem test_interrupts :
    (after { sample 0x80000010 [] [] with pc := 0x8010, inputs := [⟨true, false, false⟩] } 0xE1A00000
        (fun t => shows t [(14, 0x8014)] 0x80000092 0x18 && t.spsrIrq == 0x80000010)
      && after { sample 0x90 [] [] with pc := 0x8010, inputs := [⟨true, false, false⟩] } 0xE1A00000
        (fun t => shows t [] 0x90 0x8014)
      && after { sample 0x10 [] [] with pc := 0x8010, inputs := [⟨true, true, false⟩] } 0xE1A00000
        (fun t => shows t [(14, 0x8014)] 0xD1 0x1C)
      && after { sample 0x50 [] [] with pc := 0x8010, inputs := [⟨true, true, false⟩] } 0xE1A00000
        (fun t => shows t [(14, 0x8014)] 0xD2 0x18)) = true := by decide

theorem test_reset_line :
    after { sample 0x10 [] [] with pc := 0x8010, inputs := [⟨true, true, true⟩] } 0xE1A00000 (fun t => t.pc == 0)
      = true := by decide

/-- The step runs the word placed where it fetches. -/
theorem test_with_fetch_word :
    (match step (State.reset.withFetchWord 32 0xE3A000FF) with
      | .next t => shows t [(0, 0xFF)] 0xD3 4
      | .fault _ => false
      | .refused _ => false) = true := by decide


/-! ### For every statement with hypotheses, a state and operands that meet them -/

/-- User mode at 0x8000, r1 = 0x1000, the rest as after reset. -/
def user : State := sample 0x10 [(1, 0x1000)] []

/-- SVC mode at 0x8000, r1 = 0x1000, r14 = 0x8004, an SPSR that names User mode. -/
def svc : State := { sample 0xD3 [(1, 0x1000), (14, 0x8004)] [] with spsrSvc := 0x60000010 }

/-- User mode at the last word of the address space. -/
def userLast : State := { user with pc := 0xFFFFFFFC }

/-- The state at another version of the architecture. -/
def atArch (s : State) (a : Arch) : State := withPlatform s fun p => { p with arch := a }

/-- The state under another `MISALIGN`. -/
def withMisalign (s : State) (m : Misalign) : State := withPlatform s fun p => { p with misalign := m }

/-- The state under `PCWRITE_ALIGN = mask`. -/
def masking (s : State) : State := withPlatform s fun p => { p with pcWriteAlign := .mask }

/-- Coprocessor 5 present; it accepts every word, in User mode only if said so. -/
def withCp (s : State) (inUserMode : Bool) : State :=
  withPlatform s fun p => { p with coproc := p.coproc.set 5 (some [⟨0, 0, inUserMode⟩]) }

/-- The state with one set of lines to come. -/
def withLines (s : State) (irq fiq reset : Bool) : State := { s with inputs := [⟨irq, fiq, reset⟩] }

theorem user_runs : RunsOn .al user := ⟨⟨by decide, by decide⟩, by decide⟩

theorem svc_runs : RunsOn .al svc := ⟨⟨by decide, by decide⟩, by decide⟩

theorem user_last_runs : Runs .al userLast := ⟨by decide, by decide⟩

/-- Where `MemSys` faults nothing, an aligned access is made. -/
theorem open_accessible {s : State} (h : s.platform.memSys = []) (kind : AccessKind) {size : AccessSize} {a : Word}
    (ha : alignedTo size (s.effectiveAddress size a) = true) (privileged : Bool) :
    Accessible s kind size a privileged := ⟨ha, by rw [h]; rfl⟩

theorem open_block {s : State} (h : s.platform.memSys = []) (kind : AccessKind) {p u : Bool} {rn : Reg}
    {list : BitVec 16} (ha : ∀ r : Reg, list.getLsbD r.toNat = true →
      alignedTo .word (s.effectiveAddress .word (s.slotAddress p u rn list r)) = true) :
    blockAccessible s kind p u rn list := fun r hr => open_accessible h kind (ha r hr) _

theorem witness_DecodeEncode :
    Instr.wf (.ldrPreReg .al true true 14 15 ⟨31, .ror, 13⟩) = true ∧ Instr.wf (.unallocated .le 0x3000000) = true :=
  by decide

theorem witness_EncodeDecode : decode 0xE1B0F00E = .ok (.movShift .al true 0 15 ⟨0, .lsl, 14⟩) := rfl

theorem witness_UnallocatedIffNoRow : Cond.ofBits ((0x03000000 : Word).extractLsb' 28 4) = some .eq ∧
    decode 0x03000000 = .ok (.unallocated .eq 0x3000000) ∧
    Cond.ofBits ((0x0120007F : Word).extractLsb' 28 4) = some .eq ∧
    decode 0x0120007F = .ok (.unallocated .eq 0x120007F) ∧
    Cond.ofBits ((0xE120007F : Word).extractLsb' 28 4) = some .al ∧
    decode 0xE120007F = .ok (.brk 0xF) := ⟨rfl, rfl, rfl, rfl, rfl, rfl⟩

theorem reset_inv : State.reset.Inv :=
  ⟨by decide, by decide, by decide, by decide, by decide, by decide, fun m => by cases m <;> decide⟩

theorem witness_StepKeepsInvariant : State.reset.Inv ∧ (∃ t, step State.reset = .next t) ∧
    ∃ t, run (fun _ => false) 2 State.reset = .next t := ⟨reset_inv, ⟨_, rfl⟩, _, rfl⟩

theorem witness_StepKeepsParameters : ∃ t, step (withLines svc true true true) = .next t := ⟨_, rfl⟩

theorem user_executes : Executes user := ⟨by decide, by decide, by decide, by decide, by decide⟩

theorem fetches_at (pc w : Word) (h : pc.toNat % 4 = 0) : Fetches (({ user with pc := pc } : State).placeWord w) :=
  ⟨⟨user_executes.arm, user_executes.noReset, user_executes.noFiq, user_executes.noIrq, h⟩, rfl,
    .inr fun _ _ => List.not_mem_nil⟩

theorem witness_StepRunsDecodedInstruction :
    Fetches (userLast.placeWord 0xEA000000) ∧
    decodeBytes .little (userLast.placeWord 0xEA000000).bytesAtPc = .ok (.b .al 0, []) := ⟨fetches_at _ _ rfl, rfl⟩

theorem witness_StepTakesInterrupts :
    (psrT user.cpsr = false ∧ (withLines user true true true).lines.reset = true) ∧
    ((withLines user true true false).lines = ⟨true, true, false⟩ ∧ psrF user.cpsr = false) ∧
    ((withLines user true false false).lines = ⟨true, false, false⟩ ∧ psrI user.cpsr = false) ∧
    (psrT (0x50 : Word) = false ∧ psrF (0x50 : Word) = true ∧ psrI (0x50 : Word) = false) ∧
    ((withLines svc true true false).lines = ⟨true, true, false⟩ ∧ psrT svc.cpsr = false ∧ psrF svc.cpsr = true
      ∧ psrI svc.cpsr = true ∧ svc.pc.toNat % 4 = 0) := by decide

theorem witness_ResetStep :
    psrT (withLines svc true true true).cpsr = false ∧ (withLines svc true true true).lines.reset = true := by decide

theorem witness_FetchFaultAborts : Executes (faulting user .fetch 0x8000) ∧
    memFaults (faulting user .fetch 0x8000).platform.memSys 0x8000 .word .fetch false = true :=
  ⟨⟨by decide, by decide, by decide, by decide, by decide⟩, by decide⟩

theorem witness_StepRefuses :
    psrT ({ user with cpsr := 0x30 } : State).cpsr = true ∧
    (Executes { user with stored := [0x8003] } ∧ memFaults user.platform.memSys 0x8000 .word .fetch false = false
      ∧ user.platform.ifetchCoherent = false ∧ ∃ b ∈ byteRange 0x8000 4, b.toNat ∈ [0x8003]) ∧
    (Fetches (user.placeWord 0xF0000000) ∧
      (Memory.value (user.placeWord 0xF0000000).mem .little 0x8000 .word).extractLsb' 28 4 = 15 ∧
      (Memory.value (user.placeWord 0xF0000000).mem .little 0x8000 .word).extractLsb' 25 3 ≠ 5) :=
  ⟨rfl, ⟨⟨by decide, by decide, by decide, by decide, by decide⟩, by decide, by decide, 0x8003, by decide, by decide⟩,
    fetches_at 0x8000 _ rfl, by decide, by decide⟩

theorem witness_SwiAndBrkEnter :
    Runs .al userLast ∧ svc.mode?.isSome = true ∧ svc.platform.arch = .v5T := ⟨user_last_runs, by decide, by decide⟩

theorem witness_UnusedEncodingsTrap :
    Runs .al userLast ∧
    (Runs .al (atArch user .v4T) ∧ ¬ ((atArch user .v4T).platform.arch = .v5T ∧ isBreakpointBody 0x1200070 = true)) ∧
    ¬ (user.platform.arch = .v5T ∧ isBreakpointBody 0x3000000 = true) ∧
    (Runs .al user ∧ user.platform.arch = .v5T ∧ isBreakpointBody 0x12FFF7F = true) :=
  ⟨user_last_runs, ⟨⟨by decide, by decide⟩, by decide⟩, by decide, user_runs.toRuns, by decide, by decide⟩

theorem witness_OlderVersionsTrap :
    (Runs .al (atArch user .v4) ∧ (atArch user .v4).platform.arch = .v4) ∧
    (Runs .al (atArch user .v4T) ∧ (atArch user .v4T).platform.arch ≠ .v5T) ∧
    (atArch user .v4T).mode?.isSome = true :=
  ⟨⟨⟨by decide, by decide⟩, rfl⟩, ⟨⟨by decide, by decide⟩, by decide⟩, by decide⟩

theorem witness_AbsentCoprocessorTraps :
    let i : Instr := .cdp .al 3 1 0 5 0 2
    (i.coprocessor? = some 5 ∧ i.cond? = some .al ∧ i.unindexedDown = false) ∧
    (Runs .al userLast ∧ userLast.platform.coproc.get (cpIndex 5) = none) ∧
    (Runs .al (withCp user false) ∧ (withCp user false).cpAccepts 5 (encode i) = false) ∧
    (Instr.unindexedDown (.stc .al false false true false 1 0 5 255) = true ∧
      Instr.cond? (.stc .al false false true false 1 0 5 255) = some .al) :=
  ⟨⟨rfl, rfl, rfl⟩, ⟨user_last_runs, by decide⟩, ⟨⟨by decide, by decide⟩, by decide⟩, rfl, rfl⟩

theorem witness_IllFormedRefused :
    (decode 0xE0000090 = .ok (.mul .al false 0 0 0 0) ∧ Instr.wf (.mul .al false 0 0 0 0) = false
      ∧ Instr.cond? (.mul .al false 0 0 0 0) = some .al ∧ Runs .al user ∧ user.platform.arch = .v5T
      ∧ Instr.coprocessor? (.mul .al false 0 0 0 0) = none) ∧
    (decode 0xEC110500 = .ok (.ldc .al false false false false 1 0 5 0)
      ∧ Instr.wf (.ldc .al false false false false 1 0 5 0) = false ∧ Runs .al (withCp user true)
      ∧ (withCp user true).platform.arch = .v5T ∧ (withCp user true).cpAccepts 5 0xEC110500 = true) :=
  ⟨⟨rfl, by decide, rfl, user_runs.toRuns, rfl, rfl⟩, rfl, by decide, ⟨by decide, by decide⟩, rfl, by decide⟩

theorem witness_FailedConditionOnlyAdvances :
    Instr.cond? (.swi .eq 0) = some .eq ∧
    (user.mode?.isSome = true ∧ condHolds .eq user.cpsr = false ∧ user.pc ≠ 0xFFFFFFFC) ∧
    (userLast.mode?.isSome = true ∧ condHolds .eq userLast.cpsr = false ∧ userLast.pc = 0xFFFFFFFC) := by decide

theorem witness_RegisterBanks : (14 : Nat) < 15 ∧ (14 : Reg) ≠ 15 := by decide

theorem witness_MemoryBytes : (3 : Nat) < accessBytes .word ∧ Memory.wf user.mem = true := by decide

theorem witness_ImmediateOperand :
    (31 : Nat) < 32 ∧ (⟨0, 255⟩ : RotImm).rot = 0 ∧ (⟨15, 255⟩ : RotImm).rot ≠ 0 := by decide

theorem witness_ImmediateShiftOperand : (1 : BitVec 5) ≠ 0 ∧ (31 : BitVec 5) ≠ 0 ∧ (31 : Nat) < 32 := by decide

theorem witness_RegisterShiftOperand :
    (1 ≤ 31 ∧ 31 < 32) ∧ (33 ≤ 33 ∧ 255 ≤ 255) ∧ (32 ≤ 32) ∧ (1 ≤ 224 ∧ 224 ≤ 255 ∧ 224 % 32 = 0)
      ∧ (1 ≤ 255 ∧ 255 % 32 ≠ 0) := by decide

theorem witness_RegisterShiftOperand_pc : Runs .al user ∧ (⟨15, .lsl, 15⟩ : RegShift).rs = 15 :=
  ⟨user_runs.toRuns, rfl⟩

theorem witness_DataProcessingResult :
    isCompare .mov = false ∧ (14 : Reg) ≠ 15 ∧ (isMove .mov = true → (0 : Reg) = 0) ∧
    Operand2.allowed (.reg ⟨14, .ror, 1⟩) 0 14 = true ∧ RunsOn .al user :=
  ⟨rfl, by decide, fun _ => rfl, by decide, user_runs⟩

theorem witness_DataProcessingCompare :
    isCompare .cmn = true ∧ Operand2.allowed (.shift ⟨31, .lsr, 15⟩) 15 0 = true ∧ RunsOn .al user :=
  ⟨rfl, by decide, user_runs⟩

/-- ADD pc, r1, #0 and ADD pc, r1, #3, r1 being 0x1000. -/
theorem witness_DataProcessingBranch :
    isCompare .add = false ∧ (isMove .add = true → (1 : Reg) = 0) ∧ Operand2.allowed (.imm ⟨0, 3⟩) 1 15 = true ∧
    Runs .al userLast ∧
    (dpResult .add (userLast.readReg 1) (Operand2.value (.imm ⟨0, 0⟩) userLast).value userLast.c).toNat % 4 = 0 ∧
    ((dpResult .add (userLast.readReg 1) (Operand2.value (.imm ⟨0, 3⟩) userLast).value userLast.c).toNat % 4 ≠ 0
      ∧ userLast.platform.pcWriteAlign = .refuse) ∧
    (Runs .al (masking userLast) ∧ (masking userLast).platform.pcWriteAlign = .mask) :=
  ⟨rfl, by decide, by decide, user_last_runs, by decide, by decide, ⟨by decide, by decide⟩, rfl⟩

theorem witness_DataProcessingReturn :
    isCompare .sub = false ∧ (isMove .sub = true → (14 : Reg) = 0) ∧ Operand2.allowed (.imm ⟨0, 4⟩) 14 15 = true ∧
    (Runs .al user ∧ user.mode.hasSpsr = false) ∧
    (Runs .al { svc with spsrSvc := 0 } ∧ psrMode (({ svc with spsrSvc := 0 } : State).spsr .svc) = none) ∧
    (Runs .al { svc with spsrSvc := 0x30 } ∧ psrT (({ svc with spsrSvc := 0x30 } : State).spsr .svc) = true) ∧
    (Runs .al svc ∧ svc.mode = .svc ∧ svc.mode.hasSpsr = true ∧ (psrMode (svc.spsr .svc)).isSome = true
      ∧ psrT (svc.spsr .svc) = false) ∧
    (dpResult .sub (svc.readReg 14) (Operand2.value (.imm ⟨0, 4⟩) svc).value svc.c).toNat % 4 = 0 ∧
    (dpResult .sub (svc.readReg 14) (Operand2.value (.imm ⟨0, 1⟩) svc).value svc.c).toNat % 4 ≠ 0 ∧
    svc.platform.pcWriteAlign = .refuse :=
  ⟨rfl, by decide, by decide, ⟨user_runs.toRuns, by decide⟩, ⟨⟨by decide, by decide⟩, by decide⟩,
    ⟨⟨by decide, by decide⟩, by decide⟩, ⟨svc_runs.toRuns, by decide, by decide, by decide, by decide⟩, by decide,
    by decide, rfl⟩

theorem witness_ShortMultiply :
    noPc [14, 1, 1] = true ∧ noPc [14, 1, 1, 1] = true ∧ (14 : Reg) ≠ 1 ∧ RunsOn .al user :=
  ⟨by decide, by decide, by decide, user_runs⟩

theorem witness_LongMultiply : longMultiplyWf 14 13 1 1 = true ∧ RunsOn .al user := ⟨by decide, user_runs⟩

theorem witness_CountLeadingZeros :
    (0 : Reg) ≠ 15 ∧ (1 : Reg) ≠ 15 ∧ user.platform.arch = .v5T ∧ RunsOn .al user ∧ user.readReg 0 = 0 ∧
    (user.readReg 1).getLsbD 12 = true ∧ ∀ j, 12 < j → (user.readReg 1).getLsbD j = false := by
  refine ⟨by decide, by decide, rfl, user_runs, by decide, by decide, fun j hj => ?_⟩
  have h : user.readReg 1 = 0x1000 := by decide
  rw [h, BitVec.getLsbD, show (0x1000 : Word).toNat = 2 ^ 12 from rfl, Nat.testBit_two_pow_of_ne (by omega)]

theorem witness_CountLeadingZeros_stops :
    (Runs .al (atArch user .v4T) ∧ (atArch user .v4T).platform.arch ≠ .v5T) ∧
    (Runs .al userLast ∧ userLast.platform.arch = .v5T ∧ ((15 : Reg) = 15 ∨ (0 : Reg) = 15)) :=
  ⟨⟨⟨by decide, by decide⟩, by decide⟩, user_last_runs, rfl, by decide⟩

theorem witness_BranchAndLink : Runs .al userLast := user_last_runs

theorem witness_BranchExchange :
    (userLast.platform.arch ≠ .v4 ∧ Runs .al userLast) ∧ (userLast.platform.arch = .v5T ∧ (14 : Reg) ≠ 15) ∧
    userLast.mode?.isSome = true := ⟨⟨by decide, user_last_runs⟩, by decide, by decide⟩

theorem witness_ReadStatus :
    Runs .al userLast ∧ (0 : Reg) ≠ 15 ∧ (RunsOn .al user ∧ user.mode.hasSpsr = false) ∧
    (RunsOn .al svc ∧ svc.mode.hasSpsr = true ∧ svc.platform.psrReserved = .razWi) :=
  ⟨user_last_runs, by decide, ⟨user_runs, by decide⟩, svc_runs, by decide, rfl⟩

/-- MSR CPSR_c, #0x30 would set T, #0 names no mode, #0x1F is System mode. -/
theorem witness_WriteStatus :
    RunsOn .al svc ∧ svc.cpsr = 0xD3 ∧ rotImmValue ⟨0, 0x30⟩ = 0x30 ∧ psrT (0x30 : Word) ≠ psrT (0xD3 : Word) ∧
    psrMode (0 : Word) = none ∧ psrT (0 : Word) = psrT (0xD3 : Word) ∧ (psrMode (0x1F : Word)).isSome = true ∧
    psrT (0x1F : Word) = psrT (0xD3 : Word) ∧ RunsOn .al user ∧ user.mode = .usr ∧ svc.mode ≠ .usr :=
  ⟨svc_runs, by decide, by decide, by decide, by decide, by decide, by decide, by decide, user_runs, by decide,
    by decide⟩

/-- What MSR CPSR_c, #0x1F leaves in SVC mode, and what it leaves in User mode. -/
theorem witness_WriteStatus_bits :
    (∀ k < 32, (0x1F : Word).getLsbD k =
      if decide (k < 8) && (1 : BitVec 4).getLsbD 0 && decide (svc.mode ≠ .usr)
        || decide (28 ≤ k) && (1 : BitVec 4).getLsbD 3
      then (rotImmValue ⟨0, 0x1F⟩).getLsbD k else svc.cpsr.getLsbD k) ∧
    (∀ k < 32, (0x10 : Word).getLsbD k =
      if decide (k < 8) && (1 : BitVec 4).getLsbD 0 && decide (user.mode ≠ .usr)
        || decide (28 ≤ k) && (1 : BitVec 4).getLsbD 3
      then (rotImmValue ⟨0, 0x1F⟩).getLsbD k else user.cpsr.getLsbD k) := by decide

theorem witness_WriteSavedStatus :
    (RunsOn .al user ∧ user.mode.hasSpsr = false) ∧ (RunsOn .al svc ∧ svc.mode.hasSpsr = true) ∧
    (1 : Reg) ≠ 15 ∧ (.usr : Mode) ≠ svc.mode :=
  ⟨⟨user_runs, by decide⟩, ⟨svc_runs, by decide⟩, by decide, by decide⟩

/-- LDR r0, [r1, #4]!, and LDR r0, [r1, #7]! and LDRT r0, [r1], #4 misaligned under `MISALIGN = rotate`. -/
theorem witness_LoadWord :
    let f : SingleForm := .preImm true true 4
    let g : SingleForm := .preImm true true 7
    let h : SingleForm := .userImm true 4
    let s := withMisalign user .rotate
    let q := s.writeReg 1 0x1003
    ((0 : Reg) ≠ 15 ∧ transferAllowed (f.indexing user 1).writeBack 1 0 f.offsetReg? = true ∧ RunsOn .al user ∧
      Accessible user .read .word (user.addressOf (f.indexing user 1)) (f.privileged user)) ∧
    (RunsOn .al s ∧ Accessible s .read .word (s.addressOf (g.indexing s 1)) (g.privileged s)) ∧
    (transferAllowed (h.indexing q 1).writeBack 1 0 h.offsetReg? = true ∧ RunsOn .al q ∧
      (q.addressOf (h.indexing q 1)).toNat % 4 = 3 ∧
      Accessible q .read .word (q.addressOf (h.indexing q 1)) (h.privileged q)) :=
  ⟨⟨by decide, by decide, user_runs, open_accessible rfl _ (by decide) _⟩,
    ⟨⟨⟨by decide, by decide⟩, by decide⟩, open_accessible rfl _ (by decide) _⟩,
    by decide, ⟨⟨by decide, by decide⟩, by decide⟩, by decide, open_accessible rfl _ (by decide) _⟩

/-- The word 2 may not be loaded to the pc at v5T. -/
theorem witness_LoadPc :
    let f : SingleForm := .preImm true false 0
    let s := { userLast with mem := [(0x1000, 2)] }
    f.isUser = false ∧ transferAllowed (f.indexing userLast 1).writeBack 1 15 f.offsetReg? = true ∧
    (Runs .al userLast ∧ Accessible userLast .read .word (userLast.addressOf (f.indexing userLast 1)) false
      ∧ pcLoadable userLast (userLast.valueAt .word 0x1000)) ∧
    (Runs .al s ∧ Accessible s .read .word (s.addressOf (f.indexing s 1)) false
      ∧ ¬ pcLoadable s (s.valueAt .word 0x1000)) :=
  ⟨rfl, by decide, ⟨user_last_runs, open_accessible rfl _ (by decide) _, by
      show (userLast.valueAt .word 0x1000).extractLsb' 0 2 ≠ 2
      decide⟩,
    ⟨by decide, by decide⟩, open_accessible rfl _ (by decide) _, by
      show ¬ _ ≠ (2 : BitVec 2)
      decide⟩

theorem witness_LoadByte :
    let f : SingleForm := .userReg false ⟨31, .asr, 0⟩
    (14 : Reg) ≠ 15 ∧ transferAllowed (f.indexing svc 1).writeBack 1 14 f.offsetReg? = true ∧ RunsOn .al svc ∧
    Accessible svc .read .byte (svc.addressOf (f.indexing svc 1)) (f.privileged svc) :=
  ⟨by decide, by decide, svc_runs, open_accessible rfl _ (by decide) _⟩

/-- STR pc, [r1], #4, STRT r0, [r1], #4, and STRT of r15. -/
theorem witness_StoreWord :
    let f : SingleForm := .postImm true 4
    let g : SingleForm := .userImm true 4
    (f.isUser = false ∧ transferAllowed (f.indexing user 1).writeBack 1 15 f.offsetReg? = true ∧ RunsOn .al user ∧
      Memory.wf user.mem = true ∧
      Accessible user .write .word (user.addressOf (f.indexing user 1)) (f.privileged user)) ∧
    ((0 : Reg) ≠ 15 ∧ transferAllowed (g.indexing user 1).writeBack 1 0 g.offsetReg? = true ∧
      Accessible user .write .word (user.addressOf (g.indexing user 1)) (g.privileged user)) ∧
    (g.isUser = true ∧ transferAllowed (g.indexing userLast 1).writeBack 1 15 g.offsetReg? = true ∧ Runs .al userLast) :=
  ⟨⟨rfl, by decide, user_runs, by decide, open_accessible rfl _ (by decide) _⟩,
    ⟨by decide, by decide, open_accessible rfl _ (by decide) _⟩, rfl, by decide, user_last_runs⟩

theorem witness_StoreByte :
    let f : SingleForm := .preImm true true 4095
    (0 : Reg) ≠ 15 ∧ transferAllowed (f.indexing user 1).writeBack 1 0 f.offsetReg? = true ∧ RunsOn .al user ∧
    Memory.wf user.mem = true ∧
    Accessible user .write .byte (user.addressOf (f.indexing user 1)) (f.privileged user) :=
  ⟨by decide, by decide, user_runs, by decide, open_accessible rfl _ (by decide) _⟩

/-- LDRSH r0, [r1], -r2. -/
theorem witness_LoadHalfword :
    let f : HalfForm := .reg 2
    (0 : Reg) ≠ 15 ∧ ((false = false) → (false = false)) ∧
    transferAllowed (f.indexing user false false false 1).writeBack 1 0 f.offsetReg? = true ∧ RunsOn .al user ∧
    Accessible user .read (HalfLoad.size .ldrsh) (user.addressOf (f.indexing user false false false 1))
      user.privileged :=
  ⟨by decide, fun _ => rfl, by decide, user_runs, open_accessible rfl _ (by decide) _⟩

theorem witness_StoreHalfword :
    let f : HalfForm := .imm 254
    (0 : Reg) ≠ 15 ∧ transferAllowed (f.indexing user true true true 1).writeBack 1 0 f.offsetReg? = true ∧
    RunsOn .al user ∧ Memory.wf user.mem = true ∧
    Accessible user .write .half (user.addressOf (f.indexing user true true true 1)) user.privileged :=
  ⟨by decide, by decide, user_runs, by decide, open_accessible rfl _ (by decide) _⟩

theorem witness_SingleTransferAborts :
    let f : SingleForm := .preImm true true 4
    let g : HalfForm := .imm 4
    let r := faulting userLast .read 0x1004
    let w := faulting userLast .write 0x1004
    (f.isUser = false ∧ transferAllowed true 1 15 f.offsetReg? = true) ∧
    (0 : Reg) ≠ 15 ∧ transferAllowed true 1 0 f.offsetReg? = true ∧ transferAllowed true 1 0 g.offsetReg? = true ∧
    Runs .al r ∧ Runs .al w ∧
    Faulting r .read .word (r.addressOf (f.indexing r 1)) (f.privileged r) ∧
    Faulting r .read .byte (r.addressOf (f.indexing r 1)) (f.privileged r) ∧
    Faulting w .write .word (w.addressOf (f.indexing w 1)) (f.privileged w) ∧
    Faulting w .write .byte (w.addressOf (f.indexing w 1)) (f.privileged w) ∧
    (∀ l : HalfLoad, Faulting r .read l.size (r.addressOf (g.indexing r true true true 1)) r.privileged) ∧
    Faulting w .write .half (w.addressOf (g.indexing w true true true 1)) w.privileged :=
  ⟨⟨rfl, by decide⟩, by decide, by decide, by decide, ⟨by decide, by decide⟩, ⟨by decide, by decide⟩,
    ⟨by decide, by decide⟩, ⟨by decide, by decide⟩, ⟨by decide, by decide⟩, ⟨by decide, by decide⟩,
    fun l => by cases l <;> exact ⟨by decide, by decide⟩, ⟨by decide, by decide⟩⟩

theorem witness_MisalignedTransferStops :
    let f : SingleForm := .preImm true true 3
    let g : HalfForm := .imm 1
    transferAllowed true 1 0 f.offsetReg? = true ∧ (f.isUser = false ∧ transferAllowed true 1 15 f.offsetReg? = true) ∧
    transferAllowed true 1 0 g.offsetReg? = true ∧ HalfLoad.size .ldrsh = .half ∧
    (Runs .al userLast ∧ (userLast.addressOf (f.indexing userLast 1)).toNat % 4 ≠ 0
      ∧ (userLast.addressOf (g.indexing userLast true true true 1)).toNat % 2 ≠ 0
      ∧ userLast.platform.misalign = .refuse) ∧
    (Runs .al (withMisalign userLast .rotate) ∧ (withMisalign userLast .rotate).platform.misalign = .rotate) ∧
    (Runs .al (withMisalign userLast .abort) ∧ (withMisalign userLast .abort).platform.misalign = .abort) :=
  ⟨by decide, ⟨rfl, by decide⟩, by decide, rfl, ⟨user_last_runs, by decide, by decide, rfl⟩,
    ⟨⟨by decide, by decide⟩, rfl⟩, ⟨by decide, by decide⟩, rfl⟩

/-- A transfer of coprocessor 5 at r1: pre-indexed with write-back, or unindexed. -/
def cpTransfer (indexed : Bool) : CpTransfer := ⟨indexed, true, false, indexed, 1, 0, 5, 255⟩

/-- Block transfers, SWP, LDC and STC from a base that is no multiple of 4, under `refuse` and under `abort`. -/
theorem witness_MisalignedTransferStops_block : ∀ m ∈ [Misalign.refuse, .abort],
    let s := (withMisalign (withCp userLast true) m).writeReg 1 0x1002
    Runs .al s ∧ (s.readReg 1).toNat % 4 ≠ 0 ∧ s.platform.misalign = m ∧
    ((BlockLoad.ldm 0x8001).allowed true 1 ∧ (BlockLoad.ldmReturn 1).allowed true 1
      ∧ (BlockLoad.ldmUser 1).allowed false 1) ∧
    ((BlockStore.stm 0x8002).allowed true 1 ∧ (BlockStore.stmUser 1).allowed false 1) ∧ swapWf 1 0 0 = true ∧
    ∀ x, (cpTransfer x).allowed = true ∧ ((cpTransfer x).wordAddress s 0).toNat % 4 ≠ 0
      ∧ s.cpAccepts (cpTransfer x).cp (encode ((cpTransfer x).ldc .al)) = true
      ∧ s.cpAccepts (cpTransfer x).cp (encode ((cpTransfer x).stc .al)) = true := by
  intro m hm s
  simp only [List.mem_cons, List.not_mem_nil, or_false] at hm
  rcases hm with rfl | rfl <;>
    exact ⟨⟨by decide, by decide⟩, by decide, rfl,
      ⟨.intro (by decide) (.intro (by decide) fun _ => by decide), .intro (by decide) (.intro (by decide) fun _ => by decide),
        .intro (by decide) (.intro (by decide) rfl)⟩,
      ⟨.intro (by decide) (.intro (by decide) fun _ _ => by decide), .intro (by decide) (.intro (by decide) rfl)⟩,
      by decide, by decide⟩

/-- LDMIB r1!, r0 to r14 without r1, and with it. -/
theorem witness_LoadMultiple :
    ((0x7FFD : BitVec 16) ≠ 0 ∧ (1 : Reg) ≠ 15 ∧ (0x7FFD : BitVec 16).getLsbD 15 = false ∧ RunsOn .al user ∧
      blockAccessible user .read true true 1 0x7FFD ∧ (0x7FFD : BitVec 16).getLsbD (1 : Reg).toNat = false) ∧
    ((0x7FFF : BitVec 16).getLsbD (1 : Reg).toNat = true ∧ Runs .al userLast) :=
  ⟨⟨by decide, by decide, by decide, user_runs, open_block rfl _ (by decide), by decide⟩, by decide, user_last_runs⟩

/-- LDMIA r1!, r0, pc; the second word, which is the pc's, is 0 or 2. -/
theorem witness_LoadMultiplePc :
    let s := { userLast with mem := [(0x1004, 2)] }
    (0x8001 : BitVec 16).getLsbD 15 = true ∧
    (Runs .al userLast ∧ blockAccessible userLast .read false true 1 0x8001
      ∧ pcLoadable userLast (userLast.valueAt .word (userLast.slotAddress false true 1 0x8001 15))) ∧
    (Runs .al s ∧ blockAccessible s .read false true 1 0x8001
      ∧ ¬ pcLoadable s (s.valueAt .word (s.slotAddress false true 1 0x8001 15))) :=
  ⟨by decide, ⟨user_last_runs, open_block rfl _ (by decide), by
      show _ ≠ (2 : BitVec 2)
      decide⟩,
    ⟨by decide, by decide⟩, open_block rfl _ (by decide), by
      show ¬ _ ≠ (2 : BitVec 2)
      decide⟩

/-- LDMIA r1!, r0, pc with `^`: the second word, which is the pc's, is 0 or 2. -/
theorem witness_LoadMultipleReturn :
    let list : BitVec 16 := 1#1 ++ (1 : BitVec 15)
    let s := { svc with mem := [(0x1004, 2)] }
    let q := { s with spsrSvc := 0x30 }
    ((1 : Reg) ≠ 15 ∧ (2 : BitVec 15).getLsbD (1 : Reg).toNat = true ∧ Runs .al user) ∧
    ((1 : BitVec 15).getLsbD (1 : Reg).toNat = false ∧ blockAccessible user .read false true 1 list
      ∧ user.mode.hasSpsr = false) ∧
    (Runs .al { svc with spsrSvc := 0 } ∧ blockAccessible { svc with spsrSvc := 0 } .read false true 1 list
      ∧ ({ svc with spsrSvc := 0 } : State).mode.hasSpsr = true
      ∧ psrMode (({ svc with spsrSvc := 0 } : State).spsr .svc) = none) ∧
    (Runs .al svc ∧ blockAccessible svc .read false true 1 list ∧ svc.mode.hasSpsr = true
      ∧ (psrMode (svc.spsr svc.mode)).isSome = true
      ∧ (svc.valueAt .word (svc.slotAddress false true 1 list 15)).toNat % 4 = 0) ∧
    (Runs .al s ∧ blockAccessible s .read false true 1 list ∧ psrT (s.spsr s.mode) = false
      ∧ (s.valueAt .word (s.slotAddress false true 1 list 15)).toNat % 4 ≠ 0 ∧ s.platform.pcWriteAlign = .refuse) ∧
    (Runs .al (masking s) ∧ blockAccessible (masking s) .read false true 1 list
      ∧ (masking s).platform.pcWriteAlign = .mask) ∧
    (Runs .al q ∧ blockAccessible q .read false true 1 list ∧ psrT (q.spsr q.mode) = true) :=
  ⟨⟨by decide, by decide, user_runs.toRuns⟩, ⟨by decide, open_block rfl _ (by decide), by decide⟩,
    ⟨⟨by decide, by decide⟩, open_block rfl _ (by decide), by decide, by decide⟩,
    ⟨svc_runs.toRuns, open_block rfl _ (by decide), by decide, by decide, by decide⟩,
    ⟨⟨by decide, by decide⟩, open_block rfl _ (by decide), by decide, by decide, rfl⟩,
    ⟨⟨by decide, by decide⟩, open_block rfl _ (by decide), rfl⟩,
    ⟨by decide, by decide⟩, open_block rfl _ (by decide), by decide⟩

theorem witness_LoadMultipleUser :
    (0x7FFF : BitVec 15) ≠ 0 ∧ (1 : Reg) ≠ 15 ∧ RunsOn .al svc ∧
    blockAccessible svc .read true false 1 (0#1 ++ (0x7FFF : BitVec 15)) :=
  ⟨by decide, by decide, svc_runs, open_block rfl _ (by decide)⟩

/-- STMDB r1!, r1 to pc, the base being the lowest, and r0 to pc, where it is not. -/
theorem witness_StoreMultiple :
    ((0xFFFE : BitVec 16) ≠ 0 ∧ (1 : Reg) ≠ 15 ∧ (0xFFFE : BitVec 16).getLsbD (1 : Reg).toNat = true ∧
      listRank 0xFFFE (1 : Reg).toNat = 0 ∧ RunsOn .al user ∧ Memory.wf user.mem = true ∧
      blockAccessible user .write true false 1 0xFFFE) ∧
    ((0xFFFF : BitVec 16).getLsbD (1 : Reg).toNat = true ∧ listRank 0xFFFF (1 : Reg).toNat ≠ 0 ∧ Runs .al userLast) :=
  ⟨⟨by decide, by decide, by decide, by decide, user_runs, by decide, open_block rfl _ (by decide)⟩, by decide,
    by decide, user_last_runs⟩

theorem witness_StoreMultipleUser :
    (0xFFFF : BitVec 16) ≠ 0 ∧ (1 : Reg) ≠ 15 ∧ RunsOn .al svc ∧ Memory.wf svc.mem = true ∧
    blockAccessible svc .write false false 1 0xFFFF :=
  ⟨by decide, by decide, svc_runs, by decide, open_block rfl _ (by decide)⟩

/-- The five forms at r1, with r0 and r2 (and pc) in the list, the word of r2 faulting. -/
theorem witness_BlockTransferAborts :
    let r := faulting userLast .read 0x1004
    let w := faulting userLast .write 0x1004
    ((BlockLoad.ldm 5).allowed true 1 ∧ (BlockLoad.ldmUser 5).allowed false 1 ∧ (BlockStore.stm 5).allowed true 1
      ∧ (BlockStore.stmUser 5).allowed false 1 ∧ (BlockLoad.ldmReturn 5).allowed true 1) ∧
    (5 : BitVec 16).getLsbD (2 : Reg).toNat = true ∧ Runs .al r ∧ Runs .al w ∧
    Faulting r .read .word (r.slotAddress false true 1 5 2) r.privileged ∧
    (∀ q : Reg, (5 : BitVec 16).getLsbD q.toNat = true → q.toNat < (2 : Reg).toNat →
      Accessible r .read .word (r.slotAddress false true 1 5 q) r.privileged) ∧
    (BlockLoad.ldmReturn 5).list.getLsbD (2 : Reg).toNat = true ∧
    Faulting r .read .word (r.slotAddress false true 1 (BlockLoad.ldmReturn 5).list 2) r.privileged ∧
    (∀ q : Reg, (BlockLoad.ldmReturn 5).list.getLsbD q.toNat = true → q.toNat < (2 : Reg).toNat →
      Accessible r .read .word (r.slotAddress false true 1 (BlockLoad.ldmReturn 5).list q) r.privileged) ∧
    Memory.wf w.mem = true ∧ Faulting w .write .word (w.slotAddress false true 1 5 2) w.privileged ∧
    (∀ q : Reg, (5 : BitVec 16).getLsbD q.toNat = true → q.toNat < (2 : Reg).toNat →
      Accessible w .write .word (w.slotAddress false true 1 5 q) w.privileged) := by
  have below : ∀ q : Reg, (5 : BitVec 16).getLsbD q.toNat = true → q.toNat < (2 : Reg).toNat → q = 0 := by decide
  have below' : ∀ q : Reg, (BlockLoad.ldmReturn 5).list.getLsbD q.toNat = true → q.toNat < (2 : Reg).toNat → q = 0 := by
    decide
  refine ⟨⟨.intro (by decide) (.intro (by decide) fun _ => by decide), .intro (by decide) (.intro (by decide) rfl),
      .intro (by decide) (.intro (by decide) fun _ h => absurd h (by decide)), .intro (by decide) (.intro (by decide) rfl),
      .intro (by decide) (.intro (by decide) fun _ => by decide)⟩,
    by decide, ⟨by decide, by decide⟩, ⟨by decide, by decide⟩, ⟨by decide, by decide⟩,
    fun q h hq => ?_, by decide, ⟨by decide, by decide⟩, fun q h hq => ?_, by decide, ⟨by decide, by decide⟩,
    fun q h hq => ?_⟩
  · obtain rfl := below q h hq
    exact ⟨by decide, by decide⟩
  · obtain rfl := below' q h hq
    exact ⟨by decide, by decide⟩
  · obtain rfl := below q h hq
    exact ⟨by decide, by decide⟩

theorem witness_Swap :
    let r := faulting user .read 0x1000
    let w := faulting user .write 0x1000
    swapWf 1 0 0 = true ∧ Memory.wf user.mem = true ∧ user.readReg 1 = 0x1000 ∧
    (RunsOn .al user ∧ (∀ size, Accessible user .read size 0x1000 user.privileged)
      ∧ ∀ size, Accessible user .write size 0x1000 user.privileged) ∧
    (RunsOn .al r ∧ ∀ size, Faulting r .read size 0x1000 r.privileged) ∧
    (RunsOn .al w ∧ (∀ size, Accessible w .read size 0x1000 w.privileged)
      ∧ ∀ size, Faulting w .write size 0x1000 w.privileged) :=
  ⟨by decide, by decide, by decide,
    ⟨user_runs, fun z => open_accessible rfl _ (by cases z <;> decide) _,
      fun z => open_accessible rfl _ (by cases z <;> decide) _⟩,
    ⟨⟨⟨by decide, by decide⟩, by decide⟩, fun z => by cases z <;> exact ⟨by decide, by decide⟩⟩,
    ⟨⟨by decide, by decide⟩, by decide⟩, fun z => by cases z <;> exact ⟨by decide, by decide⟩,
    fun z => by cases z <;> exact ⟨by decide, by decide⟩⟩

theorem with_cp_runs : RunsOn .al (withCp user true) := ⟨⟨by decide, by decide⟩, by decide⟩

theorem witness_CoprocessorOperations :
    RunsOn .al (withCp user true) ∧
    (withCp user true).cpAccepts 5 (encode (.cdp .al 3 1 0 5 0 2)) = true ∧
    (∀ rd : Reg, (withCp user true).cpAccepts 5 (encode (.mcr .al 3 1 rd 5 0 2)) = true
      ∧ (withCp user true).cpAccepts 5 (encode (.mrc .al 3 1 rd 5 0 2)) = true) ∧ (0 : Reg) ≠ 15 :=
  ⟨with_cp_runs, by decide, by decide, by decide⟩

/-- Every word from r1 up is aligned and open to both kinds of access, however many the coprocessor asks for, in the
pre-indexed form with write-back and in the unindexed one. -/
theorem witness_CoprocessorTransfers : ∀ x,
    let f := cpTransfer x
    let s := withCp user true
    f.allowed = true ∧ RunsOn .al s ∧ Memory.wf s.mem = true ∧ s.cpAccepts f.cp (encode (f.ldc .al)) = true ∧
    s.cpAccepts f.cp (encode (f.stc .al)) = true ∧
    (∀ j, j < f.loadCount s → Accessible s .read .word (f.wordAddress s j) s.privileged) ∧
    (∀ j, j < f.storeCount s → Accessible s .write .word (f.wordAddress s j) s.privileged) := by
  intro x f s
  have aligned : ∀ x, ∀ k : Fin 16, alignedTo .word ((withCp user true).effectiveAddress .word
      ((cpTransfer x).wordAddress (withCp user true) k.val)) = true := by decide
  refine ⟨by cases x <;> decide, with_cp_runs, by decide, by cases x <;> decide, by cases x <;> decide,
    fun j hj => open_accessible rfl _ (aligned x ⟨j, ?_⟩) _, fun j hj => open_accessible rfl _ (aligned x ⟨j, ?_⟩) _⟩
  · unfold CpTransfer.loadCount at hj
    omega
  · unfold CpTransfer.storeCount at hj
    omega

/-- The first word at r1 faulting, which every LDC and STC accesses. -/
theorem witness_CoprocessorTransfers_abort :
    let f := cpTransfer false
    let r := withCp (faulting userLast .read 0x1000) true
    let w := withCp (faulting userLast .write 0x1000) true
    f.allowed = true ∧
    (Runs .al r ∧ r.cpAccepts f.cp (encode (f.ldc .al)) = true ∧ 0 < f.loadCount r
      ∧ Faulting r .read .word (f.wordAddress r 0) r.privileged) ∧
    (Runs .al w ∧ w.cpAccepts f.cp (encode (f.stc .al)) = true ∧ Memory.wf w.mem = true ∧ 0 < f.storeCount w
      ∧ Faulting w .write .word (f.wordAddress w 0) w.privileged) :=
  ⟨by decide, ⟨⟨by decide, by decide⟩, by decide, Nat.succ_pos _, ⟨by decide, by decide⟩⟩,
    ⟨by decide, by decide⟩, by decide, by decide, Nat.succ_pos _, ⟨by decide, by decide⟩⟩

theorem witness_UserModeContained :
    user.mode? = some .usr ∧ (∃ t, step (user.placeWord 0xE3A00001) = .next t) ∧
    (∃ t, step (user.placeWord 0xEF000000) = .next t) ∧ (∃ t, step (withLines user false false true) = .next t) :=
  ⟨by decide, ⟨_, rfl⟩, ⟨_, rfl⟩, _, rfl⟩

/-- Two User-mode states that differ in r13_svc and in the SPSR of SVC mode. -/
theorem witness_UserModeCannotReadBanks :
    user.mode? = some .usr ∧ UserAgree user { user with svc := #v[1, 2], spsrSvc := 3 } ∧
    user ≠ { user with svc := #v[1, 2], spsrSvc := 3 } :=
  ⟨by decide, ⟨rfl, rfl, rfl, rfl, rfl, rfl, rfl, rfl, rfl⟩, by decide⟩

end Sys2Proof.Tests
end

section
/-!
The statements of 00_scope.md, O13 and O17: which words and states a step refuses, and the trap of an instruction that
the architecture version lacks.
-/

namespace Sys2Proof.Machine

/-! ### Exception entry -/

/-- Taking an exception enters it as the table says (spec/60_exceptions.md R401, R405). -/
theorem takeException_entered (e : Exception) (s : State) : Entered e s (takeException e s) := by
  obtain ⟨hmode, hbits, hvector, hoffset, hsetsF⟩ := entryRow_eq e
  refine
    { link := ?_, saved := ?_, modeBits := ?_, thumb := by simp, irqOff := by simp, fiqOff := ?_, rest := by simp
      pc := ?_, registers := ?_, spsrs := fun m hm => ?_, memory := ⟨by simp, by simp⟩, coproc := by simp
      outside := ⟨by simp, by simp⟩ }
  · rw [hmode, hoffset, takeException_link]
  · rw [hmode, takeException_spsr, if_pos rfl]
  · rw [hbits, takeException_cpsr, psrEnter_modeBits]
  · rw [hsetsF, takeException_cpsr, psrEnter_f]
  · rw [hvector, takeException_pc]
  · rw [hmode]; exact takeException_registersKept e s
  · rw [takeException_spsr, if_neg (hmode ▸ hm)]

/-- The undefined instruction trap is an entry of its exception. -/
theorem undefinedTrap_enters (s : State) : ∃ t, undefinedTrap s = .next t ∧ Entered .undefined s t :=
  ⟨_, rfl, takeException_entered .undefined s⟩

/-! ### The architecture version -/

theorem hasV4T_of_v4 {s : State} (h : s.platform.arch = .v4) : hasV4T s = false := by simp [hasV4T, h]

theorem hasV5T_of_v5T {s : State} (h : s.platform.arch = .v5T) : hasV5T s = true := by simp [hasV5T, h]

theorem hasV5T_of_older {s : State} (h : s.platform.arch ≠ .v5T) : hasV5T s = false := by simp [hasV5T, h]

/-- Settles O17: below its version each of the four instructions is the trap, and BLX label is refused. -/
theorem olderVersionsTrap : Obligations.OlderVersionsTrap := by
  unfold Obligations.OlderVersionsTrap
  refine ⟨fun c rm s hr ha => ?_, fun c rm s hr ha => ?_, fun c rd rm s hr ha => ?_, fun imm s hm ha => ?_,
    fun h off s hm ha => ?_⟩
  · have : exec (.bx c rm) s = undefinedTrap s := by
      rw [exec, execBx, conditional_of_runs hr, hasV4T_of_v4 ha, ifPresent_false]
    exact this ▸ undefinedTrap_enters s
  · have : exec (.blxReg c rm) s = undefinedTrap s := by
      rw [exec, execBlxReg, conditional_of_runs hr, hasV5T_of_older ha, ifPresent_false]
    exact this ▸ undefinedTrap_enters s
  · have : exec (.clz c rd rm) s = undefinedTrap s := by
      rw [exec, execClz, conditional_of_runs hr, hasV5T_of_older ha, ifPresent_false]
    exact this ▸ undefinedTrap_enters s
  · have : exec (.brk imm) s = undefinedTrap s := by
      rw [exec, execBrk, inMode_of_mode hm, hasV5T_of_older ha, ifPresent_false]
    exact this ▸ undefinedTrap_enters s
  · rw [exec, execBlxLabel, inMode_of_mode hm, hasV5T_of_older ha]
    rfl

/-! ### The step -/

/-- A byte of the word at an address is noted as stored just if one of its four addresses is. -/
theorem State.storedWord_iff {s : State} {a : Word} :
    s.storedWord a = true ↔ ∃ b ∈ byteRange a 4, b.toNat ∈ s.stored := by
  simp [State.storedWord, wordAddresses, byteAddresses, byteRange, List.range_succ]

/-- A fetch gives the word at the pc. -/
theorem Fetches.fetch {s : State} (h : Fetches s) :
    s.fetch = .ok (Memory.value s.mem s.platform.endian s.pc .word) := by
  refine State.fetch_ok.mpr ⟨h.allowed, ?_, rfl⟩
  rcases h.fresh with hcoh | hfresh
  · exact .inr hcoh
  · refine .inl (Bool.eq_false_iff.mpr fun hst => ?_)
    obtain ⟨b, hb, hmem⟩ := State.storedWord_iff.mp hst
    exact hfresh b hb hmem

/-- A fetch that `MemSys` allows is refused where it covers a byte stored in the run, without `IFETCH_COHERENT`. -/
theorem State.fetch_of_stored {s : State}
    (ha : memFaults s.platform.memSys s.pc .word .fetch s.privileged = false)
    (hc : s.platform.ifetchCoherent = false) (hs : s.storedWord s.pc = true) :
    s.fetch = .error (.refuse .fetchAfterStore) := by
  simp [State.fetch, ha, hc, hs]

/-- The fetch does not read the input lines. -/
@[simp] theorem State.fetch_nextInputs (s : State) : s.nextInputs.fetch = s.fetch := by
  simp [State.fetch, State.storedWord, State.privileged]

theorem executeAtPc_of_refused {s : State} {r : Refusal} (h : s.fetch = .error (.refuse r)) :
    executeAtPc s = .refused r := by
  simp [executeAtPc, h]

theorem executeAtPc_of_undecoded {s : State} {w : Word} {e : DecodeError} (hf : s.fetch = .ok w)
    (hd : decode w = .error e) : executeAtPc s = .refused (decodeRefusal e) := by
  simp [executeAtPc, hf, hd]

theorem step_of_thumb {s : State} (h : psrT s.cpsr = true) : step s = .refused .thumbState := if_pos h

/-- A step that reaches the fetch runs the instruction at the pc (spec/60_exceptions.md R419). -/
theorem step_of_executes {s : State} (h : Executes s) : step s = executeAtPc s.nextInputs := by
  simp [step, h.arm, h.noReset, h.noFiq, h.noIrq, (low_two_zero_iff s.pc).mpr h.aligned]

/-- A word with condition field 1111 decodes to BLX label or not at all (spec/30_encoding.md R116, R128). -/
theorem decode_condition1111 {w : Word} (hc : w.extractLsb' 28 4 = 15) (hb : w.extractLsb' 25 3 ≠ 5) :
    decode w = .error .condition1111 := by
  have hnone : Cond.ofBits (field w 28 4) = none := by rw [field, hc]; rfl
  rw [decode, hnone]
  exact if_neg hb

/-- Settles O13: the three refusals come from the test of T, from the fetch and from the decoder. -/
theorem stepRefuses : Obligations.StepRefuses := by
  unfold Obligations.StepRefuses
  refine ⟨fun s => step_of_thumb, fun s hx ha hc hs => ?_, fun s hf hc hb => ?_⟩
  · have hfetch := State.fetch_of_stored ha hc (State.storedWord_iff.mpr hs)
    rw [step_of_executes hx, executeAtPc_of_refused (by rw [State.fetch_nextInputs, hfetch])]
  · rw [step_of_executes hf.toExecutes,
      executeAtPc_of_undecoded (by rw [State.fetch_nextInputs, hf.fetch]) (decode_condition1111 hc hb)]
    rfl

end Sys2Proof.Machine
end

section
/-!
The words the decoder reads as an unused encoding, and the word of a coprocessor instruction, for the statement of
00_scope.md O19.
-/

namespace Sys2Proof

/-! ### Rows and fields -/

/-- A word with the value `v` in the field from bit `lo` up may still match the row. -/
def OpcodeRow.agrees (r : OpcodeRow) (lo : Nat) {len : Nat} (v : BitVec len) : Bool :=
  v &&& r.mask.extractLsb' lo len == r.value.extractLsb' lo len

/-- Every word of the row has the value `v` in the field from bit `lo` up. -/
def OpcodeRow.fixes (r : OpcodeRow) (lo : Nat) {len : Nat} (v : BitVec len) : Bool :=
  r.mask.extractLsb' lo len == BitVec.allOnes len && r.value.extractLsb' lo len == v

/-- A field of the body is the same field of the word. -/
theorem field_field (w : Word) {lo len : Nat} (h : lo + len ≤ 28) :
    (field w 0 28).extractLsb' lo len = field w lo len := by
  apply BitVec.eq_of_getLsbD_eq
  intro i hi
  simp [field, hi, show lo + i < 28 by omega]

/-- The fields of a word that matches a row agree with the row. -/
theorem OpcodeRow.agrees_of_covers {r : OpcodeRow} {w : Word} (h : r.covers (field w 0 28) = true) {lo len : Nat}
    {v : BitVec len} (hf : field w lo len = v) (hl : lo + len ≤ 28 := by decide) : r.agrees lo v = true := by
  have hv : field w 0 28 &&& r.mask = r.value := eq_of_beq h
  rw [agrees, ← hf, ← field_field w hl, ← hv, BitVec.extractLsb'_and]
  exact beq_self_eq_true _

/-- A word that matches a row has the values the row fixes. -/
theorem OpcodeRow.field_of_fixes {r : OpcodeRow} {w : Word} (h : r.covers (field w 0 28) = true) {lo len : Nat}
    {v : BitVec len} (hf : r.fixes lo v = true) (hl : lo + len ≤ 28 := by decide) : field w lo len = v := by
  obtain ⟨hm, hv⟩ := Bool.and_eq_true_iff.mp hf
  have ha := eq_of_beq (agrees_of_covers h rfl hl)
  rwa [eq_of_beq hm, eq_of_beq hv, BitVec.and_allOnes] at ha

/-- A bit that is set, as a field. -/
theorem field_one_eq_one {w : Word} {i : Nat} : field w i 1 = 1#1 ↔ bit w i = true := by
  rw [← BitVec.toNat_inj, field_toNat, bit, BitVec.getLsbD, Nat.testBit_eq_decide_div_mod_eq, decide_eq_true_iff]
  rfl

/-- A bit that is clear, as a field. -/
theorem field_one_eq_zero {w : Word} {i : Nat} : field w i 1 = 0#1 ↔ bit w i = false := by
  rw [← BitVec.toNat_inj, field_toNat, bit, BitVec.getLsbD, Nat.testBit_eq_decide_div_mod_eq, decide_eq_false_iff_not,
    Nat.mod_two_not_eq_one]
  rfl

/-! ### The rows near the decoder's catch-alls -/

/-- The row of BRK. -/
def brkRow : OpcodeRow := ⟨0xFF000F0, 0x1200070⟩

/-- The rows of the multiply space are those the decoder tests for (spec/30_encoding.md R105 to R107). -/
theorem multiplySwap_rows : ∀ r ∈ opcodeRows, r.agrees 25 0#3 = true → r.agrees 4 9#4 = true →
    r.fixes 22 0#3 = true ∨ r.fixes 23 1#2 = true ∨
      r.fixes 23 2#2 = true ∧ r.fixes 20 0#2 = true ∧ r.fixes 8 0#4 = true := by decide

/-- The stores of the half-word space are STRH (spec/46_halfword_signed_transfer.md R287). -/
theorem halfwordStore_rows : ∀ r ∈ opcodeRows, r.agrees 25 0#3 = true → r.agrees 7 1#1 = true →
    r.agrees 4 1#1 = true → r.agrees 20 0#1 = true → r.fixes 4 9#4 = true ∨ r.fixes 5 1#2 = true := by decide

/-- The register-offset forms of the half-word space have zero in bits [11:8] (spec/30_encoding.md R112). -/
theorem halfwordRegister_rows : ∀ r ∈ opcodeRows, r.agrees 25 0#3 = true → r.agrees 7 1#1 = true →
    r.agrees 4 1#1 = true → r.agrees 22 0#1 = true → r.fixes 4 9#4 = true ∨ r.fixes 8 0#4 = true := by decide

/-- The rows of the miscellaneous space are MRS, MSR, BX, BLX, CLZ and BRK (spec/30_encoding.md R108 to R111). -/
theorem miscellaneous_rows : ∀ r ∈ opcodeRows, r.agrees 25 0#3 = true → r.agrees 23 2#2 = true →
    r.agrees 20 0#1 = true →
    r.fixes 4 9#4 = true ∨ (r.fixes 7 1#1 = true ∧ r.fixes 4 1#1 = true) ∨
    (r.fixes 21 0#1 = true ∧ r.fixes 16 15#4 = true ∧ r.fixes 0 0#12 = true) ∨
    (r.fixes 21 1#1 = true ∧ r.fixes 12 15#4 = true ∧ r.fixes 4 0#8 = true) ∨
    r.fixes 4 0x2FFF1#19 = true ∨ r.fixes 4 0x2FFF3#19 = true ∨
    (r.fixes 16 0x2F#6 = true ∧ r.fixes 22 1#1 = true ∧ r.fixes 4 0xF1#8 = true) ∨ r = brkRow := by decide

/-- The one row of the immediate forms with opcode 10xx and S = 0 is MSR (spec/30_encoding.md R111). -/
theorem statusImmediate_rows : ∀ r ∈ opcodeRows, r.agrees 25 1#3 = true → r.agrees 23 2#2 = true →
    r.agrees 20 0#1 = true → r.fixes 21 1#1 = true ∧ r.fixes 12 15#4 = true := by decide

/-! ### The catch-alls of the decoder -/

/-- The body of an instruction of the catch-all is no row's, or the BRK pattern's (spec/30_encoding.md R135,
49_coprocessor_brk_unused.md R359). -/
def Instr.bodyUnused : Instr → Prop
  | .unallocated _ body => isUnallocated body = true ∨ Machine.isBreakpointBody body = true
  | _ => True

section
variable {c : Cond} {w : Word}

/-- A word that at most the row of BRK matches may be left to the catch-all. -/
theorem unallocatedOf_bodyUnused (h : ∀ r ∈ opcodeRows, r.covers (field w 0 28) = true → r = brkRow) :
    (unallocatedOf c w).bodyUnused := by
  by_cases hb : Machine.isBreakpointBody (field w 0 28) = true
  · exact .inr hb
  · refine .inl (List.all_eq_true.mpr fun r hr => ?_)
    have : ¬ r.covers (field w 0 28) = true := fun hc => hb (by rwa [h r hr hc] at hc)
    simpa using this

theorem decodeMultiplySwap_bodyUnused (h25 : field w 25 3 = 0) (h4 : field w 4 4 = 9) :
    (decodeMultiplySwap c w).bodyUnused := by
  have catchAll (h22 : ¬ field w 22 3 = 0) (h23 : ¬ field w 23 2 = 1)
      (hswp : ¬ (field w 23 2 = 2 ∧ field w 20 2 = 0 ∧ field w 8 4 = 0)) : (unallocatedOf c w).bodyUnused := by
    refine unallocatedOf_bodyUnused fun r hr hc => ?_
    rcases multiplySwap_rows r hr (r.agrees_of_covers hc h25) (r.agrees_of_covers hc h4) with f | f | ⟨f, g, k⟩
    · exact absurd (r.field_of_fixes hc f) h22
    · exact absurd (r.field_of_fixes hc f) h23
    · exact absurd ⟨r.field_of_fixes hc f, r.field_of_fixes hc g, r.field_of_fixes hc k⟩ hswp
  unfold decodeMultiplySwap
  split_ifs with h22 _ h23 _ _ _ hswp
  any_goals trivial
  exact catchAll h22 h23 hswp

theorem decodeHalfword_bodyUnused (h25 : field w 25 3 = 0) (h9 : ¬ field w 4 4 = 9) (h7 : bit w 7 = true)
    (h4 : bit w 4 = true) : (decodeHalfword c w).bodyUnused := by
  have f7 := field_one_eq_one.mpr h7
  have f4 := field_one_eq_one.mpr h4
  have store (h5 : ¬ field w 5 2 = 1) (h20 : ¬ bit w 20 = true) : (unallocatedOf c w).bodyUnused := by
    refine unallocatedOf_bodyUnused fun r hr hc => ?_
    have f20 := field_one_eq_zero.mpr (Bool.eq_false_iff.mpr h20)
    rcases halfwordStore_rows r hr (r.agrees_of_covers hc h25) (r.agrees_of_covers hc f7)
      (r.agrees_of_covers hc f4) (r.agrees_of_covers hc f20) with f | f
    · exact absurd (r.field_of_fixes hc f) h9
    · exact absurd (r.field_of_fixes hc f) h5
  have register (h22 : ¬ bit w 22 = true) (h8 : ¬ field w 8 4 = 0) : (unallocatedOf c w).bodyUnused := by
    refine unallocatedOf_bodyUnused fun r hr hc => ?_
    have f22 := field_one_eq_zero.mpr (Bool.eq_false_iff.mpr h22)
    rcases halfwordRegister_rows r hr (r.agrees_of_covers hc h25) (r.agrees_of_covers hc f7)
      (r.agrees_of_covers hc f4) (r.agrees_of_covers hc f22) with f | f
    · exact absurd (r.field_of_fixes hc f) h9
    · exact absurd (r.field_of_fixes hc f) h8
  unfold decodeHalfword
  split_ifs with h22 h5 h20 h20 h6 h8 h5 h20 h20 h6
  any_goals trivial
  · exact store h5 h20
  · exact store h5 h20
  · exact register h22 h8

theorem decodeMiscellaneous_bodyUnused (h25 : field w 25 3 = 0) (h9 : ¬ field w 4 4 = 9)
    (h74 : ¬ (bit w 7 && bit w 4) = true) (h23 : field w 23 2 = 2) (h20 : field w 20 1 = 0) :
    (decodeMiscellaneous c w).bodyUnused := by
  have catchAll (hmrs : ¬ (field w 21 1 = 0 ∧ field w 16 4 = 15 ∧ field w 0 12 = 0))
      (hmsr : ¬ (field w 21 1 = 1 ∧ field w 12 4 = 15 ∧ field w 4 8 = 0)) (hbx : ¬ field w 4 19 = 0x2FFF1)
      (hblx : ¬ field w 4 19 = 0x2FFF3)
      (hclz : ¬ (field w 16 6 = 0x2F ∧ bit w 22 = true ∧ field w 4 8 = 0xF1)) : (unallocatedOf c w).bodyUnused := by
    refine unallocatedOf_bodyUnused fun r hr hc => ?_
    have one {i : Nat} (hf : r.fixes i 1#1 = true) (hl : i + 1 ≤ 28 := by decide) : bit w i = true :=
      field_one_eq_one.mp (r.field_of_fixes hc hf hl)
    rcases miscellaneous_rows r hr (r.agrees_of_covers hc h25) (r.agrees_of_covers hc h23)
      (r.agrees_of_covers hc h20)
      with f | ⟨f, g⟩ | ⟨f, g, k⟩ | ⟨f, g, k⟩ | f | f | ⟨f, g, k⟩ | rfl
    · exact absurd (r.field_of_fixes hc f) h9
    · exact absurd (Bool.and_eq_true_iff.mpr ⟨one f, one g⟩) h74
    · exact absurd ⟨r.field_of_fixes hc f, r.field_of_fixes hc g, r.field_of_fixes hc k⟩ hmrs
    · exact absurd ⟨r.field_of_fixes hc f, r.field_of_fixes hc g, r.field_of_fixes hc k⟩ hmsr
    · exact absurd (r.field_of_fixes hc f) hbx
    · exact absurd (r.field_of_fixes hc f) hblx
    · exact absurd ⟨r.field_of_fixes hc f, one g, r.field_of_fixes hc k⟩ hclz
    · rfl
  unfold decodeMiscellaneous
  split_ifs with hmrs hmsr hbx hblx hclz hbrk
  any_goals trivial
  exact catchAll hmrs hmsr hbx hblx hclz

theorem dpImm_bodyUnused (op : DpOp) (s : Bool) (rn rd : Reg) (o : RotImm) :
    (Instr.dpImm op c s rn rd o).bodyUnused := by cases op <;> trivial

theorem dpShift_bodyUnused (op : DpOp) (s : Bool) (rn rd : Reg) (o : ImmShift) :
    (Instr.dpShift op c s rn rd o).bodyUnused := by cases op <;> trivial

theorem dpReg_bodyUnused (op : DpOp) (s : Bool) (rn rd : Reg) (o : RegShift) :
    (Instr.dpReg op c s rn rd o).bodyUnused := by cases op <;> trivial

theorem decode000_bodyUnused (h25 : field w 25 3 = 0) : (decode000 c w).bodyUnused := by
  unfold decode000
  split_ifs with h9 h74 hmisc
  · exact decodeMultiplySwap_bodyUnused h25 h9
  · obtain ⟨h7, h4⟩ := Bool.and_eq_true_iff.mp h74
    exact decodeHalfword_bodyUnused h25 h9 h7 h4
  · exact decodeMiscellaneous_bodyUnused h25 h9 h74 hmisc.1 (field_one_eq_zero.mpr hmisc.2)
  · exact dpReg_bodyUnused ..
  · exact dpShift_bodyUnused ..

theorem decode001_bodyUnused (h25 : field w 25 3 = 1) : (decode001 c w).bodyUnused := by
  unfold decode001
  split_ifs with h hmsr
  · trivial
  · obtain ⟨h23, h20⟩ := h
    refine unallocatedOf_bodyUnused fun r hr hc => ?_
    obtain ⟨f, g⟩ := statusImmediate_rows r hr (r.agrees_of_covers hc h25)
      (r.agrees_of_covers hc h23) (r.agrees_of_covers hc (field_one_eq_zero.mpr h20))
    have f21 := field_one_eq_one.mp (r.field_of_fixes hc f)
    have f12 := r.field_of_fixes hc g
    exact absurd (Bool.and_eq_true_iff.mpr ⟨f21, beq_iff_eq.mpr f12⟩) hmsr
  · exact dpImm_bodyUnused ..

/-- The transfers, branches and coprocessor classes have no catch-all. -/
theorem decodeConditional_bodyUnused : (decodeConditional c w).bodyUnused := by
  unfold decodeConditional
  split_ifs with h0 h1
  · exact decode000_bodyUnused h0
  · exact decode001_bodyUnused h1
  · unfold decode010; split_ifs <;> trivial
  · unfold decode011; split_ifs <;> trivial
  · unfold decode100; split_ifs <;> trivial
  · unfold decode101; split_ifs <;> trivial
  · unfold decode110; split_ifs <;> trivial
  · unfold decode111; split_ifs <;> trivial

/-- A word the decoder reads as an unused encoding matches no row, or is the BRK pattern. -/
theorem decode_bodyUnused {i : Instr} (h : decode w = .ok i) : i.bodyUnused := by
  unfold decode at h
  split at h
  · cases h
    exact decodeConditional_bodyUnused
  · split_ifs at h
    cases h
    trivial

end

/-! ### Coprocessor instructions -/

/-- Neighbouring fields make one field. -/
theorem field_append (w : Word) {hi lo n m : Nat} (h : hi = lo + m) :
    field w hi n ++ field w lo m = field w lo (n + m) := by
  apply BitVec.eq_of_getLsbD_eq
  intro i hi
  simp only [field, BitVec.getLsbD_append, BitVec.getLsbD_extractLsb', h]
  by_cases hm : i < m
  · simp [hm, hi]
  · simp [hm, show lo + m + (i - m) = lo + i by omega, hi, show i - m < n by omega]

theorem field_all (w : Word) : field w 0 32 = w := BitVec.extractLsb'_eq_self

/-- A bit as the encoder writes it is a field. -/
theorem b1_bit (w : Word) (i : Nat) : b1 (bit w i) = field w i 1 := by
  apply BitVec.eq_of_toNat_eq
  rw [b1_toNat, bit_toNat, field_toNat, Nat.pow_one]

section
variable {c : Cond} {w : Word}

theorem encodeCoprocessorTransfer_fields (hc : c.bits = field w 28 4) (h25 : field w 25 3 = 6#3) :
    encodeCoprocessorTransfer c (bit w 24) (bit w 23) (bit w 22) (bit w 21) (bit w 20) (field w 16 4) (field w 12 4)
      (field w 8 4) (field w 0 8) = w := by
  rw [encodeCoprocessorTransfer, hc, ← h25]
  simp only [b1_bit, field_append]
  exact field_all w

theorem encodeCoprocessorRegister_fields (hc : c.bits = field w 28 4) (h24 : field w 24 4 = 14#4)
    (h4 : field w 4 1 = 1#1) :
    encodeCoprocessorRegister c (field w 21 3) (bit w 20) (field w 16 4) (field w 12 4) (field w 8 4) (field w 5 3)
      (field w 0 4) = w := by
  rw [encodeCoprocessorRegister, hc, ← h24, ← h4]
  simp only [b1_bit, field_append]
  exact field_all w

theorem encode_cdp_fields (hc : c.bits = field w 28 4) (h24 : field w 24 4 = 14#4) (h4 : field w 4 1 = 0#1) :
    encode (.cdp c (field w 20 4) (field w 16 4) (field w 12 4) (field w 8 4) (field w 5 3) (field w 0 4)) = w := by
  rw [encode, hc, ← h24, ← h4]
  simp only [field_append]
  exact field_all w

/-- The word of LDC or STC is the word it is read from. -/
theorem encode_decode110 (hc : c.bits = field w 28 4) (h25 : field w 25 3 = 6) : encode (decode110 c w) = w := by
  have hw := encodeCoprocessorTransfer_fields hc h25
  unfold decode110
  split
  · next h20 => rwa [h20] at hw
  · next h20 => rwa [Bool.eq_false_iff.mpr h20] at hw

/-- The word of CDP, MCR or MRC is the word it is read from. -/
theorem encode_decode111 (hc : c.bits = field w 28 4) (h25 : field w 25 3 = 7) (h24 : bit w 24 = false) :
    encode (decode111 c w) = w := by
  have h14 : field w 24 4 = 14#4 := by
    rw [← field_append w (n := 3) (m := 1) (hi := 25) rfl, h25, field_one_eq_zero.mpr h24]
    rfl
  unfold decode111
  rw [h24, if_neg Bool.false_ne_true]
  split
  · next h4 =>
    have hw := encodeCoprocessorRegister_fields hc h14 (field_one_eq_one.mpr h4)
    split
    · next h20 => rwa [h20] at hw
    · next h20 => rwa [Bool.eq_false_iff.mpr h20] at hw
  · next h4 => exact encode_cdp_fields hc h14 (field_one_eq_zero.mpr (Bool.eq_false_iff.mpr h4))

theorem dpImm_coprocessor? (op : DpOp) (s : Bool) (rn rd : Reg) (o : RotImm) :
    (Instr.dpImm op c s rn rd o).coprocessor? = none := by cases op <;> rfl

theorem dpShift_coprocessor? (op : DpOp) (s : Bool) (rn rd : Reg) (o : ImmShift) :
    (Instr.dpShift op c s rn rd o).coprocessor? = none := by cases op <;> rfl

theorem dpReg_coprocessor? (op : DpOp) (s : Bool) (rn rd : Reg) (o : RegShift) :
    (Instr.dpReg op c s rn rd o).coprocessor? = none := by cases op <;> rfl

theorem decode000_coprocessor? : (decode000 c w).coprocessor? = none := by
  unfold decode000
  split_ifs
  · unfold decodeMultiplySwap; split_ifs <;> rfl
  · unfold decodeHalfword; split_ifs <;> rfl
  · unfold decodeMiscellaneous; split_ifs <;> rfl
  · exact dpReg_coprocessor? ..
  · exact dpShift_coprocessor? ..

theorem decode001_coprocessor? : (decode001 c w).coprocessor? = none := by
  unfold decode001
  split_ifs
  · rfl
  · rfl
  · exact dpImm_coprocessor? ..

/-- The word of a coprocessor instruction is the word it is read from. -/
theorem encode_of_decode_coprocessor {i : Instr} {cp : CpNum} (h : decode w = .ok i) (hcp : i.coprocessor? = some cp) :
    encode i = w := by
  unfold decode at h
  split at h
  · next c hc =>
    cases h
    have hbits := Cond.bits_of_ofBits hc
    revert hcp
    unfold decodeConditional
    split_ifs with h0 h1 h2 h3 h4 h5 h6 <;> intro hcp
    · rw [decode000_coprocessor?] at hcp; cases hcp
    · rw [decode001_coprocessor?] at hcp; cases hcp
    · unfold decode010 at hcp; split_ifs at hcp <;> cases hcp
    · unfold decode011 at hcp; split_ifs at hcp <;> cases hcp
    · unfold decode100 at hcp; split_ifs at hcp <;> cases hcp
    · unfold decode101 at hcp; split_ifs at hcp <;> cases hcp
    · exact encode_decode110 hbits h6
    · have h7 : field w 25 3 = 7 := by bv_omega
      cases h24 : bit w 24
      · exact encode_decode111 hbits h7 h24
      · rw [decode111, h24] at hcp; cases hcp
  · split_ifs at h
    cases h
    cases hcp

end

end Sys2Proof
end

section
/-!
An instruction whose operands break a restriction of `Instr.wf` is refused (00_scope.md R9, O19): for each shared
operation of the meanings one lemma that says when it refuses, then one case per constructor.
-/

namespace Sys2Proof.Machine

/-- The result is a refusal. -/
def Refuses (x : Result State) : Prop := ∃ r, x = .refused r

/-! ### The shared operations -/

/-- A test refuses if what follows it refuses wherever the restriction is kept. -/
theorem require_refuses {ok : Bool} {r : Refusal} {k : Result State} (h : ok = true → Refuses k) :
    Refuses (require ok r k) := by
  cases ok
  · exact ⟨r, rfl⟩
  · exact h rfl

theorem conditional_refuses {c : Cond} {s : State} {k : Result State} (hr : Runs c s) (h : Refuses k) :
    Refuses (conditional c s k) := by
  rwa [conditional_of_runs hr]

theorem ifPresent_refuses {present : Bool} {s : State} {k : Result State} (hp : present = true) (h : Refuses k) :
    Refuses (ifPresent present s k) := by
  rwa [hp, ifPresent_true]

section
variable {op : DpOp} {c : Cond} {f : Bool} {rn rd : Reg} {s : State}

theorem dpImm_wf (o : RotImm) : (Instr.dpImm op c f rn rd o).wf = dpFieldsZero op rn rd := by
  cases op <;> rfl

theorem dpShift_wf (o : ImmShift) : (Instr.dpShift op c f rn rd o).wf = dpFieldsZero op rn rd := by
  cases op <;> rfl

/-- The register-shift forms test all four registers for r15; a should-be-zero field that is zero is not r15. -/
theorem wf_dpReg_of {o : RegShift} (hpc : noPc [rn, rd, o.rs, o.rm] = true) (hz : dpFieldsZero op rn rd = true) :
    (Instr.dpReg op c f rn rd o).wf = true := by
  cases op <;> simp_all [Instr.dpReg, Instr.wf, RegShift.wf, noPc, dpFieldsZero, isCompare, isMove]

theorem dataProcess_refuses {o : Shifted} (hz : dpFieldsZero op rn rd = false) :
    Refuses (dataProcess op s f rn rd o) :=
  require_refuses fun h => absurd h (by simp [hz])

theorem dpWithImm_refuses {o : RotImm} (hr : Runs c s) (hw : (Instr.dpImm op c f rn rd o).wf = false) :
    Refuses (dpWithImm op c f rn rd o s) :=
  conditional_refuses hr (dataProcess_refuses ((dpImm_wf o).symm.trans hw))

theorem dpWithShift_refuses {o : ImmShift} (hr : Runs c s) (hw : (Instr.dpShift op c f rn rd o).wf = false) :
    Refuses (dpWithShift op c f rn rd o s) :=
  conditional_refuses hr (dataProcess_refuses ((dpShift_wf o).symm.trans hw))

theorem dpWithReg_refuses {o : RegShift} (hr : Runs c s) (hw : (Instr.dpReg op c f rn rd o).wf = false) :
    Refuses (dpWithReg op c f rn rd o s) :=
  conditional_refuses hr (require_refuses fun hpc => require_refuses fun hz =>
    absurd (wf_dpReg_of hpc hz) (ne_true_of_eq_false hw))

end

/-- The test of r15 does not depend on the order of the registers. -/
theorem noPc_cons_reverse (r : Reg) (rs : List Reg) : noPc (r :: rs.reverse) = noPc (r :: rs) := by
  simp [noPc]

theorem multiplyShort_refuses {s : State} {f : Bool} {rd rm : Reg} {others : List Reg} {r : Word}
    (hw : (noPc (rd :: rm :: others) && rd != rm) = false) : Refuses (multiplyShort s f rd rm others r) :=
  require_refuses fun hpc => require_refuses fun hne => absurd hw (by simp [hpc, hne])

theorem multiplyLong_refuses {s : State} {f : Bool} {rdHi rdLo rs rm : Reg} {r : BitVec 64}
    (hw : longMultiplyWf rdHi rdLo rs rm = false) : Refuses (multiplyLong s f rdHi rdLo rs rm r) :=
  require_refuses fun hpc => require_refuses fun hne => absurd hw (by simp_all [longMultiplyWf])

theorem swap_refuses {s : State} {size : AccessSize} {rn rd rm : Reg} {read : Except Stop Word}
    (hw : swapWf rn rd rm = false) : Refuses (swap s size rn rd rm read) :=
  require_refuses fun hpc => require_refuses fun hne => absurd hw (by simp_all [swapWf])

section
variable {x : Indexing} {rd rm : Reg} {k : Result State}

theorem withBase_refuses (h : writeBackWf x.writeBack x.rn rd = true → Refuses k) : Refuses (withBase x rd k) :=
  require_refuses h

theorem withRegisterOffset_refuses
    (h : writeBackWf x.writeBack x.rn rd = true → registerOffsetWf x.writeBack x.rn rm = true → Refuses k) :
    Refuses (withRegisterOffset x rd rm k) :=
  require_refuses fun h15 => require_refuses fun hrn => withBase_refuses fun hb =>
    h hb (by rw [registerOffsetWf, h15, hrn]; rfl)

/-- A word transfer, immediate offset. -/
theorem wordImm_refuses (hw : writeBackWf x.writeBack x.rn rd = false) : Refuses (withBase x rd k) :=
  withBase_refuses fun hb => absurd hb (by simp [hw])

/-- A word transfer, register offset. -/
theorem wordReg_refuses (hw : (writeBackWf x.writeBack x.rn rd && registerOffsetWf x.writeBack x.rn rm) = false) :
    Refuses (withRegisterOffset x rd rm k) :=
  withRegisterOffset_refuses fun hb ho => absurd hw (by simp [hb, ho])

/-- A transfer that tests its register after the base: the byte transfers and the T forms, immediate offset. -/
theorem testedImm_refuses {ok : Bool} {r : Refusal} (hw : (ok && writeBackWf x.writeBack x.rn rd) = false) :
    Refuses (withBase x rd (require ok r k)) :=
  withBase_refuses fun hb => require_refuses fun hok => absurd hw (by simp [hb, hok])

/-- The same, register offset. -/
theorem testedReg_refuses {ok : Bool} {r : Refusal}
    (hw : (ok && writeBackWf x.writeBack x.rn rd && registerOffsetWf x.writeBack x.rn rm) = false) :
    Refuses (withRegisterOffset x rd rm (require ok r k)) :=
  withRegisterOffset_refuses fun hb ho => require_refuses fun hok => absurd hw (by simp [hb, ho, hok])

end

section
variable {p u w : Bool} {rn rd rm : Reg} {k : Result State}

theorem halfImm_refuses {off : BitVec 8} (hw : halfImmWf p w rn rd = false) :
    Refuses (withHalfword p w rd (withBase (halfImmIndexing p u w rn off) rd k)) :=
  require_refuses fun h15 => require_refuses fun hpw => withBase_refuses fun hb =>
    absurd hw (by rw [halfImmWf, h15, hpw, show writeBackWf (!p || w) rn rd = true from hb]; decide)

theorem halfReg_refuses {s : State} (hw : halfRegWf p w rn rd rm = false) :
    Refuses (withHalfword p w rd (withRegisterOffset (s.halfRegIndexing p u w rn rm) rd rm k)) :=
  require_refuses fun h15 => require_refuses fun hpw => withRegisterOffset_refuses fun hb ho =>
    absurd hw (by
      rw [halfRegWf, halfImmWf, h15, hpw, show writeBackWf (!p || w) rn rd = true from hb,
        show registerOffsetWf (!p || w) rn rm = true from ho]
      decide)

end

theorem withBlock_refuses {list : BitVec 16} {rn : Reg} {baseWf : Bool} {k : Result State}
    (hw : (blockWf 16 list rn && baseWf) = false) : Refuses (withBlock list rn baseWf k) :=
  require_refuses fun hl => require_refuses fun hn => require_refuses fun hb =>
    absurd hw (by rw [blockWf, hl, hn, hb]; decide)

/-- A list with r15 is not empty. -/
theorem blockWf_pc (list : BitVec 15) (rn : Reg) : blockWf 16 (1#1 ++ list) rn = (rn != 15) := by
  have : (1#1 ++ list : BitVec 16) ≠ 0 := list_ne_zero (r := 15) (by rw [BitVec.getLsbD_append]; rfl)
  rw [blockWf, bne_iff_ne.mpr this, Bool.true_and]

/-- A list without r15 is empty just if its fifteen bits are. -/
theorem blockWf_noPc (list : BitVec 15) (rn : Reg) : blockWf 16 (0#1 ++ list) rn = blockWf 15 list rn := by
  have : (0#1 ++ list : BitVec 16) = 0 ↔ list = 0 := by
    rw [← BitVec.toNat_inj, ← BitVec.toNat_inj, toNat_append]
    simp
  simp only [blockWf, bne, Bool.beq_eq_decide_eq, this]

theorem withCoprocessor_refuses {cp : CpNum} {i : Instr} {s : State} {k : Result State}
    (ha : s.cpAccepts cp (encode i) = true) (h : Refuses k) : Refuses (withCoprocessor cp i s k) := by
  rwa [withCoprocessor_of_accepts _ ha]

theorem withCoprocessorTransfer_refuses {p u w : Bool} {rn : Reg} {cp : CpNum} {i : Instr} {s : State}
    {k : Result State} (ha : s.cpAccepts cp (encode i) = true) (hw : coprocessorTransferWf p u w rn = false) :
    Refuses (withCoprocessorTransfer p u w rn cp i s k) :=
  require_refuses fun hd => withCoprocessor_refuses ha (require_refuses fun hb =>
    absurd hw (by rw [coprocessorTransferWf, hd, hb]; decide))

/-! ### The instructions -/

/-- An instruction that is not well-formed is refused where it is executed at v5T. -/
theorem exec_refuses_of_not_wf {i : Instr} {s : State} (hw : i.wf = false) (hu : i.bodyUnused)
    (hr : ∀ c, i.cond? = some c → Runs c s) (ha : s.platform.arch = .v5T)
    (hcp : ∀ cp, i.coprocessor? = some cp → s.cpAccepts cp (encode i) = true) : Refuses (exec i s) := by
  cases i with
  | andImm | eorImm | subImm | rsbImm | addImm | adcImm | sbcImm | rscImm | tstImm | teqImm | cmpImm | cmnImm | orrImm
  | movImm | bicImm | mvnImm => exact dpWithImm_refuses (hr _ rfl) hw
  | andShift | eorShift | subShift | rsbShift | addShift | adcShift | sbcShift | rscShift | tstShift | teqShift
  | cmpShift | cmnShift | orrShift | movShift | bicShift | mvnShift => exact dpWithShift_refuses (hr _ rfl) hw
  | andReg | eorReg | subReg | rsbReg | addReg | adcReg | sbcReg | rscReg | tstReg | teqReg | cmpReg | cmnReg | orrReg
  | movReg | bicReg | mvnReg => exact dpWithReg_refuses (hr _ rfl) hw
  | mul c f rd sbz rs rm =>
    refine conditional_refuses (hr _ rfl) (require_refuses fun hz => multiplyShort_refuses ?_)
    rw [Instr.wf, hz, Bool.true_and] at hw
    exact (congrArg (· && rd != rm) (noPc_cons_reverse rd [rs, rm])).trans hw
  | mla c f rd rn rs rm =>
    exact conditional_refuses (hr _ rfl) (multiplyShort_refuses
      ((congrArg (· && rd != rm) (noPc_cons_reverse rd [rn, rs, rm])).trans hw))
  | umull | umlal | smull | smlal => exact conditional_refuses (hr _ rfl) (multiplyLong_refuses hw)
  | swp | swpb => exact conditional_refuses (hr _ rfl) (swap_refuses hw)
  | blxReg | clz =>
    exact conditional_refuses (hr _ rfl) (ifPresent_refuses (hasV5T_of_v5T ha)
      (require_refuses fun h => absurd h (ne_true_of_eq_false hw)))
  | mrs | msrReg =>
    exact conditional_refuses (hr _ rfl) (require_refuses fun h => absurd h (ne_true_of_eq_false hw))
  | strhImm | ldrhImm | ldrsbImm | ldrshImm => exact conditional_refuses (hr _ rfl) (halfImm_refuses hw)
  | strhReg | ldrhReg | ldrsbReg | ldrshReg => exact conditional_refuses (hr _ rfl) (halfReg_refuses hw)
  | ldrPreImm | ldrPostImm | strPreImm | strPostImm => exact conditional_refuses (hr _ rfl) (wordImm_refuses hw)
  | ldrPreReg | ldrPostReg | strPreReg | strPostReg => exact conditional_refuses (hr _ rfl) (wordReg_refuses hw)
  | ldrbPreImm | ldrbPostImm | strbPreImm | strbPostImm | ldrtImm | strtImm | ldrbtImm | strbtImm =>
    exact conditional_refuses (hr _ rfl) (testedImm_refuses hw)
  | ldrbPreReg | ldrbPostReg | strbPreReg | strbPostReg | ldrtReg | strtReg | ldrbtReg | strbtReg =>
    exact conditional_refuses (hr _ rfl) (testedReg_refuses hw)
  | ldm | stm => exact conditional_refuses (hr _ rfl) (withBlock_refuses hw)
  | ldmReturn c p u w rn list =>
    exact conditional_refuses (hr _ rfl) (withBlock_refuses (by rwa [blockWf_pc]))
  | ldmUser c p u w rn list =>
    refine conditional_refuses (hr _ rfl) (require_refuses fun h => withBlock_refuses ?_)
    rw [Instr.wf, h] at hw
    rwa [blockWf_noPc, Bool.and_true]
  | stmUser c p u w rn list =>
    refine conditional_refuses (hr _ rfl) (require_refuses fun h => withBlock_refuses ?_)
    rw [Instr.wf, h] at hw
    rwa [Bool.and_true]
  | ldc | stc => exact conditional_refuses (hr _ rfl) (withCoprocessorTransfer_refuses (hcp _ rfl) hw)
  | mcr =>
    exact conditional_refuses (hr _ rfl) (withCoprocessor_refuses (hcp _ rfl)
      (require_refuses fun h => absurd h (ne_true_of_eq_false hw)))
  | unallocated c body =>
    have hb : isBreakpointBody body = true := hu.resolve_left (ne_true_of_eq_false hw)
    exact conditional_refuses (hr _ rfl) (require_refuses fun h => absurd h (by simp [hasV5T_of_v5T ha, hb]))
  | bx | brk | msrImm | undefined | b | bl | blxLabel | cdp | mrc | swi => cases hw

/-- Settles O19: the decoder's catch-all is left no word of a row but BRK's, and encoding gives back the word that a
coprocessor is asked about. -/
theorem illFormedRefused : Obligations.IllFormedRefused := by
  unfold Obligations.IllFormedRefused
  intro w i c s hd hw hc hr ha hcp
  refine exec_refuses_of_not_wf hw (decode_bodyUnused hd) (fun c' hc' => ?_) ha fun cp h => ?_
  · cases hc.symm.trans hc'
    exact hr
  · rw [encode_of_decode_coprocessor hd h]
    exact hcp cp h

end Sys2Proof.Machine
end

section
/-!
What an instruction does, said once: its answer is composed of the operations that the families of instructions share
(spec/40_conditional_execution.md to 49_coprocessor_brk_unused.md). A property that each of these operations keeps is
kept by every instruction.
-/

namespace Sys2Proof.Machine

/-- The answer `x` is composed, from the state `s` on, of the shared operations. -/
inductive Composed : State → Result State → Prop
  -- the frame of an instruction
  | inMode {s k} : Composed s k → Composed s (inMode s k)
  | conditional {s k c} : Composed s k → Composed s (conditional c s k)
  | require {s k ok r} : Composed s k → Composed s (require ok r k)
  | ifPresent {s k present} : Composed s k → Composed s (ifPresent present s k)
  | withCoprocessor {s k cp i} : Composed s k → Composed s (withCoprocessor cp i s k)
  -- a change before the end
  | writeReg {s x r v} : Composed (s.writeReg r v) x → Composed s x
  | writeRegsIn {s x m l} : Composed (writeRegsIn m s l) x → Composed s x
  | setCpState {s x cp v} : Composed (s.setCpState cp v) x → Composed s x
  | countPsrRead {s x} : Composed s.countPsrRead x → Composed s x
  -- the end of an instruction
  | advance {s} : Composed s s.advance
  | branch {s a off} (ha : a = s.pc) : Composed s (.next { s with pc := branchTarget a off })
  | branchThumb {s a off} {h : Bool} (ha : a = s.pc) :
      Composed s (.next { s with
        cpsr := psrSetT s.cpsr true
        pc := branchTarget a off + (if h then 2 else 0) })
  | exchangeTo {s v} : Composed s (.next (s.exchangeTo v))
  | loadPc {s v} : Composed s (s.loadPc v)
  | exceptionReturn {s v} : Composed s (s.exceptionReturn v)
  | takeException {s e} : Composed s (.next (takeException e s))
  -- the shared operations of one family
  | dataProcess {s op f rn rd o} : Composed s (dataProcess op s f rn rd o)
  | multiplyShort {s f rd rm others r} : Composed s (multiplyShort s f rd rm others r)
  | multiplyLong {s f rdHi rdLo rs rm r} : Composed s (multiplyLong s f rdHi rdLo rs rm r)
  | moveToStatus {s spsr mask operand} : Composed s (moveToStatus s spsr mask operand)
  | loadIndexed {s x read k} : (∀ u v, Composed u (k u v)) → Composed s (loadIndexed s x read k)
  | storeIndexed {s x size v privileged} : Composed s (storeIndexed s x size v privileged)
  | loadBlock {s p u w rn list k} : (∀ v vs, Composed v (k v vs)) → Composed s (loadBlock s p u w rn list k)
  | storeBlock {s p u w rn values} : Composed s (storeBlock s p u w rn values)
  | swap {s size rn rd rm read} : Composed s (swap s size rn rd rm read)
  | loadCoprocessor {s x n crd cp option} : Composed s (loadCoprocessor s x n crd cp option)
  | storeCoprocessor {s x n crd cp option} : Composed s (storeCoprocessor s x n crd cp option)
  | receiveMrc {s rd w} : Composed s (receiveMrc s rd w)

/-! ### The loads -/

theorem loadWord_composed {s : State} {x : Indexing} {rd : Reg} {privileged : Bool} :
    Composed s (loadWord s x rd privileged) :=
  .loadIndexed fun u v => by
    split
    · exact .loadPc
    · exact .writeReg .advance

theorem loadByte_composed {s : State} {x : Indexing} {rd : Reg} {privileged : Bool} :
    Composed s (loadByte s x rd privileged) :=
  .require (.loadIndexed fun _ _ => .writeReg .advance)

theorem loadExtended_composed {s : State} {x : Indexing} {rd : Reg} {size : AccessSize} {extend : Word → Word} :
    Composed s (loadExtended s x rd size extend) :=
  .loadIndexed fun _ _ => .writeReg .advance

theorem execLdm_composed {c : Cond} {p u w : Bool} {rn : Reg} {list : BitVec 16} {s : State} :
    Composed s (execLdm c p u w rn list s) :=
  .conditional (.require (.require (.require (.loadBlock fun v vs => by
    split
    · exact .writeRegsIn .loadPc
    · exact .writeRegsIn .advance))))

/-! ### The instructions -/

/-- Every instruction is composed of the shared operations. -/
theorem exec_composed (i : Instr) (s : State) : Composed s (exec i s) := by
  cases i with
  | andImm | eorImm | subImm | rsbImm | addImm | adcImm | sbcImm | rscImm | tstImm | teqImm | cmpImm | cmnImm | orrImm
  | movImm | bicImm | mvnImm | andShift | eorShift | subShift | rsbShift | addShift | adcShift | sbcShift | rscShift
  | tstShift | teqShift | cmpShift | cmnShift | orrShift | movShift | bicShift | mvnShift =>
    exact .conditional .dataProcess
  | andReg | eorReg | subReg | rsbReg | addReg | adcReg | sbcReg | rscReg | tstReg | teqReg | cmpReg | cmnReg | orrReg
  | movReg | bicReg | mvnReg => exact .conditional (.require .dataProcess)
  | mul => exact .conditional (.require .multiplyShort)
  | mla => exact .conditional .multiplyShort
  | umull | umlal | smull | smlal => exact .conditional .multiplyLong
  | clz => exact .conditional (.ifPresent (.require (.writeReg .advance)))
  | swp | swpb => exact .conditional .swap
  | b => exact .conditional (.branch rfl)
  | bl => exact .conditional (.writeReg (.branch (State.writeReg_pc ..).symm))
  | bx => exact .conditional (.ifPresent .exchangeTo)
  | blxReg => exact .conditional (.ifPresent (.require (.writeReg .exchangeTo)))
  | blxLabel h off =>
    have hb : Composed s (.next { s.writeReg 14 (s.pc + 4) with
        cpsr := psrSetT s.cpsr true
        pc := branchTarget s.pc off + (if h then 2 else 0) }) := by
      simpa using Composed.writeReg (Composed.branchThumb (State.writeReg_pc ..).symm)
    exact .inMode (.require hb)
  | swi => exact .conditional .takeException
  | brk => exact .inMode (.ifPresent .takeException)
  | undefined => exact .conditional .takeException
  | unallocated => exact .conditional (.require .takeException)
  | mrs => exact .conditional (.require (.require (.countPsrRead (.writeReg .advance))))
  | msrReg => exact .conditional (.require .moveToStatus)
  | msrImm => exact .conditional .moveToStatus
  | ldrhImm | ldrsbImm | ldrshImm =>
    exact .conditional (.require (.require (.require loadExtended_composed)))
  | ldrhReg | ldrsbReg | ldrshReg =>
    exact .conditional (.require (.require (.require (.require (.require loadExtended_composed)))))
  | strhImm => exact .conditional (.require (.require (.require .storeIndexed)))
  | strhReg => exact .conditional (.require (.require (.require (.require (.require .storeIndexed)))))
  | ldrPreImm | ldrPostImm => exact .conditional (.require loadWord_composed)
  | ldrPreReg | ldrPostReg => exact .conditional (.require (.require (.require loadWord_composed)))
  | ldrtImm => exact .conditional (.require (.require loadWord_composed))
  | ldrtReg => exact .conditional (.require (.require (.require (.require loadWord_composed))))
  | ldrbPreImm | ldrbPostImm | ldrbtImm => exact .conditional (.require loadByte_composed)
  | ldrbPreReg | ldrbPostReg | ldrbtReg => exact .conditional (.require (.require (.require loadByte_composed)))
  | strPreImm | strPostImm => exact .conditional (.require .storeIndexed)
  | strPreReg | strPostReg => exact .conditional (.require (.require (.require .storeIndexed)))
  | strtImm | strbPreImm | strbPostImm | strbtImm => exact .conditional (.require (.require .storeIndexed))
  | strtReg | strbPreReg | strbPostReg | strbtReg =>
    exact .conditional (.require (.require (.require (.require .storeIndexed))))
  | ldm => exact execLdm_composed
  | ldmReturn =>
    exact .conditional (.require (.require (.require (.loadBlock fun _ _ => .writeRegsIn .exceptionReturn))))
  | ldmUser =>
    exact .conditional (.require (.require (.require (.require (.loadBlock fun _ _ => .writeRegsIn .advance)))))
  | stm => exact .conditional (.require (.require (.require .storeBlock)))
  | stmUser => exact .conditional (.require (.require (.require (.require .storeBlock))))
  | cdp => exact .conditional (.withCoprocessor (.setCpState .advance))
  | ldc => exact .conditional (.require (.withCoprocessor (.require .loadCoprocessor)))
  | stc => exact .conditional (.require (.withCoprocessor (.require .storeCoprocessor)))
  | mcr => exact .conditional (.withCoprocessor (.require (.setCpState .advance)))
  | mrc => exact .conditional (.withCoprocessor .receiveMrc)

end Sys2Proof.Machine
end

section
/-!
The statements of 10_state.md O5, O6 and O7: the state after reset, and the invariant that every step and every run
keeps.
-/

namespace Sys2Proof.Machine

/-! ### Reset -/

/-- Settles O5, by evaluating the bits of the CPSR at reset. -/
theorem resetValues : Obligations.ResetValues := by
  unfold Obligations.ResetValues
  decide

/-- Settles O6: each part of the invariant by evaluation, memory's by its law. -/
theorem resetMeetsInvariant : Obligations.ResetMeetsInvariant := by
  unfold Obligations.ResetMeetsInvariant
  exact
    { mode := rfl
      pcWord := fun _ => rfl
      pcHalf := half_aligned_of_word rfl
      mem := Memory.wf_reset
      stored := rfl
      cpsr := rfl
      spsrs := fun m => by cases m <;> rfl }

/-! ### Branches -/

/-- A branch in ARM state goes to a word-aligned address. -/
theorem branchTarget_aligned {a : Word} (off : BitVec 24) (h : a.extractLsb' 0 2 = 0) :
    (branchTarget a off).extractLsb' 0 2 = 0 := by
  rw [low_two_zero_iff] at h ⊢
  rw [branchTarget, BitVec.toNat_add, BitVec.toNat_add, BitVec.toNat_shiftLeft, Nat.shiftLeft_eq]
  change ((a.toNat + 8) % 2 ^ 32 + _ % 2 ^ 32) % 2 ^ 32 % 4 = 0
  omega

/-- The target of BLX label is half-word-aligned. -/
theorem branchTarget_half_aligned {a : Word} (off : BitVec 24) (h : Bool) (ha : a.extractLsb' 0 2 = 0) :
    (branchTarget a off + if h then 2 else 0).getLsbD 0 = false := by
  have hw := (low_two_zero_iff _).mp (branchTarget_aligned off ha)
  have hk : BitVec.toNat (if h then 2 else 0 : Word) % 2 = 0 := by cases h <;> rfl
  rw [low_bit_zero_iff, BitVec.toNat_add]
  omega

/-! ### The step -/

/-- A state in ARM state that meets the invariant goes on, through the shared operations, to one that meets it. -/
theorem Composed.inv {s t : State} {x : Result State} (hx : Composed s x) (h : Ready s) (ht : x = .next t) : t.Inv := by
  induction hx with
  | inMode _ ih => exact ih h (inMode_next.mp ht).2
  | conditional _ ih => exact h.conditional (ih h) ht
  | require _ ih => exact inv_of_require (ih h) ht
  | ifPresent _ ih => exact h.ifPresent (ih h) ht
  | withCoprocessor _ ih => exact h.withCoprocessor (ih h) ht
  | writeReg _ ih => exact ih (h.writeReg _ _) ht
  | writeRegsIn _ ih => exact ih (h.writeRegsIn _ _) ht
  | setCpState _ ih => exact ih (h.setCpState _ _) ht
  | countPsrRead _ ih => exact ih h.countPsrRead ht
  | advance => exact (h.advance ht).inv
  | branch ha =>
    cases ht
    exact (h.setPc (branchTarget_aligned _ (ha ▸ h.inv.pcWord h.arm))).inv
  | branchThumb ha =>
    cases ht
    exact h.setT (branchTarget_half_aligned _ _ (ha ▸ h.inv.pcWord h.arm)) nofun
  | exchangeTo => cases ht; exact h.exchangeTo _
  | loadPc => exact h.loadPc ht
  | exceptionReturn => exact h.exceptionReturn ht
  | takeException => cases ht; exact h.takeException _
  | dataProcess => exact h.dataProcess ht
  | multiplyShort => exact h.multiplyShort ht
  | multiplyLong => exact h.multiplyLong ht
  | moveToStatus => exact h.moveToStatus ht
  | loadIndexed _ ih => exact h.loadIndexed ih ht
  | storeIndexed => exact h.storeIndexed ht
  | loadBlock _ ih => exact h.loadBlock ih ht
  | storeBlock => exact h.storeBlock ht
  | swap => exact h.swap ht
  | loadCoprocessor => exact h.loadCoprocessor ht
  | storeCoprocessor => exact h.storeCoprocessor ht
  | receiveMrc => exact h.receiveMrc ht

/-- A reset step leaves SVC mode, I = F = 1, T = 0 and the reserved bits zero; N, Z, C, V are free. -/
theorem resetEntry_cpsr_getLsbD (s : State) {i : Nat} (h : i < 28) :
    (resetEntry s).cpsr.getLsbD i = (0xD3 : Word).getLsbD i := by
  have hm : (0xF0000000 : Word).getLsbD i = false := by revert h; revert i; decide
  rw [resetEntry, psrMerge_getLsbD, hm, if_neg Bool.false_ne_true]

/-- The reset step keeps the invariant. -/
theorem Ready.resetEntry {s : State} (h : Ready s) : (Machine.resetEntry s).Inv where
  mode := by
    have hbits : (Machine.resetEntry s).cpsr.extractLsb' 0 5 = (0xD3 : Word).extractLsb' 0 5 := by
      apply BitVec.eq_of_getLsbD_eq
      intro i hi
      rw [BitVec.getLsbD_extractLsb', BitVec.getLsbD_extractLsb', Nat.zero_add,
        resetEntry_cpsr_getLsbD s (by omega)]
    rw [State.mode?, psrMode, hbits]
    rfl
  pcWord _ := rfl
  pcHalf := half_aligned_of_word rfl
  mem := h.inv.mem
  stored := h.inv.stored
  cpsr := by
    rw [reserved_zero_iff]
    intro i h8 h28
    rw [resetEntry_cpsr_getLsbD s h28]
    revert i
    decide
  spsrs
    | .usr | .sys => BitVec.zero_and
    | .fiq | .irq | .svc | .abt | .und => and_psrWritable_reserved _

/-- Every step keeps the invariant. -/
theorem step_inv {s t : State} (hs : s.Inv) (ht : step s = .next t) : t.Inv := by
  obtain ⟨hT, hcases⟩ := step_next.mp ht
  have h : Ready s.nextInputs := Ready.nextInputs ⟨hs, hT⟩
  rcases hcases with ⟨_, rfl⟩ | ⟨_, _, rfl⟩ | ⟨_, _, _, rfl⟩ | ⟨_, _, _, _, hx⟩
  · exact h.resetEntry
  · exact h.takeException _
  · exact h.takeException _
  · rcases executeAtPc_next.mp hx with ⟨_, rfl⟩ | ⟨_, i, _, _, hi⟩
    · exact h.takeException _
    · exact (exec_composed i _).inv h hi

/-- Settles O7: a step keeps the invariant, and so, by induction along it, does a run. -/
theorem stepKeepsInvariant : Obligations.StepKeepsInvariant := by
  unfold Obligations.StepKeepsInvariant
  exact ⟨fun _ _ => step_inv, fun _ _ _ _ => run_induction fun _ _ => step_inv⟩

end Sys2Proof.Machine
end

section
/-!
The statement of 10_state.md O8: the parameters, and the inputs still to come.
-/

namespace Sys2Proof.Machine

theorem outsideKept.trans {s u t : State} (h : outsideKept s u) (g : outsideKept u t) : outsideKept s t :=
  ⟨g.1.trans h.1, g.2.trans h.2⟩

theorem outsideKept_takeException (e : Exception) (s : State) : outsideKept s (takeException e s) := by
  simp [outsideKept]

theorem State.advance_outside {s t : State} (ht : s.advance = .next t) : outsideKept s t := by
  obtain ⟨_, rfl⟩ := State.advance_next.mp ht
  exact ⟨rfl, rfl⟩

theorem State.writePc_outside {s t : State} {v : Word} (ht : s.writePc v = .next t) : outsideKept s t := by
  obtain ⟨_, rfl⟩ := State.writePc_next.mp ht
  exact ⟨rfl, rfl⟩

/-- Words stored, whether all of them or those below one that stops. -/
theorem State.storeWords_outside {s v : State} {a : Word} {vs : List Word} {e : Option Stop}
    (hv : s.storeWords a vs = (v, e)) : outsideKept s v := by
  obtain ⟨k, e', hk, _⟩ := State.storeWords_eq s a vs
  rw [hk] at hv
  cases hv
  simp [outsideKept]

theorem State.loadPc_outside {s t : State} {v : Word} (ht : s.loadPc v = .next t) : outsideKept s t := by
  rcases State.loadPc_next.mp ht with ⟨_, _, rfl⟩ | ⟨_, h⟩
  · exact ⟨rfl, rfl⟩
  · exact State.writePc_outside h

theorem State.exceptionReturn_outside {s t : State} {v : Word} (ht : s.exceptionReturn v = .next t) :
    outsideKept s t := by
  obtain ⟨_, _, ⟨_, rfl⟩ | ⟨_, h⟩⟩ := State.exceptionReturn_next.mp ht
  · exact ⟨rfl, rfl⟩
  · exact (State.writePc_outside h : outsideKept _ t)

/-- The shared operations keep the parameters and the inputs still to come. -/
theorem Composed.outside {s t : State} {x : Result State} (hx : Composed s x) (ht : x = .next t) : outsideKept s t := by
  induction hx with
  | inMode _ ih => exact ih (inMode_next.mp ht).2
  | conditional _ ih =>
    obtain ⟨_, ⟨_, h⟩ | ⟨_, h⟩⟩ := conditional_next.mp ht
    · exact ih h
    · exact State.advance_outside h
  | require _ ih => exact ih (require_next.mp ht).2
  | ifPresent _ ih =>
    rcases ifPresent_next.mp ht with ⟨_, h⟩ | ⟨_, rfl⟩
    · exact ih h
    · exact outsideKept_takeException _ _
  | withCoprocessor _ ih =>
    rcases withCoprocessor_next.mp ht with ⟨_, h⟩ | ⟨_, rfl⟩
    · exact ih h
    · exact outsideKept_takeException _ _
  | writeReg _ ih | writeRegsIn _ ih | setCpState _ ih | countPsrRead _ ih =>
    simpa [outsideKept] using ih ht
  | advance => exact State.advance_outside ht
  | branch | branchThumb | exchangeTo => cases ht; exact ⟨rfl, rfl⟩
  | loadPc => exact State.loadPc_outside ht
  | exceptionReturn => exact State.exceptionReturn_outside ht
  | takeException => cases ht; exact outsideKept_takeException _ _
  | dataProcess =>
    rcases dpFinish_next.mp (dataProcess_next.mp ht).2 with
      ⟨_, h⟩ | ⟨_, _, _, h⟩ | ⟨_, _, _, h⟩ | ⟨_, _, _, h⟩ | ⟨_, _, _, h⟩
    · simpa [outsideKept] using State.advance_outside h
    · exact State.exceptionReturn_outside h
    · exact State.writePc_outside h
    · simpa [outsideKept] using State.advance_outside h
    · simpa [outsideKept] using State.advance_outside h
  | multiplyShort => simpa [outsideKept] using State.advance_outside (multiplyShort_next.mp ht).2.2
  | multiplyLong => simpa [outsideKept] using State.advance_outside (multiplyLong_next.mp ht).2
  | moveToStatus =>
    rcases moveToStatus_next.mp ht with ⟨_, h⟩ | ⟨_, h⟩
    · simpa [outsideKept] using State.advance_outside (msrSpsr_next.mp h).2
    · exact (State.advance_outside (msrCpsr_next.mp h).2.2 : outsideKept _ t)
  | loadIndexed _ ih =>
    rcases loadIndexed_next.mp ht with ⟨v, _, h⟩ | ⟨_, rfl⟩
    · simpa [outsideKept] using ih _ v h
    · simp [outsideKept]
  | storeIndexed =>
    rcases storeIndexed_next.mp ht with ⟨u, hu, h⟩ | ⟨_, rfl⟩
    · obtain ⟨_, rfl⟩ := State.store_ok.mp hu
      simpa [outsideKept] using State.advance_outside h
    · simp [outsideKept]
  | loadBlock _ ih =>
    rcases loadBlock_next.mp ht with ⟨vs, _, h⟩ | ⟨_, _, rfl⟩
    · simpa [outsideKept] using ih _ vs h
    · simp [outsideKept]
  | storeBlock =>
    rcases storeBlock_next.mp ht with ⟨v, hv, h⟩ | ⟨v, hv, rfl⟩
    · exact (State.storeWords_outside hv).trans (by simpa [outsideKept] using State.advance_outside h)
    · exact (State.storeWords_outside hv).trans (by simp [outsideKept])
  | swap =>
    obtain ⟨_, ⟨_, rfl⟩ | ⟨_, _, _, rfl⟩ | ⟨v, u, _, hu, h⟩⟩ := swap_next.mp ht
    · exact outsideKept_takeException _ _
    · exact outsideKept_takeException _ _
    · obtain ⟨_, rfl⟩ := State.store_ok.mp hu
      simpa [outsideKept] using State.advance_outside h
  | loadCoprocessor =>
    rcases loadCoprocessor_next.mp ht with ⟨_, _, h⟩ | ⟨_, _, rfl⟩
    · simpa [outsideKept] using State.advance_outside h
    · simp [outsideKept]
  | storeCoprocessor =>
    rcases storeCoprocessor_next.mp ht with ⟨v, hv, h⟩ | ⟨_, _, rfl⟩
    · exact (State.storeWords_outside hv).trans (by simpa [outsideKept] using State.advance_outside h)
    · simp [outsideKept]
  | receiveMrc =>
    rcases receiveMrc_next.mp ht with ⟨_, h⟩ | ⟨_, h⟩
    · simpa [outsideKept] using State.advance_outside h
    · simpa [outsideKept] using State.advance_outside h

/-- Settles O8: the step takes the inputs of one step, and no instruction, exception or reset changes the rest. -/
theorem stepKeepsParameters : Obligations.StepKeepsParameters := by
  unfold Obligations.StepKeepsParameters
  intro s t ht
  have h : outsideKept s.nextInputs t := by
    obtain ⟨_, ⟨_, rfl⟩ | ⟨_, _, rfl⟩ | ⟨_, _, _, rfl⟩ | ⟨_, _, _, _, hx⟩⟩ := step_next.mp ht
    · exact ⟨rfl, rfl⟩
    · exact outsideKept_takeException _ _
    · exact outsideKept_takeException _ _
    · rcases executeAtPc_next.mp hx with ⟨_, rfl⟩ | ⟨_, i, _, _, hi⟩
      · exact outsideKept_takeException _ _
      · exact (exec_composed i _).outside hi
  exact ⟨h.2, h.1⟩

end Sys2Proof.Machine
end

section
/-!
The statement of 10_state.md O22: the register selection of R23.
-/

namespace Sys2Proof.Machine

/-- r0 to r14 by their numbers. -/
theorem physOf_ofNat (m : Mode) {r : Nat} (h : r < 15) : physOf (BitVec.ofNat 4 r) m = some (phys ⟨r, h⟩ m) := by
  have hr : (BitVec.ofNat 4 r).toNat = r := by rw [BitVec.toNat_ofNat]; omega
  simp [physOf, hr, h]

theorem State.readRegIn_ofNat (s : State) (m : Mode) {r : Nat} (h : r < 15) :
    s.readRegIn m (BitVec.ofNat 4 r) = s.readPhys (phys ⟨r, h⟩ m) := by
  rw [State.readRegIn, physOf_ofNat m h]

/-- Settles O22: the selection bank by bank, then the laws of a register write. -/
theorem registerBanks : Obligations.RegisterBanks := by
  unfold Obligations.RegisterBanks
  refine ⟨fun s m r h => ?_, fun s m => rfl, fun s m r v hr => ⟨s.readRegIn_writeRegIn_same m v hr, fun p hp => ?_⟩⟩
  · rw [s.readRegIn_ofNat m h]
    cases m with
    | usr | sys => rfl
    | fiq =>
      by_cases h8 : 8 ≤ r
      · simp [phys, h8, State.readPhys, Vector.get_eq_getElem]
      · simp [phys, h8, State.readPhys, Vector.get_eq_getElem]
    | irq | svc | abt | und =>
      rcases (by omega : r < 13 ∨ r = 13 ∨ r = 14) with hlt | rfl | rfl
      · simp [phys, State.readPhys, Vector.get_eq_getElem, show ¬ 13 ≤ r by omega, hlt.ne, show r ≠ 14 by omega]
      · rfl
      · rfl
  · exact s.readPhys_writeRegIn_other m r v (by simpa using hp)

end Sys2Proof.Machine
end

section
/-!
The statement of 20_memory.md O23: the mapping of a value to bytes, for reads and for writes (R63, R65).
-/

namespace Sys2Proof.Machine

/-! ### Bytes put together -/

/-- The lowest byte of bytes put together. -/
theorem append_byte_low {n : Nat} (h : BitVec n) (b : Byte) : (h ++ b).extractLsb' 0 8 = b := by
  rw [BitVec.extractLsb'_append_eq_of_add_le (Nat.le_refl 8), BitVec.extractLsb'_eq_self]

/-- The bytes above the lowest one. -/
theorem append_byte_above {n : Nat} (h : BitVec n) (b : Byte) (k : Nat) :
    (h ++ b).extractLsb' (k + 8) 8 = h.extractLsb' k 8 := by
  rw [BitVec.extractLsb'_append_eq_of_le (Nat.le_add_left 8 k), Nat.add_sub_cancel]

/-- A zero-extended value is below the bound of its own width. -/
theorem toNat_zeroExtended_lt {n : Nat} (v : BitVec n) : (v.setWidth 32).toNat < 2 ^ n := by
  rw [BitVec.toNat_setWidth]
  exact (Nat.mod_le _ _).trans_lt v.isLt

/-! ### The value of a read -/

/-- The bytes of the value of a read are those of memory, at ascending addresses. -/
theorem bytesOfValue_value (m : Memory) (e : Endian) (a : Word) (size : AccessSize) :
    bytesOfValue e (Memory.value m e a size) size = (byteRange a (accessBytes size)).map m.byteAt := by
  cases size with
  | byte => simp [bytesOfValue, Memory.value, accessBytes, byteRange, BitVec.extractLsb'_setWidth_of_le]
  | half =>
    cases e <;> simp [bytesOfValue, Memory.value, accessBytes, byteRange, List.range_succ,
      BitVec.extractLsb'_setWidth_of_le, append_byte_low, append_byte_above]
  | word =>
    cases e <;> simp [bytesOfValue, bytesOfWord, Memory.value, wordOfBytes, accessBytes, byteRange, List.range_succ,
      append_byte_low, append_byte_above]

/-- The value of a read has the byte of memory in its place. -/
theorem storedByte_value (m : Memory) (e : Endian) (a : Word) {size : AccessSize} {k : Nat}
    (hk : k < accessBytes size) :
    storedByte e (accessBytes size) (Memory.value m e a size) k = m.byteAt (a + BitVec.ofNat 32 k) := by
  rw [← bytesOfValue_getElem e (Memory.value m e a size) size k hk]
  simp [bytesOfValue_value, byteRange]

/-- The value of a read has no bit above its bytes. -/
theorem Memory.value_lt (m : Memory) (e : Endian) (a : Word) (size : AccessSize) :
    (Memory.value m e a size).toNat < 2 ^ (8 * accessBytes size) := by
  cases size with
  | byte => exact toNat_zeroExtended_lt _
  | half => cases e <;> exact toNat_zeroExtended_lt _
  | word => exact BitVec.isLt _

/-- Settles O23: a read by the bytes of its value and their bound, a write by the law of a store. -/
theorem memoryBytes : Obligations.MemoryBytes := by
  unfold Obligations.MemoryBytes
  exact ⟨fun s size a => ⟨fun _ hk => storedByte_value s.mem _ a hk, Memory.value_lt s.mem _ a size⟩,
    fun s size a v hm => s.stored_setMem size a v hm⟩

end Sys2Proof.Machine
end

section
/-!
What a transfer instruction does once its condition passes and its operands are allowed: one equation for each family of
forms (45_single_data_transfer.md R263, 46_halfword_signed_transfer.md R280, 47_multiple_transfer_swap.md R300 to R313,
49_coprocessor_brk_unused.md R353, R354).
-/

namespace Sys2Proof.Machine

/-! ### Single and half-word transfers -/

/-- The restrictions on the base and on the register of the offset, if it is one (45_single_data_transfer.md R250,
R251). -/
def withOffset (x : Indexing) (rd : Reg) (offsetReg : Option Reg) (k : Result State) : Result State :=
  match offsetReg with
  | none => withBase x rd k
  | some rm => withRegisterOffset x rd rm k

theorem withOffset_of_allowed {x : Indexing} {rd : Reg} {o : Option Reg} (k : Result State)
    (h : transferAllowed x.writeBack x.rn rd o = true) : withOffset x rd o k = k := by
  cases o with
  | none => exact withBase_of_allowed k h
  | some rm => exact withRegisterOffset_of_allowed k h

theorem withHalfword_of_allowed {p w : Bool} {rd : Reg} (k : Result State) (hrd : rd ≠ 15)
    (hpw : p = false → w = false) : withHalfword p w rd k = k := by
  have h : (p || !w) = true := by cases p <;> simp_all
  rw [withHalfword, bne_iff_ne.mpr hrd, h, require_true, require_true]

/-- How a load of the half-word family extends the value read (46_halfword_signed_transfer.md R283, R285, R286). -/
def HalfLoad.extend : HalfLoad → Word → Word
  | .ldrh => id
  | .ldrsb => fun v => (v.extractLsb' 0 8).signExtend 32
  | .ldrsh => fun v => (v.extractLsb' 0 16).signExtend 32

section
variable (c : Cond) (rn rd : Reg) (s : State)

theorem SingleForm.exec_ldr (f : SingleForm) :
    exec (f.ldr c rn rd) s = conditional c s (withOffset (f.indexing s rn) rd f.offsetReg?
      (require (!f.isUser || rd != 15) .pcOperand (loadWord s (f.indexing s rn) rd (f.privileged s)))) := by
  cases f <;> rfl

theorem SingleForm.exec_str (f : SingleForm) :
    exec (f.str c rn rd) s = conditional c s (withOffset (f.indexing s rn) rd f.offsetReg?
      (require (!f.isUser || rd != 15) .pcOperand (storeWord s (f.indexing s rn) rd (f.privileged s)))) := by
  cases f <;> rfl

theorem HalfLoad.exec_instr (l : HalfLoad) (f : HalfForm) (p u w : Bool) :
    exec (l.instr f c p u w rn rd) s = conditional c s (withHalfword p w rd
      (withOffset (f.indexing s p u w rn) rd f.offsetReg?
        (loadExtended s (f.indexing s p u w rn) rd l.size l.extend))) := by
  cases f <;> cases l <;> rfl

theorem HalfForm.exec_strh (f : HalfForm) (p u w : Bool) :
    exec (f.strh c p u w rn rd) s = conditional c s (withHalfword p w rd
      (withOffset (f.indexing s p u w rn) rd f.offsetReg? (storeHalf s (f.indexing s p u w rn) rd))) := by
  cases f <;> rfl

end

section
variable {c : Cond} {rn rd : Reg} {s : State}

section
variable {f : SingleForm} (hr : Runs c s) (hpc : f.isUser = false ∨ rd ≠ 15)
  (ha : transferAllowed (f.indexing s rn).writeBack rn rd f.offsetReg? = true)
include hr hpc ha

/-- The restrictions of a form of LDR or STR, where they are kept. -/
theorem SingleForm.conditional_of_allowed (k : Result State) :
    conditional c s
      (withOffset (f.indexing s rn) rd f.offsetReg? (require (!f.isUser || rd != 15) .pcOperand k)) = k := by
  have h15 : (!f.isUser || rd != 15) = true := by simpa using hpc
  rw [conditional_of_runs hr, withOffset_of_allowed _ (by rwa [f.indexing_rn]), h15, require_true]

theorem SingleForm.exec_ldr_of_allowed :
    exec (f.ldr c rn rd) s = loadWord s (f.indexing s rn) rd (f.privileged s) := by
  rw [f.exec_ldr, f.conditional_of_allowed hr hpc ha]

theorem SingleForm.exec_str_of_allowed :
    exec (f.str c rn rd) s = storeWord s (f.indexing s rn) rd (f.privileged s) := by
  rw [f.exec_str, f.conditional_of_allowed hr hpc ha]

end

section
variable {f : HalfForm} {p u w : Bool} (hr : Runs c s) (hrd : rd ≠ 15) (hpw : p = false → w = false)
  (ha : transferAllowed (f.indexing s p u w rn).writeBack rn rd f.offsetReg? = true)
include hr hrd hpw ha

/-- The restrictions of a form of the half-word family, where they are kept. -/
theorem HalfForm.conditional_of_allowed (k : Result State) :
    conditional c s (withHalfword p w rd (withOffset (f.indexing s p u w rn) rd f.offsetReg? k)) = k := by
  rw [conditional_of_runs hr, withHalfword_of_allowed _ hrd hpw, withOffset_of_allowed _ (by rwa [f.indexing_rn])]

theorem HalfLoad.exec_instr_of_allowed (l : HalfLoad) :
    exec (l.instr f c p u w rn rd) s = loadExtended s (f.indexing s p u w rn) rd l.size l.extend := by
  rw [l.exec_instr, f.conditional_of_allowed hr hrd hpw ha]

theorem HalfForm.exec_strh_of_allowed :
    exec (f.strh c p u w rn rd) s = storeHalf s (f.indexing s p u w rn) rd := by
  rw [f.exec_strh, f.conditional_of_allowed hr hrd hpw ha]

end

/-! ### Block transfers and swap -/

/-- What a form of LDM does with the words read, the base written back (47_multiple_transfer_swap.md R303, R305,
R307). -/
def BlockLoad.finish (b : BlockLoad) (t : State) (vs : List Word) : Result State :=
  match b with
  | .ldm list =>
    if list.getLsbD 15 then (t.loadListed list vs).loadPc (vs.getLastD 0) else (t.loadListed list vs).advance
  | .ldmReturn low => (t.loadListed (1#1 ++ low) vs).exceptionReturn (vs.getLastD 0)
  | .ldmUser low => (writeRegsIn .usr t ((regsOf (0#1 ++ low)).zip vs)).advance

theorem BlockLoad.exec_instr_of_allowed {b : BlockLoad} {p u w : Bool} (hr : Runs c s) (ha : b.allowed w rn) :
    exec (b.instr c p u w rn) s = loadBlock s p u w rn b.list b.finish := by
  obtain ⟨hlist, hrn, hbase⟩ := ha
  refine (?_ : _ = withBlock b.list rn true _).trans (withBlock_of_wf _ hlist hrn)
  cases b with
  | ldm list | ldmReturn low =>
    rw [← loadBaseWf_iff.mpr hbase]
    exact conditional_of_runs hr _
  | ldmUser low => exact (conditional_of_runs hr _).trans (by rw [hbase]; rfl)

theorem BlockStore.exec_instr_of_allowed {b : BlockStore} {p u w : Bool} (hr : Runs c s) (ha : b.allowed w rn) :
    exec (b.instr c p u w rn) s = storeBlock s p u w rn ((regsOf b.list).map (b.value s)) := by
  obtain ⟨hlist, hrn, hbase⟩ := ha
  refine (?_ : _ = withBlock b.list rn true _).trans (withBlock_of_wf _ hlist hrn)
  cases b with
  | stm list =>
    rw [← storeBaseWf_iff.mpr hbase]
    exact conditional_of_runs hr _
  | stmUser list => exact (conditional_of_runs hr _).trans (by rw [hbase]; rfl)

theorem exec_swp_of_runs {rm : Reg} (hr : Runs c s) :
    exec (.swp c rn rd rm) s = swap s .word rn rd rm (s.loadRotated (s.readReg rn) s.privileged) :=
  conditional_of_runs hr _

/-! ### Coprocessor transfers -/

theorem CpTransfer.exec_ldc_of_allowed {f : CpTransfer} (hr : Runs c s) (ha : f.allowed = true)
    (hcp : s.cpAccepts f.cp (encode (f.ldc c)) = true) :
    exec (f.ldc c) s = loadCoprocessor s f.indexing f.n f.crd f.cp f.option := by
  rw [← f.option_eq]
  exact (conditional_of_runs hr _).trans (withCoprocessorTransfer_of_wf _ ha hcp)

theorem CpTransfer.exec_stc_of_allowed {f : CpTransfer} (hr : Runs c s) (ha : f.allowed = true)
    (hcp : s.cpAccepts f.cp (encode (f.stc c)) = true) :
    exec (f.stc c) s = storeCoprocessor s f.indexing f.n f.crd f.cp f.option := by
  rw [← f.option_eq]
  exact (conditional_of_runs hr _).trans (withCoprocessorTransfer_of_wf _ ha hcp)

end

end Sys2Proof.Machine
end

section
/-!
The statement of 20_memory.md O48: a misaligned transfer is refused or takes the data abort (R66, R67). First, for each
operation the transfers share, what it answers where its access stops, by a data abort or a refusal; then the stop of a
misaligned access.
-/

namespace Sys2Proof.Machine

/-! ### Transfers whose first access stops -/

section
variable {s : State} {e : Stop} {x : Indexing} {rn rd : Reg} {privileged : Bool}

theorem loadIndexed_of_stop (k : State → Word → Result State) :
    loadIndexed s x (.error e) k = stopWith e (s.withAbortedBase x.writeBack x.rn (s.indexed x)) := by
  rw [State.withAbortedBase_eq]
  rfl

theorem loadWord_of_stop (h : s.access .read .word (s.addressOf x) privileged = .error e) :
    loadWord s x rd privileged = stopWith e (s.withAbortedBase x.writeBack x.rn (s.indexed x)) := by
  rw [loadWord, State.loadRotated_error.mpr h, loadIndexed_of_stop]

theorem loadExtended_of_stop {size : AccessSize} {extend : Word → Word}
    (h : s.access .read size (s.addressOf x) s.privileged = .error e) :
    loadExtended s x rd size extend = stopWith e (s.withAbortedBase x.writeBack x.rn (s.indexed x)) := by
  rw [loadExtended, State.load_error.mpr h, loadIndexed_of_stop]

theorem storeIndexed_of_stop {size : AccessSize} {v : Word}
    (h : s.access .write size (s.addressOf x) privileged = .error e) :
    storeIndexed s x size v privileged = stopWith e (s.withAbortedBase x.writeBack x.rn (s.indexed x)) := by
  rw [storeIndexed, State.store_error.mpr h, State.withAbortedBase_eq]

/-- Of words read in order, the first of which stops, none is read. -/
theorem State.loadWords_of_stop {a : Word} {n : Nat} (hn : 0 < n) (h : s.access .read .word a s.privileged = .error e) :
    s.loadWords a n = ([], some e) := by
  obtain ⟨m, rfl⟩ := Nat.exists_eq_succ_of_ne_zero hn.ne'
  rw [State.loadWords, State.load_error.mpr h]

/-- Of words stored in order, the first of which stops, none is stored. -/
theorem State.storeWords_of_stop {a : Word} {vs : List Word} (hn : 0 < vs.length)
    (h : s.access .write .word a s.privileged = .error e) : s.storeWords a vs = (s, some e) := by
  obtain ⟨v, rest, rfl⟩ := List.exists_cons_of_length_pos hn
  rw [State.storeWords, State.store_error.mpr h]

/-- A list that is not empty has a register. -/
theorem listCount_pos {list : BitVec 16} (h : list ≠ 0) : 0 < listCount list := by
  contrapose! h
  apply BitVec.eq_of_getLsbD_eq
  intro i hi
  by_contra hb
  have hr : (BitVec.ofNat 4 i).toNat = i := Nat.mod_eq_of_lt hi
  have hlt := listRank_lt (list := list) (r := BitVec.ofNat 4 i) (by simpa [hr] using hb)
  omega

theorem loadBlock_of_stop {p u w : Bool} {list : BitVec 16} {k : State → List Word → Result State} (hl : list ≠ 0)
    (h : s.access .read .word (blockStart p u (s.readReg rn) (listCount list)) s.privileged = .error e) :
    loadBlock s p u w rn list k = stopWith e (s.withAbortedBase w rn (s.newBase u rn list)) := by
  simp only [loadBlock, regsOf_length, State.loadWords_of_stop (listCount_pos hl) h, State.withAbortedBase_eq]
  rfl

theorem storeBlock_of_stop {p u w : Bool} {list : BitVec 16} {f : Reg → Word} (hl : list ≠ 0)
    (h : s.access .write .word (blockStart p u (s.readReg rn) (listCount list)) s.privileged = .error e) :
    storeBlock s p u w rn ((regsOf list).map f) = stopWith e (s.withAbortedBase w rn (s.newBase u rn list)) := by
  have hlen : ((regsOf list).map f).length = listCount list := by rw [List.length_map, regsOf_length]
  have hpos : 0 < ((regsOf list).map f).length := hlen ▸ listCount_pos hl
  simp only [storeBlock, hlen, State.storeWords_of_stop hpos h, State.withAbortedBase_eq]
  rfl

theorem swap_of_stop {size : AccessSize} {rm : Reg} (hw : swapWf rn rd rm = true) :
    swap s size rn rd rm (.error e) = stopWith e s := by
  rw [swapWf, Bool.and_assoc, Bool.and_eq_true] at hw
  rw [swap, hw.1, hw.2, require_true, require_true]

theorem loadCoprocessor_of_stop {n : Bool} {crd : CReg} {cp : CpNum} {option : Option (BitVec 8)}
    (h : s.access .read .word (s.addressOf x) s.privileged = .error e) :
    loadCoprocessor s x n crd cp option = stopWith e
      ((s.setCpState cp (Config.cpLdcAborted cp (s.cpState cp))).withAbortedBase x.writeBack x.rn (s.indexed x)) := by
  simp only [loadCoprocessor, State.loadWords_of_stop (Nat.succ_pos _) h, State.withAbortedBase_eq]
  rfl

theorem storeCoprocessor_of_stop {n : Bool} {crd : CReg} {cp : CpNum} {option : Option (BitVec 8)}
    (h : s.access .write .word (s.addressOf x) s.privileged = .error e) :
    storeCoprocessor s x n crd cp option = stopWith e (s.withAbortedBase x.writeBack x.rn (s.indexed x)) := by
  have hpos : 0 < (supplyWords cp (s.cpState cp) n crd option
      ((Config.cpStcCount cp (s.cpState cp) n crd option).val + 1)).length := by simp [supplyWords]
  simp only [storeCoprocessor, State.storeWords_of_stop hpos h, State.withAbortedBase_eq]

end

/-! ### Misaligned accesses -/

section
variable {s : State} {kind : AccessKind} {size : AccessSize} {a : Word} {privileged : Bool}

/-- A misaligned word is not accessed, unless `MISALIGN = rotate` makes it aligned. -/
theorem State.access_of_misaligned_word (hm : s.platform.misalign ≠ .rotate) (ha : a.toNat % 4 ≠ 0) :
    s.access kind .word a privileged = .error (misalignedStop s) := by
  refine State.access_error.mpr (.inr ⟨?_, rfl⟩)
  rw [State.effectiveAddress_word, if_neg hm]
  exact beq_false_of_ne ha

/-- A misaligned half-word is not accessed. -/
theorem State.access_of_misaligned_half (ha : a.toNat % 2 ≠ 0) :
    s.access kind .half a privileged = .error (misalignedStop s) :=
  State.access_error.mpr (.inr ⟨beq_false_of_ne ha, rfl⟩)

/-- The lowest address of a block transfer is as misaligned as its base. -/
theorem blockStart_misaligned {base : Word} (p u : Bool) (n : Nat) (h : base.toNat % 4 ≠ 0) :
    (blockStart p u base n).toNat % 4 ≠ 0 := by
  have hbytes : (blockBytes n).toNat = 4 * n % 2 ^ 32 := BitVec.toNat_ofNat _ _
  have h4 : (4 : Word).toNat = 4 := rfl
  cases p <;> cases u <;> simp only [blockStart, BitVec.toNat_add, BitVec.toNat_sub, hbytes, h4] <;> omega

end

section
variable {s u : State} {x : Result State}

/-- A misaligned access is refused where `MISALIGN` does not make it a data abort. -/
theorem refused_of_misalignedStop (hx : x = stopWith (misalignedStop s) u)
    (h : s.platform.misalign = .refuse ∨ s.platform.misalign = .rotate) : x = .refused .misaligned := by
  rw [hx, misalignedStop]
  rcases h with h | h <;> rw [h] <;> rfl

/-- Under `MISALIGN = abort` a misaligned access enters the data abort. -/
theorem enters_of_misalignedStop (hx : x = stopWith (misalignedStop s) u) (h : s.platform.misalign = .abort) :
    ∃ t, x = .next t ∧ Entered .dataAbort u t :=
  ⟨_, by rw [hx, misalignedStop, h]; rfl, takeException_entered .dataAbort u⟩

/-- The two stops of a misaligned word. -/
theorem misalignedWord_stops (hx : s.platform.misalign ≠ .rotate → x = stopWith (misalignedStop s) u) :
    (s.platform.misalign = .refuse → x = .refused .misaligned) ∧
    (s.platform.misalign = .abort → ∃ t, x = .next t ∧ Entered .dataAbort u t) :=
  ⟨fun h => refused_of_misalignedStop (hx (by simp [h])) (.inl h),
    fun h => enters_of_misalignedStop (hx (by simp [h])) h⟩

/-- What an aborted LDC leaves before the base: one coprocessor's state is replaced. -/
theorem State.setCpState_frame (s : State) (cp : CpNum) (v : CpState) :
    CoprocFrame s (s.setCpState cp v) cp v [] where
  own := s.cpState_setCpState_same cp v
  others _ hn := s.cpState_setCpState_other v hn
  registers _ _ := by simp
  cpsr := rfl
  spsrs _ := by simp
  outside := ⟨rfl, rfl⟩

end

/-! ### The transfers -/

section
variable {s : State} {c : Cond} {rn rd : Reg}

/-- A misaligned LDR or LDRT stops. -/
theorem SingleForm.ldr_misaligned {f : SingleForm} (hr : Runs c s)
    (ha : transferAllowed (f.indexing s rn).writeBack rn rd f.offsetReg? = true) (hpc : f.isUser = false ∨ rd ≠ 15)
    (hmis : (s.addressOf (f.indexing s rn)).toNat % 4 ≠ 0) (hm : s.platform.misalign ≠ .rotate) :
    exec (f.ldr c rn rd) s = stopWith (misalignedStop s)
      (s.withAbortedBase (f.indexing s rn).writeBack rn (s.indexed (f.indexing s rn))) := by
  rw [f.exec_ldr_of_allowed hr hpc ha, loadWord_of_stop (State.access_of_misaligned_word hm hmis), f.indexing_rn]

/-- A misaligned STR or STRT stops. -/
theorem SingleForm.str_misaligned {f : SingleForm} (hr : Runs c s)
    (ha : transferAllowed (f.indexing s rn).writeBack rn rd f.offsetReg? = true) (hpc : f.isUser = false ∨ rd ≠ 15)
    (hmis : (s.addressOf (f.indexing s rn)).toNat % 4 ≠ 0) (hm : s.platform.misalign ≠ .rotate) :
    exec (f.str c rn rd) s = stopWith (misalignedStop s)
      (s.withAbortedBase (f.indexing s rn).writeBack rn (s.indexed (f.indexing s rn))) := by
  rw [f.exec_str_of_allowed hr hpc ha, storeWord,
    storeIndexed_of_stop (State.access_of_misaligned_word hm hmis), f.indexing_rn]

/-- A misaligned LDRH or LDRSH stops. -/
theorem HalfLoad.instr_misaligned {l : HalfLoad} {f : HalfForm} {p u w : Bool} (hr : Runs c s) (hrd : rd ≠ 15)
    (hpw : p = false → w = false)
    (ha : transferAllowed (f.indexing s p u w rn).writeBack rn rd f.offsetReg? = true) (hl : l.size = .half)
    (hmis : (s.addressOf (f.indexing s p u w rn)).toNat % 2 ≠ 0) :
    exec (l.instr f c p u w rn rd) s = stopWith (misalignedStop s)
      (s.withAbortedBase (f.indexing s p u w rn).writeBack rn (s.indexed (f.indexing s p u w rn))) := by
  rw [l.exec_instr_of_allowed hr hrd hpw ha, hl,
    loadExtended_of_stop (State.access_of_misaligned_half hmis), f.indexing_rn]

/-- A misaligned STRH stops. -/
theorem HalfForm.strh_misaligned {f : HalfForm} {p u w : Bool} (hr : Runs c s) (hrd : rd ≠ 15)
    (hpw : p = false → w = false)
    (ha : transferAllowed (f.indexing s p u w rn).writeBack rn rd f.offsetReg? = true)
    (hmis : (s.addressOf (f.indexing s p u w rn)).toNat % 2 ≠ 0) :
    exec (f.strh c p u w rn rd) s = stopWith (misalignedStop s)
      (s.withAbortedBase (f.indexing s p u w rn).writeBack rn (s.indexed (f.indexing s p u w rn))) := by
  rw [f.exec_strh_of_allowed hr hrd hpw ha, storeHalf, storeIndexed_of_stop (State.access_of_misaligned_half hmis),
    f.indexing_rn]

/-- An LDM from a misaligned base stops at its first word. -/
theorem BlockLoad.instr_misaligned {b : BlockLoad} {p u w : Bool} (ha : b.allowed w rn) (hr : Runs c s)
    (hmis : (s.readReg rn).toNat % 4 ≠ 0) (hm : s.platform.misalign ≠ .rotate) :
    exec (b.instr c p u w rn) s
      = stopWith (misalignedStop s) (s.withAbortedBase w rn (s.newBase u rn b.list)) := by
  rw [b.exec_instr_of_allowed hr ha,
    loadBlock_of_stop ha.1 (State.access_of_misaligned_word hm (blockStart_misaligned p u _ hmis))]

/-- An STM from a misaligned base stops at its first word. -/
theorem BlockStore.instr_misaligned {b : BlockStore} {p u w : Bool} (ha : b.allowed w rn) (hr : Runs c s)
    (hmis : (s.readReg rn).toNat % 4 ≠ 0) (hm : s.platform.misalign ≠ .rotate) :
    exec (b.instr c p u w rn) s
      = stopWith (misalignedStop s) (s.withAbortedBase w rn (s.newBase u rn b.list)) := by
  rw [b.exec_instr_of_allowed hr ha,
    storeBlock_of_stop ha.1 (State.access_of_misaligned_word hm (blockStart_misaligned p u _ hmis))]

/-- A misaligned SWP stops at its read. -/
theorem exec_swp_misaligned {rm : Reg} (hw : swapWf rn rd rm = true) (hr : Runs c s)
    (hmis : (s.readReg rn).toNat % 4 ≠ 0) (hm : s.platform.misalign ≠ .rotate) :
    exec (.swp c rn rd rm) s = stopWith (misalignedStop s) s := by
  rw [exec_swp_of_runs hr, State.loadRotated_error.mpr (State.access_of_misaligned_word hm hmis), swap_of_stop hw]

/-- A misaligned LDC stops at its first word. -/
theorem CpTransfer.ldc_misaligned {f : CpTransfer} (ha : f.allowed = true) (hr : Runs c s)
    (hmis : (s.addressOf f.indexing).toNat % 4 ≠ 0) (hcp : s.cpAccepts f.cp (encode (f.ldc c)) = true)
    (hm : s.platform.misalign ≠ .rotate) :
    exec (f.ldc c) s = stopWith (misalignedStop s)
      ((s.setCpState f.cp (Config.cpLdcAborted f.cp (s.cpState f.cp))).withAbortedBase f.w f.rn
        (s.indexed f.indexing)) := by
  rw [f.exec_ldc_of_allowed hr ha hcp, loadCoprocessor_of_stop (State.access_of_misaligned_word hm hmis)]
  rfl

/-- A misaligned STC stops at its first word. -/
theorem CpTransfer.stc_misaligned {f : CpTransfer} (ha : f.allowed = true) (hr : Runs c s)
    (hmis : (s.addressOf f.indexing).toNat % 4 ≠ 0) (hcp : s.cpAccepts f.cp (encode (f.stc c)) = true)
    (hm : s.platform.misalign ≠ .rotate) :
    exec (f.stc c) s
      = stopWith (misalignedStop s) (s.withAbortedBase f.w f.rn (s.indexed f.indexing)) := by
  rw [f.exec_stc_of_allowed hr ha hcp, storeCoprocessor_of_stop (State.access_of_misaligned_word hm hmis)]
  rfl

end

/-- Settles O48: each transfer is its shared operation, whose first access stops for being misaligned. -/
theorem misalignedTransferStops : Obligations.MisalignedTransferStops := by
  unfold Obligations.MisalignedTransferStops
  refine ⟨fun f c rn rd s ha hpc hr hmis => ?single,
    fun f l c p u w rn rd s hrd hpw ha hr hl hmis => ?half,
    fun b c p u w rn s ha hr hmis => misalignedWord_stops (b.instr_misaligned ha hr hmis),
    fun b c p u w rn s ha hr hmis => misalignedWord_stops (b.instr_misaligned ha hr hmis),
    fun c rn rd rm s hw hr hmis => misalignedWord_stops (exec_swp_misaligned hw hr hmis),
    fun f c s ha hr hmis => ?coprocessor⟩
  case single =>
    obtain ⟨hldr, hldrAbort⟩ := misalignedWord_stops (f.ldr_misaligned hr ha hpc hmis)
    obtain ⟨hstr, hstrAbort⟩ := misalignedWord_stops (f.str_misaligned hr ha hpc hmis)
    exact ⟨fun h => ⟨hldr h, hstr h⟩, fun h => ⟨hldrAbort h, hstrAbort h⟩⟩
  case half =>
    have hload := l.instr_misaligned hr hrd hpw ha hl hmis
    have hstore := f.strh_misaligned hr hrd hpw ha hmis
    exact ⟨fun h => ⟨refused_of_misalignedStop hload h, refused_of_misalignedStop hstore h⟩,
      fun h => ⟨enters_of_misalignedStop hload h, enters_of_misalignedStop hstore h⟩⟩
  case coprocessor =>
    rw [show f.wordAddress s 0 = s.addressOf f.indexing from wordAt_zero _] at hmis
    refine ⟨fun hcp => ?_, fun hcp => misalignedWord_stops (f.stc_misaligned ha hr hmis hcp)⟩
    obtain ⟨hrefused, haborts⟩ := misalignedWord_stops (f.ldc_misaligned ha hr hmis hcp)
    refine ⟨hrefused, fun h => ?_⟩
    obtain ⟨t, ht, hentered⟩ := haborts h
    exact ⟨_, t, ht, s.setCpState_frame f.cp _, ⟨fun _ => rfl, rfl⟩, rfl, hentered⟩

end Sys2Proof.Machine
end

section
/-!
The words of the encoder by their fields (spec/30_encoding.md R103 to R120): a format gives the word `w` just if each
field of `w` is the operand the format puts there. The round trips of O2 and O3 read this equivalence in the two
directions.
-/

namespace Sys2Proof

/-! ### Fields -/

section
variable {c : Cond} {w : Word}

/-- A field is two fields side by side. -/
theorem field_eq_append_iff {hi lo n m : Nat} {x : BitVec n} {y : BitVec m} (h : hi = lo + m) :
    field w lo (n + m) = x ++ y ↔ field w hi n = x ∧ field w lo m = y := by
  rw [← field_append w h]
  refine ⟨fun e => ?_, fun ⟨hx, hy⟩ => by rw [hx, hy]⟩
  have hy : field w lo m = y := by
    simpa only [BitVec.setWidth_append_eq_right] using congrArg (BitVec.setWidth m) e
  rw [hy, BitVec.append_left_inj] at e
  exact ⟨e, hy⟩

/-- Two neighbouring fields of known value make one. -/
theorem field_join {hi lo n m : Nat} {x : BitVec n} {y : BitVec m} (hx : field w hi n = x) (hy : field w lo m = y)
    (h : hi = lo + m := by rfl) : field w lo (n + m) = x ++ y := (field_eq_append_iff h).mpr ⟨hx, hy⟩

theorem field_one_eq_b1 {i : Nat} {b : Bool} : field w i 1 = b1 b ↔ bit w i = b := by
  cases b
  · exact field_one_eq_zero
  · exact field_one_eq_one

/-- A bit the decoder tests as set. -/
theorem field_set {i : Nat} (h : bit w i = true) : field w i 1 = 1#1 := field_one_eq_one.mpr h

/-- A bit the decoder tests as clear. -/
theorem field_clear {i : Nat} (h : ¬ bit w i = true) : field w i 1 = 0#1 :=
  field_one_eq_zero.mpr (eq_false_of_ne_true h)

/-- A bit of a field of known value. -/
theorem bit_eq_of_field {lo len : Nat} {v : BitVec len} (h : field w lo len = v) {i : Nat} (hi : i < len := by decide) :
    bit w (lo + i) = v.getLsbD i := by
  rw [← h, field, BitVec.getLsbD_extractLsb', decide_eq_true hi, Bool.true_and, bit]

/-- A part of a field of known value. -/
theorem field_of_field {lo len : Nat} {v : BitVec len} (h : field w lo len = v) {i n : Nat}
    (hi : i + n ≤ len := by decide) : field w (lo + i) n = v.extractLsb' i n := by
  subst h
  apply BitVec.eq_of_getLsbD_eq
  intro k hk
  simp [field, hk, show i + k < len by omega, Nat.add_assoc]

/-- The class, where bit 25 is an operand of the format (R103, R113). -/
theorem class_eq_append_iff {x : BitVec 2} {y : Bool} :
    field w 25 3 = x ++ b1 y ↔ field w 26 2 = x ∧ bit w 25 = y := by
  rw [field_eq_append_iff (n := 2) (m := 1) rfl, field_one_eq_b1]

/-- A word is the field of its 32 bits. -/
theorem eq_word_iff {x : Word} : x = w ↔ field w 0 32 = x := by rw [field_all, eq_comm]

theorem extractLsb'_append_high {n m : Nat} (x : BitVec n) (y : BitVec m) : (x ++ y).extractLsb' m n = x := by
  rw [BitVec.extractLsb'_append_eq_of_le le_rfl, Nat.sub_self, BitVec.extractLsb'_eq_self]

theorem extractLsb'_append_low {n m : Nat} (x : BitVec n) (y : BitVec m) : (x ++ y).extractLsb' 0 m = y := by
  rw [← BitVec.setWidth_eq_extractLsb' (Nat.le_add_left m n), BitVec.setWidth_append_eq_right]

theorem append_extractLsb' {n m : Nat} (v : BitVec (n + m)) : v.extractLsb' m n ++ v.extractLsb' 0 m = v := by
  rw [BitVec.extractLsb'_append_extractLsb'_eq_extractLsb' (Nat.zero_add m).symm, BitVec.extractLsb'_eq_self]

/-! ### The second operand -/

theorem ShiftType.ofBits_eq_iff {v : BitVec 2} {t : ShiftType} : ShiftType.ofBits v = t ↔ v = t.bits :=
  ⟨fun h => by rw [← h, ShiftType.bits_ofBits], fun h => by rw [h, ShiftType.ofBits_bits]⟩

theorem RotImm.bits_eq_iff {o : RotImm} : field w 0 12 = o.bits ↔ rotImmOf w = o := by
  rw [RotImm.bits]
  change field w 0 (4 + 8) = _ ↔ _
  rw [field_eq_append_iff rfl, rotImmOf, RotImm.mk.injEq]

theorem ImmShift.bits_eq_iff {o : ImmShift} : field w 0 12 = o.bits ↔ immShiftOf w = o ∧ bit w 4 = false := by
  obtain ⟨amount, type, rm⟩ := o
  rw [ImmShift.bits]
  change field w 0 (5 + 2 + 1 + 4) = _ ↔ _
  simp only [field_eq_append_iff rfl, field_one_eq_zero, immShiftOf, ImmShift.mk.injEq, ShiftType.ofBits_eq_iff]
  tauto

theorem RegShift.bits_eq_iff {o : RegShift} :
    field w 0 12 = o.bits ↔ regShiftOf w = o ∧ bit w 7 = false ∧ bit w 4 = true := by
  obtain ⟨rs, type, rm⟩ := o
  rw [RegShift.bits]
  change field w 0 (4 + 1 + 2 + 1 + 4) = _ ↔ _
  simp only [field_eq_append_iff rfl, field_one_eq_zero, field_one_eq_one, regShiftOf, RegShift.mk.injEq,
    ShiftType.ofBits_eq_iff]
  tauto

/-! ### The formats -/

theorem encodeDp_eq_iff {imm : Bool} {op : DpOp} {s : Bool} {rn rd : Reg} {op2 : BitVec 12} :
    encodeDp c imm op s rn rd op2 = w ↔ field w 28 4 = c.bits ∧ field w 26 2 = 0 ∧ bit w 25 = imm ∧
      field w 21 4 = op.bits ∧ bit w 20 = s ∧ field w 16 4 = rn ∧ field w 12 4 = rd ∧ field w 0 12 = op2 := by
  rw [eq_word_iff, encodeDp]
  change field w 0 (4 + 2 + 1 + 4 + 1 + 4 + 4 + 12) = _ ↔ _
  simp only [field_eq_append_iff rfl, field_one_eq_b1, and_assoc]
  rfl

theorem encodeMultiply_eq_iff {kind : BitVec 3} {s : Bool} {hi lo rs rm : Reg} :
    encodeMultiply c kind s hi lo rs rm = w ↔ field w 28 4 = c.bits ∧ field w 24 4 = 0 ∧ field w 21 3 = kind ∧
      bit w 20 = s ∧ field w 16 4 = hi ∧ field w 12 4 = lo ∧ field w 8 4 = rs ∧ field w 4 4 = 9 ∧
      field w 0 4 = rm := by
  rw [eq_word_iff, encodeMultiply]
  change field w 0 (4 + 4 + 3 + 1 + 4 + 4 + 4 + 4 + 4) = _ ↔ _
  simp only [field_eq_append_iff rfl, field_one_eq_b1, and_assoc]
  rfl

theorem encodeSwap_eq_iff {byte : Bool} {rn rd rm : Reg} :
    encodeSwap c byte rn rd rm = w ↔ field w 28 4 = c.bits ∧ field w 23 5 = 2 ∧ bit w 22 = byte ∧ field w 20 2 = 0 ∧
      field w 16 4 = rn ∧ field w 12 4 = rd ∧ field w 4 8 = 9 ∧ field w 0 4 = rm := by
  rw [eq_word_iff, encodeSwap]
  change field w 0 (4 + 5 + 1 + 2 + 4 + 4 + 8 + 4) = _ ↔ _
  simp only [field_eq_append_iff rfl, field_one_eq_b1, and_assoc]
  rfl

theorem encodeHalfword_eq_iff {p u imm wb l : Bool} {rn rd : Reg} {hi : BitVec 4} {sh : BitVec 2} {lo : BitVec 4} :
    encodeHalfword c p u imm wb l rn rd hi sh lo = w ↔ field w 28 4 = c.bits ∧ field w 25 3 = 0 ∧ bit w 24 = p ∧
      bit w 23 = u ∧ bit w 22 = imm ∧ bit w 21 = wb ∧ bit w 20 = l ∧ field w 16 4 = rn ∧ field w 12 4 = rd ∧
      field w 8 4 = hi ∧ bit w 7 = true ∧ field w 5 2 = sh ∧ bit w 4 = true ∧ field w 0 4 = lo := by
  rw [eq_word_iff, encodeHalfword]
  change field w 0 (4 + 3 + 1 + 1 + 1 + 1 + 1 + 4 + 4 + 4 + 1 + 2 + 1 + 4) = _ ↔ _
  simp only [field_eq_append_iff rfl, field_one_eq_b1, field_one_eq_one, and_assoc]
  rfl

theorem encodeSingle_eq_iff {reg p u byte wb l : Bool} {rn rd : Reg} {off : BitVec 12} :
    encodeSingle c reg p u byte wb l rn rd off = w ↔ field w 28 4 = c.bits ∧ field w 26 2 = 1 ∧ bit w 25 = reg ∧
      bit w 24 = p ∧ bit w 23 = u ∧ bit w 22 = byte ∧ bit w 21 = wb ∧ bit w 20 = l ∧ field w 16 4 = rn ∧
      field w 12 4 = rd ∧ field w 0 12 = off := by
  rw [eq_word_iff, encodeSingle]
  change field w 0 (4 + 2 + 1 + 1 + 1 + 1 + 1 + 1 + 4 + 4 + 12) = _ ↔ _
  simp only [field_eq_append_iff rfl, field_one_eq_b1, and_assoc]
  rfl

theorem encodeBlock_eq_iff {p u s wb l : Bool} {rn : Reg} {list : BitVec 16} :
    encodeBlock c p u s wb l rn list = w ↔ field w 28 4 = c.bits ∧ field w 25 3 = 4 ∧ bit w 24 = p ∧ bit w 23 = u ∧
      bit w 22 = s ∧ bit w 21 = wb ∧ bit w 20 = l ∧ field w 16 4 = rn ∧ field w 0 16 = list := by
  rw [eq_word_iff, encodeBlock]
  change field w 0 (4 + 3 + 1 + 1 + 1 + 1 + 1 + 4 + 16) = _ ↔ _
  simp only [field_eq_append_iff rfl, field_one_eq_b1, and_assoc]
  rfl

theorem encodeCoprocessorTransfer_eq_iff {p u n wb l : Bool} {rn : Reg} {crd : CReg} {cp : CpNum} {off : BitVec 8} :
    encodeCoprocessorTransfer c p u n wb l rn crd cp off = w ↔ field w 28 4 = c.bits ∧ field w 25 3 = 6 ∧
      bit w 24 = p ∧ bit w 23 = u ∧ bit w 22 = n ∧ bit w 21 = wb ∧ bit w 20 = l ∧ field w 16 4 = rn ∧
      field w 12 4 = crd ∧ field w 8 4 = cp ∧ field w 0 8 = off := by
  rw [eq_word_iff, encodeCoprocessorTransfer]
  change field w 0 (4 + 3 + 1 + 1 + 1 + 1 + 1 + 4 + 4 + 4 + 8) = _ ↔ _
  simp only [field_eq_append_iff rfl, field_one_eq_b1, and_assoc]
  rfl

theorem encodeCoprocessorRegister_eq_iff {cop1 : BitVec 3} {l : Bool} {crn : CReg} {rd : Reg} {cp : CpNum}
    {cop2 : BitVec 3} {crm : CReg} :
    encodeCoprocessorRegister c cop1 l crn rd cp cop2 crm = w ↔ field w 28 4 = c.bits ∧ field w 24 4 = 14 ∧
      field w 21 3 = cop1 ∧ bit w 20 = l ∧ field w 16 4 = crn ∧ field w 12 4 = rd ∧ field w 8 4 = cp ∧
      field w 5 3 = cop2 ∧ bit w 4 = true ∧ field w 0 4 = crm := by
  rw [eq_word_iff, encodeCoprocessorRegister]
  change field w 0 (4 + 4 + 3 + 1 + 4 + 4 + 4 + 3 + 1 + 4) = _ ↔ _
  simp only [field_eq_append_iff rfl, field_one_eq_b1, field_one_eq_one, and_assoc]
  rfl

theorem encode_cdp_eq_iff {cop1 : BitVec 4} {crn crd : CReg} {cp : CpNum} {cop2 : BitVec 3} {crm : CReg} :
    encode (.cdp c cop1 crn crd cp cop2 crm) = w ↔ field w 28 4 = c.bits ∧ field w 24 4 = 14 ∧ field w 20 4 = cop1 ∧
      field w 16 4 = crn ∧ field w 12 4 = crd ∧ field w 8 4 = cp ∧ field w 5 3 = cop2 ∧ bit w 4 = false ∧
      field w 0 4 = crm := by
  rw [eq_word_iff, encode]
  change field w 0 (4 + 4 + 4 + 4 + 4 + 4 + 3 + 1 + 4) = _ ↔ _
  simp only [field_eq_append_iff rfl, field_one_eq_zero, and_assoc]
  rfl

/-- BX and BLX with a register (R109). -/
theorem encode_branchRegister_eq_iff {code : BitVec 24} {rm : Reg} :
    c.bits ++ code ++ rm = w ↔ field w 28 4 = c.bits ∧ field w 4 24 = code ∧ field w 0 4 = rm := by
  rw [eq_word_iff]
  change field w 0 (4 + 24 + 4) = _ ↔ _
  simp only [field_eq_append_iff rfl, and_assoc]

/-- B, BL and SWI (R115, R120). -/
theorem encode_code24_eq_iff {code : BitVec 4} {imm : BitVec 24} :
    c.bits ++ code ++ imm = w ↔ field w 28 4 = c.bits ∧ field w 24 4 = code ∧ field w 0 24 = imm := by
  rw [eq_word_iff]
  change field w 0 (4 + 4 + 24) = _ ↔ _
  simp only [field_eq_append_iff rfl, and_assoc]

theorem encode_clz_eq_iff {rd rm : Reg} :
    encode (.clz c rd rm) = w ↔ field w 28 4 = c.bits ∧ field w 16 12 = 0x16F ∧ field w 12 4 = rd ∧
      field w 4 8 = 0xF1 ∧ field w 0 4 = rm := by
  rw [eq_word_iff, encode]
  change field w 0 (4 + 12 + 4 + 8 + 4) = _ ↔ _
  simp only [field_eq_append_iff rfl, and_assoc]
  rfl

theorem encode_mrs_eq_iff {r : Bool} {rd : Reg} :
    encode (.mrs c r rd) = w ↔ field w 28 4 = c.bits ∧ field w 23 5 = 2 ∧ bit w 22 = r ∧ field w 20 2 = 0 ∧
      field w 16 4 = 15 ∧ field w 12 4 = rd ∧ field w 0 12 = 0 := by
  rw [eq_word_iff, encode]
  change field w 0 (4 + 5 + 1 + 2 + 4 + 4 + 12) = _ ↔ _
  simp only [field_eq_append_iff rfl, field_one_eq_b1, and_assoc]
  rfl

theorem encode_msrReg_eq_iff {r : Bool} {mask : BitVec 4} {rm : Reg} :
    encode (.msrReg c r mask rm) = w ↔ field w 28 4 = c.bits ∧ field w 23 5 = 2 ∧ bit w 22 = r ∧ field w 20 2 = 2 ∧
      field w 16 4 = mask ∧ field w 12 4 = 15 ∧ field w 4 8 = 0 ∧ field w 0 4 = rm := by
  rw [eq_word_iff, encode]
  change field w 0 (4 + 5 + 1 + 2 + 4 + 4 + 8 + 4) = _ ↔ _
  simp only [field_eq_append_iff rfl, field_one_eq_b1, and_assoc]
  rfl

theorem encode_msrImm_eq_iff {r : Bool} {mask : BitVec 4} {o : RotImm} :
    encode (.msrImm c r mask o) = w ↔ field w 28 4 = c.bits ∧ field w 23 5 = 6 ∧ bit w 22 = r ∧ field w 20 2 = 2 ∧
      field w 16 4 = mask ∧ field w 12 4 = 15 ∧ field w 0 12 = o.bits := by
  rw [eq_word_iff, encode]
  change field w 0 (4 + 5 + 1 + 2 + 4 + 4 + 12) = _ ↔ _
  simp only [field_eq_append_iff rfl, field_one_eq_b1, and_assoc]
  rfl

theorem encode_undefined_eq_iff {high : BitVec 20} {low : BitVec 4} :
    encode (.undefined c high low) = w ↔ field w 28 4 = c.bits ∧ field w 25 3 = 3 ∧ field w 5 20 = high ∧
      bit w 4 = true ∧ field w 0 4 = low := by
  rw [eq_word_iff, encode]
  change field w 0 (4 + 3 + 20 + 1 + 4) = _ ↔ _
  simp only [field_eq_append_iff rfl, field_one_eq_one, and_assoc]
  rfl

theorem encode_blxLabel_eq_iff {h : Bool} {off : BitVec 24} :
    encode (.blxLabel h off) = w ↔ field w 25 7 = 0x7D ∧ bit w 24 = h ∧ field w 0 24 = off := by
  rw [eq_word_iff, encode]
  change field w 0 (7 + 1 + 24) = _ ↔ _
  simp only [field_eq_append_iff rfl, field_one_eq_b1, and_assoc]
  rfl

theorem encode_unallocated_eq_iff {body : BitVec 28} :
    encode (.unallocated c body) = w ↔ field w 28 4 = c.bits ∧ field w 0 28 = body := by
  rw [eq_word_iff, encode]
  change field w 0 (4 + 28) = _ ↔ _
  simp only [field_eq_append_iff rfl]

theorem encode_brk_eq_iff {imm : BitVec 16} :
    encode (.brk imm) = w ↔ field w 20 12 = 0xE12 ∧ field w 8 12 = imm.extractLsb' 4 12 ∧ field w 4 4 = 7 ∧
      field w 0 4 = imm.extractLsb' 0 4 := by
  rw [eq_word_iff, encode]
  change field w 0 (12 + 12 + 4 + 4) = _ ↔ _
  simp only [field_eq_append_iff rfl, and_assoc]
  rfl

end

end Sys2Proof
end

section
/-!
O3: the word of the instruction a word decodes to is that word. For each class of spec/30_encoding.md R102, the
branch the decoder takes fixes the fields its format fixes.
-/

namespace Sys2Proof

/-! ### The formats that make several instructions -/

section
variable {c : Cond} {w : Word}

/-- The compares are the opcodes 10xx (spec/30_encoding.md R104). -/
theorem isCompare_iff (op : DpOp) : Machine.isCompare op = true ↔ op.bits.extractLsb' 2 2 = 2#2 := by
  cases op <;> decide

/-- The S bit of a compare is set (spec/43_data_processing.md R206). -/
theorem encode_dpImm (op : DpOp) (s : Bool) (rn rd : Reg) (o : RotImm) :
    encode (.dpImm op c s rn rd o) = encodeDp c true op (s || Machine.isCompare op) rn rd o.bits := by
  cases op <;> cases s <;> rfl

theorem encode_dpShift (op : DpOp) (s : Bool) (rn rd : Reg) (o : ImmShift) :
    encode (.dpShift op c s rn rd o) = encodeDp c false op (s || Machine.isCompare op) rn rd o.bits := by
  cases op <;> cases s <;> rfl

theorem encode_dpReg (op : DpOp) (s : Bool) (rn rd : Reg) (o : RegShift) :
    encode (.dpReg op c s rn rd o) = encodeDp c false op (s || Machine.isCompare op) rn rd o.bits := by
  cases op <;> cases s <;> rfl

/-- A compare the decoder does not leave to the status instructions has S = 1 (spec/30_encoding.md R108 to R111). -/
theorem compare_of_not_status (h : ¬ (field w 23 2 = 2 ∧ bit w 20 = false)) :
    (bit w 20 || Machine.isCompare (.ofBits (field w 21 4))) = bit w 20 := by
  rw [Bool.or_eq_left_iff_imp, isCompare_iff, DpOp.bits_ofBits, ← field_of_field (w := w) (lo := 21) rfl]
  exact fun h23 => Bool.not_eq_false _ ▸ fun h20 => h ⟨h23, h20⟩

/-- The word or byte transfer of the bits P, U, B, W, L, immediate offset (spec/30_encoding.md R113). -/
def Instr.singleImm (c : Cond) (p u byte wb l : Bool) (rn rd : Reg) (off : BitVec 12) : Instr :=
  if p then
    if byte then
      if l then .ldrbPreImm c u wb rn rd off else .strbPreImm c u wb rn rd off
    else
      if l then .ldrPreImm c u wb rn rd off else .strPreImm c u wb rn rd off
  else if wb then
    if byte then
      if l then .ldrbtImm c u rn rd off else .strbtImm c u rn rd off
    else
      if l then .ldrtImm c u rn rd off else .strtImm c u rn rd off
  else
    if byte then
      if l then .ldrbPostImm c u rn rd off else .strbPostImm c u rn rd off
    else
      if l then .ldrPostImm c u rn rd off else .strPostImm c u rn rd off

/-- The word or byte transfer of the bits P, U, B, W, L, register offset (R113). -/
def Instr.singleReg (c : Cond) (p u byte wb l : Bool) (rn rd : Reg) (o : ImmShift) : Instr :=
  if p then
    if byte then
      if l then .ldrbPreReg c u wb rn rd o else .strbPreReg c u wb rn rd o
    else
      if l then .ldrPreReg c u wb rn rd o else .strPreReg c u wb rn rd o
  else if wb then
    if byte then
      if l then .ldrbtReg c u rn rd o else .strbtReg c u rn rd o
    else
      if l then .ldrtReg c u rn rd o else .strtReg c u rn rd o
  else
    if byte then
      if l then .ldrbPostReg c u rn rd o else .strbPostReg c u rn rd o
    else
      if l then .ldrPostReg c u rn rd o else .strPostReg c u rn rd o

theorem decode010_eq : decode010 c w =
    .singleImm c (bit w 24) (bit w 23) (bit w 22) (bit w 21) (bit w 20) (field w 16 4) (field w 12 4) (field w 0 12) :=
  rfl

theorem decode011_eq : decode011 c w =
    if bit w 4 then .undefined c (field w 5 20) (field w 0 4)
    else .singleReg c (bit w 24) (bit w 23) (bit w 22) (bit w 21) (bit w 20) (field w 16 4) (field w 12 4)
      (immShiftOf w) := rfl

theorem encode_singleImm (p u byte wb l : Bool) (rn rd : Reg) (off : BitVec 12) :
    encode (.singleImm c p u byte wb l rn rd off) = encodeSingle c false p u byte wb l rn rd off := by
  cases p <;> cases byte <;> cases wb <;> cases l <;> rfl

theorem encode_singleReg (p u byte wb l : Bool) (rn rd : Reg) (o : ImmShift) :
    encode (.singleReg c p u byte wb l rn rd o) = encodeSingle c true p u byte wb l rn rd o.bits := by
  cases p <;> cases byte <;> cases wb <;> cases l <;> rfl

/-! ### The classes -/

theorem encode_unallocatedOf (hc : field w 28 4 = c.bits) : encode (unallocatedOf c w) = w :=
  encode_unallocated_eq_iff.mpr ⟨hc, rfl⟩

theorem encode_decodeMultiplySwap (hc : field w 28 4 = c.bits) (h25 : field w 25 3 = 0#3) (h4 : field w 4 4 = 9#4) :
    encode (decodeMultiplySwap c w) = w := by
  have multiply {kind : BitVec 3} (h : field w 21 7 = 0#4 ++ kind) :
      encodeMultiply c kind (bit w 20) (field w 16 4) (field w 12 4) (field w 8 4) (field w 0 4) = w := by
    obtain ⟨h24, h21⟩ := (field_eq_append_iff (hi := 24) (n := 4) (m := 3) rfl).mp h
    exact encodeMultiply_eq_iff.mpr ⟨hc, h24, h21, rfl, rfl, rfl, rfl, h4, rfl⟩
  have swap {byte : Bool} (h22 : bit w 22 = byte) (h : field w 23 2 = 2#2 ∧ field w 20 2 = 0 ∧ field w 8 4 = 0#4) :
      encodeSwap c byte (field w 16 4) (field w 12 4) (field w 0 4) = w := by
    obtain ⟨h23, h20, h8⟩ := h
    exact encodeSwap_eq_iff.mpr ⟨hc, field_join h25 h23, h22, h20, rfl, rfl, field_join h8 h4, rfl⟩
  unfold decodeMultiplySwap
  split_ifs with h22 h21 h23 h22 h21 h21 hswp h22
  · exact multiply (field_join h25 (field_join h22 (field_set h21)))
  · exact multiply (field_join h25 (field_join h22 (field_clear h21)))
  · exact multiply (field_join h25 (field_join h23 (field_join (field_set h22) (field_set h21))))
  · exact multiply (field_join h25 (field_join h23 (field_join (field_set h22) (field_clear h21))))
  · exact multiply (field_join h25 (field_join h23 (field_join (field_clear h22) (field_set h21))))
  · exact multiply (field_join h25 (field_join h23 (field_join (field_clear h22) (field_clear h21))))
  · exact swap h22 hswp
  · exact swap (eq_false_of_ne_true h22) hswp
  · exact encode_unallocatedOf hc

theorem encode_decodeHalfword (hc : field w 28 4 = c.bits) (h25 : field w 25 3 = 0#3) (h9 : ¬ field w 4 4 = 9#4)
    (h7 : bit w 7 = true) (h4 : bit w 4 = true) : encode (decodeHalfword c w) = w := by
  have half {imm l : Bool} {hi lo : BitVec 4} {sh : BitVec 2} (h22 : bit w 22 = imm) (h20 : bit w 20 = l)
      (h8 : field w 8 4 = hi) (h5 : field w 5 2 = sh) (h0 : field w 0 4 = lo) :
      encodeHalfword c (bit w 24) (bit w 23) imm (bit w 21) l (field w 16 4) (field w 12 4) hi sh lo = w :=
    encodeHalfword_eq_iff.mpr ⟨hc, h25, rfl, rfl, h22, rfl, h20, rfl, rfl, h8, h7, h5, h4, h0⟩
  have three (h1 : ¬ field w 5 2 = 1#2) (h2 : ¬ field w 5 2 = 2#2) : field w 5 2 = 3#2 := by
    have h0 : ¬ field w 5 2 = 0#2 := fun h0 => h9 (field_join (field_set h7) (field_join h0 (field_set h4)))
    bv_omega
  have high := (extractLsb'_append_high (field w 8 4) (field w 0 4)).symm
  have low := (extractLsb'_append_low (field w 8 4) (field w 0 4)).symm
  unfold decodeHalfword
  split_ifs with h22 h5 h20 h20 h6 h8 h5 h20 h20 h6
  · exact half h22 h20 high h5 low
  · exact half h22 (eq_false_of_ne_true h20) high h5 low
  · exact half h22 h20 high h6 low
  · exact half h22 h20 high (three h5 h6) low
  · exact encode_unallocatedOf hc
  · exact half (eq_false_of_ne_true h22) h20 h8 h5 rfl
  · exact half (eq_false_of_ne_true h22) (eq_false_of_ne_true h20) h8 h5 rfl
  · exact half (eq_false_of_ne_true h22) h20 h8 h6 rfl
  · exact half (eq_false_of_ne_true h22) h20 h8 (three h5 h6) rfl
  · exact encode_unallocatedOf hc
  · exact encode_unallocatedOf hc

theorem encode_decodeMiscellaneous (hc : field w 28 4 = c.bits) (h25 : field w 25 3 = 0#3) (h23 : field w 23 2 = 2#2)
    (h20 : bit w 20 = false) : encode (decodeMiscellaneous c w) = w := by
  have h235 : field w 23 5 = 2 := field_join h25 h23
  have f20 := field_one_eq_zero.mpr h20
  unfold decodeMiscellaneous
  split_ifs with hmrs hmsr hbx hblx hclz hbrk
  · obtain ⟨h21, h16, h0⟩ := hmrs
    exact encode_mrs_eq_iff.mpr ⟨hc, h235, rfl, field_join h21 f20, h16, rfl, h0⟩
  · obtain ⟨h21, h12, h4⟩ := hmsr
    exact encode_msrReg_eq_iff.mpr ⟨hc, h235, rfl, field_join h21 f20, rfl, h12, h4, rfl⟩
  · exact encode_branchRegister_eq_iff.mpr ⟨hc, field_join h235 hbx, rfl⟩
  · exact encode_branchRegister_eq_iff.mpr ⟨hc, field_join h235 hblx, rfl⟩
  · obtain ⟨h16, h22, h4⟩ := hclz
    exact encode_clz_eq_iff.mpr ⟨hc, field_join h235 (field_join (field_set h22) h16), rfl, h4, rfl⟩
  · obtain ⟨h20, h4, rfl⟩ := hbrk
    exact encode_brk_eq_iff.mpr ⟨field_join hc (field_join h235 h20), (extractLsb'_append_high ..).symm, h4,
      (extractLsb'_append_low ..).symm⟩
  · exact encode_unallocatedOf hc

theorem encode_decode000 (hc : field w 28 4 = c.bits) (h25 : field w 25 3 = 0#3) : encode (decode000 c w) = w := by
  unfold decode000
  split_ifs with h9 h74 hstatus h4
  · exact encode_decodeMultiplySwap hc h25 h9
  · obtain ⟨h7, h4⟩ := Bool.and_eq_true_iff.mp h74
    exact encode_decodeHalfword hc h25 h9 h7 h4
  · obtain ⟨h23, h20⟩ := hstatus
    exact encode_decodeMiscellaneous hc h25 h23 h20
  all_goals
    obtain ⟨h26, b25⟩ := class_eq_append_iff (x := 0#2) (y := false).mp h25
    have hs := compare_of_not_status hstatus
    have hop := (DpOp.bits_ofBits (field w 21 4)).symm
  · have h7 : bit w 7 = false := by simpa [h4] using h74
    have ho := RegShift.bits_eq_iff.mpr ⟨rfl, h7, h4⟩
    rw [encode_dpReg, hs]
    exact encodeDp_eq_iff.mpr ⟨hc, h26, b25, hop, rfl, rfl, rfl, ho⟩
  · have ho := ImmShift.bits_eq_iff.mpr ⟨rfl, eq_false_of_ne_true h4⟩
    rw [encode_dpShift, hs]
    exact encodeDp_eq_iff.mpr ⟨hc, h26, b25, hop, rfl, rfl, rfl, ho⟩

theorem encode_decode001 (hc : field w 28 4 = c.bits) (h25 : field w 25 3 = 1#3) : encode (decode001 c w) = w := by
  have hrot : field w 0 12 = (rotImmOf w).bits := RotImm.bits_eq_iff.mpr rfl
  unfold decode001
  split_ifs with hstatus hmsr
  · obtain ⟨h23, h20⟩ := hstatus
    obtain ⟨h21, h12⟩ := Bool.and_eq_true_iff.mp hmsr
    exact encode_msrImm_eq_iff.mpr ⟨hc, field_join h25 h23, rfl,
      field_join (field_set h21) (field_one_eq_zero.mpr h20), rfl, eq_of_beq h12, hrot⟩
  · exact encode_unallocatedOf hc
  · obtain ⟨h26, b25⟩ := class_eq_append_iff (x := 0#2) (y := true).mp h25
    rw [encode_dpImm, compare_of_not_status hstatus]
    exact encodeDp_eq_iff.mpr ⟨hc, h26, b25, (DpOp.bits_ofBits _).symm, rfl, rfl, rfl, hrot⟩

theorem encode_decode010 (hc : field w 28 4 = c.bits) (h25 : field w 25 3 = 2#3) : encode (decode010 c w) = w := by
  obtain ⟨h26, b25⟩ := class_eq_append_iff (x := 1#2) (y := false).mp h25
  rw [decode010_eq, encode_singleImm]
  exact encodeSingle_eq_iff.mpr ⟨hc, h26, b25, rfl, rfl, rfl, rfl, rfl, rfl, rfl, rfl⟩

theorem encode_decode011 (hc : field w 28 4 = c.bits) (h25 : field w 25 3 = 3#3) : encode (decode011 c w) = w := by
  rw [decode011_eq]
  split
  · next h4 => exact encode_undefined_eq_iff.mpr ⟨hc, h25, rfl, h4, rfl⟩
  · next h4 =>
    obtain ⟨h26, b25⟩ := class_eq_append_iff (x := 1#2) (y := true).mp h25
    rw [encode_singleReg]
    exact encodeSingle_eq_iff.mpr ⟨hc, h26, b25, rfl, rfl, rfl, rfl, rfl, rfl, rfl,
      ImmShift.bits_eq_iff.mpr ⟨rfl, eq_false_of_ne_true h4⟩⟩

theorem encode_decode100 (hc : field w 28 4 = c.bits) (h25 : field w 25 3 = 4#3) : encode (decode100 c w) = w := by
  have block {s l : Bool} {list : BitVec 16} (h22 : bit w 22 = s) (h20 : bit w 20 = l) (h0 : field w 0 16 = list) :
      encodeBlock c (bit w 24) (bit w 23) s (bit w 21) l (field w 16 4) list = w :=
    encodeBlock_eq_iff.mpr ⟨hc, h25, rfl, rfl, h22, rfl, h20, rfl, h0⟩
  unfold decode100
  split_ifs with h22 h20 h15 h20
  · exact block h22 h20 (field_join (field_set h15) (rfl : field w 0 15 = _))
  · exact block h22 h20 (field_join (field_clear h15) (rfl : field w 0 15 = _))
  · exact block h22 (eq_false_of_ne_true h20) rfl
  · exact block (eq_false_of_ne_true h22) h20 rfl
  · exact block (eq_false_of_ne_true h22) (eq_false_of_ne_true h20) rfl

theorem encode_decode101 (hc : field w 28 4 = c.bits) (h25 : field w 25 3 = 5#3) : encode (decode101 c w) = w := by
  unfold decode101
  split_ifs with h24
  · exact encode_code24_eq_iff.mpr ⟨hc, field_join h25 (field_set h24), rfl⟩
  · exact encode_code24_eq_iff.mpr ⟨hc, field_join h25 (field_clear h24), rfl⟩

/-- The remaining word of the class of CDP, MCR and MRC is SWI. -/
theorem encode_decode111_of_class (hc : field w 28 4 = c.bits) (h25 : field w 25 3 = 7#3) :
    encode (decode111 c w) = w := by
  cases h24 : bit w 24 with
  | false => exact encode_decode111 hc.symm h25 h24
  | true =>
    rw [decode111, h24, if_pos rfl]
    exact encode_code24_eq_iff.mpr ⟨hc, field_join h25 (field_set h24), rfl⟩

theorem encode_decodeConditional (hc : field w 28 4 = c.bits) : encode (decodeConditional c w) = w := by
  unfold decodeConditional
  split_ifs with h0 h1 h2 h3 h4 h5 h6
  · exact encode_decode000 hc h0
  · exact encode_decode001 hc h1
  · exact encode_decode010 hc h2
  · exact encode_decode011 hc h3
  · exact encode_decode100 hc h4
  · exact encode_decode101 hc h5
  · exact encode_decode110 hc.symm h6
  · exact encode_decode111_of_class hc (by bv_omega)

/-- A code that is no condition is 1111 (spec/40_conditional_execution.md R143). -/
theorem Cond.eq_15_of_ofBits_none {v : BitVec 4} (h : Cond.ofBits v = none) : v = 15#4 := by
  revert v
  decide

/-- Settles O3: a word with a condition by its class, the others by the one format that has none. -/
theorem encodeDecode : Obligations.EncodeDecode := by
  unfold Obligations.EncodeDecode
  intro w i h
  unfold decode at h
  split at h
  · next c hc =>
    cases h
    exact encode_decodeConditional (Cond.bits_of_ofBits hc).symm
  · next hnone =>
    split_ifs at h with h25
    cases h
    exact encode_blxLabel_eq_iff.mpr ⟨field_join (Cond.eq_15_of_ofBits_none hnone) h25, rfl, rfl⟩

end

end Sys2Proof
end

section
/-!
O4: a word is an unused encoding just if no row of the opcode table matches it (spec/30_encoding.md R135), BRK apart.
That the instructions of the catch-all have no row is `decode_bodyUnused`; here the converse: the fields a branch of the
decoder tests already make the word match a row.
-/

namespace Sys2Proof

/-! ### Words of which some fields are known -/

/-- The field from bit `lo` up has the value `value`. -/
structure FieldValue where
  lo : Nat
  {len : Nat}
  value : BitVec len

/-- The field of the word has the value. -/
def FieldValue.holds (f : FieldValue) (w : Word) : Prop := field w f.lo f.len = f.value

/-- The words with the value in the field, as a row. -/
def FieldValue.row (f : FieldValue) : OpcodeRow :=
  ⟨(BitVec.allOnes f.len).setWidth 28 <<< f.lo, f.value.setWidth 28 <<< f.lo⟩

/-- The words that match both rows, where some do. -/
def OpcodeRow.inter (r r' : OpcodeRow) : OpcodeRow := ⟨r.mask ||| r'.mask, r.value ||| r'.value⟩

/-- Every word that matches the first row matches the second. -/
def OpcodeRow.implies (r r' : OpcodeRow) : Bool :=
  r.mask &&& r'.mask == r'.mask && r.value &&& r'.mask == r'.value

/-- The words with all the values, as a row. -/
def rowOf (fs : List FieldValue) : OpcodeRow := fs.foldr (fun f r => f.row.inter r) ⟨0, 0⟩

/-- The values are those of some row of the opcode table. -/
def matchesSomeRow (fs : List FieldValue) : Bool := opcodeRows.any (rowOf fs).implies

section
variable {c : Cond} {w : Word}

theorem FieldValue.covers_row {f : FieldValue} (h : f.holds w) : f.row.covers (field w 0 28) = true := by
  rw [OpcodeRow.covers, beq_iff_eq, row, ← show field w f.lo f.len = f.value from h]
  apply BitVec.eq_of_getLsbD_eq
  intro i hi
  by_cases hlo : i < f.lo
  · simp [hlo]
  · by_cases hlen : i - f.lo < f.len
    · simp [field, hi, hlo, hlen, show f.lo + (i - f.lo) = i by omega]
    · simp [field, hi, hlo, hlen]

theorem OpcodeRow.covers_inter {r r' : OpcodeRow} {body : BitVec 28} (h : r.covers body = true)
    (h' : r'.covers body = true) : (r.inter r').covers body = true := by
  rw [covers, beq_iff_eq] at h h' ⊢
  rw [inter, BitVec.and_or_distrib_left, h, h']

theorem OpcodeRow.covers_of_implies {r r' : OpcodeRow} {body : BitVec 28} (h : r.covers body = true)
    (hi : r.implies r' = true) : r'.covers body = true := by
  obtain ⟨hm, hv⟩ := Bool.and_eq_true_iff.mp hi
  rw [covers, beq_iff_eq] at h ⊢
  rw [← eq_of_beq hm, ← BitVec.and_assoc, h, eq_of_beq hv]

theorem covers_rowOf {fs : List FieldValue} (h : fs.Forall (·.holds w)) : (rowOf fs).covers (field w 0 28) = true := by
  induction fs with
  | nil => exact beq_iff_eq.mpr BitVec.and_zero
  | cons f fs ih =>
    obtain ⟨hf, hfs⟩ := (List.forall_cons _ _ _).mp h
    exact OpcodeRow.covers_inter (f.covers_row hf) (ih hfs)

theorem isUnallocated_iff {body : BitVec 28} :
    isUnallocated body = true ↔ ∀ r ∈ opcodeRows, body &&& r.mask ≠ r.value := by
  simp [isUnallocated, OpcodeRow.covers]

/-- A word whose fields are those of some row is no unused encoding. -/
theorem not_isUnallocated {fs : List FieldValue} (h : matchesSomeRow fs = true) (hfs : fs.Forall (·.holds w)) :
    ¬ isUnallocated (field w 0 28) = true := by
  obtain ⟨r, hr, hi⟩ := List.any_eq_true.mp h
  exact fun hu => isUnallocated_iff.mp hu r hr (eq_of_beq (OpcodeRow.covers_of_implies (covers_rowOf hfs) hi))

/-! ### The fields of each branch are those of a row -/

/-- LDR, STR, LDRB, STRB and the T forms, immediate offset (spec/30_encoding.md R113). -/
theorem class010_rows : ∀ (x : BitVec 1) (v : BitVec 2) (y : BitVec 1),
    matchesSomeRow [⟨25, 2#3⟩, ⟨24, x⟩, ⟨21, v⟩, ⟨20, y⟩] = true := by decide

/-- The same, register offset (R113). -/
theorem class011_rows : ∀ (x : BitVec 1) (v : BitVec 2) (y : BitVec 1),
    matchesSomeRow [⟨25, 3#3⟩, ⟨24, x⟩, ⟨21, v⟩, ⟨20, y⟩, ⟨4, 0#1⟩] = true := by decide

/-- The undefined instruction space (R126). -/
theorem undefined_row : matchesSomeRow [⟨25, 3#3⟩, ⟨4, 1#1⟩] = true := by decide

/-- LDM, STM (R114). -/
theorem class100_rows : ∀ x y z : BitVec 1,
    matchesSomeRow [⟨25, 4#3⟩, ⟨22, x⟩, ⟨20, y⟩, ⟨15, z⟩] = true := by decide

/-- B, BL (R115). -/
theorem class101_rows : ∀ x : BitVec 1, matchesSomeRow [⟨25, 5#3⟩, ⟨24, x⟩] = true := by decide

/-- LDC, STC (R118). -/
theorem class110_rows : ∀ x : BitVec 1, matchesSomeRow [⟨25, 6#3⟩, ⟨20, x⟩] = true := by decide

/-- CDP, MCR, MRC, SWI (R117, R119, R120). -/
theorem class111_rows : ∀ x y z : BitVec 1, matchesSomeRow [⟨25, 7#3⟩, ⟨24, x⟩, ⟨20, y⟩, ⟨4, z⟩] = true := by decide

/-- Data processing, rotated immediate: every opcode but 10xx with S = 0 (R103, R104). -/
theorem dpImm_rows : ∀ (v u : BitVec 2) (x : BitVec 1), ¬ (v = 2#2 ∧ x = 0#1) →
    matchesSomeRow [⟨25, 1#3⟩, ⟨23, v⟩, ⟨21, u⟩, ⟨20, x⟩] = true := by decide

/-- Data processing, register shifted by an immediate (R103). -/
theorem dpShift_rows : ∀ (v u : BitVec 2) (x : BitVec 1), ¬ (v = 2#2 ∧ x = 0#1) →
    matchesSomeRow [⟨25, 0#3⟩, ⟨23, v⟩, ⟨21, u⟩, ⟨20, x⟩, ⟨4, 0#1⟩] = true := by decide

/-- Data processing, register shifted by a register (R103). -/
theorem dpReg_rows : ∀ (v u : BitVec 2) (x : BitVec 1), ¬ (v = 2#2 ∧ x = 0#1) →
    matchesSomeRow [⟨25, 0#3⟩, ⟨23, v⟩, ⟨21, u⟩, ⟨20, x⟩, ⟨7, 0#1⟩, ⟨4, 1#1⟩] = true := by decide

/-- MUL, MLA (R105). -/
theorem multiply_rows : ∀ x : BitVec 1, matchesSomeRow [⟨25, 0#3⟩, ⟨22, 0#3⟩, ⟨21, x⟩, ⟨4, 9#4⟩] = true := by decide

/-- The long multiplies (R106). -/
theorem longMultiply_rows : ∀ v : BitVec 2, matchesSomeRow [⟨25, 0#3⟩, ⟨23, 1#2⟩, ⟨21, v⟩, ⟨4, 9#4⟩] = true := by
  decide

/-- SWP, SWPB (R107). -/
theorem swap_rows : ∀ x : BitVec 1,
    matchesSomeRow [⟨25, 0#3⟩, ⟨23, 2#2⟩, ⟨22, x⟩, ⟨20, 0#2⟩, ⟨8, 0#4⟩, ⟨4, 9#4⟩] = true := by decide

/-- The half-word and signed byte transfers, immediate offset: S H is not 00, and 01 for a store (R112). -/
theorem halfwordImm_rows : ∀ (x : BitVec 1) (v : BitVec 2), v ≠ 0#2 → (v = 1#2 ∨ x = 1#1) →
    matchesSomeRow [⟨25, 0#3⟩, ⟨22, 1#1⟩, ⟨20, x⟩, ⟨7, 1#1⟩, ⟨5, v⟩, ⟨4, 1#1⟩] = true := by decide

/-- The same, register offset (R112). -/
theorem halfwordReg_rows : ∀ (x : BitVec 1) (v : BitVec 2), v ≠ 0#2 → (v = 1#2 ∨ x = 1#1) →
    matchesSomeRow [⟨25, 0#3⟩, ⟨22, 0#1⟩, ⟨20, x⟩, ⟨8, 0#4⟩, ⟨7, 1#1⟩, ⟨5, v⟩, ⟨4, 1#1⟩] = true := by decide

theorem mrs_rows : ∀ x : BitVec 1, matchesSomeRow
    [⟨25, 0#3⟩, ⟨23, 2#2⟩, ⟨22, x⟩, ⟨21, 0#1⟩, ⟨20, 0#1⟩, ⟨16, 15#4⟩, ⟨0, 0#12⟩] = true := by decide

theorem msrReg_rows : ∀ x : BitVec 1, matchesSomeRow
    [⟨25, 0#3⟩, ⟨23, 2#2⟩, ⟨22, x⟩, ⟨21, 1#1⟩, ⟨20, 0#1⟩, ⟨12, 15#4⟩, ⟨4, 0#8⟩] = true := by decide

theorem msrImm_rows : ∀ x : BitVec 1, matchesSomeRow
    [⟨25, 1#3⟩, ⟨23, 2#2⟩, ⟨22, x⟩, ⟨21, 1#1⟩, ⟨20, 0#1⟩, ⟨12, 15#4⟩] = true := by decide

theorem clz_row : matchesSomeRow
    [⟨25, 0#3⟩, ⟨23, 2#2⟩, ⟨22, 1#1⟩, ⟨16, 0x2F#6⟩, ⟨4, 0xF1#8⟩] = true := by decide

theorem bx_row : matchesSomeRow [⟨25, 0#3⟩, ⟨23, 2#2⟩, ⟨4, 0x2FFF1#19⟩] = true := by decide

theorem blxReg_row : matchesSomeRow [⟨25, 0#3⟩, ⟨23, 2#2⟩, ⟨4, 0x2FFF3#19⟩] = true := by decide

/-- BRK (R110). -/
theorem brk_row : matchesSomeRow [⟨25, 0#3⟩, ⟨23, 2#2⟩, ⟨20, 2#3⟩, ⟨4, 7#4⟩] = true := by decide

/-! ### Words that match no row -/

theorem decodeMultiplySwap_eq_unallocatedOf (hu : isUnallocated (field w 0 28) = true) (h25 : field w 25 3 = 0#3)
    (h4 : field w 4 4 = 9#4) : decodeMultiplySwap c w = unallocatedOf c w := by
  rw [decodeMultiplySwap, if_neg, if_neg, if_neg]
  · exact fun ⟨h23, h20, h8⟩ => not_isUnallocated (swap_rows (field w 22 1)) ⟨h25, h23, rfl, h20, h8, h4⟩ hu
  · exact fun h23 => not_isUnallocated (longMultiply_rows (field w 21 2)) ⟨h25, h23, rfl, h4⟩ hu
  · exact fun h22 => not_isUnallocated (multiply_rows (field w 21 1)) ⟨h25, h22, rfl, h4⟩ hu

theorem decodeHalfword_eq_unallocatedOf (hu : isUnallocated (field w 0 28) = true) (h25 : field w 25 3 = 0#3)
    (h9 : ¬ field w 4 4 = 9#4) (h7 : bit w 7 = true) (h4 : bit w 4 = true) :
    decodeHalfword c w = unallocatedOf c w := by
  have h5 : field w 5 2 ≠ 0#2 := fun h5 => h9 (field_join (field_set h7) (field_join h5 (field_set h4)))
  have imm (h22 : bit w 22 = true) : ¬ (field w 5 2 = 1 ∨ field w 20 1 = 1#1) := fun h =>
    not_isUnallocated (halfwordImm_rows _ _ h5 h) ⟨h25, field_set h22, rfl, field_set h7, rfl, field_set h4⟩ hu
  have reg (h22 : ¬ bit w 22 = true) (h8 : field w 8 4 = 0#4) : ¬ (field w 5 2 = 1 ∨ field w 20 1 = 1#1) := fun h =>
    not_isUnallocated (halfwordReg_rows _ _ h5 h)
      ⟨h25, field_clear h22, rfl, h8, field_set h7, rfl, field_set h4⟩ hu
  rw [decodeHalfword]
  by_cases h22 : bit w 22 = true
  · obtain ⟨h1, h20⟩ := not_or.mp (imm h22)
    rw [if_pos h22, if_neg h1, if_neg (mt field_set h20)]
  · rw [if_neg h22]
    by_cases h8 : field w 8 4 = 0
    · obtain ⟨h1, h20⟩ := not_or.mp (reg h22 h8)
      rw [if_pos h8, if_neg h1, if_neg (mt field_set h20)]
    · rw [if_neg h8]

theorem decodeMiscellaneous_eq_unallocatedOf (hu : isUnallocated (field w 0 28) = true) (h25 : field w 25 3 = 0#3)
    (h23 : field w 23 2 = 2#2) (h20 : bit w 20 = false) : decodeMiscellaneous c w = unallocatedOf c w := by
  have f20 := field_one_eq_zero.mpr h20
  rw [decodeMiscellaneous, if_neg, if_neg, if_neg, if_neg, if_neg, if_neg]
  · exact fun ⟨h20, h4, _⟩ => not_isUnallocated brk_row ⟨h25, h23, h20, h4⟩ hu
  · exact fun ⟨h16, h22, h4⟩ => not_isUnallocated clz_row ⟨h25, h23, field_set h22, h16, h4⟩ hu
  · exact fun hblx => not_isUnallocated blxReg_row ⟨h25, h23, hblx⟩ hu
  · exact fun hbx => not_isUnallocated bx_row ⟨h25, h23, hbx⟩ hu
  · exact fun ⟨h21, h12, h4⟩ =>
      not_isUnallocated (msrReg_rows (field w 22 1)) ⟨h25, h23, rfl, h21, f20, h12, h4⟩ hu
  · exact fun ⟨h21, h16, h0⟩ =>
      not_isUnallocated (mrs_rows (field w 22 1)) ⟨h25, h23, rfl, h21, f20, h16, h0⟩ hu

theorem decode000_eq_unallocatedOf (hu : isUnallocated (field w 0 28) = true) (h25 : field w 25 3 = 0#3) :
    decode000 c w = unallocatedOf c w := by
  unfold decode000
  split_ifs with h9 h74 hstatus h4
  · exact decodeMultiplySwap_eq_unallocatedOf hu h25 h9
  · obtain ⟨h7, h4⟩ := Bool.and_eq_true_iff.mp h74
    exact decodeHalfword_eq_unallocatedOf hu h25 h9 h7 h4
  · obtain ⟨h23, h20⟩ := hstatus
    exact decodeMiscellaneous_eq_unallocatedOf hu h25 h23 h20
  · rw [← field_one_eq_zero] at hstatus
    have h7 : ¬ bit w 7 = true := fun h7 => h74 (Bool.and_eq_true_iff.mpr ⟨h7, h4⟩)
    exact absurd hu (not_isUnallocated (dpReg_rows _ (field w 21 2) _ hstatus)
      ⟨h25, rfl, rfl, rfl, field_clear h7, field_set h4⟩)
  · rw [← field_one_eq_zero] at hstatus
    exact absurd hu (not_isUnallocated (dpShift_rows _ (field w 21 2) _ hstatus)
      ⟨h25, rfl, rfl, rfl, field_clear h4⟩)

theorem decode001_eq_unallocatedOf (hu : isUnallocated (field w 0 28) = true) (h25 : field w 25 3 = 1#3) :
    decode001 c w = unallocatedOf c w := by
  unfold decode001
  split_ifs with hstatus hmsr
  · obtain ⟨h23, h20⟩ := hstatus
    obtain ⟨h21, h12⟩ := Bool.and_eq_true_iff.mp hmsr
    exact absurd hu (not_isUnallocated (msrImm_rows (field w 22 1))
      ⟨h25, h23, rfl, field_set h21, field_one_eq_zero.mpr h20, eq_of_beq h12⟩)
  · rfl
  · rw [← field_one_eq_zero] at hstatus
    exact absurd hu (not_isUnallocated (dpImm_rows _ (field w 21 2) _ hstatus) ⟨h25, rfl, rfl, rfl⟩)

/-- A word that matches no row goes to the catch-all. -/
theorem decodeConditional_eq_unallocatedOf (hu : isUnallocated (field w 0 28) = true) :
    decodeConditional c w = unallocatedOf c w := by
  unfold decodeConditional
  split_ifs with h0 h1 h2 h3 h4 h5 h6
  · exact decode000_eq_unallocatedOf hu h0
  · exact decode001_eq_unallocatedOf hu h1
  all_goals refine absurd hu ?_
  · exact not_isUnallocated (class010_rows (field w 24 1) (field w 21 2) (field w 20 1)) ⟨h2, rfl, rfl, rfl⟩
  · by_cases h4 : bit w 4 = true
    · exact not_isUnallocated undefined_row ⟨h3, field_set h4⟩
    · exact not_isUnallocated (class011_rows (field w 24 1) (field w 21 2) (field w 20 1))
        ⟨h3, rfl, rfl, rfl, field_clear h4⟩
  · exact not_isUnallocated (class100_rows (field w 22 1) (field w 20 1) (field w 15 1)) ⟨h4, rfl, rfl, rfl⟩
  · exact not_isUnallocated (class101_rows (field w 24 1)) ⟨h5, rfl⟩
  · exact not_isUnallocated (class110_rows (field w 20 1)) ⟨h6, rfl⟩
  · have h7 : field w 25 3 = 7#3 := by bv_omega
    exact not_isUnallocated (class111_rows (field w 24 1) (field w 20 1) (field w 4 1)) ⟨h7, rfl, rfl, rfl⟩

/-! ### The BRK pattern -/

/-- Of the tests of the miscellaneous space, only that of BRK is met (spec/30_encoding.md R110). -/
theorem decodeMiscellaneous_breakpoint (h20 : field w 20 8 = 0x12#8) (h4 : field w 4 4 = 7#4) :
    decodeMiscellaneous c w =
      if c = .al then .brk (field w 8 12 ++ field w 0 4) else unallocatedOf c w := by
  have otherLow {n : Nat} {v : BitVec n} (hv : v.extractLsb' 0 4 ≠ 7#4) (hn : 0 + 4 ≤ n := by decide) :
      ¬ field w 4 n = v := fun h => hv (Eq.trans (field_of_field h hn).symm h4)
  have h21 : field w 21 1 = 1#1 := field_of_field (i := 1) h20
  have h203 : field w 20 3 = 2 := field_of_field (i := 0) h20
  rw [decodeMiscellaneous, if_neg (by simp [h21]), if_neg (mt (fun ⟨_, _, h⟩ => h) (otherLow (by decide))),
    if_neg (otherLow (by decide)), if_neg (otherLow (by decide)),
    if_neg (mt (fun ⟨_, _, h⟩ => h) (otherLow (by decide)))]
  simp only [h203, show field w 4 4 = 7 from h4, true_and]

theorem decodeConditional_breakpoint (h20 : field w 20 8 = 0x12#8) (h4 : field w 4 4 = 7#4) :
    decodeConditional c w = if c = .al then .brk (field w 8 12 ++ field w 0 4) else unallocatedOf c w := by
  have h25 : field w 25 3 = 0 := field_of_field (i := 5) h20
  have h23 : field w 23 2 = 2 := field_of_field (i := 3) h20
  have b20 : bit w 20 = false := bit_eq_of_field (i := 0) h20
  have b7 : bit w 7 = false := bit_eq_of_field (i := 3) h4
  rw [decodeConditional, if_pos h25, decode000, if_neg (by simp [h4]), if_neg (by simp [b7]), if_pos ⟨h23, b20⟩,
    decodeMiscellaneous_breakpoint h20 h4]

theorem breakpoint_fields (h : Machine.isBreakpointBody (field w 0 28) = true) :
    field w 20 8 = 0x12#8 ∧ field w 4 4 = 7#4 :=
  have h : brkRow.covers (field w 0 28) = true := h
  ⟨brkRow.field_of_fixes h (by decide), brkRow.field_of_fixes h (by decide)⟩

theorem decode_of_condition (hc : field w 28 4 = c.bits) : decode w = .ok (decodeConditional c w) := by
  rw [decode, hc, Cond.ofBits_bits]

/-- Settles O4: each way by the two kinds of unused word, those without a row and the BRK pattern. -/
theorem unallocatedIffNoRow : Obligations.UnallocatedIffNoRow := by
  unfold Obligations.UnallocatedIffNoRow
  intro w c hofBits
  have hd := decode_of_condition (Cond.bits_of_ofBits hofBits).symm
  rw [← isUnallocated_iff]
  constructor
  · rintro ⟨body, h⟩
    obtain ⟨-, rfl⟩ := encode_unallocated_eq_iff.mp (encodeDecode w _ h)
    refine (decode_bodyUnused h).imp id fun hb => ?_
    obtain ⟨h20, h4⟩ := breakpoint_fields hb
    refine ⟨?_, h20, h4⟩
    rintro rfl
    rw [hd, decodeConditional_breakpoint h20 h4] at h
    cases h
  · rintro (hu | ⟨hc, h20, h4⟩)
    · exact ⟨_, hd.trans (congrArg _ (decodeConditional_eq_unallocatedOf hu))⟩
    · rw [hd, decodeConditional_breakpoint h20 h4, if_neg hc]
      exact ⟨_, rfl⟩

end

end Sys2Proof
end

section
/-!
O2: every well-formed instruction is read back from its word. For each format of spec/30_encoding.md R103 to R120 one
lemma: the fields of the word decide every test of the decoder.
-/

namespace Sys2Proof

/-- The decoder of a class, by bits [27:25] (spec/30_encoding.md R102). -/
def classDecoder (k : BitVec 3) (c : Cond) (w : Word) : Instr :=
  if k = 0 then decode000 c w
  else if k = 1 then decode001 c w
  else if k = 2 then decode010 c w
  else if k = 3 then decode011 c w
  else if k = 4 then decode100 c w
  else if k = 5 then decode101 c w
  else if k = 6 then decode110 c w
  else decode111 c w

/-- The multiply of bits [23:21] (R105, R106); 010 and 011 are none. -/
def Instr.multiply (kind : BitVec 3) (c : Cond) (s : Bool) (hi lo rs rm : Reg) : Instr :=
  if kind = 0 then .mul c s hi lo rs rm
  else if kind = 1 then .mla c s hi lo rs rm
  else if kind = 4 then .umull c s hi lo rs rm
  else if kind = 5 then .umlal c s hi lo rs rm
  else if kind = 6 then .smull c s hi lo rs rm
  else .smlal c s hi lo rs rm

/-- The half-word family by its bits S H and L, immediate offset (R112). -/
def Instr.halfwordImm (sh : BitVec 2) (c : Cond) (p u wb l : Bool) (rn rd : Reg) (off : BitVec 8) : Instr :=
  if sh = 1 then if l then .ldrhImm c p u wb rn rd off else .strhImm c p u wb rn rd off
  else if sh = 2 then .ldrsbImm c p u wb rn rd off
  else .ldrshImm c p u wb rn rd off

/-- The half-word family by its bits S H and L, register offset (R112). -/
def Instr.halfwordReg (sh : BitVec 2) (c : Cond) (p u wb l : Bool) (rn rd rm : Reg) : Instr :=
  if sh = 1 then if l then .ldrhReg c p u wb rn rd rm else .strhReg c p u wb rn rd rm
  else if sh = 2 then .ldrsbReg c p u wb rn rd rm
  else .ldrshReg c p u wb rn rd rm

/-- The block transfer of the bits P, U, S, W, L (R114). -/
def Instr.block (c : Cond) (p u s wb l : Bool) (rn : Reg) (list : BitVec 16) : Instr :=
  if s then
    if l then
      if list.getLsbD 15 then .ldmReturn c p u wb rn (list.extractLsb' 0 15)
      else .ldmUser c p u wb rn (list.extractLsb' 0 15)
    else .stmUser c p u wb rn list
  else
    if l then .ldm c p u wb rn list else .stm c p u wb rn list

section
variable {c : Cond} {w : Word}

/-! ### Data processing -/

theorem decode_of_class {k : BitVec 3} (hc : field w 28 4 = c.bits) (h25 : field w 25 3 = k) :
    decode w = .ok (classDecoder k c w) := by
  rw [decode_of_condition hc, ← h25]
  rfl

/-- A compare with S = 1 is not left to the status instructions (R108 to R111). -/
theorem not_status {op : DpOp} {s : Bool} (hs : Machine.isCompare op = true → s = true) (h21 : field w 21 4 = op.bits)
    (h20 : bit w 20 = s) : ¬ (field w 23 2 = 2 ∧ bit w 20 = false) := by
  rintro ⟨h23, h0⟩
  have hop : Machine.isCompare op = true := by
    rw [isCompare_iff, ← field_of_field (lo := 21) h21]
    exact h23
  rw [h20, hs hop] at h0
  cases h0

theorem decode_dpImm {op : DpOp} {s : Bool} {rn rd : Reg} {o : RotImm}
    (hs : Machine.isCompare op = true → s = true) :
    decode (encodeDp c true op s rn rd o.bits) = .ok (.dpImm op c s rn rd o) := by
  generalize hw : encodeDp c true op s rn rd o.bits = w
  obtain ⟨hc, h26, h25, h21, h20, h16, h12, h0⟩ := encodeDp_eq_iff.mp hw
  have hd : decode w = .ok (decode001 c w) := decode_of_class hc (class_eq_append_iff.mpr ⟨h26, h25⟩)
  rw [hd, decode001, if_neg (not_status hs h21 h20), h21, DpOp.ofBits_bits, h20, h16, h12, RotImm.bits_eq_iff.mp h0]

/-- Words of class 000 outside the multiply and half-word spaces. -/
theorem decode000_of_not_extension (h74 : (bit w 7 && bit w 4) = false) :
    decode000 c w =
      if field w 23 2 = 2 ∧ bit w 20 = false then decodeMiscellaneous c w
      else if bit w 4 then
        .dpReg (.ofBits (field w 21 4)) c (bit w 20) (field w 16 4) (field w 12 4) (regShiftOf w)
      else .dpShift (.ofBits (field w 21 4)) c (bit w 20) (field w 16 4) (field w 12 4) (immShiftOf w) := by
  have h9 : ¬ field w 4 4 = 9 := fun h9 => by
    have b7 : bit w 7 = true := bit_eq_of_field (i := 3) h9
    have b4 : bit w 4 = true := bit_eq_of_field (i := 0) h9
    rw [b7, b4] at h74
    cases h74
  rw [decode000, if_neg h9, h74, if_neg Bool.false_ne_true]

theorem decode_dpShift {op : DpOp} {s : Bool} {rn rd : Reg} {o : ImmShift}
    (hs : Machine.isCompare op = true → s = true) :
    decode (encodeDp c false op s rn rd o.bits) = .ok (.dpShift op c s rn rd o) := by
  generalize hw : encodeDp c false op s rn rd o.bits = w
  obtain ⟨hc, h26, h25, h21, h20, h16, h12, h0⟩ := encodeDp_eq_iff.mp hw
  have hd : decode w = .ok (decode000 c w) := decode_of_class hc (class_eq_append_iff.mpr ⟨h26, h25⟩)
  obtain ⟨ho, h4⟩ := ImmShift.bits_eq_iff.mp h0
  rw [hd, decode000_of_not_extension (by simp [h4]), if_neg (not_status hs h21 h20), h4, if_neg Bool.false_ne_true, h21,
    DpOp.ofBits_bits, h20, h16, h12, ho]

theorem decode_dpReg {op : DpOp} {s : Bool} {rn rd : Reg} {o : RegShift}
    (hs : Machine.isCompare op = true → s = true) :
    decode (encodeDp c false op s rn rd o.bits) = .ok (.dpReg op c s rn rd o) := by
  generalize hw : encodeDp c false op s rn rd o.bits = w
  obtain ⟨hc, h26, h25, h21, h20, h16, h12, h0⟩ := encodeDp_eq_iff.mp hw
  have hd : decode w = .ok (decode000 c w) := decode_of_class hc (class_eq_append_iff.mpr ⟨h26, h25⟩)
  obtain ⟨ho, h7, h4⟩ := RegShift.bits_eq_iff.mp h0
  rw [hd, decode000_of_not_extension (by simp [h7]), if_neg (not_status hs h21 h20), h4, if_pos rfl, h21,
    DpOp.ofBits_bits, h20, h16, h12, ho]

/-! ### Multiplies, swap and the half-word family -/

theorem decode_multiply {kind : BitVec 3} {s : Bool} {hi lo rs rm : Reg} (hk : kind = 0 ∨ kind = 1 ∨ 4 ≤ kind) :
    decode (encodeMultiply c kind s hi lo rs rm) = .ok (.multiply kind c s hi lo rs rm) := by
  generalize hw : encodeMultiply c kind s hi lo rs rm = w
  obtain ⟨hc, h24, h21, h20, h16, h12, h8, h4, h0⟩ := encodeMultiply_eq_iff.mp hw
  have hd : decode w = .ok (decode000 c w) := decode_of_class hc (field_of_field (i := 1) h24)
  have h217 := field_join h24 h21
  have f22 := field_of_field (i := 1) (n := 3) h217
  have f23 := field_of_field (i := 2) (n := 2) h217
  have b22 := bit_eq_of_field (i := 1) h21
  have b21 := bit_eq_of_field (i := 0) h21
  rw [hd, decode000, if_pos h4, decodeMultiplySwap, f22, f23, b22, b21, h20, h16, h12, h8, h0]
  have hk : kind = 0 ∨ kind = 1 ∨ kind = 4 ∨ kind = 5 ∨ kind = 6 ∨ kind = 7 := by bv_omega
  rcases hk with rfl | rfl | rfl | rfl | rfl | rfl <;> rfl

theorem decode_swap {byte : Bool} {rn rd rm : Reg} :
    decode (encodeSwap c byte rn rd rm) = .ok (if byte then .swpb c rn rd rm else .swp c rn rd rm) := by
  generalize hw : encodeSwap c byte rn rd rm = w
  obtain ⟨hc, h23, h22, h20, h16, h12, h4, h0⟩ := encodeSwap_eq_iff.mp hw
  have hd : decode w = .ok (decode000 c w) := decode_of_class hc (field_of_field (i := 2) h23)
  have f4 : field w 4 4 = 9 := field_of_field (i := 0) h4
  have f8 : field w 8 4 = 0 := field_of_field (i := 4) h4
  have f23 : field w 23 2 = 2 := field_of_field (i := 0) h23
  have f22 : ¬ field w 22 3 = 0 := fun h => absurd (Eq.trans (field_of_field (i := 1) h).symm f23) (by decide)
  rw [hd, decode000, if_pos f4, decodeMultiplySwap, if_neg f22, if_neg (by simp [f23]),
    if_pos ⟨f23, h20, f8⟩, h22, h16, h12, h0]

theorem decode000_of_halfword {sh : BitVec 2} (h7 : bit w 7 = true) (h5 : field w 5 2 = sh) (h4 : bit w 4 = true)
    (hsh : sh ≠ 0) : decode000 c w = decodeHalfword c w := by
  have h9 : ¬ field w 4 4 = 9 := fun h => hsh (h5.symm.trans (field_of_field (i := 1) h))
  rw [decode000, if_neg h9, h7, h4, Bool.true_and, if_pos rfl]

theorem decode_halfwordImm {p u wb l : Bool} {rn rd : Reg} {sh : BitVec 2} {off : BitVec 8} (hsh : sh ≠ 0)
    (hl : sh = 1 ∨ l = true) :
    decode (encodeHalfword c p u true wb l rn rd (off.extractLsb' 4 4) sh (off.extractLsb' 0 4)) =
      .ok (.halfwordImm sh c p u wb l rn rd off) := by
  generalize hw : encodeHalfword c p u true wb l rn rd (off.extractLsb' 4 4) sh (off.extractLsb' 0 4) = w
  obtain ⟨hc, h25, h24, h23, h22, h21, h20, h16, h12, h8, h7, h5, h4, h0⟩ := encodeHalfword_eq_iff.mp hw
  have hd : decode w = .ok (decode000 c w) := decode_of_class hc h25
  have hoff : field w 8 4 ++ field w 0 4 = off := by
    rw [h8, h0]
    exact append_extractLsb' (n := 4) (m := 4) off
  rw [hd, decode000_of_halfword h7 h5 h4 hsh, decodeHalfword, h22, if_pos rfl, hoff, h5, h24, h23, h21, h20, h16, h12,
    Instr.halfwordImm]
  rcases hl with rfl | rfl
  · rfl
  · simp only [↓reduceIte]

theorem decode_halfwordReg {p u wb l : Bool} {rn rd rm : Reg} {sh : BitVec 2} (hsh : sh ≠ 0)
    (hl : sh = 1 ∨ l = true) :
    decode (encodeHalfword c p u false wb l rn rd 0 sh rm) = .ok (.halfwordReg sh c p u wb l rn rd rm) := by
  generalize hw : encodeHalfword c p u false wb l rn rd 0 sh rm = w
  obtain ⟨hc, h25, h24, h23, h22, h21, h20, h16, h12, h8, h7, h5, h4, h0⟩ := encodeHalfword_eq_iff.mp hw
  have hd : decode w = .ok (decode000 c w) := decode_of_class hc h25
  rw [hd, decode000_of_halfword h7 h5 h4 hsh, decodeHalfword, h22, if_neg Bool.false_ne_true, if_pos h8, h5, h24, h23,
    h21, h20, h16, h12, h0, Instr.halfwordReg]
  rcases hl with rfl | rfl
  · rfl
  · simp only [↓reduceIte]

/-! ### The miscellaneous space -/

theorem decode_of_miscellaneous (hc : field w 28 4 = c.bits) (h235 : field w 23 5 = 2#5) (h20 : bit w 20 = false)
    (h74 : (bit w 7 && bit w 4) = false) : decode w = .ok (decodeMiscellaneous c w) := by
  have hd : decode w = .ok (decode000 c w) := decode_of_class hc (field_of_field (i := 2) h235)
  rw [hd, decode000_of_not_extension h74, if_pos ⟨field_of_field (i := 0) h235, h20⟩]

theorem decode_mrs {r : Bool} {rd : Reg} : decode (encode (.mrs c r rd)) = .ok (.mrs c r rd) := by
  generalize hw : encode (.mrs c r rd) = w
  obtain ⟨hc, h23, h22, h20, h16, h12, h0⟩ := encode_mrs_eq_iff.mp hw
  have h4 : bit w 4 = false := bit_eq_of_field (i := 4) h0
  rw [decode_of_miscellaneous hc h23 (bit_eq_of_field (i := 0) h20) (by simp [h4]), decodeMiscellaneous,
    if_pos ⟨field_of_field (i := 1) h20, h16, h0⟩, h22, h12]

theorem decode_msrReg {r : Bool} {mask : BitVec 4} {rm : Reg} :
    decode (encode (.msrReg c r mask rm)) = .ok (.msrReg c r mask rm) := by
  generalize hw : encode (.msrReg c r mask rm) = w
  obtain ⟨hc, h23, h22, h20, h16, h12, h4, h0⟩ := encode_msrReg_eq_iff.mp hw
  have b4 : bit w 4 = false := bit_eq_of_field (i := 0) h4
  have h21 : field w 21 1 = 1 := field_of_field (i := 1) h20
  rw [decode_of_miscellaneous hc h23 (bit_eq_of_field (i := 0) h20) (by simp [b4]), decodeMiscellaneous,
    if_neg (by simp [h21]), if_pos ⟨h21, h12, h4⟩, h22, h16, h0]

theorem decodeMiscellaneous_of_not_status (h21 : field w 21 1 = 1#1) (h4 : field w 4 8 ≠ 0) :
    decodeMiscellaneous c w =
      if field w 4 19 = 0x2FFF1 then .bx c (field w 0 4)
      else if field w 4 19 = 0x2FFF3 then .blxReg c (field w 0 4)
      else if field w 16 6 = 0x2F ∧ bit w 22 ∧ field w 4 8 = 0xF1 then .clz c (field w 12 4) (field w 0 4)
      else if field w 20 3 = 2 ∧ field w 4 4 = 7 ∧ c = .al then .brk (field w 8 12 ++ field w 0 4)
      else unallocatedOf c w := by
  rw [decodeMiscellaneous, if_neg (by simp [h21]), if_neg fun ⟨_, _, h⟩ => h4 h]

theorem decode_bx {rm : Reg} : decode (encode (.bx c rm)) = .ok (.bx c rm) := by
  generalize hw : encode (.bx c rm) = w
  obtain ⟨hc, h4, h0⟩ := encode_branchRegister_eq_iff.mp hw
  have b7 : bit w 7 = false := bit_eq_of_field (i := 3) h4
  have f4 : field w 4 8 ≠ 0 := by rw [show field w 4 8 = 0xF1 from field_of_field (i := 0) h4]; decide
  have f19 : field w 4 19 = 0x2FFF1 := field_of_field (i := 0) h4
  rw [decode_of_miscellaneous hc (field_of_field (i := 19) h4) (bit_eq_of_field (i := 16) h4) (by simp [b7]),
    decodeMiscellaneous_of_not_status (field_of_field (i := 17) h4) f4, if_pos f19, h0]

theorem decode_blxReg {rm : Reg} : decode (encode (.blxReg c rm)) = .ok (.blxReg c rm) := by
  generalize hw : encode (.blxReg c rm) = w
  obtain ⟨hc, h4, h0⟩ := encode_branchRegister_eq_iff.mp hw
  have b7 : bit w 7 = false := bit_eq_of_field (i := 3) h4
  have f4 : field w 4 8 ≠ 0 := by rw [show field w 4 8 = 0xF3 from field_of_field (i := 0) h4]; decide
  have f19 : field w 4 19 = 0x2FFF3 := field_of_field (i := 0) h4
  rw [decode_of_miscellaneous hc (field_of_field (i := 19) h4) (bit_eq_of_field (i := 16) h4) (by simp [b7]),
    decodeMiscellaneous_of_not_status (field_of_field (i := 17) h4) f4, if_neg (by simp [f19]), if_pos f19, h0]

theorem decode_clz {rd rm : Reg} : decode (encode (.clz c rd rm)) = .ok (.clz c rd rm) := by
  generalize hw : encode (.clz c rd rm) = w
  obtain ⟨hc, h16, h12, h4, h0⟩ := encode_clz_eq_iff.mp hw
  have b7 : bit w 7 = false := bit_eq_of_field (i := 3) h4
  have b22 : bit w 22 = true := bit_eq_of_field (i := 6) h16
  have notBranch {v : BitVec 19} (hv : v.getLsbD 18 = false) : ¬ field w 4 19 = v := fun h =>
    Bool.false_ne_true (hv.symm.trans ((bit_eq_of_field (i := 18) h).symm.trans b22))
  rw [decode_of_miscellaneous hc (field_of_field (i := 7) h16) (bit_eq_of_field (i := 4) h16) (by simp [b7]),
    decodeMiscellaneous_of_not_status (field_of_field (i := 5) h16) (by simp [h4]), if_neg (notBranch rfl),
    if_neg (notBranch rfl), if_pos ⟨field_of_field (i := 0) h16, b22, h4⟩, h12, h0]

theorem decode_brk {imm : BitVec 16} : decode (encode (.brk imm)) = .ok (.brk imm) := by
  generalize hw : encode (.brk imm) = w
  obtain ⟨h20, h8, h4, h0⟩ := encode_brk_eq_iff.mp hw
  have hc : field w 28 4 = Cond.bits .al := field_of_field (i := 8) h20
  have himm : field w 8 12 ++ field w 0 4 = imm := by
    rw [h8, h0]
    exact append_extractLsb' (n := 12) (m := 4) imm
  rw [decode_of_condition hc, decodeConditional_breakpoint (field_of_field (i := 0) h20) h4, if_pos rfl, himm]

theorem decode_msrImm {r : Bool} {mask : BitVec 4} {o : RotImm} :
    decode (encode (.msrImm c r mask o)) = .ok (.msrImm c r mask o) := by
  generalize hw : encode (.msrImm c r mask o) = w
  obtain ⟨hc, h23, h22, h20, h16, h12, h0⟩ := encode_msrImm_eq_iff.mp hw
  have hd : decode w = .ok (decode001 c w) := decode_of_class hc (field_of_field (i := 2) h23)
  have b21 : bit w 21 = true := bit_eq_of_field (i := 1) h20
  rw [hd, decode001, if_pos ⟨field_of_field (i := 0) h23, bit_eq_of_field (i := 0) h20⟩, if_pos (by simp [b21, h12]),
    h22, h16, RotImm.bits_eq_iff.mp h0]

/-! ### Transfers -/

theorem decode_singleImm {p u byte wb l : Bool} {rn rd : Reg} {off : BitVec 12} :
    decode (encodeSingle c false p u byte wb l rn rd off) = .ok (.singleImm c p u byte wb l rn rd off) := by
  generalize hw : encodeSingle c false p u byte wb l rn rd off = w
  obtain ⟨hc, h26, h25, h24, h23, h22, h21, h20, h16, h12, h0⟩ := encodeSingle_eq_iff.mp hw
  have hd : decode w = .ok (decode010 c w) := decode_of_class hc (class_eq_append_iff.mpr ⟨h26, h25⟩)
  rw [hd, decode010_eq, h24, h23, h22, h21, h20, h16, h12, h0]

theorem decode_singleReg {p u byte wb l : Bool} {rn rd : Reg} {o : ImmShift} :
    decode (encodeSingle c true p u byte wb l rn rd o.bits) = .ok (.singleReg c p u byte wb l rn rd o) := by
  generalize hw : encodeSingle c true p u byte wb l rn rd o.bits = w
  obtain ⟨hc, h26, h25, h24, h23, h22, h21, h20, h16, h12, h0⟩ := encodeSingle_eq_iff.mp hw
  have hd : decode w = .ok (decode011 c w) := decode_of_class hc (class_eq_append_iff.mpr ⟨h26, h25⟩)
  obtain ⟨ho, h4⟩ := ImmShift.bits_eq_iff.mp h0
  rw [hd, decode011_eq, h4, if_neg Bool.false_ne_true, h24, h23, h22, h21, h20, h16, h12, ho]

theorem decode_undefined {high : BitVec 20} {low : BitVec 4} :
    decode (encode (.undefined c high low)) = .ok (.undefined c high low) := by
  generalize hw : encode (.undefined c high low) = w
  obtain ⟨hc, h25, h5, h4, h0⟩ := encode_undefined_eq_iff.mp hw
  have hd : decode w = .ok (decode011 c w) := decode_of_class hc h25
  rw [hd, decode011_eq, if_pos h4, h5, h0]

theorem decode_block {p u s wb l : Bool} {rn : Reg} {list : BitVec 16} :
    decode (encodeBlock c p u s wb l rn list) = .ok (.block c p u s wb l rn list) := by
  generalize hw : encodeBlock c p u s wb l rn list = w
  obtain ⟨hc, h25, h24, h23, h22, h21, h20, h16, h0⟩ := encodeBlock_eq_iff.mp hw
  have hd : decode w = .ok (decode100 c w) := decode_of_class hc h25
  have h15 : bit w 15 = list.getLsbD 15 := bit_eq_of_field (lo := 0) (i := 15) h0
  have hlow : field w 0 15 = list.extractLsb' 0 15 := field_of_field (lo := 0) (i := 0) (n := 15) h0
  rw [hd, decode100, h24, h23, h22, h21, h20, h16, h15, hlow, h0, Instr.block]

theorem block_pc {p u wb : Bool} {rn : Reg} {list : BitVec 15} :
    Instr.block c p u true wb true rn (1#1 ++ list) = .ldmReturn c p u wb rn list := by
  have h15 : (1#1 ++ list).getLsbD 15 = true := by rw [BitVec.getLsbD_append]; rfl
  rw [Instr.block, if_pos rfl, if_pos rfl, if_pos h15, extractLsb'_append_low]

theorem block_noPc {p u wb : Bool} {rn : Reg} {list : BitVec 15} :
    Instr.block c p u true wb true rn (0#1 ++ list) = .ldmUser c p u wb rn list := by
  have h15 : (0#1 ++ list).getLsbD 15 = false := by rw [BitVec.getLsbD_append]; rfl
  rw [Instr.block, if_pos rfl, if_pos rfl, h15, if_neg Bool.false_ne_true, extractLsb'_append_low]

/-! ### Branches, coprocessors, SWI and unused encodings -/

theorem decode_branch {l : Bool} {off : BitVec 24} :
    decode (c.bits ++ (5#3 ++ b1 l) ++ off) = .ok (if l then .bl c off else .b c off) := by
  generalize hw : (c.bits ++ (5#3 ++ b1 l) ++ off : Word) = w
  obtain ⟨hc, h24, h0⟩ := encode_code24_eq_iff.mp hw
  obtain ⟨h25, h24⟩ := (field_eq_append_iff (hi := 25) (n := 3) (m := 1) rfl).mp h24
  have hd : decode w = .ok (decode101 c w) := decode_of_class hc h25
  rw [hd, decode101, field_one_eq_b1.mp h24, h0]

theorem decode_blxLabel {h : Bool} {off : BitVec 24} : decode (encode (.blxLabel h off)) = .ok (.blxLabel h off) := by
  generalize hw : encode (.blxLabel h off) = w
  obtain ⟨h25, h24, h0⟩ := encode_blxLabel_eq_iff.mp hw
  have hc : Cond.ofBits (field w 28 4) = none := by
    rw [show field w 28 4 = 15 from field_of_field (i := 3) h25]
    rfl
  have f25 : field w 25 3 = 5 := field_of_field (i := 0) h25
  rw [decode, hc, h24, h0]
  exact if_pos f25

theorem decode_coprocessorTransfer {p u n wb l : Bool} {rn : Reg} {crd : CReg} {cp : CpNum} {off : BitVec 8} :
    decode (encodeCoprocessorTransfer c p u n wb l rn crd cp off) =
      .ok (if l then .ldc c p u n wb rn crd cp off else .stc c p u n wb rn crd cp off) := by
  generalize hw : encodeCoprocessorTransfer c p u n wb l rn crd cp off = w
  obtain ⟨hc, h25, h24, h23, h22, h21, h20, h16, h12, h8, h0⟩ := encodeCoprocessorTransfer_eq_iff.mp hw
  have hd : decode w = .ok (decode110 c w) := decode_of_class hc h25
  rw [hd, decode110, h24, h23, h22, h21, h20, h16, h12, h8, h0]

theorem decode_coprocessorRegister {cop1 : BitVec 3} {l : Bool} {crn : CReg} {rd : Reg} {cp : CpNum} {cop2 : BitVec 3}
    {crm : CReg} : decode (encodeCoprocessorRegister c cop1 l crn rd cp cop2 crm) =
      .ok (if l then .mrc c cop1 crn rd cp cop2 crm else .mcr c cop1 crn rd cp cop2 crm) := by
  generalize hw : encodeCoprocessorRegister c cop1 l crn rd cp cop2 crm = w
  obtain ⟨hc, h24, h21, h20, h16, h12, h8, h5, h4, h0⟩ := encodeCoprocessorRegister_eq_iff.mp hw
  have hd : decode w = .ok (decode111 c w) := decode_of_class hc (field_of_field (i := 1) h24)
  rw [hd, decode111, show bit w 24 = false from bit_eq_of_field (i := 0) h24, if_neg Bool.false_ne_true, if_pos h4, h21,
    h20, h16, h12, h8, h5, h0]

theorem decode_cdp {cop1 : BitVec 4} {crn crd : CReg} {cp : CpNum} {cop2 : BitVec 3} {crm : CReg} :
    decode (encode (.cdp c cop1 crn crd cp cop2 crm)) = .ok (.cdp c cop1 crn crd cp cop2 crm) := by
  generalize hw : encode (.cdp c cop1 crn crd cp cop2 crm) = w
  obtain ⟨hc, h24, h20, h16, h12, h8, h5, h4, h0⟩ := encode_cdp_eq_iff.mp hw
  have hd : decode w = .ok (decode111 c w) := decode_of_class hc (field_of_field (i := 1) h24)
  rw [hd, decode111, show bit w 24 = false from bit_eq_of_field (i := 0) h24, if_neg Bool.false_ne_true, h4,
    if_neg Bool.false_ne_true, h20, h16, h12, h8, h5, h0]

theorem decode_swi {imm : BitVec 24} : decode (encode (.swi c imm)) = .ok (.swi c imm) := by
  generalize hw : encode (.swi c imm) = w
  obtain ⟨hc, h24, h0⟩ := encode_code24_eq_iff.mp hw
  have hd : decode w = .ok (decode111 c w) := decode_of_class hc (field_of_field (i := 1) h24)
  rw [hd, decode111, if_pos (show bit w 24 = true from bit_eq_of_field (i := 0) h24), h0]

theorem decode_unallocated {body : BitVec 28} (hu : isUnallocated body = true) :
    decode (encode (.unallocated c body)) = .ok (.unallocated c body) := by
  generalize hw : encode (.unallocated c body) = w
  obtain ⟨hc, rfl⟩ := encode_unallocated_eq_iff.mp hw
  rw [decode_of_condition hc, decodeConditional_eq_unallocatedOf hu, unallocatedOf]

/-- Settles O2: every constructor by its format. Well-formedness is needed for `unallocated` only, whose body may match
no row. -/
theorem decodeEncode : Obligations.DecodeEncode := by
  unfold Obligations.DecodeEncode
  intro i hwf
  cases i with
  | andImm | eorImm | subImm | rsbImm | addImm | adcImm | sbcImm | rscImm | orrImm | movImm | bicImm | mvnImm =>
    exact decode_dpImm nofun
  | tstImm | teqImm | cmpImm | cmnImm => exact decode_dpImm fun _ => rfl
  | andShift | eorShift | subShift | rsbShift | addShift | adcShift | sbcShift | rscShift | orrShift | movShift
  | bicShift | mvnShift => exact decode_dpShift nofun
  | tstShift | teqShift | cmpShift | cmnShift => exact decode_dpShift fun _ => rfl
  | andReg | eorReg | subReg | rsbReg | addReg | adcReg | sbcReg | rscReg | orrReg | movReg | bicReg | mvnReg =>
    exact decode_dpReg nofun
  | tstReg | teqReg | cmpReg | cmnReg => exact decode_dpReg fun _ => rfl
  | mul | mla | umull | umlal | smull | smlal => exact decode_multiply (by decide)
  | swp | swpb => exact decode_swap
  | bx => exact decode_bx
  | blxReg => exact decode_blxReg
  | clz => exact decode_clz
  | brk => exact decode_brk
  | mrs => exact decode_mrs
  | msrReg => exact decode_msrReg
  | msrImm => exact decode_msrImm
  | strhImm | ldrhImm => exact decode_halfwordImm (by decide) (.inl rfl)
  | ldrsbImm | ldrshImm => exact decode_halfwordImm (by decide) (.inr rfl)
  | strhReg | ldrhReg => exact decode_halfwordReg (by decide) (.inl rfl)
  | ldrsbReg | ldrshReg => exact decode_halfwordReg (by decide) (.inr rfl)
  | ldrPreImm | ldrPostImm | strPreImm | strPostImm | ldrbPreImm | ldrbPostImm | strbPreImm | strbPostImm | ldrtImm
  | strtImm | ldrbtImm | strbtImm => exact decode_singleImm
  | ldrPreReg | ldrPostReg | strPreReg | strPostReg | ldrbPreReg | ldrbPostReg | strbPreReg | strbPostReg | ldrtReg
  | strtReg | ldrbtReg | strbtReg => exact decode_singleReg
  | undefined => exact decode_undefined
  | ldm | stm | stmUser => exact decode_block
  | ldmReturn => exact decode_block.trans (congrArg _ block_pc)
  | ldmUser => exact decode_block.trans (congrArg _ block_noPc)
  | b => exact decode_branch (l := false)
  | bl => exact decode_branch (l := true)
  | blxLabel => exact decode_blxLabel
  | ldc | stc => exact decode_coprocessorTransfer
  | cdp => exact decode_cdp
  | mcr | mrc => exact decode_coprocessorRegister
  | swi => exact decode_swi
  | unallocated => exact decode_unallocated hwf

end

end Sys2Proof
end

section
/-!
The statements of 40_conditional_execution.md, O20 and O21: the table of conditions (R140, R141), and what an
instruction does where its condition fails (R142).
-/

namespace Sys2Proof.Machine

/-! ### The table of conditions -/

/-- Settles O20, row by row: a condition on one flag is that flag or its complement by definition, the others are
Boolean combinations of flags. -/
theorem conditionTable : Obligations.ConditionTable := by
  unfold Obligations.ConditionTable
  intro p n z c v
  have clear_iff {b : Bool} : (!b) = true ↔ b = false := .of_eq (Bool.not_eq_true' b)
  refine ⟨Iff.rfl, clear_iff, Iff.rfl, clear_iff, Iff.rfl, clear_iff, Iff.rfl, clear_iff, ?hi, ?ls,
    beq_iff_eq, bne_iff_ne, ?gt, ?le, rfl⟩
  case hi => exact Bool.and_eq_true_iff.trans (and_congr_right' clear_iff)
  case ls => exact Bool.or_eq_true_iff.trans (or_congr_left clear_iff)
  case gt => exact Bool.and_eq_true_iff.trans (and_congr clear_iff beq_iff_eq)
  case le => exact Bool.or_eq_true_iff.trans (or_congr_right bne_iff_ne)

/-! ### A condition that fails -/

/-- From the last word of the address space there is no next sequential address (10_state.md R28). -/
theorem State.advance_of_last {s : State} (h : s.pc = 0xFFFFFFFC) : s.advance = .refused .pcWrap := if_pos h

/-- Every meaning tests its condition before anything else, so where it fails the instruction ends at once. BLX label
carries no condition, and that of BRK, 1110, never fails (R143, 49_coprocessor_brk_unused.md R359). -/
theorem exec_of_failed {i : Instr} {c : Cond} {s : State} (hc : i.cond? = some c) (hm : s.mode?.isSome = true)
    (hf : condHolds c s.cpsr = false) : exec i s = s.advance := by
  cases i with
  | blxLabel => cases hc
  | brk => cases hc; cases hf
  | _ => cases hc; exact conditional_of_failed hm hf _

/-- Settles O21: the instruction is the end of an instruction, and nothing else. -/
theorem failedConditionOnlyAdvances : Obligations.FailedConditionOnlyAdvances := by
  unfold Obligations.FailedConditionOnlyAdvances
  intro i c s hc hm hf
  rw [exec_of_failed hc hm hf]
  exact ⟨State.advance_of_notLast, State.advance_of_last⟩

end Sys2Proof.Machine
end

section
/-!
The statements of 41_branch.md, O34 and O35: the targets of the branches in exact arithmetic, the link in r14, and the
change of state (R150, R151, R153 to R155).
-/

namespace Sys2Proof.Machine

/-! ### Targets -/

/-- The target of a word offset in exact arithmetic: sign extension is the signed value, the shift a multiplication by
4, and the addition wraps modulo 2^32. -/
theorem branchTarget_eq_ofInt (pc : Word) (off : BitVec 24) :
    branchTarget pc off = BitVec.ofInt 32 (pc.toNat + 8 + 4 * off.toInt) := by
  have hpc : pc = BitVec.ofInt 32 pc.toNat := by rw [BitVec.ofInt_natCast, BitVec.ofNat_toNat, BitVec.setWidth_eq]
  have hoff : off.signExtend 32 <<< 2 = BitVec.ofInt 32 (4 * off.toInt) := calc
    _ = BitVec.ofInt 32 off.toInt * BitVec.ofInt 32 4 := BitVec.shiftLeft_eq_mul_twoPow _ 2
    _ = BitVec.ofInt 32 4 * BitVec.ofInt 32 off.toInt := BitVec.mul_comm _ _
    _ = _ := (BitVec.ofInt_mul _ _).symm
  calc branchTarget pc off
    _ = pc + BitVec.ofInt 32 8 + BitVec.ofInt 32 (4 * off.toInt) := congrArg (pc + 8 + ·) hoff
    _ = BitVec.ofInt 32 pc.toNat + BitVec.ofInt 32 8 + BitVec.ofInt 32 (4 * off.toInt) := by rw [← hpc]
    _ = _ := by rw [BitVec.ofInt_add, BitVec.ofInt_add]

/-- The target of BLX label, the half-word bit included. -/
theorem branchTarget_half_eq_ofInt (pc : Word) (off : BitVec 24) (h : Bool) :
    branchTarget pc off + (if h then 2 else 0) = BitVec.ofInt 32 (pc.toNat + 8 + 4 * off.toInt + 2 * h.toNat) := by
  rw [branchTarget_eq_ofInt, BitVec.ofInt_add _ (2 * _)]
  cases h <;> rfl

/-! ### The link -/

/-- A write of r14 changes r14 of the current mode and nothing else. -/
theorem State.writeReg_link_frame (s : State) (v : Word) :
    RegisterFrame s (s.writeReg 14 v) [physOf 14 s.mode] :=
  (RegisterFrame.refl s _).writeReg 14 v (List.mem_singleton_self _)

/-- Settles O34: only the pc moves, and for BL r14. -/
theorem branchAndLink : Obligations.BranchAndLink := by
  unfold Obligations.BranchAndLink
  refine ⟨fun c off s hr => ?_, fun c off s hr => ?_⟩
  · have hexec : exec (.b c off) s = .next { s with pc := branchTarget s.pc off } := by
      rw [exec, execB, conditional_of_runs hr]
    exact ⟨_, hexec, branchTarget_eq_ofInt s.pc off, (RegisterFrame.refl s []).setPc _⟩
  · have hexec : exec (.bl c off) s = .next { s.writeReg 14 (s.pc + 4) with pc := branchTarget s.pc off } := by
      rw [exec, execBl, conditional_of_runs hr]
    refine ⟨_, hexec, branchTarget_eq_ofInt s.pc off, ?link, (s.writeReg_link_frame _).setPc _⟩
    case link =>
      rw [State.readReg_setPc _ (by decide), State.readReg_writeReg_same _ _ (by decide)]

/-! ### The change of state -/

/-- T is the bit given, and every other bit is as before. -/
theorem psrSetT_thumbIs (p : Word) (b : Bool) : ThumbIs p (psrSetT p b) b :=
  ⟨psrSetT_t p b, psrSetT_modeBits p b, psrSetT_high p b⟩

/-- A change of T and the pc leaves r0 to r14: the mode bits stand beside T. -/
theorem State.readReg_setThumb {t : State} {p : Word} (hp : t.cpsr = p) {r : Reg} (hr : r ≠ 15) (b : Bool) (v : Word) :
    State.readReg { t with cpsr := psrSetT p b, pc := v } r = t.readReg r :=
  State.readReg_congr_reg hr (State.mode_congr_bits (hp ▸ psrSetT_modeBits p b)) fun _ => t.readPhys_mk ..

/-- A branch to a register value leaves r0 to r14. -/
theorem State.readReg_exchangeTo (s : State) {r : Reg} (hr : r ≠ 15) (v : Word) :
    (s.exchangeTo v).readReg r = s.readReg r := State.readReg_setThumb rfl hr _ _

/-- A branch to a register value sets T and the pc from it (41_branch.md R153); the CPSR is that of the instruction's
start, whatever registers were written since. -/
theorem State.exchangeTo_exchanged {s t : State} (h : t.cpsr = s.cpsr) (v : Word) : Exchanged s (t.exchangeTo v) v where
  thumb := h ▸ psrSetT_thumbIs t.cpsr _
  toThumb hv := by rw [State.exchangeTo_pc, if_pos hv, alignHalf]
  toArm hv := by rw [State.exchangeTo_pc, hv, if_neg Bool.false_ne_true, alignWord]

theorem Frame.setThumb {s t : State} {l : List (Option PhysReg)} (h : Frame s t l) (p : Word) (b : Bool) (v : Word) :
    Frame s { t with cpsr := psrSetT p b, pc := v } l := (h.setCpsr (psrSetT p b)).setPc v

theorem Frame.exchangeTo {s t : State} {l : List (Option PhysReg)} (h : Frame s t l) (v : Word) :
    Frame s (t.exchangeTo v) l := h.setThumb _ _ _

theorem hasV4T_of_newer {s : State} (h : s.platform.arch ≠ .v4) : hasV4T s = true := bne_iff_ne.mpr h

theorem exec_bx {c : Cond} {rm : Reg} {s : State} (ha : s.platform.arch ≠ .v4) (hr : Runs c s) :
    exec (.bx c rm) s = .next (s.exchangeTo (s.readReg rm)) := by
  rw [exec, execBx, conditional_of_runs hr, hasV4T_of_newer ha, ifPresent_true]

/-- BLX Rm at v5T, up to its restriction. -/
theorem exec_blxReg {c : Cond} {rm : Reg} {s : State} (ha : s.platform.arch = .v5T) (hr : Runs c s) :
    exec (.blxReg c rm) s =
      require (rm != 15) .pcOperand (.next ((s.writeReg 14 (s.pc + 4)).exchangeTo (s.readReg rm))) := by
  rw [exec, execBlxReg, conditional_of_runs hr, hasV5T_of_v5T ha, ifPresent_true]

theorem exec_blxLabel {h : Bool} {off : BitVec 24} {s : State} (ha : s.platform.arch = .v5T)
    (hm : s.mode?.isSome = true) :
    exec (.blxLabel h off) s = .next { s.writeReg 14 (s.pc + 4) with
      cpsr := psrSetT s.cpsr true
      pc := branchTarget s.pc off + (if h then 2 else 0) } := by
  rw [exec, execBlxLabel, inMode_of_mode hm, if_pos (hasV5T_of_v5T ha)]

/-- Settles O35: the register branches by `exchangeTo`, for BLX after the write of r14, and BLX label by the change of T
and its own target. -/
theorem branchExchange : Obligations.BranchExchange := by
  unfold Obligations.BranchExchange
  refine ⟨fun c rm s ha hr => ?bx, fun c rm s ha h15 hr => ?blxReg, fun c s ha hr => ?blxR15,
    fun h off s ha hm => ?blxLabel⟩
  case bx =>
    have hframe := RegisterFrame.refl s []
    exact ⟨_, exec_bx ha hr, State.exchangeTo_exchanged rfl _, hframe.toFrame.exchangeTo _, hframe.memory⟩
  case blxReg =>
    have hframe := s.writeReg_link_frame (s.pc + 4)
    refine ⟨_, ?_, State.exchangeTo_exchanged hframe.cpsr (s.readReg rm), ?_, hframe.toFrame.exchangeTo _,
      hframe.memory⟩
    · rw [exec_blxReg ha hr, bne_iff_ne.mpr h15, require_true]
    · rw [State.readReg_exchangeTo _ (by decide), State.readReg_writeReg_same _ _ (by decide)]
  case blxR15 => rw [exec_blxReg ha hr, bne_self_eq_false, require_false]
  case blxLabel =>
    have hframe := s.writeReg_link_frame (s.pc + 4)
    refine ⟨_, exec_blxLabel ha hm, psrSetT_thumbIs _ _, branchTarget_half_eq_ofInt s.pc off h, ?_,
      hframe.toFrame.setThumb _ _ _, hframe.memory⟩
    rw [State.readReg_setThumb hframe.cpsr (by decide), State.readReg_writeReg_same _ _ (by decide)]

end Sys2Proof.Machine
end

section
/-!
The statement of 42_software_interrupt.md, O15: SWI and BRK are exceptions that the program raises itself (R170,
49_coprocessor_brk_unused.md R359).
-/

namespace Sys2Proof.Machine

/-- SWI is the entry of the software interrupt, whatever its immediate (the spec's decision D19). -/
theorem exec_swi {c : Cond} {imm : BitVec 24} {s : State} (hr : Runs c s) :
    exec (.swi c imm) s = .next (takeException .softwareInterrupt s) := by
  rw [exec, execSwi, conditional_of_runs hr]

/-- BRK at v5T is the entry of the prefetch abort (the spec's decision D30). -/
theorem exec_brk {imm : BitVec 16} {s : State} (hm : s.mode?.isSome = true) (ha : s.platform.arch = .v5T) :
    exec (.brk imm) s = .next (takeException .prefetchAbort s) := by
  rw [exec, execBrk, inMode_of_mode hm, hasV5T_of_v5T ha, ifPresent_true]

/-- Settles O15: both instructions take their exception, and taking it is entering it. -/
theorem swiAndBrkEnter : Obligations.SwiAndBrkEnter := by
  unfold Obligations.SwiAndBrkEnter
  refine ⟨fun c imm s hr => ?swi, fun imm s hm ha => ?brk⟩
  case swi => exact ⟨_, exec_swi hr, takeException_entered .softwareInterrupt s⟩
  case brk => exact ⟨_, exec_brk hm ha, takeException_entered .prefetchAbort s⟩

end Sys2Proof.Machine
end

section
/-!
The statements of 43_data_processing.md, O24 to O30: operand 2 in its three forms (R181 to R183), and what the sixteen
operations do with their result (R180, R186 to R204).
-/

namespace Sys2Proof.Machine

/-! ### Shifts in exact arithmetic -/

/-- A rotation takes each bit from the position its amount higher, modulo the width. -/
theorem rotateRight_getLsbD (m : Word) (n : Nat) {k : Nat} (hk : k < 32) :
    (m.rotateRight n).getLsbD k = m.getLsbD ((k + n) % 32) := by
  rw [BitVec.getLsbD_rotateRight]
  by_cases hwrap : k < 32 - n % 32
  · rw [decide_eq_true hwrap, cond_true, show (k + n) % 32 = n % 32 + k by omega]
  · rw [decide_eq_false hwrap, cond_false, decide_eq_true hk, Bool.true_and,
      show (k + n) % 32 = k - (32 - n % 32) by omega]

/-- RRX: the old carry comes in above the upper 31 bits. -/
theorem carry_append_toNat (m : Word) (c : Bool) :
    (BitVec.ofBool c ++ m.extractLsb' 1 31).toNat = 2 ^ 31 * c.toNat + m.toNat / 2 := by
  rw [toNat_append, BitVec.toNat_ofBool, BitVec.extractLsb'_toNat, Nat.shiftRight_eq_div_pow, Nat.mul_comm]
  have := m.isLt
  omega

/-! ### Operand 2, immediate form -/

/-- Settles O24: the operand is a rotation of the zero-extended byte, by less than the width. -/
theorem immediateOperand : Obligations.ImmediateOperand := by
  unfold Obligations.ImmediateOperand
  intro o c
  refine ⟨fun k hk => ?bits, fun h0 => if_pos h0, fun h0 => if_neg h0⟩
  case bits =>
    have hlt : (k + 2 * o.rot.toNat) % 32 < 32 := Nat.mod_lt _ (by decide)
    calc (immOperand o c).value.getLsbD k
      _ = (o.imm.setWidth 32).getLsbD ((k + 2 * o.rot.toNat) % 32) := rotateRight_getLsbD _ _ hk
      _ = _ := by rw [BitVec.getLsbD_setWidth, decide_eq_true hlt, Bool.true_and]

/-! ### Operand 2, immediate shift -/

section
variable {n : BitVec 5} (hn : n ≠ 0) (m : Word) (c : Bool)
include hn

theorem immShiftOperand_lsl : (immShiftOperand .lsl n m c).value.toNat = m.toNat * 2 ^ n.toNat % 2 ^ 32
    ∧ (immShiftOperand .lsl n m c).carry = m.getLsbD (32 - n.toNat) := by
  rw [immShiftOperand, if_neg hn]
  exact ⟨by rw [BitVec.toNat_shiftLeft, Nat.shiftLeft_eq], rfl⟩

theorem immShiftOperand_lsr : (immShiftOperand .lsr n m c).value.toNat = m.toNat / 2 ^ n.toNat
    ∧ (immShiftOperand .lsr n m c).carry = m.getLsbD (n.toNat - 1) := by
  rw [immShiftOperand, if_neg hn]
  exact ⟨by rw [BitVec.toNat_ushiftRight, Nat.shiftRight_eq_div_pow], rfl⟩

theorem immShiftOperand_asr : (immShiftOperand .asr n m c).value.toInt = m.toInt / 2 ^ n.toNat
    ∧ (immShiftOperand .asr n m c).carry = m.getLsbD (n.toNat - 1) := by
  rw [immShiftOperand, if_neg hn]
  exact ⟨by rw [BitVec.toInt_sshiftRight, Int.shiftRight_eq_div_pow, Nat.cast_pow, Nat.cast_ofNat], rfl⟩

theorem immShiftOperand_ror :
    (∀ k, k < 32 → (immShiftOperand .ror n m c).value.getLsbD k = m.getLsbD ((k + n.toNat) % 32))
      ∧ (immShiftOperand .ror n m c).carry = m.getLsbD (n.toNat - 1) := by
  rw [immShiftOperand, if_neg hn]
  exact ⟨fun _ => rotateRight_getLsbD m n.toNat, rfl⟩

end

/-- Settles O25: an amount of 0 is a row of its own for each shift type. -/
theorem immediateShiftOperand : Obligations.ImmediateShiftOperand := by
  unfold Obligations.ImmediateShiftOperand
  refine ⟨fun o s => ?operand, fun m c => ⟨rfl, ⟨rfl, rfl⟩, ⟨rfl, rfl⟩, ⟨carry_append_toNat m c, rfl⟩, fun n hn =>
    ⟨immShiftOperand_lsl hn m c, immShiftOperand_lsr hn m c, immShiftOperand_asr hn m c, immShiftOperand_ror hn m c⟩⟩⟩
  case operand =>
    split
    · next h15 => rw [Operand2.value, h15]; rfl
    · rfl

/-! ### Operand 2, register shift -/

/-- By 1 to 31 both forms of a shift are the same. -/
theorem regShiftOperand_toNat (y : ShiftType) {n : BitVec 5} (hn : n ≠ 0) (m : Word) (c : Bool) :
    regShiftOperand y n.toNat m c = immShiftOperand y n m c := by
  have h0 : n.toNat ≠ 0 := fun h => hn (BitVec.eq_of_toNat_eq h)
  have hlt : n.toNat < 32 := n.isLt
  unfold regShiftOperand immShiftOperand
  rw [if_neg hn, if_neg h0]
  cases y with
  | lsl | lsr | asr => exact if_pos hlt
  | ror => simp only [Nat.mod_eq_of_lt hlt, if_neg h0]

/-- A rotation that is no multiple of 32 is one by its remainder. -/
theorem regShiftOperand_ror_mod {n : Nat} (hn : n % 32 ≠ 0) (m : Word) (c : Bool) :
    regShiftOperand .ror n m c = regShiftOperand .ror (n % 32) m c := by
  have h0 : n ≠ 0 := fun h => hn (by rw [h])
  simp only [regShiftOperand, if_neg h0, if_neg hn, Nat.mod_mod]

/-- An amount of 1 to 31 is the value of a nonzero five-bit field. -/
theorem exists_amount {n : Nat} (h0 : n ≠ 0) (hlt : n < 32) : ∃ a : BitVec 5, a ≠ 0 ∧ a.toNat = n := by
  have ha : (BitVec.ofNat 5 n).toNat = n := by rw [BitVec.toNat_ofNat, Nat.mod_eq_of_lt hlt]
  exact ⟨BitVec.ofNat 5 n, fun h => h0 (by rw [← ha, h]; rfl), ha⟩

/-- The register-shift form in every operation; the flag bit of a compare is not read. -/
theorem exec_dpReg (op : DpOp) (c : Cond) (f : Bool) (rn rd : Reg) (o : RegShift) (s : State) :
    exec (.dpReg op c f rn rd o) s = dpWithReg op c f rn rd o s := by
  cases op <;> rfl

/-- The test of r15 fails on a list that has it. -/
theorem noPc_of_mem {rs : List Reg} (h : 15 ∈ rs) : noPc rs = false :=
  List.all_eq_false.mpr ⟨15, h, by decide⟩

/-- With r15 as any of its registers the register-shift form is refused. -/
theorem exec_dpReg_pc {op : DpOp} {o : RegShift} {c : Cond} {f : Bool} {rn rd : Reg} {s : State} (hr : Runs c s)
    (h15 : rn = 15 ∨ rd = 15 ∨ o.rs = 15 ∨ o.rm = 15) : exec (.dpReg op c f rn rd o) s = .refused .pcOperand := by
  have hmem : 15 ∈ [rn, rd, o.rs, o.rm] := by simpa [eq_comm (a := 15#4)] using h15
  rw [exec_dpReg, dpWithReg, conditional_of_runs hr, noPc_of_mem hmem, require_false]

/-- Settles O26: by 1 to 31 the rows are those of the immediate shift, by 32 and more they stand in the definition, and
a rotation counts by its remainder. -/
theorem registerShiftOperand : Obligations.RegisterShiftOperand := by
  unfold Obligations.RegisterShiftOperand
  refine ⟨fun o s => ?operand, fun op o c f rn rd s hr h15 => exec_dpReg_pc hr h15, fun m c =>
    ⟨fun _ => rfl, fun k h1 h32 => ?short, ⟨rfl, rfl⟩, fun k h33 _ => ?long, fun k h32 _ => ?asr,
      fun k h1 _ hk => ?whole, fun k _ _ hk => ?rotated⟩⟩
  case operand =>
    rw [Operand2.value, BitVec.extractLsb'_toNat, Nat.shiftRight_zero]
  case short =>
    obtain ⟨n, hn, rfl⟩ := exists_amount (Nat.ne_of_gt h1) h32
    simp only [regShiftOperand_toNat _ hn]
    exact ⟨immShiftOperand_lsl hn m c, immShiftOperand_lsr hn m c, immShiftOperand_asr hn m c⟩
  case long =>
    simp [regShiftOperand, show k ≠ 0 by omega, show ¬ k < 32 by omega, show k ≠ 32 by omega]
  case asr =>
    simp [regShiftOperand, signFill, show k ≠ 0 by omega, show ¬ k < 32 by omega]
  case whole =>
    simp [regShiftOperand, show k ≠ 0 by omega, hk]
  case rotated =>
    obtain ⟨n, hn, hmod⟩ := exists_amount hk (Nat.mod_lt k (by decide))
    rw [regShiftOperand_ror_mod hk, ← hmod, regShiftOperand_toNat _ hn]
    obtain ⟨hbits, hcarry⟩ := immShiftOperand_ror hn m c
    exact ⟨fun i hi => by rw [hbits i hi, hmod, Nat.add_mod_mod], hcarry⟩

/-! ### The instructions -/

theorem exec_dpImm (op : DpOp) (c : Cond) (f : Bool) (rn rd : Reg) (o : RotImm) (s : State) :
    exec (.dpImm op c f rn rd o) s = dpWithImm op c f rn rd o s := by
  cases op <;> rfl

theorem exec_dpShift (op : DpOp) (c : Cond) (f : Bool) (rn rd : Reg) (o : ImmShift) (s : State) :
    exec (.dpShift op c f rn rd o) s = dpWithShift op c f rn rd o s := by
  cases op <;> rfl

/-- What an operation computes in a state, its operand 2 given by a form. -/
def Operand2.computed (o : Operand2) (op : DpOp) (rn : Reg) (s : State) : Alu :=
  dpCompute op (s.readReg rn) (o.value s) s.c s.v

section
variable {op : DpOp} {o : Operand2} {c : Cond} {f : Bool} {rn rd : Reg} {s t : State}

theorem Operand2.computed_result :
    (o.computed op rn s).result = dpResult op (s.readReg rn) (o.value s).value s.c := dpCompute_result ..

/-- What is computed, written over the flags of the CPSR, is the flags of the operation (R186, R187). -/
theorem dpFlags_of_cpsr {r : Alu} (hr : r = o.computed op rn s) (h : t.cpsr = psrSetFlags s.cpsr r.n r.z r.c r.v) :
    DpFlags op s t (s.readReg rn) (o.value s) := by
  subst hr
  obtain ⟨hn, hz⟩ := dpCompute_nz op (s.readReg rn) (o.value s) s.c s.v
  rw [DpFlags, h, ← dpCompute_result op (s.readReg rn) (o.value s) s.c s.v, ← hn, ← hz, ← dpCompute_c, ← dpCompute_v]
  exact psrSetFlags_flagsAre ..

/-- A data-processing instruction that is executed, its should-be-zero field zero, ends with what it computes, whatever
the form of operand 2. -/
theorem exec_dataProcessing (hr : Runs c s) (ha : o.allowed rn rd = true) (hz : dpFieldsZero op rn rd = true) :
    exec (o.instr op c f rn rd) s = dpFinish op s f rd (o.computed op rn s) := by
  have hdata (x : Shifted) :
      dataProcess op s f rn rd x = dpFinish op s f rd (dpCompute op (s.readReg rn) x s.c s.v) := by
    rw [dataProcess, hz, require_true]
  cases o with
  | imm i => rw [Operand2.instr, exec_dpImm, dpWithImm, conditional_of_runs hr, hdata]; rfl
  | shift i => rw [Operand2.instr, exec_dpShift, dpWithShift, conditional_of_runs hr, hdata]; rfl
  | reg i =>
    have hpc : noPc [rn, rd, i.rs, i.rm] = true := by simpa [noPc, Operand2.allowed, and_assoc] using ha
    rw [Operand2.instr, exec_dpReg, dpWithReg, conditional_of_runs hr, hpc, require_true, hdata]
    rfl

theorem dpFieldsZero_of_compare (h : isCompare op = true) : dpFieldsZero op rn 0 = true := if_pos h

theorem dpFieldsZero_of_destination (h : isCompare op = false) (hm : isMove op = true → rn = 0) :
    dpFieldsZero op rn rd = true := by
  rw [dpFieldsZero, h]
  cases hop : isMove op
  · rfl
  · rw [hm hop]; rfl

theorem dpFinish_of_compare (h : isCompare op = true) (r : Alu) :
    dpFinish op s f rd r = (s.setFlags r.n r.z r.c r.v).advance := if_pos h

/-- With a destination the flags are written after the register, if they are. -/
theorem dpFinish_of_register (h : isCompare op = false) (h15 : rd ≠ 15) (r : Alu) :
    dpFinish op s f rd r
      = (if f then (s.writeReg rd r.result).setFlags r.n r.z r.c r.v else s.writeReg rd r.result).advance := by
  rw [dpFinish, h, if_neg Bool.false_ne_true, if_neg h15]
  cases f <;> rfl

theorem dpFinish_of_pc (h : isCompare op = false) (r : Alu) :
    dpFinish op s f 15 r = if f then s.exceptionReturn r.result else s.writePc r.result := by
  rw [dpFinish, h, if_neg Bool.false_ne_true, if_pos rfl]

end

/-- Settles O28: of the state only the flags and the pc are written. -/
theorem dataProcessingCompare : Obligations.DataProcessingCompare := by
  unfold Obligations.DataProcessingCompare
  intro op o c rn s hcmp ha hr
  have hframe := RegisterFrame.refl s []
  refine ⟨_, ?exec, dpFlags_of_cpsr rfl rfl, rfl, (hframe.toFrame.setFlags ..).setPc _, hframe.memory⟩
  case exec =>
    rw [exec_dataProcessing hr.toRuns ha (dpFieldsZero_of_compare hcmp), dpFinish_of_compare hcmp]
    exact State.advance_of_notLast hr.notLast

/-- An executed data-processing instruction to r0 to r14 writes the register, then with S the flags, then moves the pc
on. -/
theorem exec_dataProcessing_register {op : DpOp} {o : Operand2} {c : Cond} {f : Bool} {rn rd : Reg} {s : State}
    (hcmp : isCompare op = false) (h15 : rd ≠ 15) (hmove : isMove op = true → rn = 0) (ha : o.allowed rn rd = true)
    (hr : Runs c s) {r : Alu} (hc : r = o.computed op rn s) :
    exec (o.instr op c f rn rd) s
      = (if f then (s.writeReg rd r.result).setFlags r.n r.z r.c r.v else s.writeReg rd r.result).advance := by
  rw [hc, exec_dataProcessing hr ha (dpFieldsZero_of_destination hcmp hmove), dpFinish_of_register hcmp h15]

/-- Settles O27: the register write is the whole change, but for the flags with S and for the pc. -/
theorem dataProcessingResult : Obligations.DataProcessingResult := by
  unfold Obligations.DataProcessingResult
  intro op o c f rn rd s hcmp h15 hmove ha hr
  obtain ⟨r, hc⟩ : ∃ r, r = o.computed op rn s := ⟨_, rfl⟩
  have hread : (s.writeReg rd r.result).readReg rd = dpResult op (s.readReg rn) (o.value s).value s.c := by
    rw [s.readReg_writeReg_same _ h15, hc, Operand2.computed_result]
  have hframe : RegisterFrame s (s.writeReg rd r.result) [physOf rd s.mode] :=
    (RegisterFrame.refl s _).writeReg rd _ (List.mem_singleton_self _)
  have hpc : (s.writeReg rd r.result).pc = s.pc := s.writeReg_pc rd _
  rw [exec_dataProcessing_register hcmp h15 hmove ha hr.toRuns hc]
  cases f with
  | false =>
    refine ⟨_, State.advance_of_notLast (hpc ▸ hr.notLast), ?read, nofun, fun _ => hframe.cpsr, congrArg (· + 4) hpc,
      hframe.toFrame.setPc _, hframe.memory⟩
    case read => rw [State.readReg_setPc _ h15]; exact hread
  | true =>
    refine ⟨_, State.advance_of_notLast (hpc ▸ hr.notLast), ?read,
      fun _ => dpFlags_of_cpsr hc (congrArg (psrSetFlags · _ _ _ _) hframe.cpsr), nofun, congrArg (· + 4) hpc,
      (hframe.toFrame.setFlags ..).setPc _, hframe.memory⟩
    case read => rw [State.readReg_setPc _ h15]; exact (State.readReg_setFlags _ h15 ..).trans hread

/-! ### Rd = r15 -/

section
variable {s : State} {v : Word}

theorem State.writePc_of_aligned (h : v.toNat % 4 = 0) : s.writePc v = .next { s with pc := v } :=
  if_pos ((low_two_zero_iff v).mpr h)

/-- An aligned value, and under `mask` any value, is written to the pc with its two low bits cleared. -/
theorem State.writePc_of_allowed (h : v.toNat % 4 = 0 ∨ s.platform.pcWriteAlign = .mask) :
    s.writePc v = .next { s with pc := alignWord v } :=
  State.writePc_next.mpr ⟨h.imp_left (low_two_zero_iff v).mpr, rfl⟩

theorem State.writePc_of_misaligned (h : v.toNat % 4 ≠ 0) (hp : s.platform.pcWriteAlign = .refuse) :
    s.writePc v = .refused .pcWriteAlignment :=
  State.writePc_refused (not_or.mpr ⟨fun e => h ((low_two_zero_iff v).mp e), fun e => by simp [hp] at e⟩)

theorem State.exceptionReturn_of_noSpsr (h : s.mode.hasSpsr = false) : s.exceptionReturn v = .refused .noSpsr := by
  rw [State.exceptionReturn, State.restoreCpsr, h, if_neg Bool.false_ne_true]

theorem State.exceptionReturn_of_noMode (h : s.mode.hasSpsr = true) (hn : psrMode (s.spsr s.mode) = none) :
    s.exceptionReturn v = .refused .illegalModeWritten := by
  rw [State.exceptionReturn, State.restoreCpsr, if_pos h, hn]
  rfl

/-- Where there is an SPSR and it names a mode, the CPSR is restored and the pc written for the state restored. -/
theorem State.exceptionReturn_of_mode (h : s.mode.hasSpsr = true) (hm : (psrMode (s.spsr s.mode)).isSome = true) :
    s.exceptionReturn v =
      if psrT (s.spsr s.mode) then .next { s with cpsr := s.spsr s.mode, pc := alignHalf v }
      else State.writePc { s with cpsr := s.spsr s.mode } v := by
  rw [State.exceptionReturn, State.restoreCpsr, if_pos h, if_pos hm]

end

/-- An executed data-processing instruction to r15 branches to its result or, with S, returns to it. -/
theorem exec_dataProcessing_pc {op : DpOp} {o : Operand2} {c : Cond} {f : Bool} {rn : Reg} {s : State}
    (hcmp : isCompare op = false) (hmove : isMove op = true → rn = 0) (ha : o.allowed rn 15 = true) (hr : Runs c s) :
    exec (o.instr op c f rn 15) s
      = if f then s.exceptionReturn (dpResult op (s.readReg rn) (o.value s).value s.c)
        else s.writePc (dpResult op (s.readReg rn) (o.value s).value s.c) := by
  rw [exec_dataProcessing hr ha (dpFieldsZero_of_destination hcmp hmove), dpFinish_of_pc hcmp, Operand2.computed_result]

/-- Settles O29: the instruction is a write of the pc. -/
theorem dataProcessingBranch : Obligations.DataProcessingBranch := by
  unfold Obligations.DataProcessingBranch
  intro op o c rn s hcmp hmove ha hr r
  have hexec : exec (o.instr op c false rn 15) s = s.writePc r := exec_dataProcessing_pc hcmp hmove ha hr
  have hframe := RegisterFrame.refl s []
  rw [hexec]
  exact ⟨fun h4 => ⟨_, State.writePc_of_aligned h4, rfl, hframe.setPc r⟩,
    fun _ hp => ⟨_, State.writePc_of_allowed (.inr hp), rfl, hframe.setPc _⟩, State.writePc_of_misaligned⟩

/-- Settles O30: the instruction is a return from an exception, refused without a legal SPSR, to Thumb state or by a
write of the pc in the state restored. -/
theorem dataProcessingReturn : Obligations.DataProcessingReturn := by
  unfold Obligations.DataProcessingReturn
  intro op o c rn s hcmp hmove ha hr r new
  have hexec : exec (o.instr op c true rn 15) s = s.exceptionReturn r := exec_dataProcessing_pc hcmp hmove ha hr
  have hframe (v : Word) : Frame s { s with cpsr := new, pc := v } [] :=
    ((RegisterFrame.refl s []).toFrame.setCpsr new).setPc v
  have hmemory := (RegisterFrame.refl s []).memory
  rw [hexec]
  refine ⟨State.exceptionReturn_of_noSpsr, State.exceptionReturn_of_noMode, fun h hm ht => ?thumb,
    fun h hm ht h4 => ?arm, fun h hm ht h4 hp => ?refused⟩ <;> rw [State.exceptionReturn_of_mode h hm, ht]
  case thumb => exact ⟨_, rfl, rfl, rfl, hframe _, hmemory⟩
  case arm => exact ⟨_, State.writePc_of_allowed h4, rfl, rfl, hframe _, hmemory⟩
  case refused => exact State.writePc_of_misaligned h4 hp

end Sys2Proof.Machine
end

section
/-!
The statements of 44_multiply_clz.md, O31 to O33: the products in exact arithmetic (R232 to R237), what a multiply
leaves of the flags and of the rest of the state (R231), and CLZ (R238).
-/

namespace Sys2Proof.Machine

/-- A register write changes its register and nothing else. -/
theorem State.writeReg_frame (s : State) (r : Reg) (v : Word) : RegisterFrame s (s.writeReg r v) [physOf r s.mode] :=
  (RegisterFrame.refl s _).writeReg r v (List.mem_singleton_self _)

/-! ### The end of a multiply -/

section
variable {s u : State} {l : List (Option PhysReg)} {f long n z : Bool}

/-- N and Z are those given, and with S every bit below the flags is as before; V is drawn in the long forms only. -/
theorem State.setMultiplyFlags_flags (s : State) (f long n z : Bool) :
    MultiplyFlags s (s.setMultiplyFlags f long n z) f long n z := by
  cases f with
  | false => exact rfl
  | true =>
    refine ⟨psrSetFlags_n .., psrSetFlags_z .., fun hshort => ?v, psrSetFlags_low ..⟩
    case v => subst hshort; exact psrSetFlags_v ..

theorem MultiplyFlags.of_cpsr {t : State} (h : MultiplyFlags u t f long n z) (hc : u.cpsr = s.cpsr) :
    MultiplyFlags s t f long n z := by
  rwa [MultiplyFlags, hc] at h

/-- The flags of a multiply leave r0 to r14. -/
theorem State.readReg_setMultiplyFlags (s : State) {r : Reg} (h : r ≠ 15) (f long n z : Bool) :
    (s.setMultiplyFlags f long n z).readReg r = s.readReg r := by
  cases f with
  | false => rfl
  | true => exact State.readReg_congr_reg h (State.mode_congr_bits (psrSetFlags_modeBits ..)) fun p => by simp

/-- The flags of a multiply are in the frame of its registers. -/
theorem Frame.setMultiplyFlags (h : Frame s u l) (f long n z : Bool) : Frame s (u.setMultiplyFlags f long n z) l :=
  ⟨fun p hp => by simpa using h.registers p hp, fun m => by simpa using h.spsrs m, by simpa using h.coproc,
    by simpa [outsideKept] using h.outside⟩

/-- Where only registers were written, the flags and the advance of the pc end the multiply. -/
theorem multiply_ends (h : RegisterFrame s u l) (hpc : u.pc = s.pc) (hn : s.pc ≠ 0xFFFFFFFC) (f long n z : Bool) :
    ∃ t, (u.setMultiplyFlags f long n z).advance = .next t ∧ (∀ r, r ≠ 15 → t.readReg r = u.readReg r)
      ∧ MultiplyFlags s t f long n z ∧ t.pc = s.pc + 4 ∧ Frame s t l ∧ memoryKept s t := by
  have hfpc : (u.setMultiplyFlags f long n z).pc = s.pc := (u.setMultiplyFlags_pc f long n z).trans hpc
  refine ⟨_, State.advance_of_notLast (hfpc ▸ hn), fun r h15 => ?read, ?flags, congrArg (· + 4) hfpc,
    (h.toFrame.setMultiplyFlags f long n z).setPc _, ?memory⟩
  case read => rw [State.readReg_setPc _ h15, State.readReg_setMultiplyFlags _ h15]
  case flags => exact (u.setMultiplyFlags_flags f long n z).of_cpsr h.cpsr
  case memory => simpa [memoryKept] using h.memory

end

/-! ### MUL and MLA -/

theorem ne_pc_of_noPc {r : Reg} {rs : List Reg} (h : noPc rs = true) (hr : r ∈ rs) : r ≠ 15 :=
  bne_iff_ne.mp (List.all_eq_true.mp h r hr)

/-- A short multiply within its register restrictions leaves the result given in Rd. -/
theorem multiplyShort_ends {s : State} {rd rm : Reg} {others : List Reg} (hregs : noPc (rd :: rm :: others) = true)
    (hne : rd ≠ rm) (hn : s.pc ≠ 0xFFFFFFFC) (f : Bool) (r : Word) :
    ∃ t, multiplyShort s f rd rm others r = .next t ∧ t.readReg rd = r
      ∧ MultiplyFlags s t f false ((t.readReg rd).getLsbD 31) (t.readReg rd == 0)
      ∧ t.pc = s.pc + 4 ∧ Frame s t [physOf rd s.mode] ∧ memoryKept s t := by
  have h15 : rd ≠ 15 := ne_pc_of_noPc hregs (List.mem_cons_self ..)
  obtain ⟨t, hnext, hkept, hflags, hrest⟩ :=
    multiply_ends (s.writeReg_frame rd r) (s.writeReg_pc rd r) hn f false (r.getLsbD 31) (r == 0)
  have hread : t.readReg rd = r := (hkept rd h15).trans (s.readReg_writeReg_same r h15)
  exact ⟨t, multiplyShort_next.mpr ⟨hregs, hne, hnext⟩, hread, by rwa [hread], hrest⟩

/-- Settles O31: the product and the sum of words are the exact ones modulo 2^32. -/
theorem shortMultiply : Obligations.ShortMultiply := by
  unfold Obligations.ShortMultiply
  refine ⟨fun c f rd rs rm s hregs hne hr => ?mul, fun c f rd rn rs rm s hregs hne hr => ?mla⟩
  case mul =>
    rw [← noPc_cons_reverse] at hregs
    obtain ⟨t, hnext, hread, hrest⟩ := multiplyShort_ends hregs hne hr.notLast f (s.readReg rm * s.readReg rs)
    refine ⟨t, ?exec, by rw [hread, BitVec.toNat_mul], hrest⟩
    case exec => rw [exec, execMul, conditional_of_runs hr.toRuns, beq_self_eq_true, require_true, hnext]
  case mla =>
    rw [← noPc_cons_reverse] at hregs
    obtain ⟨t, hnext, hread, hrest⟩ :=
      multiplyShort_ends hregs hne hr.notLast f (s.readReg rm * s.readReg rs + s.readReg rn)
    refine ⟨t, ?exec, by rw [hread, BitVec.toNat_add, BitVec.toNat_mul, Nat.mod_add_mod], hrest⟩
    case exec => rw [exec, execMla, conditional_of_runs hr.toRuns, hnext]

/-! ### The long multiplies -/

/-- A value is zero just if its two parts are. -/
theorem append_beq_zero {n m : Nat} (x : BitVec n) (y : BitVec m) : (x ++ y == 0) = (x == 0 && y == 0) := by
  rw [Bool.eq_iff_iff, Bool.and_eq_true, beq_iff_eq, beq_iff_eq, beq_iff_eq]
  simp [← BitVec.toNat_inj]

/-- The sign of a value is that of its upper part. -/
theorem append_sign (x y : Word) : (x ++ y).getLsbD 63 = x.getLsbD 31 := by
  rw [BitVec.getLsbD_append]
  rfl

/-- A long multiply within its register restrictions leaves the result given in RdHi : RdLo. -/
theorem multiplyLong_ends {s : State} {rdHi rdLo rs rm : Reg} (hw : longMultiplyWf rdHi rdLo rs rm = true)
    (hn : s.pc ≠ 0xFFFFFFFC) (f : Bool) (r : BitVec 64) :
    ∃ t, multiplyLong s f rdHi rdLo rs rm r = .next t ∧ t.readReg rdHi ++ t.readReg rdLo = r
      ∧ MultiplyFlags s t f true ((t.readReg rdHi).getLsbD 31) (t.readReg rdHi == 0 && t.readReg rdLo == 0)
      ∧ t.pc = s.pc + 4 ∧ Frame s t [physOf rdHi s.mode, physOf rdLo s.mode] ∧ memoryKept s t := by
  obtain ⟨hHi, hLo, hne⟩ : rdHi ≠ 15 ∧ rdLo ≠ 15 ∧ rdHi ≠ rdLo := by
    simp only [longMultiplyWf, Bool.and_eq_true, bne_iff_ne] at hw
    obtain ⟨⟨⟨hregs, hne⟩, _⟩, _⟩ := hw
    exact ⟨ne_pc_of_noPc hregs (by simp), ne_pc_of_noPc hregs (by simp), hne⟩
  have hframe : RegisterFrame s ((s.writeReg rdLo (r.extractLsb' 0 32)).writeReg rdHi (r.extractLsb' 32 32))
      [physOf rdHi s.mode, physOf rdLo s.mode] :=
    ((RegisterFrame.refl s _).writeReg rdLo _ (by simp)).writeReg rdHi _ (by simp)
  obtain ⟨t, hnext, hkept, hflags, hrest⟩ := multiply_ends hframe (by simp) hn f true (r.getLsbD 63) (r == 0)
  have hreadHi : t.readReg rdHi = r.extractLsb' 32 32 := by
    rw [hkept rdHi hHi, State.readReg_writeReg_same _ _ hHi]
  have hreadLo : t.readReg rdLo = r.extractLsb' 0 32 := by
    rw [hkept rdLo hLo, State.readReg_writeReg_other _ _ hne.symm, State.readReg_writeReg_same _ _ hLo]
  have hjoined : t.readReg rdHi ++ t.readReg rdLo = r := by
    rw [hreadHi, hreadLo]
    exact append_extractLsb' (n := 32) (m := 32) r
  refine ⟨t, multiplyLong_next.mpr ⟨hw, hnext⟩, hjoined, ?flags, hrest⟩
  case flags => rwa [← append_sign, ← append_beq_zero, hjoined]

/-- The products are those of exact arithmetic modulo 2^64, and so are their sums with the accumulator, which counts as
unsigned or as signed (R234 to R237). -/
theorem exec_longForm (l : LongForm) (c : Cond) (f : Bool) (rdHi rdLo rs rm : Reg) (s : State) :
    exec (l.instr c f rdHi rdLo rs rm) s = conditional c s (multiplyLong s f rdHi rdLo rs rm
      (BitVec.ofInt 64 (l.exact (s.readReg rm) (s.readReg rs) (s.readReg rdHi ++ s.readReg rdLo)))) := by
  have hunsigned (a b : Word) : BitVec.ofInt 64 (a.toNat * b.toNat) = unsignedProduct a b := BitVec.ofInt_natCast ..
  cases l with
  | umull => rw [LongForm.exact, hunsigned]; rfl
  | umlal =>
    rw [LongForm.exact, BitVec.ofInt_add, hunsigned, BitVec.ofInt_natCast, BitVec.ofNat_toNat, BitVec.setWidth_eq]
    rfl
  | smull => rfl
  | smlal => rw [LongForm.exact, BitVec.ofInt_add, BitVec.ofInt_toInt]; rfl

/-- Settles O32: every form is the one long multiply of its exact result. -/
theorem longMultiply : Obligations.LongMultiply := by
  unfold Obligations.LongMultiply
  intro l c f rdHi rdLo rs rm s hw hr
  rw [exec_longForm, conditional_of_runs hr.toRuns]
  exact multiplyLong_ends hw hr.notLast f _

/-! ### CLZ -/

theorem leadingZeros_zero : leadingZeros 0 = 32 := rfl

/-- The most significant 1 bit, bit `k`, is the binary logarithm of the value. -/
theorem leadingZeros_of_highestBit {m : Word} {k : Nat} (hk : m.getLsbD k = true)
    (habove : ∀ j, k < j → m.getLsbD j = false) : leadingZeros m = 31 - k := by
  have hlow : 2 ^ k ≤ m.toNat := Nat.ge_two_pow_of_testBit hk
  have hhigh : m.toNat < 2 ^ (k + 1) := Nat.lt_pow_two_of_testBit _ habove
  have hne : m ≠ 0 := fun h0 => by subst h0; exact absurd hk (by simp)
  have hlog : Nat.log2 m.toNat = k :=
    (Nat.log2_eq_iff fun h0 => hne (BitVec.eq_of_toNat_eq h0)).mpr ⟨hlow, hhigh⟩
  rw [leadingZeros, if_neg hne, hlog]

/-- An instruction that writes one register and ends. -/
theorem State.writeReg_advances (s : State) {rd : Reg} (h15 : rd ≠ 15) (hn : s.pc ≠ 0xFFFFFFFC) (v : Word) :
    ∃ t, (s.writeReg rd v).advance = .next t ∧ t.readReg rd = v ∧ t.pc = s.pc + 4
      ∧ RegisterFrame s t [physOf rd s.mode] := by
  have hpc : (s.writeReg rd v).pc = s.pc := s.writeReg_pc rd v
  refine ⟨_, State.advance_of_notLast (hpc ▸ hn), ?read, congrArg (· + 4) hpc, (s.writeReg_frame rd v).setPc _⟩
  case read => rw [State.readReg_setPc _ h15, s.readReg_writeReg_same v h15]

/-- CLZ at v5T, up to its register restriction. -/
theorem exec_clz {c : Cond} {rd rm : Reg} {s : State} (ha : s.platform.arch = .v5T) (hr : Runs c s) :
    exec (.clz c rd rm) s = require (noPc [rd, rm]) .pcOperand
      (s.writeReg rd (BitVec.ofNat 32 (leadingZeros (s.readReg rm)))).advance := by
  rw [exec, execClz, conditional_of_runs hr, hasV5T_of_v5T ha, ifPresent_true]

/-- Settles O33: below v5T CLZ is the trap of O17; at v5T it is one register write. -/
theorem countLeadingZeros : Obligations.CountLeadingZeros := by
  unfold Obligations.CountLeadingZeros
  refine ⟨fun c rd rm s ha hr => ?trap, fun c rd rm s h15 ha hr => ?refused, fun c rd rm s hd hm ha hr => ?counted⟩
  case trap =>
    obtain ⟨_, _, hclz, _⟩ := olderVersionsTrap
    exact hclz c rd rm s hr ha
  case refused =>
    have hmem : 15 ∈ [rd, rm] := by simpa [eq_comm (a := 15#4)] using h15
    rw [exec_clz ha hr, noPc_of_mem hmem, require_false]
  case counted =>
    have hregs : noPc [rd, rm] = true := by simpa [noPc] using ⟨hd, hm⟩
    obtain ⟨t, hnext, hread, hrest⟩ :=
      s.writeReg_advances hd hr.notLast (BitVec.ofNat 32 (leadingZeros (s.readReg rm)))
    refine ⟨t, ?exec, fun h0 => ?zero, fun k _ hbit habove => ?highestBit, hrest⟩
    case exec => rw [exec_clz ha hr.toRuns, hregs, require_true, hnext]
    case zero => rw [hread, h0, leadingZeros_zero]; rfl
    case highestBit =>
      rw [hread, leadingZeros_of_highestBit hbit habove, BitVec.toNat_ofNat]
      omega

end Sys2Proof.Machine
end

section
/-!
The statement of 45_single_data_transfer.md, O39: the addresses of the indexed and of the block transfers (R250, R251,
46_halfword_signed_transfer.md R281, 47_multiple_transfer_swap.md R301, 49_coprocessor_brk_unused.md R357).
-/

namespace Sys2Proof.Machine

/-- The offset of a coprocessor transfer counts words. -/
theorem wordOffset_eq (off : BitVec 8) : off.setWidth 32 <<< 2 = BitVec.ofNat 32 (4 * off.toNat) := by
  apply BitVec.eq_of_toNat_eq
  rw [BitVec.toNat_shiftLeft, BitVec.toNat_setWidth, BitVec.toNat_ofNat, Nat.shiftLeft_eq, Nat.mod_mul_mod,
    Nat.mul_comm]

/-- Settles O39: an immediate offset is zero-extended, a coprocessor's is shifted by two bits, and every other equation
is a definition. -/
theorem transferAddresses : Obligations.TransferAddresses := by
  unfold Obligations.TransferAddresses
  refine ⟨fun s x => ⟨rfl, rfl⟩, fun s p u w rn off o => ⟨?single, rfl⟩,
    fun s p u w rn rm off => ⟨?half, rfl, ?coproc⟩, fun base n => ⟨rfl, rfl, rfl, rfl, rfl, rfl⟩⟩
  case single => rw [immIndexing, BitVec.ofNat_toNat]
  case half => rw [halfImmIndexing, BitVec.ofNat_toNat]
  case coproc => rw [coprocessorIndexing, wordOffset_eq]

end Sys2Proof.Machine
end

section
/-!
The statements of 45_single_data_transfer.md, O40 to O44 and O47: the word and byte transfers to and from a register,
the load of the pc, and the data abort (R252 to R262). Each form is one shared operation (R263), an indexed load or an
indexed store. Five of the theorems stand in the namespace `SingleTransfer`, because the machine's own operations have
the names `loadWord`, `loadByte`, `storeWord`, `storeByte` and, on states, `loadPc`.
-/

namespace Sys2Proof.Machine

/-! ### The byte transfers as shared operations -/

section
variable (c : Cond) (rn rd : Reg) (s : State)

theorem SingleForm.exec_ldrb (f : SingleForm) :
    exec (f.ldrb c rn rd) s = conditional c s (withOffset (f.indexing s rn) rd f.offsetReg?
      (loadByte s (f.indexing s rn) rd (f.privileged s))) := by
  cases f <;> rfl

theorem SingleForm.exec_strb (f : SingleForm) :
    exec (f.strb c rn rd) s = conditional c s (withOffset (f.indexing s rn) rd f.offsetReg?
      (storeByte s (f.indexing s rn) rd (f.privileged s))) := by
  cases f <;> rfl

end

section
variable {c : Cond} {rn rd : Reg} {s : State} {f : SingleForm} (hr : Runs c s)
  (ha : transferAllowed (f.indexing s rn).writeBack rn rd f.offsetReg? = true)
include hr ha

theorem SingleForm.exec_ldrb_of_allowed (h15 : rd ≠ 15) :
    exec (f.ldrb c rn rd) s = loadIndexed s (f.indexing s rn)
      (s.load .byte (s.addressOf (f.indexing s rn)) (f.privileged s)) fun t v => (t.writeReg rd v).advance := by
  rw [f.exec_ldrb, conditional_of_runs hr, withOffset_of_allowed _ (by rwa [f.indexing_rn]), loadByte,
    bne_iff_ne.mpr h15, require_true]

theorem SingleForm.exec_strb_of_allowed (h15 : rd ≠ 15) :
    exec (f.strb c rn rd) s = storeIndexed s (f.indexing s rn) .byte (s.readReg rd) (f.privileged s) := by
  rw [f.exec_strb, conditional_of_runs hr, withOffset_of_allowed _ (by rwa [f.indexing_rn]), storeByte,
    bne_iff_ne.mpr h15, require_true]

/-- STRT of r15 is refused once its base and offset register are allowed. -/
theorem SingleForm.exec_str_user_pc (hu : f.isUser = true) (h15 : rd = 15) :
    exec (f.str c rn rd) s = .refused .pcOperand := by
  have hbroken : (!f.isUser || rd != 15) = false := by simp [hu, h15]
  rw [f.exec_str, conditional_of_runs hr, withOffset_of_allowed _ (by rwa [f.indexing_rn]), hbroken, require_false]

end

/-! ### A load that is made -/

section
variable {s : State} {x : Indexing} {rd : Reg} {privileged : Bool}

/-- A word load hands on what the rotation makes of the word in memory, after the write-back. -/
theorem loadWord_of_accessible (h : Accessible s .read .word (s.addressOf x) privileged) :
    loadWord s x rd privileged =
      let t := s.writeBackTo x.writeBack x.rn (s.indexed x)
      let v := rotateRead s.platform.endian (s.addressOf x) (s.valueAt .word (s.addressOf x))
      if rd = 15 then t.loadPc v else (t.writeReg rd v).advance := by
  rw [loadWord, State.loadRotated_ok.mpr ⟨h, rfl⟩]
  rfl

/-- A load to a register, from the write-back to the advance of the pc; `rn` names the base apart from the
addressing. -/
theorem loaded_of_base {rn : Reg} {o : Option Reg} (hrn : x.rn = rn) (v : Word) (h15 : rd ≠ 15)
    (ha : transferAllowed x.writeBack rn rd o = true) (hn : s.pc ≠ 0xFFFFFFFC) :
    ∃ t, ((s.writeBackTo x.writeBack x.rn (s.indexed x)).writeReg rd v).advance = .next t ∧ t.readReg rd = v
      ∧ (x.writeBack = true → t.readReg rn = s.indexed x) ∧ t.pc = s.pc + 4
      ∧ RegisterFrame s t [physOf rd s.mode, if x.writeBack then physOf rn s.mode else none] := by
  subst hrn
  exact loaded_of_allowed v h15 ha hn

end

/-- Settles O40: the load is made, and its value is that of the rotation. -/
theorem SingleTransfer.loadWord : Obligations.LoadWord := by
  unfold Obligations.LoadWord
  intro f c rn rd s x a h15 ha hr hacc
  obtain ⟨t, hnext, hread, hrest⟩ := loaded_of_base (f.indexing_rn s rn)
    (rotateRead s.platform.endian a (s.valueAt .word a)) h15 ha hr.notLast
  refine ⟨t, ?exec, fun hrot => hread.trans (rotateRead_eq _ hrot), hrest⟩
  case exec => rw [f.exec_ldr_of_allowed hr.toRuns (.inr h15) ha, loadWord_of_accessible hacc, if_neg h15, hnext]

/-- Settles O42: the value read is the byte in memory, zero-extended. -/
theorem SingleTransfer.loadByte : Obligations.LoadByte := by
  unfold Obligations.LoadByte
  intro f c rn rd s x a h15 ha hr hacc
  obtain ⟨t, hnext, hread, hrest⟩ := loaded_of_base (f.indexing_rn s rn) (s.valueAt .byte a) h15 ha hr.notLast
  refine ⟨t, ?exec, ?value, hrest⟩
  case exec => rw [f.exec_ldrb_of_allowed hr.toRuns ha h15, State.load_of_accessible hacc, loadIndexed, hnext]
  case value =>
    have hbyte : s.valueAt .byte a = (s.byteAt a).setWidth 32 := rfl
    rw [hread, hbyte, BitVec.toNat_setWidth_of_le (by decide)]

/-! ### A load of the pc -/

section
variable {s u : State} {l : List (Option PhysReg)} {v : Word}

/-- A value that may be loaded to the pc gives the pc and, at v5T, T; a load that follows register writes changes
nothing else (10_state.md R27). -/
theorem State.loadPc_of_loadable (h : RegisterFrame s u l) (hv : pcLoadable s v) :
    ∃ t, u.loadPc v = .next t ∧ PcLoaded s t v ∧ (∀ r, r ≠ 15 → t.readReg r = u.readReg r) ∧ Frame s t l
      ∧ memoryKept s t := by
  have hp : u.platform = s.platform := h.outside.2
  cases ha : s.platform.arch with
  | v5T =>
    rw [pcLoadable, ha] at hv
    refine ⟨{ u with cpsr := psrSetT u.cpsr (v.getLsbD 0), pc := alignHalf v },
      State.loadPc_next.mpr (.inl ⟨hp ▸ ha, hv, rfl⟩), ?loaded, fun r h15 => State.readReg_setThumb rfl h15 _ _,
      h.toFrame.setThumb _ _ _, h.memory⟩
    case loaded =>
      rw [PcLoaded, ha]
      exact ⟨h.cpsr ▸ psrSetT_thumbIs _ _, rfl⟩
  | v4 | v4T =>
    rw [pcLoadable, ha] at hv
    refine ⟨{ u with pc := alignWord v },
      State.loadPc_next.mpr (.inr ⟨by simp [hp, ha], State.writePc_next.mpr ⟨hp ▸ hv, rfl⟩⟩), ?loaded,
      fun r h15 => State.readReg_setPc u h15 _, h.toFrame.setPc _, h.memory⟩
    case loaded =>
      rw [PcLoaded, ha]
      exact ⟨h.cpsr, rfl⟩

/-- A value that may not be loaded to the pc is refused. -/
theorem State.loadPc_of_not_loadable (hp : u.platform = s.platform) (hv : ¬ pcLoadable s v) :
    u.loadPc v = .refused (pcLoadRefusal s) := by
  cases ha : s.platform.arch with
  | v5T =>
    rw [pcLoadable, ha] at hv
    rw [State.loadPc, pcLoadRefusal, hp, ha]
    exact if_pos (not_not.mp hv)
  | v4 | v4T =>
    rw [pcLoadable, ha] at hv
    rw [State.loadPc, pcLoadRefusal, hp, ha]
    exact State.writePc_refused (hp ▸ hv)

end

/-- A base write-back changes the base and nothing else. -/
theorem State.writeBackTo_frame (s : State) (w : Bool) (r : Reg) (v : Word) :
    RegisterFrame s (s.writeBackTo w r v) [if w then physOf r s.mode else none] :=
  (RegisterFrame.refl s _).writeBackTo w r v fun hw => by simp [hw]

/-- Settles O41: the load of the pc follows the write-back, and leaves the base as written. -/
theorem SingleTransfer.loadPc : Obligations.LoadPc := by
  unfold Obligations.LoadPc
  intro f c rn s x a v huser ha hr hacc hrot
  have hrn : x.rn = rn := f.indexing_rn s rn
  have hpriv : f.privileged s = s.privileged := by rw [SingleForm.privileged, huser]; rfl
  have hexec : exec (f.ldr c rn 15) s = (s.writeBackTo x.writeBack rn (s.indexed x)).loadPc v := by
    rw [f.exec_ldr_of_allowed hr (.inl huser) ha, loadWord_of_accessible (hpriv ▸ hacc), if_pos rfl,
      rotateRead_eq _ hrot, hrn]
  have hframe := s.writeBackTo_frame x.writeBack rn (s.indexed x)
  rw [hexec]
  refine ⟨fun hv => ?loaded, State.loadPc_of_not_loadable hframe.outside.2⟩
  case loaded =>
    obtain ⟨t, hnext, hloaded, hkept, hrest⟩ := State.loadPc_of_loadable hframe hv
    refine ⟨t, hnext, hloaded, fun hw => ?base, hrest⟩
    case base =>
      obtain ⟨h15, _⟩ := base_of_transferAllowed ha hw
      rw [hkept rn h15, State.readReg_writeBackTo_same _ _ h15 hw]

/-! ### A store that is made -/

/-- An indexed store that is made; `rn` names the base apart from the addressing. -/
theorem storeIndexed_of_accessible {s : State} {x : Indexing} {rn rd : Reg} {o : Option Reg} {size : AccessSize}
    {privileged : Bool} (hrn : x.rn = rn) (v : Word) (hm : Memory.wf s.mem = true)
    (ha : transferAllowed x.writeBack rn rd o = true) (hn : s.pc ≠ 0xFFFFFFFC)
    (hacc : Accessible s .write size (s.addressOf x) privileged) :
    ∃ t, storeIndexed s x size v privileged = .next t ∧ Stored s t size (s.effectiveAddress size (s.addressOf x)) v
      ∧ (x.writeBack = true → t.readReg rn = s.indexed x) ∧ t.pc = s.pc + 4 ∧ t.cpsr = s.cpsr
      ∧ Frame s t [if x.writeBack then physOf rn s.mode else none] := by
  subst hrn
  rw [storeIndexed, State.store_of_accessible v hacc]
  exact stored_of_allowed size _ v hm ha hn

/-- A word store is the store of the register's value, r15 as 10_state.md R26 has it. -/
theorem storeWord_eq (s : State) (x : Indexing) (rd : Reg) (privileged : Bool) :
    storeWord s x rd privileged = storeIndexed s x .word (storedRegister s s.mode rd) privileged := by
  rw [storeWord, s.storeValue_eq]

/-- Settles O43: the store is made of the register's value; STRT of r15 is refused. -/
theorem SingleTransfer.storeWord : Obligations.StoreWord := by
  unfold Obligations.StoreWord
  refine ⟨fun f c rn rd s hpc ha hr hm hacc => ?stored,
    fun f c rn s huser ha hr => f.exec_str_user_pc hr ha huser rfl⟩
  case stored =>
    rw [f.exec_str_of_allowed hr.toRuns hpc ha, storeWord_eq]
    exact storeIndexed_of_accessible (f.indexing_rn s rn) _ hm ha hr.notLast hacc

/-- Settles O44: the store is made of the register, of which a byte access writes the low byte. -/
theorem SingleTransfer.storeByte : Obligations.StoreByte := by
  unfold Obligations.StoreByte
  intro f c rn rd s x a h15 ha hr hm hacc
  rw [f.exec_strb_of_allowed hr.toRuns ha h15]
  exact storeIndexed_of_accessible (f.indexing_rn s rn) _ hm ha hr.notLast hacc

/-! ### A transfer that faults -/

/-- An indexed transfer that a faulting access stops enters the data abort, the base as `ABORT_MODEL` says. -/
theorem enters_of_faulting {s : State} {x : Indexing} {rn : Reg} {kind : AccessKind} {size : AccessSize} {a : Word}
    {privileged : Bool} {y : Result State} (hrn : x.rn = rn) (hf : Faulting s kind size a privileged)
    (hy : s.access kind size a privileged = .error .abort →
      y = stopWith .abort (s.withAbortedBase x.writeBack x.rn (s.indexed x))) :
    ∃ t, y = .next t ∧ Entered .dataAbort (s.withAbortedBase x.writeBack rn (s.indexed x)) t := by
  subst hrn
  exact ⟨_, hy (State.access_of_faulting hf), takeException_entered .dataAbort _⟩

/-- Settles O47: each transfer stops at its one access, before it writes its register or memory. -/
theorem singleTransferAborts : Obligations.SingleTransferAborts := by
  unfold Obligations.SingleTransferAborts
  refine ⟨fun f c rn rd s ha hr => ⟨fun hpc => ⟨fun h => ?ldr, fun h => ?str⟩,
      fun h15 => ⟨fun h => ?ldrb, fun h => ?strb⟩⟩,
    fun f c p u w rn rd s h15 hpw ha hr => ⟨fun l h => ?load, fun h => ?strh⟩⟩
  case ldr =>
    rw [f.exec_ldr_of_allowed hr hpc ha]
    exact enters_of_faulting (f.indexing_rn s rn) h loadWord_of_stop
  case str =>
    rw [f.exec_str_of_allowed hr hpc ha, storeWord_eq]
    exact enters_of_faulting (f.indexing_rn s rn) h storeIndexed_of_stop
  case ldrb =>
    rw [f.exec_ldrb_of_allowed hr ha h15]
    refine enters_of_faulting (f.indexing_rn s rn) h fun hstop => ?_
    rw [State.load_error.mpr hstop, loadIndexed_of_stop]
  case strb =>
    rw [f.exec_strb_of_allowed hr ha h15]
    exact enters_of_faulting (f.indexing_rn s rn) h storeIndexed_of_stop
  case load =>
    rw [l.exec_instr_of_allowed hr h15 hpw ha]
    exact enters_of_faulting (f.indexing_rn s p u w rn) h loadExtended_of_stop
  case strh =>
    rw [f.exec_strh_of_allowed hr h15 hpw ha, storeHalf]
    exact enters_of_faulting (f.indexing_rn s p u w rn) h storeIndexed_of_stop

end Sys2Proof.Machine
end

section
/-!
The statements of 46_halfword_signed_transfer.md, O45 and O46: the loads of the half-word family to a register and the
store of a half-word (R280 to R286). Both are the indexed transfers of 45_single_data_transfer.md; what a load adds is
the extension of the value read.
-/

namespace Sys2Proof.Machine

/-! ### The extension of the value read -/

/-- A value of `n + 1` bits, sign-extended from its bit `n`. -/
theorem signExtend_of_lt {n : Nat} {v : Word} (hv : v.toNat < 2 ^ (n + 1)) :
    (v.extractLsb' 0 (n + 1)).signExtend 32
      = BitVec.ofInt 32 (if v.toNat < 2 ^ n then v.toNat else v.toNat - 2 ^ (n + 1)) := by
  have hlow : (v.extractLsb' 0 (n + 1)).toNat = v.toNat := by
    rw [BitVec.extractLsb'_toNat, Nat.shiftRight_zero, Nat.mod_eq_of_lt hv]
  have hsign : 2 * v.toNat < 2 ^ (n + 1) ↔ v.toNat < 2 ^ n := by omega
  rw [BitVec.signExtend, BitVec.toInt_eq_toNat_cond, hlow]
  simp only [hsign, Nat.cast_pow, Nat.cast_ofNat]

/-- The extension is that of exact arithmetic on every value that the access can read. -/
theorem HalfLoad.extend_eq_extended (l : HalfLoad) {v : Word} (hv : v.toNat < 2 ^ (8 * accessBytes l.size)) :
    l.extend v = BitVec.ofInt 32 (l.extended v) := by
  cases l with
  | ldrh => rw [HalfLoad.extend, HalfLoad.extended, BitVec.ofInt_natCast, BitVec.ofNat_toNat, BitVec.setWidth_eq, id]
  | ldrsb => exact signExtend_of_lt hv
  | ldrsh => exact signExtend_of_lt hv

/-- A load of the family hands on the extension of the value in memory, after the write-back. -/
theorem loadExtended_of_accessible {s : State} {x : Indexing} {rd : Reg} {size : AccessSize} {extend : Word → Word}
    (h : Accessible s .read size (s.addressOf x) s.privileged) :
    loadExtended s x rd size extend = ((s.writeBackTo x.writeBack x.rn (s.indexed x)).writeReg rd
      (extend (s.valueAt size (s.addressOf x)))).advance := by
  rw [loadExtended, State.load_of_accessible h, loadIndexed]

/-- Settles O45: the load is made, and its value is the extension of the value in memory, which fits the access. -/
theorem loadHalfword : Obligations.LoadHalfword := by
  unfold Obligations.LoadHalfword
  intro l f c p u w rn rd s x a h15 hpw ha hr hacc
  obtain ⟨t, hnext, hread, hrest⟩ := loaded_of_base (f.indexing_rn s p u w rn)
    (l.extend (s.valueAt l.size a)) h15 ha hr.notLast
  refine ⟨t, ?exec, ?value, hrest⟩
  case exec => rw [l.exec_instr_of_allowed hr.toRuns h15 hpw ha, loadExtended_of_accessible hacc, hnext]
  case value => exact hread.trans (l.extend_eq_extended (Memory.value_lt ..))

/-- Settles O46: the store is made of the register, of which a half-word access writes the low half. -/
theorem storeHalfword : Obligations.StoreHalfword := by
  unfold Obligations.StoreHalfword
  intro f c p u w rn rd s x a h15 hpw ha hr hm hacc
  rw [f.exec_strh_of_allowed hr.toRuns h15 hpw ha, storeHalf]
  exact storeIndexed_of_accessible (f.indexing_rn s p u w rn) _ hm ha hr.notLast hacc

end Sys2Proof.Machine
end

section
/-!
The statement of 30_encoding.md O1: words the spec works out, and the instructions they stand for.
-/

namespace Sys2Proof.Machine

/-- Settles O1: each word decodes by evaluation. -/
theorem sampleWordsDecode : Obligations.SampleWordsDecode := by
  unfold Obligations.SampleWordsDecode
  decide

end Sys2Proof.Machine
end

section
/-!
The statements of 47_multiple_transfer_swap.md, O49 to O56: the block transfers, loaded or stored register by register
(R302 to R310), the data abort (R311), and the swaps (R312 to R314). The last theorem stands in the namespace
`BlockTransfer`, because the machine's own operation has the name `swap`.
-/

namespace Sys2Proof.Machine

/-! ### A base that is written back and listed -/

/-- With write-back a base that may not be in the list refuses the transfer (47_multiple_transfer_swap.md R306). -/
theorem withBlock_of_base {list : BitVec 16} {rn : Reg} (k : Result State) (hl : list.getLsbD rn.toNat = true)
    (hn : rn ≠ 15) : withBlock list rn false k = .refused .blockBaseInList := by
  rw [withBlock, bne_iff_ne.mpr (list_ne_zero hl), bne_iff_ne.mpr hn, require_true, require_true, require_false]

/-- Below r15 a list made of a bit and of the registers r0 to r14 is that of the registers. -/
theorem listField_getLsbD (b : BitVec 1) (low : BitVec 15) {i : Nat} (hi : i < 15) :
    (b ++ low : BitVec 16).getLsbD i = low.getLsbD i := (BitVec.getLsbD_append (x := b)).trans (if_pos hi)

theorem listField_pc (b : BitVec 1) (low : BitVec 15) : (b ++ low : BitVec 16).getLsbD 15 = b.getLsbD 0 :=
  BitVec.getLsbD_append (x := b)

theorem listField_ne_zero (b : BitVec 1) {low : BitVec 15} (h : low ≠ 0) : (b ++ low : BitVec 16) ≠ 0 := fun e => h (by
  apply BitVec.eq_of_getLsbD_eq
  intro i hi
  rw [← listField_getLsbD b low hi, e]
  exact BitVec.getLsbD_zero.trans BitVec.getLsbD_zero.symm)

theorem toNat_lt_of_ne_pc {r : Reg} (h : r ≠ 15) : r.toNat < 15 :=
  Nat.lt_of_le_of_ne (Nat.le_of_lt_succ r.isLt) fun e => h (BitVec.eq_of_toNat_eq e)

/-- A register of a list without r15. -/
theorem ne_pc_of_listed {list : BitVec 16} {r : Reg} (h15 : list.getLsbD 15 = false)
    (hr : list.getLsbD r.toNat = true) : r ≠ 15 := fun e => by
  subst e
  exact absurd (hr.symm.trans h15) (by decide)

/-! ### LDM -/

/-- The state after an LDM has written the base back and loaded its registers, but for the pc and the CPSR. -/
def State.loadedBlock (s : State) (p u w : Bool) (rn : Reg) (list : BitVec 16) : State :=
  (s.writeBackTo w rn (s.newBase u rn list)).loadListed list (s.blockWords p u rn list)

section
variable {s : State} {p u w : Bool} {rn : Reg} {list : BitVec 16}

@[simp] theorem State.loadedBlock_mode : (s.loadedBlock p u w rn list).mode = s.mode := by simp [State.loadedBlock]

@[simp] theorem State.loadedBlock_pc : (s.loadedBlock p u w rn list).pc = s.pc := by simp [State.loadedBlock]

theorem State.loadedBlock_frame : RegisterFrame s (s.loadedBlock p u w rn list)
    ((regsOf list).map (fun r => physOf r s.mode) ++ [if w then physOf rn s.mode else none]) :=
  s.loadListed_writeBackTo_frame ..

theorem State.loadedBlock_readRegIn {r : Reg} (h15 : r ≠ 15) (hr : list.getLsbD r.toNat = true) :
    (s.loadedBlock p u w rn list).readRegIn s.mode r = s.valueAt .word (s.slotAddress p u rn list r) :=
  s.loadListed_writeBackTo_readReg p u w hr h15 _

theorem State.loadedBlock_base (hn : rn ≠ 15) (hb : w = true → list.getLsbD rn.toNat = false) (hw : w = true) :
    (s.loadedBlock p u w rn list).readRegIn s.mode rn = s.newBase u rn list := by
  subst hw
  exact s.loadListed_writeBackTo_base _ hn (hb rfl) _

/-- A register of the current mode after an LDM. -/
theorem State.loadedBlock_readReg (r : Reg) :
    (s.loadedBlock p u w rn list).readReg r = (s.loadedBlock p u w rn list).readRegIn s.mode r := by
  rw [State.readReg, State.loadedBlock_mode]

/-- An LDM that is executed and reads every word. -/
theorem BlockLoad.exec_of_accessible (b : BlockLoad) {c : Cond} (hr : Runs c s) (ha : b.allowed w rn)
    (hacc : blockAccessible s .read p u rn b.list) :
    exec (b.instr c p u w rn) s
      = b.finish (s.writeBackTo w rn (s.newBase u rn b.list)) (s.blockWords p u rn b.list) := by
  rw [b.exec_instr_of_allowed hr ha, loadBlock_of_accessible _ hacc]

end

/-- Settles O49: the load of the list, then the advance of the pc. -/
theorem loadMultiple : Obligations.LoadMultiple := by
  unfold Obligations.LoadMultiple
  refine ⟨fun c p u rn list s hn hl hr => ?refused, fun c p u w rn list s hl hn hb h15 hr hacc => ?loaded⟩
  case refused =>
    have hwf : loadBaseWf true list rn = false := by simp [loadBaseWf, hl]
    rw [exec, execLdm, conditional_of_runs hr, hwf, withBlock_of_base _ hl hn]
  case loaded =>
    have hexec : exec (.ldm c p u w rn list) s = (s.loadedBlock p u w rn list).advance :=
      ((BlockLoad.ldm list).exec_of_accessible hr.toRuns ⟨hl, hn, hb⟩ hacc).trans (if_neg (ne_true_of_eq_false h15))
    rw [hexec]
    refine ⟨_, State.advance_of_notLast (by simpa using hr.notLast), fun r hlr => ?listed, fun hw => ?base, by simp,
      State.loadedBlock_frame.setPc _⟩
    case listed =>
      have hr15 := ne_pc_of_listed h15 hlr
      rw [State.readReg_setPc _ hr15, State.loadedBlock_readReg, State.loadedBlock_readRegIn hr15 hlr]
    case base => rw [State.readReg_setPc _ hn, State.loadedBlock_readReg, State.loadedBlock_base hn hb hw]

/-- Settles O50: the load of the list, then the load of the pc with the last word. -/
theorem loadMultiplePc : Obligations.LoadMultiplePc := by
  unfold Obligations.LoadMultiplePc
  intro c p u w rn list s v hn hb h15 hr hacc
  have hexec : exec (.ldm c p u w rn list) s = (s.loadedBlock p u w rn list).loadPc v := by
    refine ((BlockLoad.ldm list).exec_of_accessible hr ⟨list_ne_zero h15, hn, hb⟩ hacc).trans ((if_pos h15).trans ?_)
    exact congrArg _ (s.blockWords_getLastD p u rn h15)
  rw [hexec]
  refine ⟨fun hv => ?loaded, State.loadPc_of_not_loadable State.loadedBlock_frame.outside.2⟩
  case loaded =>
    obtain ⟨t, hnext, hloaded, hkept, hrest⟩ := State.loadPc_of_loadable State.loadedBlock_frame hv
    refine ⟨t, hnext, hloaded, fun r hr15 hlr => ?listed, fun hw => ?base, hrest⟩
    case listed => rw [hkept r hr15, State.loadedBlock_readReg, State.loadedBlock_readRegIn hr15 hlr]
    case base => rw [hkept rn hn, State.loadedBlock_readReg, State.loadedBlock_base hn hb hw]

/-! ### The return from an exception -/

section
variable {s q : State} {l : List (Option PhysReg)} {v : Word} (h : RegisterFrame s q l)
include h

theorem RegisterFrame.mode : q.mode = s.mode := State.mode_congr h.cpsr

theorem RegisterFrame.currentSpsr : q.spsr q.mode = s.spsr s.mode := h.mode ▸ h.spsrs s.mode

/-- A return that follows register writes restores the CPSR and writes the pc, and changes nothing else. -/
theorem State.exceptionReturn_of_frame (hs : s.mode.hasSpsr = true) (hm : (psrMode (s.spsr s.mode)).isSome = true)
    (hok : psrT (s.spsr s.mode) = true ∨ v.toNat % 4 = 0 ∨ s.platform.pcWriteAlign = .mask) :
    ∃ t, q.exceptionReturn v = .next t ∧ t.cpsr = s.spsr s.mode
      ∧ t.pc = (if psrT (s.spsr s.mode) then alignHalf v else alignWord v)
      ∧ (∀ m r, r ≠ 15 → t.readRegIn m r = q.readRegIn m r) ∧ Frame s t l ∧ memoryKept s t := by
  rw [State.exceptionReturn_of_mode (h.mode ▸ hs) (h.currentSpsr ▸ hm), h.currentSpsr]
  have hframe (pc : Word) := (h.toFrame.setCpsr (s.spsr s.mode)).setPc pc
  cases ht : psrT (s.spsr s.mode) with
  | true => exact ⟨_, rfl, rfl, rfl, fun m r hr => State.readRegIn_congr_reg m hr fun x => by simp, hframe _, h.memory⟩
  | false =>
    have hw : v.toNat % 4 = 0 ∨ q.platform.pcWriteAlign = .mask := h.outside.2 ▸ hok.resolve_left (by simp [ht])
    exact ⟨_, State.writePc_of_allowed hw, rfl, rfl,
      fun m r hr => State.readRegIn_congr_reg m hr fun x => by simp, hframe _, h.memory⟩

/-- A return to ARM state with a misaligned address is refused. -/
theorem State.exceptionReturn_of_misaligned (hs : s.mode.hasSpsr = true)
    (hm : (psrMode (s.spsr s.mode)).isSome = true) (ht : psrT (s.spsr s.mode) = false) (h4 : v.toNat % 4 ≠ 0)
    (hp : s.platform.pcWriteAlign = .refuse) : q.exceptionReturn v = .refused .pcWriteAlignment := by
  rw [State.exceptionReturn_of_mode (h.mode ▸ hs) (h.currentSpsr ▸ hm), h.currentSpsr, ht, if_neg Bool.false_ne_true]
  exact State.writePc_of_misaligned h4 (h.outside.2 ▸ hp)

end

/-- Settles O51: the load of the list, then the return from the exception with the last word. -/
theorem loadMultipleReturn : Obligations.LoadMultipleReturn := by
  unfold Obligations.LoadMultipleReturn
  refine ⟨?base, ?returns⟩
  case base =>
    intro c p u rn low s hn hl hr
    have hl' := (listField_getLsbD 1#1 low (toNat_lt_of_ne_pc hn)).trans hl
    have hwf : loadBaseWf true (1#1 ++ low) rn = false := by rw [loadBaseWf, hl']; rfl
    rw [exec, execLdmReturn, conditional_of_runs hr, hwf, withBlock_of_base _ hl' hn]
  case returns =>
    intro c p u w rn low s list v new hn hb hr hacc
    have h15 : list.getLsbD 15 = true := listField_pc 1#1 low
    have hb' : w = true → list.getLsbD rn.toNat = false := fun hw =>
      (listField_getLsbD 1#1 low (toNat_lt_of_ne_pc hn)).trans (hb hw)
    have hframe := State.loadedBlock_frame (s := s) (p := p) (u := u) (w := w) (rn := rn) (list := list)
    have hexec : exec (.ldmReturn c p u w rn low) s = (s.loadedBlock p u w rn list).exceptionReturn v :=
      ((BlockLoad.ldmReturn low).exec_of_accessible hr ⟨list_ne_zero h15, hn, hb'⟩ hacc).trans
        (congrArg (s.loadedBlock p u w rn list).exceptionReturn (s.blockWords_getLastD p u rn h15))
    rw [hexec]
    refine ⟨fun h => State.exceptionReturn_of_noSpsr (hframe.mode ▸ h),
      fun h hm => State.exceptionReturn_of_noMode (hframe.mode ▸ h) (hframe.currentSpsr ▸ hm),
      State.exceptionReturn_of_misaligned hframe, fun h hm hok => ?next⟩
    case next =>
      obtain ⟨t, hnext, hcpsr, hpc, hkept, hrest⟩ := State.exceptionReturn_of_frame hframe h hm hok
      refine ⟨t, hnext, hcpsr, hpc, fun r hr15 hlr => ?listed, fun hw => ?written, hrest⟩
      case listed => rw [hkept _ r hr15, State.loadedBlock_readRegIn hr15 hlr]
      case written => rw [hkept _ rn hn, State.loadedBlock_base hn hb' hw]

/-- The frame of the registers an LDM loads to a mode's bank: they and no other. -/
theorem writeRegsIn_frame (m : Mode) (s : State) (list : BitVec 16) (vs : List Word) :
    RegisterFrame s (writeRegsIn m s ((regsOf list).zip vs)) ((regsOf list).map fun r => physOf r m) := by
  refine ⟨⟨fun q hq => ?_, fun m => by simp, by simp, by simp, by simp⟩, by simp, fun _ => by simp, by simp⟩
  exact writeRegsIn_readPhys_other _ _ _ fun r hr e =>
    hq (List.mem_map.mpr ⟨r, mem_regsOf.mpr (listed_of_mem_zip hr), e.symm⟩)

/-- Settles O52: the load of the list to the User-mode bank; there is no write-back. -/
theorem loadMultipleUser : Obligations.LoadMultipleUser := by
  unfold Obligations.LoadMultipleUser
  intro c p u rn low s list hl hn hr hacc
  refine ⟨conditional_of_runs hr.toRuns _, ?loaded⟩
  case loaded =>
    have hexec : exec (.ldmUser c p u false rn low) s
        = (writeRegsIn .usr s ((regsOf list).zip (s.blockWords p u rn list))).advance :=
      (BlockLoad.ldmUser low).exec_of_accessible hr.toRuns ⟨listField_ne_zero 0#1 hl, hn, rfl⟩ hacc
    rw [hexec]
    refine ⟨_, State.advance_of_notLast (by simpa using hr.notLast), fun r hlr => ?listed, by simp,
      (writeRegsIn_frame .usr s list _).setPc _⟩
    case listed =>
      have hr15 : r ≠ 15 := ne_pc_of_listed (listField_pc 0#1 low) hlr
      have hread := writeRegsIn_readRegIn .usr s _ _ (regsOf_nodup list) (regsOf_getElem? hlr)
        (s.blockWords_getElem? p u rn hlr) hr15
      exact (State.readRegIn_congr_reg .usr hr15 fun x => by simp).trans hread

/-! ### STM -/

section
variable {s t : State} {p u w : Bool} {rn : Reg} {list : BitVec 16} {f : Reg → Word}

theorem StoredWords.of_iff {ι : Type} {chosen chosen' : ι → Prop} {place value : ι → Word}
    (h : StoredWords s t chosen place value) (hc : ∀ i, chosen i ↔ chosen' i) :
    StoredWords s t chosen' place value := by
  rwa [← funext fun i => propext (hc i)]

/-- Every listed register's value at its address, and nothing else. -/
theorem State.withWords_listed (hm : Memory.wf s.mem = true) :
    StoredWords s (s.withWords (blockStart p u (s.readReg rn) (listCount list)) ((regsOf list).map f))
      (fun r : Reg => list.getLsbD r.toNat = true) (fun r => s.effectiveAddress .word (s.slotAddress p u rn list r))
      f := by
  have h := s.withWords_slots p u rn list f (listCount list) hm
  rw [List.take_of_length_le (by rw [List.length_map, regsOf_length])] at h
  exact h.of_iff fun r => and_iff_left_of_imp listRank_lt

/-- Words stored are in the frame of no register. -/
theorem State.withWords_frame (s : State) (a : Word) (vs : List Word) : Frame s (s.withWords a vs) [] :=
  ⟨fun p _ => by simp, fun m => by simp, by simp, by simp, by simp⟩

/-- An STM whose accesses are allowed stores the values, writes the base back and moves the pc on. -/
theorem storeBlock_of_accessible {l : List (Option PhysReg)} (hacc : blockAccessible s .write p u rn list)
    (hm : Memory.wf s.mem = true) (hpc : s.pc ≠ 0xFFFFFFFC) (hn : rn ≠ 15)
    (hl : w = true → physOf rn s.mode ∈ l) :
    ∃ t, storeBlock s p u w rn ((regsOf list).map f) = .next t
      ∧ StoredWords s t (fun r : Reg => list.getLsbD r.toNat = true)
          (fun r => s.effectiveAddress .word (s.slotAddress p u rn list r)) f
      ∧ (w = true → t.readReg rn = s.newBase u rn list) ∧ t.pc = s.pc + 4 ∧ t.cpsr = s.cpsr ∧ Frame s t l := by
  have hlen : ((regsOf list).map f).length = listCount list := by rw [List.length_map, regsOf_length]
  simp only [storeBlock, hlen, storeWords_of_blockAccessible hlen hacc]
  refine ⟨_, State.advance_of_notLast (by simpa using hpc),
    (State.withWords_listed hm).congr (by simp) (by simp) (by simp), fun hw => ?base, by simp, by simp, ?frame⟩
  case base =>
    rw [State.readReg_setPc _ hn, State.readReg_writeBackTo_same _ _ hn hw]
    rfl
  case frame =>
    exact (((s.withWords_frame _ _).mono (by simp)).writeBackTo (by simp) w rn _ hl).setPc _

end

/-- Settles O53: the values are those of the registers before the write-back. -/
theorem storeMultiple : Obligations.StoreMultiple := by
  unfold Obligations.StoreMultiple
  refine ⟨fun c p u rn list s hn hl hrank hr => ?refused, fun c p u w rn list s hl hn hb hr hm hacc => ?stored⟩
  case refused =>
    have hwf : storeBaseWf true list rn = false :=
      Bool.eq_false_iff.mpr fun h => hrank (storeBaseWf_iff.mp h rfl hl)
    rw [exec, execStm, conditional_of_runs hr, hwf, withBlock_of_base _ hl hn]
  case stored =>
    have hexec : exec (.stm c p u w rn list) s
        = storeBlock s p u w rn ((regsOf list).map (storedRegister s s.mode)) :=
      (BlockStore.stm list).exec_instr_of_allowed hr.toRuns ⟨hl, hn, hb⟩
    rw [hexec]
    exact storeBlock_of_accessible hacc hm hr.notLast hn fun hw => by simp [hw]

/-- Settles O54: the values are those of the User-mode bank; there is no write-back. -/
theorem storeMultipleUser : Obligations.StoreMultipleUser := by
  unfold Obligations.StoreMultipleUser
  intro c p u rn list s hl hn hr hm hacc
  have hexec : exec (.stmUser c p u false rn list) s
      = storeBlock s p u false rn ((regsOf list).map (storedRegister s .usr)) :=
    (BlockStore.stmUser list).exec_instr_of_allowed hr.toRuns ⟨hl, hn, rfl⟩
  obtain ⟨t, hnext, hstored, _, hrest⟩ := storeBlock_of_accessible (w := false) (f := storedRegister s .usr)
    (l := []) hacc hm hr.notLast hn nofun
  exact ⟨conditional_of_runs hr.toRuns _, t, hexec.trans hnext, hstored, hrest⟩

/-! ### A transfer that faults -/

section
variable {s : State} {p u w : Bool} {rn first : Reg} {list : BitVec 16} (hl : list.getLsbD first.toNat = true)
include hl

/-- Of two listed registers the lower has the lower rank. -/
theorem listRank_lt_iff {r : Reg} (hr : list.getLsbD r.toNat = true) :
    listRank list r.toNat < listRank list first.toNat ↔ r.toNat < first.toNat := by
  refine ⟨fun h => ?_, listRank_lt_of_lt hr⟩
  by_contra hge
  rcases Nat.lt_or_eq_of_le (Nat.le_of_not_lt hge) with hlt | heq
  · exact absurd (listRank_lt_of_lt hl hlt) (by omega)
  · rw [heq] at h
    exact absurd h (lt_irrefl _)

/-- Where every listed register below the first has its access allowed, every word below has. -/
theorem accessible_below {kind : AccessKind} (hacc : ∀ r : Reg, list.getLsbD r.toNat = true → r.toNat < first.toNat →
      Accessible s kind .word (s.slotAddress p u rn list r) s.privileged)
    {k : Nat} (hk : k < listRank list first.toNat) :
    Accessible s kind .word (wordAt (blockStart p u (s.readReg rn) (listCount list)) k) s.privileged := by
  obtain ⟨r, hr, rfl, hlt⟩ := listed_below hl hk
  exact hacc r hr hlt

/-- An LDM whose access for some register is the first to fault loads nothing. -/
theorem loadBlock_of_faulting {k : State → List Word → Result State}
    (hf : Faulting s .read .word (s.slotAddress p u rn list first) s.privileged)
    (hacc : ∀ r : Reg, list.getLsbD r.toNat = true → r.toNat < first.toNat →
      Accessible s .read .word (s.slotAddress p u rn list r) s.privileged) :
    loadBlock s p u w rn list k = stopWith .abort (s.withAbortedBase w rn (s.newBase u rn list)) := by
  simp only [loadBlock, regsOf_length, State.withAbortedBase_eq,
    s.loadWords_of_faulting _ _ _ (listRank_lt hl) (fun _ hk => accessible_below hl hacc hk) hf]
  rfl

/-- An STM whose access for some register is the first to fault has stored the words below it. -/
theorem storeBlock_of_faulting {f : Reg → Word}
    (hf : Faulting s .write .word (s.slotAddress p u rn list first) s.privileged)
    (hacc : ∀ r : Reg, list.getLsbD r.toNat = true → r.toNat < first.toNat →
      Accessible s .write .word (s.slotAddress p u rn list r) s.privileged) :
    storeBlock s p u w rn ((regsOf list).map f) = stopWith .abort
      ((s.withWords (blockStart p u (s.readReg rn) (listCount list))
        (((regsOf list).map f).take (listRank list first.toNat))).withAbortedBase w rn (s.newBase u rn list)) := by
  have hlen : ((regsOf list).map f).length = listCount list := by rw [List.length_map, regsOf_length]
  simp only [storeBlock, hlen, State.withAbortedBase_eq, s.storeWords_of_faulting _ _ _ (hlen ▸ listRank_lt hl)
    (fun _ hk => accessible_below hl hacc hk) hf]
  rfl

end

/-- Settles O55: the transfer stops at the register's word, an STM with the words of the registers below it stored. -/
theorem blockTransferAborts : Obligations.BlockTransferAborts := by
  unfold Obligations.BlockTransferAborts
  refine ⟨fun b c p u w rn s first ha hl hr hf hacc => ?load, fun b c p u w rn s first ha hl hr hm hf hacc => ?store⟩
  case load =>
    rw [b.exec_instr_of_allowed hr ha, loadBlock_of_faulting hl hf hacc]
    exact ⟨_, rfl, takeException_entered .dataAbort _⟩
  case store =>
    rw [b.exec_instr_of_allowed hr ha, storeBlock_of_faulting hl hf hacc]
    refine ⟨_, _, rfl, takeException_entered .dataAbort _, ?stored, by simp, by simp, s.withWords_frame _ _⟩
    case stored =>
      exact (s.withWords_slots p u rn b.list (b.value s) _ hm).of_iff fun r =>
        and_congr_right fun hr => listRank_lt_iff hl hr

/-! ### Swap -/

theorem exec_swpb_of_runs {c : Cond} {rn rd rm : Reg} {s : State} (hr : Runs c s) :
    exec (.swpb c rn rd rm) s = swap s .byte rn rd rm (s.load .byte (s.readReg rn) s.privileged) :=
  conditional_of_runs hr _

/-- What is stored depends on memory, the byte order and the list of stored addresses only. -/
theorem Stored.congr {s t u : State} {size : AccessSize} {a v : Word} (h : Stored s t size a v) (hm : u.mem = t.mem)
    (hp : u.platform = t.platform) (hs : u.stored = t.stored) : Stored s u size a v :=
  ⟨fun k hk => by rw [State.byteAt, hm, hp]; exact h.bytes k hk,
    fun b hb => by rw [State.byteAt, hm]; exact h.others b hb, fun b => by rw [hs]; exact h.noted b⟩

section
variable {s : State} {size : AccessSize} {rn rd rm : Reg} (hw : swapWf rn rd rm = true)
include hw

/-- A swap whose write is allowed stores the value of Rm and leaves the value read in Rd. -/
theorem swap_of_accessible (v : Word) (hm : Memory.wf s.mem = true) (hpc : s.pc ≠ 0xFFFFFFFC)
    (hacc : Accessible s .write size (s.readReg rn) s.privileged) :
    ∃ t, swap s size rn rd rm (.ok v) = .next t ∧ t.readReg rd = v
      ∧ Stored s t size (s.effectiveAddress size (s.readReg rn)) (s.readReg rm)
      ∧ t.pc = s.pc + 4 ∧ t.cpsr = s.cpsr ∧ Frame s t [physOf rd s.mode] := by
  have h15 : rd ≠ 15 := by
    obtain ⟨hregs, _⟩ := Bool.and_eq_true_iff.mp (Bool.and_eq_true_iff.mp hw).1
    exact ne_pc_of_noPc hregs (by simp)
  refine ⟨_, swap_next.mpr ⟨hw, .inr (.inr ⟨v, _, rfl, State.store_of_accessible _ hacc,
    State.advance_of_notLast (by simpa using hpc)⟩)⟩, ?read,
    (s.stored_setMem size _ _ hm).congr (by simp) (by simp) (by simp), by simp, by simp, ?frame⟩
  case read => rw [State.readReg_setPc _ h15, State.readReg_writeReg_same _ _ h15]
  case frame =>
    exact (((RegisterFrame.refl s _).toFrame.setMem ..).writeReg (by simp) rd v (List.mem_singleton_self _)).setPc _

/-- A swap whose read or write faults enters the data abort from the state before it. -/
theorem swap_of_faulting {read : Except Stop Word} (h : read = .error .abort ∨
      (∃ v, read = .ok v) ∧ Faulting s .write size (s.readReg rn) s.privileged) :
    ∃ t, swap s size rn rd rm read = .next t ∧ Entered .dataAbort s t := by
  refine ⟨_, swap_next.mpr ⟨hw, ?_⟩, takeException_entered .dataAbort s⟩
  rcases h with hread | ⟨⟨v, hread⟩, hf⟩
  · exact .inl ⟨hread, rfl⟩
  · exact .inr (.inl ⟨v, hread, State.store_error.mpr (State.access_of_faulting hf), rfl⟩)

end

/-- Settles O56: the swap by its read and its write; where one of them faults, nothing was changed before it. -/
theorem BlockTransfer.swap : Obligations.Swap := by
  unfold Obligations.Swap
  intro c rn rd rm s a hw hm hr
  rw [exec_swp_of_runs hr.toRuns, exec_swpb_of_runs hr.toRuns]
  refine ⟨fun hread hwrite => ?word, fun hread hwrite => ?byte, ?wordAborts, ?byteAborts⟩
  case word =>
    rw [State.loadRotated_ok.mpr ⟨hread, rfl⟩]
    obtain ⟨t, hnext, hrd, hrest⟩ := swap_of_accessible hw _ hm hr.notLast hwrite
    exact ⟨t, hnext, fun hrot => hrd.trans (rotateRead_eq _ hrot), hrest⟩
  case byte =>
    rw [State.load_of_accessible hread]
    obtain ⟨t, hnext, hrd, hrest⟩ := swap_of_accessible hw _ hm hr.notLast hwrite
    have hbyte : s.valueAt .byte a = (s.byteAt a).setWidth 32 := rfl
    exact ⟨t, hnext, by rw [hrd, hbyte, BitVec.toNat_setWidth_of_le (by decide)], hrest⟩
  case wordAborts =>
    rintro (hread | ⟨hread, hwrite⟩)
    · exact swap_of_faulting hw (.inl (State.loadRotated_error.mpr (State.access_of_faulting hread)))
    · exact swap_of_faulting hw (.inr ⟨⟨_, State.loadRotated_ok.mpr ⟨hread, rfl⟩⟩, hwrite⟩)
  case byteAborts =>
    rintro (hread | ⟨hread, hwrite⟩)
    · exact swap_of_faulting hw (.inl (State.load_error.mpr (State.access_of_faulting hread)))
    · exact swap_of_faulting hw (.inr ⟨⟨_, State.load_of_accessible hread⟩, hwrite⟩)

end Sys2Proof.Machine
end

section
/-!
The statements of 48_status_register_transfer.md, O36 to O38: what MRS reads (R331) and what MSR writes (R333), bit by
bit.
-/

namespace Sys2Proof.Machine

/-! ### MRS -/

/-- The bits that exist are read as they are, whatever `PSR_RESERVED` (10_state.md R34). -/
theorem State.psrRead_getLsbD (s : State) (p : Word) {i : Nat} (hi : i < 8 ∨ 28 ≤ i) (h32 : i < 32) :
    (s.psrRead p).getLsbD i = p.getLsbD i := by
  unfold State.psrRead
  cases s.platform.psrReserved with
  | razWi =>
    have hw : psrWritable.getLsbD i = true := by
      rw [psrWritable_getLsbD]
      simpa [h32] using hi
    rw [BitVec.getLsbD_and, hw, Bool.and_true]
  | draw =>
    have hres : psrReservedBits.getLsbD i = false := by
      rw [psrReservedBits_getLsbD, Bool.and_eq_false_iff, decide_eq_false_iff_not, decide_eq_false_iff_not]
      omega
    rw [psrMerge_getLsbD, hres, if_neg Bool.false_ne_true]

/-- A field of bits that exist is read as it is. -/
theorem State.psrRead_field (s : State) (p : Word) {lo len : Nat} (h : lo + len ≤ 8 ∨ 28 ≤ lo) (h32 : lo + len ≤ 32) :
    (s.psrRead p).extractLsb' lo len = p.extractLsb' lo len := by
  apply BitVec.eq_of_getLsbD_eq
  intro i hi
  rw [BitVec.getLsbD_extractLsb', BitVec.getLsbD_extractLsb', s.psrRead_getLsbD p (by omega) (by omega)]

/-- Under `raz_wi` the reserved bits are read as zero. -/
theorem State.psrRead_reserved {s : State} (p : Word) (h : s.platform.psrReserved = .razWi) :
    (s.psrRead p).extractLsb' 8 20 = 0 := by
  have hres := (reserved_zero_iff _).mp (and_psrWritable_reserved p)
  apply BitVec.eq_of_getLsbD_eq
  intro i hi
  rw [State.psrRead, h, BitVec.getLsbD_extractLsb', hres (8 + i) (by omega) (by omega), Bool.and_false]
  exact BitVec.getLsbD_zero.symm

/-- The count of a free value is in the frame of no register. -/
theorem State.countPsrRead_frame (s : State) : RegisterFrame s s.countPsrRead [] :=
  ⟨⟨fun p _ => by simp, fun m => by simp, by simp, by simp, by simp⟩, by simp, fun _ => by simp, by simp⟩

/-- Settles O36: the register is the status register as `PSR_RESERVED` reads it. -/
theorem readStatus : Obligations.ReadStatus := by
  unfold Obligations.ReadStatus
  refine ⟨fun c spsr s hr => conditional_of_runs hr _, ?read⟩
  case read =>
    intro c spsr rd s h15 hr p
    have hexec : exec (.mrs c spsr rd) s = require (!spsr || s.mode.hasSpsr) .noSpsr
        (s.countPsrRead.writeReg rd (s.psrRead p)).advance :=
      (conditional_of_runs hr.toRuns _).trans (by rw [bne_iff_ne.mpr h15, require_true])
    rw [hexec]
    refine ⟨fun hs hn => by rw [hs, hn]; rfl, fun hs => ?next⟩
    case next =>
      have hok : (!spsr || s.mode.hasSpsr) = true := by cases spsr <;> simp_all
      rw [hok, require_true]
      refine ⟨_, State.advance_of_notLast (by simpa using hr.notLast), ?_⟩
      rw [State.readReg_setPc _ h15, State.readReg_writeReg_same _ _ h15]
      exact ⟨s.psrRead_field p (.inr (by decide)) (by decide), s.psrRead_field p (.inl (by decide)) (by decide),
        State.psrRead_reserved p, by simp,
        ((s.countPsrRead_frame.mono (by simp)).writeReg rd _ (List.mem_singleton_self _)).setPc _⟩

/-! ### MSR -/

/-- A byte of a field mask. -/
theorem maskByte_getLsbD : ∀ (b : Bool) (i : Nat), i < 8 → (if b then 0xFF#8 else 0#8).getLsbD i = b := by decide

/-- Each bit of the bytes a field mask selects (48_status_register_transfer.md R332). -/
theorem psrByteMask_getLsbD (mask : BitVec 4) {i : Nat} (h : i < 32) :
    (psrByteMask mask).getLsbD i = mask.getLsbD (i / 8) := by
  unfold psrByteMask
  change BitVec.getLsbD (w := 8 + 8 + 8 + 8) _ i = _
  simp only [BitVec.getLsbD_append]
  rcases (by omega : i < 8 ∨ 8 ≤ i ∧ i < 16 ∨ 16 ≤ i ∧ i < 24 ∨ 24 ≤ i) with hi | ⟨h1, hi⟩ | ⟨h1, hi⟩ | hi
  · rw [if_pos hi, maskByte_getLsbD _ _ hi, show i / 8 = 0 by omega]
  · rw [if_neg (by omega), if_pos (by omega), maskByte_getLsbD _ _ (by omega), show i / 8 = 1 by omega]
  · rw [if_neg (by omega), if_neg (by omega), if_pos (by omega), maskByte_getLsbD _ _ (by omega),
      show i / 8 = 2 by omega]
  · rw [if_neg (by omega), if_neg (by omega), if_neg (by omega), maskByte_getLsbD _ _ (by omega),
      show i / 8 = 3 by omega]

/-- Each bit that exists of the selected bytes. -/
theorem psrByteMask_and_writable (mask : BitVec 4) {i : Nat} (h : i < 32) :
    (psrByteMask mask &&& psrWritable).getLsbD i
      = (decide (i < 8) && mask.getLsbD 0 || decide (28 ≤ i) && mask.getLsbD 3) := by
  rw [BitVec.getLsbD_and, psrByteMask_getLsbD mask h, psrWritable_getLsbD, decide_eq_true h, Bool.and_true]
  rcases (by omega : i < 8 ∨ 8 ≤ i ∧ i < 28 ∨ 28 ≤ i) with hi | ⟨h1, hi⟩ | hi
  · simp [hi, show i / 8 = 0 by omega, show ¬ 28 ≤ i by omega]
  · simp [show ¬ i < 8 by omega, show ¬ 28 ≤ i by omega]
  · simp [hi, show i / 8 = 3 by omega, show ¬ i < 8 by omega]

/-- Each bit of the CPSR that an MSR writes: in User mode none of the control field. -/
theorem State.msrMask_getLsbD (s : State) (mask : BitVec 4) {i : Nat} (h : i < 32) :
    (s.msrMask mask).getLsbD i
      = (decide (i < 8) && mask.getLsbD 0 && decide (s.mode ≠ .usr) || decide (28 ≤ i) && mask.getLsbD 3) := by
  have hf : (0xFF000000 : Word).getLsbD i = decide (24 ≤ i) := by revert h; revert i; decide
  rw [State.msrMask, State.privileged, Mode.privileged]
  by_cases hm : s.mode = .usr
  · rw [hm, if_neg (by decide), BitVec.and_assoc, BitVec.and_comm 0xFF000000, ← BitVec.and_assoc, BitVec.getLsbD_and,
      psrByteMask_and_writable mask h, hf]
    rcases (by omega : i < 8 ∨ 8 ≤ i ∧ i < 28 ∨ 28 ≤ i) with hi | ⟨h1, hi⟩ | hi
    · simp [hi, show ¬ 28 ≤ i by omega, show ¬ 24 ≤ i by omega]
    · simp [show ¬ i < 8 by omega, show ¬ 28 ≤ i by omega]
    · simp [hi, show ¬ i < 8 by omega, show 24 ≤ i by omega]
  · rw [if_pos (bne_iff_ne.mpr hm), psrByteMask_and_writable mask h, decide_eq_true hm, Bool.and_true]

/-- Both operand forms of an MSR, the operand given (48_status_register_transfer.md R332). -/
theorem exec_msr {i : Instr} {c : Cond} {spsr : Bool} {mask : BitVec 4} {operand : Word} {s : State} (hr : Runs c s)
    (hi : (∃ rm, rm ≠ 15 ∧ i = .msrReg c spsr mask rm ∧ operand = s.readReg rm) ∨
      (∃ o, i = .msrImm c spsr mask o ∧ operand = rotImmValue o)) :
    exec i s = moveToStatus s spsr mask operand := by
  rcases hi with ⟨rm, h15, rfl, rfl⟩ | ⟨o, rfl, rfl⟩
  · exact (conditional_of_runs hr _).trans (by rw [bne_iff_ne.mpr h15, require_true])
  · exact conditional_of_runs hr _

/-- Settles O37: the new CPSR is the masked write, which is tested for T and for its mode. -/
theorem writeStatus : Obligations.WriteStatus := by
  unfold Obligations.WriteStatus
  intro i c mask operand s hr hi written new hnew
  have hmerge : psrMerge s.cpsr operand (s.msrMask mask) = new := by
    apply BitVec.eq_of_getLsbD_eq
    intro k hk
    rw [psrMerge_getLsbD, hnew k hk, s.msrMask_getLsbD mask hk]
  have hexec : exec i s = require (psrT new == psrT s.cpsr) .msrChangesT
      (require (psrMode new).isSome .illegalModeWritten (State.advance { s with cpsr := new })) := by
    rw [exec_msr hr.toRuns hi, ← hmerge]
    rfl
  rw [hexec]
  refine ⟨fun ht => by rw [beq_false_of_ne ht, require_false],
    fun ht hm => by rw [ht, beq_self_eq_true, require_true, hm]; rfl, fun ht hm => ?next⟩
  case next =>
    rw [ht, beq_self_eq_true, require_true, hm, require_true]
    exact ⟨_, State.advance_of_notLast hr.notLast, rfl, rfl,
      ((RegisterFrame.refl s []).toFrame.setCpsr new).setPc _, fun _ => rfl, rfl⟩

/-- Settles O38: the SPSR of the current mode is the masked write, with no test of its value. -/
theorem writeSavedStatus : Obligations.WriteSavedStatus := by
  unfold Obligations.WriteSavedStatus
  intro i c mask operand s hr hi
  have hexec : exec i s = require s.mode.hasSpsr .noSpsr
      (s.setSpsr s.mode (psrMerge (s.spsr s.mode) operand (psrByteMask mask &&& psrWritable))).advance := by
    rw [exec_msr hr.toRuns hi]
    rfl
  rw [hexec]
  refine ⟨fun hs => by rw [hs, require_false], fun hs => ?next⟩
  case next =>
    rw [hs, require_true]
    refine ⟨_, State.advance_of_notLast (by simpa using hr.notLast), fun k hk => ?own, fun m hm => ?others, by simp,
      by simp, fun p _ => by simp, by simp, ⟨by simp, by simp⟩, fun _ => by simp, by simp⟩
    case own =>
      rw [State.spsr_mk, State.spsr_setSpsr_same _ _ hs, psrMerge_getLsbD, psrByteMask_and_writable mask hk]
    case others => rw [State.spsr_mk, State.spsr_setSpsr_other _ _ hm]

end Sys2Proof.Machine
end

section
/-!
The statements of 49_coprocessor_brk_unused.md, O16, O18, O57 and O58: the unused encodings and the coprocessor that
does not accept (R351, R358, R361, R362), and what CDP, MCR, MRC, LDC and STC do with one that does (R352 to R357).
-/

namespace Sys2Proof.Machine

/-! ### The undefined instruction trap -/

theorem exec_unallocated {c : Cond} {body : BitVec 28} {s : State} (hr : Runs c s) :
    exec (.unallocated c body) s
      = require (!(hasV5T s && isBreakpointBody body)) .breakpointCondition (undefinedTrap s) :=
  conditional_of_runs hr _

/-- Settles O16: both spaces are the trap, the BRK pattern at v5T excepted. -/
theorem unusedEncodingsTrap : Obligations.UnusedEncodingsTrap := by
  unfold Obligations.UnusedEncodingsTrap
  refine ⟨fun c high low s hr => ?undefined, fun c body s hr hb => ?unallocated, fun c body s hr ha hb => ?breakpoint⟩
  case undefined =>
    have hexec : exec (.undefined c high low) s = undefinedTrap s := conditional_of_runs hr _
    exact hexec ▸ undefinedTrap_enters s
  case unallocated =>
    have hok : (hasV5T s && isBreakpointBody body) = false :=
      Bool.eq_false_iff.mpr fun h => hb (by simpa [hasV5T] using h)
    rw [exec_unallocated hr, hok]
    exact undefinedTrap_enters s
  case breakpoint =>
    rw [exec_unallocated hr, hasV5T_of_v5T ha, hb]
    rfl

/-- A coprocessor that is absent accepts no word (49_coprocessor_brk_unused.md R351). -/
theorem State.cpAccepts_of_absent {s : State} {cp : CpNum} (h : s.platform.coproc.get (cpIndex cp) = none) (w : Word) :
    s.cpAccepts cp w = false := by
  rw [State.cpAccepts, h]

theorem withCoprocessor_of_rejected {cp : CpNum} {i : Instr} {s : State} (k : Result State)
    (h : s.cpAccepts cp (encode i) = false) : withCoprocessor cp i s k = undefinedTrap s := by
  rw [withCoprocessor, h, if_neg Bool.false_ne_true]

/-- An LDC or STC is refused before the coprocessor is asked just if P, U and W are zero (R361). -/
theorem withCoprocessorTransfer_eq {p u w : Bool} {rn : Reg} {cp : CpNum} {i : Instr} {s : State} (k : Result State) :
    withCoprocessorTransfer p u w rn cp i s k = if (!p && !u && !w) = true then .refused .unindexedDown
      else withCoprocessor cp i s (require (!w || rn != 15) .coprocessorBasePc k) := by
  cases p <;> cases u <;> cases w <;> rfl

/-- A coprocessor instruction that the coprocessor does not accept takes the trap. -/
theorem exec_of_rejected {i : Instr} {cp : CpNum} {c : Cond} {s : State} (hcp : i.coprocessor? = some cp)
    (hc : i.cond? = some c) (hr : Runs c s) (hu : i.unindexedDown = false) (ha : s.cpAccepts cp (encode i) = false) :
    exec i s = undefinedTrap s := by
  cases i with
  | cdp | mcr | mrc =>
    cases hcp
    cases hc
    exact (conditional_of_runs hr _).trans (withCoprocessor_of_rejected _ ha)
  | ldc | stc =>
    cases hcp
    cases hc
    refine (conditional_of_runs hr _).trans ((withCoprocessorTransfer_eq _).trans ?_)
    exact (if_neg (ne_true_of_eq_false hu)).trans (withCoprocessor_of_rejected _ ha)
  | _ => cases hcp

/-- Settles O18: the coprocessor is asked after the test of P, U and W. -/
theorem absentCoprocessorTraps : Obligations.AbsentCoprocessorTraps := by
  unfold Obligations.AbsentCoprocessorTraps
  refine ⟨fun i cp c s hcp hc hr hu ha => ?trap, fun i c s hu hc hr => ?refused⟩
  case trap =>
    have ha : s.cpAccepts cp (encode i) = false := ha.elim (fun h => State.cpAccepts_of_absent h _) id
    exact exec_of_rejected hcp hc hr hu ha ▸ undefinedTrap_enters s
  case refused =>
    cases i with
    | ldc | stc =>
      cases hc
      exact (conditional_of_runs hr _).trans ((withCoprocessorTransfer_eq _).trans (if_pos hu))
    | _ => cases hu

/-! ### A coprocessor that accepts -/

section
variable {s t : State} {cp : CpNum} {x : CpState} {l : List (Option PhysReg)}

theorem CoprocFrame.setPc (h : CoprocFrame s t cp x l) (v : Word) : CoprocFrame s { t with pc := v } cp x l :=
  ⟨h.own, h.others, fun p hp => by simpa using h.registers p hp, h.cpsr, fun m => by simpa using h.spsrs m, h.outside⟩

/-- A base write-back adds the base to the frame, if it is made. -/
theorem CoprocFrame.writeBackTo (h : CoprocFrame s t cp x []) (w : Bool) (r : Reg) (v : Word) :
    CoprocFrame s (t.writeBackTo w r v) cp x [if w then physOf r s.mode else none] := by
  have hf := t.writeBackTo_frame w r v
  rw [State.mode_congr h.cpsr] at hf
  exact ⟨(State.cpState_congr hf.coproc cp).trans h.own,
    fun n hn => (State.cpState_congr hf.coproc n).trans (h.others n hn),
    fun p hp => (hf.registers p hp).trans (h.registers p (by simp)), hf.cpsr.trans h.cpsr,
    fun m => (hf.spsrs m).trans (h.spsrs m), h.outside.trans hf.outside⟩

/-- A coprocessor operation without a register, then the advance of the pc. -/
theorem State.setCpState_ends (s : State) (cp : CpNum) (x : CpState) (hpc : s.pc ≠ 0xFFFFFFFC) :
    ∃ t, (s.setCpState cp x).advance = .next t ∧ CoprocFrame s t cp x [] ∧ t.pc = s.pc + 4 ∧ memoryKept s t :=
  ⟨_, State.advance_of_notLast hpc, (s.setCpState_frame cp x).setPc _, rfl, fun _ => rfl, rfl⟩

end

/-- Settles O57: the coprocessor's operation is the whole change of a CDP or MCR, the register or the flags that of an
MRC. -/
theorem coprocessorOperations : Obligations.CoprocessorOperations := by
  unfold Obligations.CoprocessorOperations
  refine ⟨?cdp, ?mcr, ?mrc⟩
  case cdp =>
    intro c cop1 crn crd crm cp cop2 s hr ha
    have hexec : exec (.cdp c cop1 crn crd cp cop2 crm) s
        = (s.setCpState cp (Config.cpCdp cp (s.cpState cp) cop1 crd crn crm cop2)).advance :=
      (conditional_of_runs hr.toRuns _).trans (withCoprocessor_of_accepts _ ha)
    rw [hexec]
    exact s.setCpState_ends cp _ hr.notLast
  case mcr =>
    intro c cop1 crn crm rd cp cop2 s hr ha
    have hexec : exec (.mcr c cop1 crn rd cp cop2 crm) s = require (rd != 15) .pcOperand
        (s.setCpState cp (Config.cpMcr cp (s.cpState cp) cop1 crn crm cop2 (s.readReg rd))).advance :=
      (conditional_of_runs hr.toRuns _).trans (withCoprocessor_of_accepts _ ha)
    rw [hexec]
    refine ⟨fun h15 => by rw [h15]; rfl, fun h15 => ?next⟩
    case next =>
      rw [bne_iff_ne.mpr h15, require_true]
      exact s.setCpState_ends cp _ hr.notLast
  case mrc =>
    intro c cop1 crn crm rd cp cop2 s hr ha v
    have hexec : exec (.mrc c cop1 crn rd cp cop2 crm) s = receiveMrc s rd v :=
      (conditional_of_runs hr.toRuns _).trans (withCoprocessor_of_accepts _ ha)
    rw [hexec, receiveMrc]
    have hframe := s.writeReg_frame rd v
    by_cases h15 : rd = 15
    · rw [if_pos h15]
      exact ⟨_, State.advance_of_notLast hr.notLast, fun h => absurd h15 h, fun _ => psrSetFlags_flagsAre .., rfl,
        ((RegisterFrame.refl s _).toFrame.setFlags ..).setPc _, fun _ => rfl, rfl⟩
    · rw [if_neg h15]
      refine ⟨_, State.advance_of_notLast (by simpa using hr.notLast), fun _ => ⟨?read, hframe.cpsr⟩,
        fun h => absurd h h15, by simp, hframe.toFrame.setPc _, hframe.memory⟩
      case read => rw [State.readReg_setPc _ h15, State.readReg_writeReg_same _ _ h15]

/-! ### LDC and STC -/

section
variable {f : CpTransfer} {s : State}

/-- An LDC whose accesses are allowed gives the coprocessor its words, writes the base back and moves the pc on. -/
theorem CpTransfer.loadCoprocessor_of_accessible (hpc : s.pc ≠ 0xFFFFFFFC)
    (h : ∀ j, j < f.loadCount s → Accessible s .read .word (f.wordAddress s j) s.privileged) :
    loadCoprocessor s f.indexing f.n f.crd f.cp f.option
      = .next { (s.setCpState f.cp (f.received s (f.loadCount s))).writeBackTo f.w f.rn (s.indexed f.indexing) with
          pc := s.pc + 4 } := by
  refine loadCoprocessor_next.mpr (.inl ⟨_, s.loadWords_of_accessible _ (f.loadCount s) h, ?_⟩)
  rw [f.received_eq]
  exact State.advance_next.mpr ⟨by simpa using hpc, by rw [State.writeBackTo_pc]; rfl⟩

/-- An LDC whose access for some word is the first to fault has given the coprocessor the words below it. -/
theorem CpTransfer.loadCoprocessor_of_faulting {first : Nat} (hlt : first < f.loadCount s)
    (hf : Faulting s .read .word (f.wordAddress s first) s.privileged)
    (h : ∀ j, j < first → Accessible s .read .word (f.wordAddress s j) s.privileged) :
    loadCoprocessor s f.indexing f.n f.crd f.cp f.option = .next (takeException .dataAbort
      ((s.setCpState f.cp (Config.cpLdcAborted f.cp (f.received s first))).withAbortedBase f.w f.rn
        (s.indexed f.indexing))) := by
  refine loadCoprocessor_next.mpr (.inr ⟨_, s.loadWords_of_faulting _ _ first hlt h hf, ?_⟩)
  rw [f.received_eq, State.withAbortedBase_eq]
  rfl

/-- The words an STC stores. -/
def CpTransfer.words (f : CpTransfer) (s : State) : List Word := (List.range (f.storeCount s)).map (f.supplied s)

theorem CpTransfer.words_length (f : CpTransfer) (s : State) : (f.words s).length = f.storeCount s := by
  rw [CpTransfer.words, List.length_map, List.length_range]

/-- An STC whose accesses are allowed stores its words, writes the base back and moves the pc on. -/
theorem CpTransfer.storeCoprocessor_of_accessible (hpc : s.pc ≠ 0xFFFFFFFC)
    (h : ∀ j, j < f.storeCount s → Accessible s .write .word (f.wordAddress s j) s.privileged) :
    storeCoprocessor s f.indexing f.n f.crd f.cp f.option
      = .next { (s.withWords (s.addressOf f.indexing) (f.words s)).writeBackTo f.w f.rn (s.indexed f.indexing) with
          pc := s.pc + 4 } := by
  have hwords := s.storeWords_of_accessible (s.addressOf f.indexing) (f.words s) (f.words_length s ▸ h)
  refine storeCoprocessor_next.mpr (.inl ⟨_, hwords, State.advance_next.mpr ⟨by simpa using hpc, ?_⟩⟩)
  rw [State.writeBackTo_pc, State.withWords_pc]
  rfl

/-- An STC whose access for some word is the first to fault stores nothing (the spec's decision D8). -/
theorem CpTransfer.storeCoprocessor_of_faulting {first : Nat} (hlt : first < f.storeCount s)
    (hf : Faulting s .write .word (f.wordAddress s first) s.privileged)
    (h : ∀ j, j < first → Accessible s .write .word (f.wordAddress s j) s.privileged) :
    storeCoprocessor s f.indexing f.n f.crd f.cp f.option
      = .next (takeException .dataAbort (s.withAbortedBase f.w f.rn (s.indexed f.indexing))) := by
  have hwords := s.storeWords_of_faulting (s.addressOf f.indexing) (f.words s) first (f.words_length s ▸ hlt) h hf
  exact storeCoprocessor_next.mpr (.inr ⟨_, hwords, by rw [State.withAbortedBase_eq]; rfl⟩)

/-- The words of an STC, each at its address. -/
theorem CpTransfer.words_stored (hm : Memory.wf s.mem = true) :
    StoredWords s (s.withWords (s.addressOf f.indexing) (f.words s)) (fun j => j < f.storeCount s)
      (fun j => s.effectiveAddress .word (f.wordAddress s j)) (f.supplied s) := by
  have hcount : f.storeCount s ≤ 2 ^ 30 := by
    have := (Config.cpStcCount f.cp (s.cpState f.cp) f.n f.crd f.option).isLt
    rw [CpTransfer.storeCount]
    omega
  have h := s.withWords_storedWords (s.addressOf f.indexing) (f.words s) hm (f.words_length s ▸ hcount)
    (f.supplied s) fun k hk => by simp [CpTransfer.words]
  rwa [f.words_length] at h

/-- The base after an LDC or STC with write-back. -/
theorem CpTransfer.readReg_base {t : State} (ha : f.allowed = true) (hw : f.w = true) (v pc : Word) :
    State.readReg { t.writeBackTo f.w f.rn v with pc := pc } f.rn = v := by
  have h15 := CpTransfer.base_of_allowed ha hw
  rw [State.readReg_setPc _ h15, State.readReg_writeBackTo_same _ _ h15 hw]

end

/-- Settles O58: the words in order, and the stop at the first that faults. -/
theorem coprocessorTransfers : Obligations.CoprocessorTransfers := by
  unfold Obligations.CoprocessorTransfers
  refine ⟨fun f c s ha hr hcp hacc => ?ldc, fun f c s ha hr hcp hm hacc => ?stc,
    fun f c s first ha hr hcp hlt hf hacc => ?ldcAborts, fun f c s first ha hr hcp hlt hf hacc => ?stcAborts⟩
  case ldc =>
    rw [f.exec_ldc_of_allowed hr.toRuns ha hcp]
    exact ⟨_, CpTransfer.loadCoprocessor_of_accessible hr.notLast hacc,
      ((s.setCpState_frame f.cp _).writeBackTo f.w f.rn _).setPc _, fun hw => CpTransfer.readReg_base ha hw _ _, rfl,
      by simp [memoryKept]⟩
  case stc =>
    rw [f.exec_stc_of_allowed hr.toRuns ha hcp]
    refine ⟨_, CpTransfer.storeCoprocessor_of_accessible hr.notLast hacc,
      (CpTransfer.words_stored hm).congr (by simp) (by simp) (by simp),
      fun hw => CpTransfer.readReg_base ha hw _ _, rfl, by simp, ?frame⟩
    case frame =>
      exact (((s.withWords_frame _ _).mono (by simp)).writeBackTo (by simp) f.w f.rn _ fun hw => by simp [hw]).setPc _
  case ldcAborts =>
    rw [f.exec_ldc_of_allowed hr ha hcp]
    exact ⟨_, _, CpTransfer.loadCoprocessor_of_faulting hlt hf hacc, takeException_entered .dataAbort _,
      s.setCpState_frame f.cp _, ⟨fun _ => rfl, rfl⟩, rfl⟩
  case stcAborts =>
    rw [f.exec_stc_of_allowed hr ha hcp]
    exact ⟨_, CpTransfer.storeCoprocessor_of_faulting hlt hf hacc, takeException_entered .dataAbort _,
      by simp [memoryKept]⟩

end Sys2Proof.Machine
end

section
/-!
The statements of 60_exceptions.md, O9 to O12 and O14: exception entry by its table (R401, R405), and the order of one
step (R419): reset, the interrupts, the fetch, the instruction at the pc.
-/

namespace Sys2Proof.Machine

/-! ### Exception entry -/

/-- Settles O14: the entry of the table, and its mode. -/
theorem exceptionEntry : Obligations.ExceptionEntry := by
  unfold Obligations.ExceptionEntry
  intro e s
  obtain ⟨hmode, _⟩ := entryRow_eq e
  exact ⟨takeException_entered e s, hmode ▸ takeException_mode? e s⟩

/-! ### The order of a step -/

section
variable {s : State}

theorem step_of_reset (ht : psrT s.cpsr = false) (hr : s.lines.reset = true) :
    step s = .next (resetEntry s.nextInputs) := step_next.mpr ⟨ht, .inl ⟨hr, rfl⟩⟩

/-- A line that is low, or disabled, asks for nothing. -/
theorem line_masked {line disabled : Bool} (h : line = false ∨ disabled = true) : (line && !disabled) = false := by
  rcases h with h | h <;> rw [h]
  · rfl
  · exact Bool.and_false _

theorem line_taken {line disabled : Bool} (h : line = true) (hd : disabled = false) : (line && !disabled) = true := by
  rw [h, hd]
  rfl

/-- An executed fetch that decodes runs the instruction. -/
theorem executeAtPc_of_decoded {w : Word} {i : Instr} (hf : s.fetch = .ok w) (hd : decode w = .ok i) :
    executeAtPc s = exec i s := by
  simp only [executeAtPc, hf, hd]

theorem executeAtPc_of_abort (hf : s.fetch = .error .abort) :
    executeAtPc s = .next (takeException .prefetchAbort s) := by
  simp only [executeAtPc, hf]

end

/-- Settles O10: the lines are tested in the order of the step. -/
theorem stepTakesInterrupts : Obligations.StepTakesInterrupts := by
  unfold Obligations.StepTakesInterrupts
  intro s ht
  refine ⟨step_of_reset ht, fun hr hfiq hf => ?fiq, fun hr hfiq hirq hi => ?irq, fun hr hfiq hirq h4 => ?goesOn⟩
  case fiq =>
    exact ⟨_, step_next.mpr ⟨ht, .inr (.inl ⟨hr, line_taken hfiq hf, rfl⟩)⟩, takeException_entered .fiq _⟩
  case irq =>
    exact ⟨_, step_next.mpr ⟨ht, .inr (.inr (.inl ⟨hr, line_masked hfiq, line_taken hirq hi, rfl⟩))⟩,
      takeException_entered .irq _⟩
  case goesOn => exact step_of_executes ⟨ht, hr, line_masked hfiq, line_masked hirq, h4⟩

/-- Settles O11: the lower bits of the CPSR are those of reset, the rest of the claim is the reset entry's own. -/
theorem resetStep : Obligations.ResetStep := by
  unfold Obligations.ResetStep
  intro s ht hr
  have hbit {i : Nat} (hi : i < 28) := resetEntry_cpsr_getLsbD s.nextInputs hi
  refine ⟨_, step_of_reset ht hr, rfl, ?modeBits, hbit (i := 7) (by decide), hbit (i := 6) (by decide),
    hbit (i := 5) (by decide), ⟨fun _ => rfl, rfl⟩, rfl⟩
  case modeBits =>
    apply BitVec.eq_of_getLsbD_eq
    intro i hi
    rw [BitVec.getLsbD_extractLsb', Nat.zero_add, hbit (by omega)]
    revert i
    decide

/-- Settles O12: the memory fault of the fetch is tested first. -/
theorem fetchFaultAborts : Obligations.FetchFaultAborts := by
  unfold Obligations.FetchFaultAborts
  intro s hx hf
  have hfetch : s.nextInputs.fetch = .error .abort := s.fetch_nextInputs.trans (State.fetch_abort.mpr hf)
  exact ⟨_, (step_of_executes hx).trans (executeAtPc_of_abort hfetch), takeException_entered .prefetchAbort _⟩

/-- What the decoder reads from four bytes it reads from their word. -/
theorem decode_of_decodeBytes {e : Endian} {b0 b1 b2 b3 : Byte} {i : Instr} {rest : List Byte}
    (h : decodeBytes e [b0, b1, b2, b3] = .ok (i, rest)) : decode (wordOfBytes e b0 b1 b2 b3) = .ok i := by
  cases hd : decode (wordOfBytes e b0 b1 b2 b3) <;> rw [decodeBytes, hd] at h <;> cases h
  rfl

/-- Settles O9: the word fetched is that of the four bytes at the pc. -/
theorem stepRunsDecodedInstruction : Obligations.StepRunsDecodedInstruction := by
  unfold Obligations.StepRunsDecodedInstruction
  intro s i hf hd
  have hfetch := s.fetch_nextInputs.trans hf.fetch
  rw [step_of_executes hf.toExecutes, executeAtPc_of_decoded hfetch (decode_of_decodeBytes hd)]

end Sys2Proof.Machine
end

section
/-!
The statements of 60_exceptions.md R431 and R432, O59 and O60: what User mode can change, and what it can read. One
relation serves both: `UserAnswer s x y` says that `x` and `y`, the answers of the same operation in two states that
User mode cannot tell apart, are such again, and that `x` leaves the privileged state of `s` or enters an exception.
Each shared operation has a lemma that it answers so; an instruction is composed of them.
-/

namespace Sys2Proof.Machine

/-! ### Two states that User mode cannot tell apart -/

/-- `s` is in User mode, and `t` differs from it in the banked registers and the SPSRs only. -/
structure UserPair (s t : State) : Prop extends UserAgree s t where
  user : s.mode? = some .usr

theorem UserAgree.refl (s : State) : UserAgree s s := ⟨rfl, rfl, rfl, rfl, rfl, rfl, rfl, rfl, rfl⟩

section
variable {s t : State}

theorem UserAgree.mode? (h : UserAgree s t) : t.mode? = s.mode? := State.mode?_congr (by rw [h.cpsr])

theorem UserAgree.privileged (h : UserAgree s t) : t.privileged = s.privileged := by
  rw [State.privileged, State.mode_congr h.cpsr]; rfl

theorem UserAgree.c (h : UserAgree s t) : t.c = s.c := congrArg psrC h.cpsr

theorem UserAgree.v (h : UserAgree s t) : t.v = s.v := congrArg psrV h.cpsr

theorem UserAgree.cpState (h : UserAgree s t) (cp : CpNum) : t.cpState cp = s.cpState cp :=
  State.cpState_congr h.coproc cp

theorem UserAgree.cpAccepts (h : UserAgree s t) (cp : CpNum) (w : Word) : t.cpAccepts cp w = s.cpAccepts cp w := by
  rw [State.cpAccepts, h.platform, h.privileged]; rfl

theorem UserAgree.hasV4T (h : UserAgree s t) : hasV4T t = hasV4T s := by rw [Machine.hasV4T, h.platform]; rfl

theorem UserAgree.hasV5T (h : UserAgree s t) : hasV5T t = hasV5T s := by rw [Machine.hasV5T, h.platform]; rfl

theorem UserAgree.lines (h : UserAgree s t) : t.lines = s.lines := by rw [State.lines, h.inputs]; rfl

theorem UserAgree.psrRead (h : UserAgree s t) (p : Word) : t.psrRead p = s.psrRead p := by
  rw [State.psrRead, h.platform, h.draws]; rfl

theorem UserAgree.msrMask (h : UserAgree s t) (mask : BitVec 4) : t.msrMask mask = s.msrMask mask := by
  rw [State.msrMask, h.privileged]; rfl

theorem UserAgree.fetch (h : UserAgree s t) : t.fetch = s.fetch := by
  have hw (a : Word) : t.storedWord a = s.storedWord a := by rw [State.storedWord, h.stored]; rfl
  rw [State.fetch, h.platform, h.pc, h.privileged, hw, h.mem]; rfl

theorem UserAgree.access (h : UserAgree s t) (kind : AccessKind) (size : AccessSize) (a : Word) (privileged : Bool) :
    t.access kind size a privileged = s.access kind size a privileged := by
  simp only [State.access, State.alignedAddress, h.platform]

theorem UserAgree.load (h : UserAgree s t) (size : AccessSize) (a : Word) (privileged : Bool) :
    t.load size a privileged = s.load size a privileged := by
  simp only [State.load, h.access, h.mem, h.platform]

theorem UserAgree.loadRotated (h : UserAgree s t) (a : Word) (privileged : Bool) :
    t.loadRotated a privileged = s.loadRotated a privileged := by
  simp only [State.loadRotated, h.load, h.platform]

theorem UserAgree.loadWords (h : UserAgree s t) (a : Word) (n : Nat) : t.loadWords a n = s.loadWords a n := by
  induction n generalizing a with
  | zero => rfl
  | succ n ih => simp only [State.loadWords, h.load, h.privileged, ih]

/-- The User-mode bank is read alike; r15 is the pc. -/
theorem UserAgree.readRegIn_usr (h : UserAgree s t) (r : Reg) : t.readRegIn .usr r = s.readRegIn .usr r := by
  unfold State.readRegIn physOf phys
  by_cases hr : r.toNat < 15
  · simp only [hr, dite_true, State.readPhys, h.usr]
  · simp only [hr, dite_false, h.pc]

end

section
variable {s t : State} (h : UserPair s t)
include h

theorem UserPair.mode : s.mode = .usr := by rw [State.mode, h.user]; rfl

theorem UserPair.mode_right : t.mode = .usr := (State.mode_congr h.cpsr).trans h.mode

theorem UserPair.readReg (r : Reg) : t.readReg r = s.readReg r := by
  rw [State.readReg, State.readReg, h.mode, h.mode_right, h.readRegIn_usr]

theorem UserPair.storeValueIn_usr (r : Reg) : t.storeValueIn .usr r = s.storeValueIn .usr r := by
  simp only [State.storeValueIn, State.storedPc, h.readRegIn_usr, h.platform, h.pc]

theorem UserPair.storeValue (r : Reg) : t.storeValue r = s.storeValue r := by
  rw [State.storeValue, State.storeValue, h.mode, h.mode_right, h.storeValueIn_usr]

theorem UserPair.accumulator (rdHi rdLo : Reg) : t.accumulator rdHi rdLo = s.accumulator rdHi rdLo := by
  rw [State.accumulator, h.readReg, h.readReg]; rfl

theorem UserPair.indexed (x : Indexing) : t.indexed x = s.indexed x := by rw [State.indexed, h.readReg]; rfl

theorem UserPair.addressOf (x : Indexing) : t.addressOf x = s.addressOf x := by
  rw [State.addressOf, h.indexed, h.readReg]; rfl

theorem UserPair.regIndexing (p u w : Bool) (rn : Reg) (o : ImmShift) :
    t.regIndexing p u w rn o = s.regIndexing p u w rn o := by
  rw [State.regIndexing, State.shiftedOffset, h.readReg, h.c]; rfl

theorem UserPair.halfRegIndexing (p u w : Bool) (rn rm : Reg) :
    t.halfRegIndexing p u w rn rm = s.halfRegIndexing p u w rn rm := by
  rw [State.halfRegIndexing, h.readReg]; rfl

end

/-! ### Changes of what User mode can name -/

/-- `u` has the pc, the CPSR, the banked registers and the SPSRs of `s`, and User mode cannot tell `v` from it. -/
structure UserChange (s u v : State) : Prop where
  cpsr : u.cpsr = s.cpsr
  pc : u.pc = s.pc
  banks : ∀ p, (∀ i, p ≠ .usr i) → u.readPhys p = s.readPhys p
  spsrs : spsrsKept s u
  agree : UserAgree u v

theorem UserContained.refl (s : State) : UserContained s s := ⟨rfl, rfl, fun _ _ => rfl, fun _ => rfl⟩

section
variable {s t u v : State}

/-- A change leaves two states that User mode cannot tell apart. -/
theorem UserPair.of_change (h : UserPair s t) (hc : UserChange s u v) : UserPair u v :=
  ⟨hc.agree, (State.mode?_congr (by rw [hc.cpsr])).trans h.user⟩

theorem UserPair.noChange (h : UserPair s t) : UserChange s s t :=
  ⟨rfl, rfl, fun _ _ => rfl, fun _ => rfl, h.toUserAgree⟩

theorem UserChange.trans {u' v' : State} (h : UserChange s u v) (g : UserChange u u' v') : UserChange s u' v' :=
  ⟨g.cpsr.trans h.cpsr, g.pc.trans h.pc, fun p hp => (g.banks p hp).trans (h.banks p hp),
    fun m => (g.spsrs m).trans (h.spsrs m), g.agree⟩

/-- A write of a register of the User-mode bank is a write of one field. -/
theorem State.writeRegIn_usr (s : State) (r : Reg) (x : Word) :
    s.writeRegIn .usr r x = { s with usr := if h : r.toNat < 15 then s.usr.set r.toNat x else s.usr } := by
  unfold State.writeRegIn physOf phys
  by_cases hr : r.toNat < 15
  · simp only [hr, dite_true, State.writePhys]
  · simp only [hr, dite_false]

theorem UserPair.writeRegIn_usr (h : UserPair s t) (r : Reg) (x : Word) :
    UserChange s (s.writeRegIn .usr r x) (t.writeRegIn .usr r x) := by
  rw [State.writeRegIn_usr, State.writeRegIn_usr]
  refine ⟨rfl, rfl, fun p hp => ?banks, fun m => by simp, { h.toUserAgree with usr := by simp only [h.usr] }⟩
  case banks =>
    cases p with
    | usr i => exact absurd rfl (hp i)
    | fiq | irq | svc | abt | und => rfl

theorem UserPair.writeReg (h : UserPair s t) (r : Reg) (x : Word) :
    UserChange s (s.writeReg r x) (t.writeReg r x) := by
  rw [State.writeReg, State.writeReg, h.mode, h.mode_right]
  exact h.writeRegIn_usr r x

theorem UserPair.writeBackTo (h : UserPair s t) (w : Bool) (r : Reg) (x : Word) :
    UserChange s (s.writeBackTo w r x) (t.writeBackTo w r x) := by
  cases w
  · exact h.noChange
  · exact h.writeReg r x

theorem UserPair.abortBase (h : UserPair s t) (w : Bool) (r : Reg) (x : Word) :
    UserChange s (s.abortBase w r x) (t.abortBase w r x) := by
  unfold State.abortBase
  rw [h.platform]
  cases s.platform.abortModel
  · exact h.noChange
  · exact h.writeBackTo w r x

theorem UserPair.writeRegsIn_usr (h : UserPair s t) (l : List (Reg × Word)) :
    UserChange s (writeRegsIn .usr s l) (writeRegsIn .usr t l) := by
  induction l generalizing s t with
  | nil => exact h.noChange
  | cons x rest ih =>
    have hx := h.writeRegIn_usr x.1 x.2
    exact hx.trans (ih (h.of_change hx))

theorem UserPair.loadListed (h : UserPair s t) (list : BitVec 16) (vs : List Word) :
    UserChange s (s.loadListed list vs) (t.loadListed list vs) := by
  rw [State.loadListed, State.loadListed, h.mode, h.mode_right]
  exact h.writeRegsIn_usr _

theorem UserPair.setCpState (h : UserPair s t) (cp : CpNum) (x : CpState) :
    UserChange s (s.setCpState cp x) (t.setCpState cp x) :=
  ⟨rfl, rfl, fun p _ => by simp, fun m => by simp,
    { h.toUserAgree with coproc := by simp only [State.setCpState, h.coproc] }⟩

theorem UserPair.countPsrRead (h : UserPair s t) : UserChange s s.countPsrRead t.countPsrRead := by
  unfold State.countPsrRead
  rw [h.platform]
  cases s.platform.psrReserved
  · exact h.noChange
  · exact ⟨rfl, rfl, fun p _ => by simp, fun m => by simp,
      { h.toUserAgree with platform := rfl, draws := congrArg (· + 1) h.draws }⟩

theorem UserPair.setMem (h : UserPair s t) (size : AccessSize) (a x : Word) :
    UserChange s (s.setMem size a x) (t.setMem size a x) :=
  ⟨rfl, rfl, fun p _ => by simp, fun m => by simp,
    { h.toUserAgree with
      mem := by simp only [State.setMem, h.mem, h.platform]
      stored := by simp only [State.setMem, h.stored] }⟩

theorem UserPair.nextInputs (h : UserPair s t) : UserChange s s.nextInputs t.nextInputs :=
  ⟨rfl, rfl, fun p _ => by simp, fun m => by simp,
    { h.toUserAgree with inputs := by simp only [State.nextInputs, h.inputs] }⟩

/-- Words stored stop alike, in states that User mode cannot tell apart. -/
theorem UserPair.storeWords (h : UserPair s t) (a : Word) (vs : List Word) :
    ∃ u v e, s.storeWords a vs = (u, e) ∧ t.storeWords a vs = (v, e) ∧ UserChange s u v := by
  induction vs generalizing s t a with
  | nil => exact ⟨s, t, none, rfl, rfl, h.noChange⟩
  | cons x rest ih =>
    simp only [State.storeWords, State.store, h.access, h.privileged]
    cases s.access .write .word a s.privileged with
    | error e => exact ⟨s, t, some e, rfl, rfl, h.noChange⟩
    | ok ea =>
      have hx := h.setMem .word ea x
      obtain ⟨u, v, e, hu, hv, hc⟩ := ih (h.of_change hx) (a + 4)
      exact ⟨u, v, e, hu, hv, hx.trans hc⟩

end

/-! ### The answers of User mode -/

/-- The answers of an operation in `s` and in a state that User mode cannot tell from it: two states such again, in
which an exception is entered or the privileged state is as in `s`, or one reason to stop. -/
inductive UserAnswer (s : State) : Result State → Result State → Prop
  | contained {u v : State} : UserContained s u → UserAgree u v → UserAnswer s (.next u) (.next v)
  | entered {e : Exception} {u v : State} : UserEntered e s u → UserAgree u v → UserAnswer s (.next u) (.next v)
  | fault (f : Fault) : UserAnswer s (.fault f) (.fault f)
  | refused (r : Refusal) : UserAnswer s (.refused r) (.refused r)

section
variable {s t u v : State} {x y : Result State}

/-- What follows a change answers for the state before it. -/
theorem UserAnswer.after (hc : UserChange s u v) (h : UserAnswer u x y) : UserAnswer s x y := by
  cases h with
  | contained h ha =>
    exact .contained ⟨h.modeBits.trans (by rw [hc.cpsr]), h.interrupts.trans (by rw [hc.cpsr]),
      fun p hp => (h.banks p hp).trans (hc.banks p hp), fun m => (h.spsrs m).trans (hc.spsrs m)⟩ ha
  | entered h ha =>
    exact .entered ⟨h.modeBits, h.pc, hc.pc ▸ h.link, hc.cpsr ▸ h.saved,
      fun p hp h14 => (h.banks p hp h14).trans (hc.banks p hp), fun m hm => (h.spsrs m hm).trans (hc.spsrs m)⟩ ha
  | fault f => exact .fault f
  | refused r => exact .refused r

theorem UserAnswer.outcomesAgree (h : UserAnswer s x y) : outcomesAgree UserAgree x y := by
  cases h with
  | contained _ ha | entered _ ha => exact ha
  | fault | refused => exact rfl

/-- What an operation does after a change. -/
theorem UserPair.after (h : UserPair s t) (hc : UserChange s u v) (k : UserPair u v → UserAnswer u x y) :
    UserAnswer s x y := (k (h.of_change hc)).after hc

/-- An exception entered. -/
theorem UserPair.takeException (h : UserPair s t) (e : Exception) :
    UserAnswer s (.next (takeException e s)) (.next (takeException e t)) := by
  have he := takeException_entered e s
  have husr (s : State) : (Machine.takeException e s).usr = s.usr := by cases e <;> rfl
  refine .entered (e := e)
    ⟨he.modeBits, he.pc, he.link, he.saved, fun p _ h14 => he.registers p (by simpa using h14), he.spsrs⟩ ?agree
  case agree => constructor <;> simp [husr, h.usr, h.cpsr, h.mem, h.stored, h.coproc, h.inputs, h.platform, h.draws]

/-- A stop of an access. -/
theorem UserPair.stopWith (h : UserPair s t) (e : Stop) : UserAnswer s (stopWith e s) (stopWith e t) := by
  cases e with
  | abort => exact h.takeException .dataAbort
  | refuse r => exact .refused r

end

/-! ### The frame of an instruction -/

section
variable {s t : State} {x y : Result State}

theorem UserAnswer.require (ok : Bool) (r : Refusal) (h : UserAnswer s x y) :
    UserAnswer s (require ok r x) (require ok r y) := by
  cases ok
  · exact .refused r
  · exact h

/-- The pc moves on after a change that keeps the privileged state. -/
theorem UserAnswer.advance {u v : State} (hc : UserContained s u) (h : UserAgree u v) :
    UserAnswer s u.advance v.advance := by
  unfold State.advance
  rw [h.pc]
  split
  · exact .refused _
  · refine .contained ⟨hc.modeBits, hc.interrupts, fun p hp => ?banks, fun m => ?spsrs⟩ { h with pc := rfl }
    case banks => rw [← hc.banks p hp]; simp
    case spsrs => rw [← hc.spsrs m]; simp

/-- A branch changes the pc, and T at most. -/
theorem UserPair.branch (h : UserPair s t) {cpsr pc : Word} (hm : cpsr.extractLsb' 0 5 = s.cpsr.extractLsb' 0 5)
    (hi : cpsr.extractLsb' 6 22 = s.cpsr.extractLsb' 6 22) :
    UserAnswer s (.next { s with cpsr := cpsr, pc := pc }) (.next { t with cpsr := cpsr, pc := pc }) :=
  .contained ⟨hm, hi, fun p _ => by simp, fun m => by simp⟩ { h.toUserAgree with cpsr := rfl, pc := rfl }

variable (h : UserPair s t)
include h

theorem UserPair.advance : UserAnswer s s.advance t.advance := .advance (.refl s) h.toUserAgree

theorem UserPair.inMode (hx : UserAnswer s x y) : UserAnswer s (inMode s x) (inMode t y) := by
  rw [Machine.inMode, Machine.inMode, h.mode?, h.user]
  exact hx

theorem UserPair.conditional (c : Cond) (hx : UserAnswer s x y) :
    UserAnswer s (conditional c s x) (conditional c t y) := by
  refine h.inMode ?_
  rw [h.cpsr]
  split
  · exact hx
  · exact h.advance

theorem UserPair.ifPresent {present : State → Bool} (hp : present t = present s) (hx : UserAnswer s x y) :
    UserAnswer s (ifPresent (present s) s x) (ifPresent (present t) t y) := by
  rw [hp]
  cases present s
  · exact h.takeException .undefined
  · exact hx

theorem UserPair.withCoprocessor (cp : CpNum) (i : Instr) (hx : UserAnswer s x y) :
    UserAnswer s (withCoprocessor cp i s x) (withCoprocessor cp i t y) := by
  rw [Machine.withCoprocessor, Machine.withCoprocessor, h.cpAccepts]
  split
  · exact hx
  · exact h.takeException .undefined

/-! ### The ends of an instruction -/

/-- A register written, and the pc moved on. -/
theorem UserPair.writeReg_advance (r : Reg) (w : Word) :
    UserAnswer s (s.writeReg r w).advance (t.writeReg r w).advance :=
  h.after (h.writeReg r w) fun h => h.advance

theorem UserPair.setFlags_advance (n z c v : Bool) :
    UserAnswer s (s.setFlags n z c v).advance (t.setFlags n z c v).advance :=
  .advance ⟨by simp, by simp, fun p _ => by simp, fun m => by simp⟩
    { h.toUserAgree with cpsr := congrArg (psrSetFlags · n z c v) h.cpsr }

theorem UserPair.setMultiplyFlags_advance (f long n z : Bool) :
    UserAnswer s (s.setMultiplyFlags f long n z).advance (t.setMultiplyFlags f long n z).advance := by
  refine .advance ⟨?modeBits, ?interrupts, fun p _ => by simp, fun m => by simp⟩ ?agree
  case modeBits | interrupts => cases f <;> simp [State.setMultiplyFlags]
  case agree =>
    cases f with
    | false => exact h.toUserAgree
    | true =>
      simp only [State.setMultiplyFlags, h.draws, h.v, if_true]
      exact { h.toUserAgree with cpsr := by simp only [State.setFlags_cpsr, h.cpsr], draws := rfl }

theorem UserPair.exchangeTo (w : Word) : UserAnswer s (.next (s.exchangeTo w)) (.next (t.exchangeTo w)) := by
  unfold State.exchangeTo
  rw [h.cpsr]
  exact h.branch (by simp) (by simp)

theorem UserPair.setPc (w : Word) : UserAnswer s (.next { s with pc := w }) (.next { t with pc := w }) :=
  .contained ⟨rfl, rfl, fun p _ => by simp, fun m => by simp⟩ { h.toUserAgree with pc := rfl }

theorem UserPair.writePc (w : Word) : UserAnswer s (s.writePc w) (t.writePc w) := by
  by_cases hw : w.extractLsb' 0 2 = 0 ∨ s.platform.pcWriteAlign = .mask
  · rw [State.writePc_next.mpr ⟨hw, rfl⟩, State.writePc_next.mpr ⟨h.platform ▸ hw, rfl⟩]
    exact h.setPc _
  · rw [State.writePc_refused hw, State.writePc_refused (h.platform ▸ hw)]
    exact .refused _

theorem UserPair.loadPc (w : Word) : UserAnswer s (s.loadPc w) (t.loadPc w) := by
  cases ha : s.platform.arch with
  | v4 | v4T =>
    simp only [State.loadPc, h.platform, ha]
    exact h.writePc w
  | v5T =>
    by_cases h2 : w.extractLsb' 0 2 = 2
    · have hl : ¬ pcLoadable s w := by simpa only [pcLoadable, ha, ne_eq, not_not] using h2
      rw [State.loadPc_of_not_loadable rfl hl, State.loadPc_of_not_loadable h.platform hl]
      exact .refused _
    · rw [State.loadPc_next.mpr (.inl ⟨ha, h2, rfl⟩), State.loadPc_next.mpr (.inl ⟨h.platform ▸ ha, h2, rfl⟩), h.cpsr]
      exact h.branch (by simp) (by simp)

/-- User mode has no SPSR to return with. -/
theorem UserPair.exceptionReturn (w : Word) : UserAnswer s (s.exceptionReturn w) (t.exceptionReturn w) := by
  rw [State.exceptionReturn_of_noSpsr (by rw [h.mode]; rfl),
    State.exceptionReturn_of_noSpsr (by rw [h.mode_right]; rfl)]
  exact .refused _

/-! ### The operations of one family -/

theorem UserPair.dataProcess (op : DpOp) (f : Bool) (rn rd : Reg) {o o' : Shifted} (ho : o' = o) :
    UserAnswer s (dataProcess op s f rn rd o) (dataProcess op t f rn rd o') := by
  rw [Machine.dataProcess, Machine.dataProcess, ho, h.readReg, h.c, h.v]
  refine .require _ _ ?_
  unfold dpFinish
  split
  · exact h.setFlags_advance ..
  · split
    · split
      · exact h.exceptionReturn _
      · exact h.writePc _
    · split
      · exact h.after (h.writeReg _ _) fun h => h.setFlags_advance ..
      · exact h.writeReg_advance _ _

theorem UserPair.multiplyShort (f : Bool) (rd rm : Reg) (others : List Reg) {r r' : Word} (hr : r' = r) :
    UserAnswer s (multiplyShort s f rd rm others r) (multiplyShort t f rd rm others r') := by
  subst hr
  exact .require _ _ (.require _ _ (h.after (h.writeReg _ _) fun h => h.setMultiplyFlags_advance ..))

theorem UserPair.multiplyLong (f : Bool) (rdHi rdLo rs rm : Reg) {r r' : BitVec 64} (hr : r' = r) :
    UserAnswer s (multiplyLong s f rdHi rdLo rs rm r) (multiplyLong t f rdHi rdLo rs rm r') := by
  subst hr
  exact .require _ _ (.require _ _ (h.after (h.writeReg _ _) fun h =>
    h.after (h.writeReg _ _) fun h => h.setMultiplyFlags_advance ..))

/-- An MRS of the SPSR is refused, one of the CPSR reads it. -/
theorem UserPair.readStatus (c : Cond) (spsr : Bool) (rd : Reg) :
    UserAnswer s (execMrs c spsr rd s) (execMrs c spsr rd t) := by
  refine h.conditional _ (.require _ _ ?_)
  rw [h.mode, h.mode_right]
  cases spsr with
  | true => exact .refused _
  | false =>
    rw [h.psrRead, if_neg Bool.false_ne_true, if_neg Bool.false_ne_true, h.cpsr]
    exact h.after h.countPsrRead fun h => h.writeReg_advance _ _

/-- An MSR writes bits of the f field only (48_status_register_transfer.md R333). -/
theorem UserPair.msrMask_getLsbD (mask : BitVec 4) {i : Nat} (hi : i < 28) : (s.msrMask mask).getLsbD i = false := by
  rw [s.msrMask_getLsbD mask (by omega), h.mode]
  simp [show ¬ 28 ≤ i by omega]

theorem UserPair.moveToStatus (spsr : Bool) (mask : BitVec 4) {w w' : Word} (hw : w' = w) :
    UserAnswer s (moveToStatus s spsr mask w) (moveToStatus t spsr mask w') := by
  subst hw
  cases spsr with
  | true =>
    rw [Machine.moveToStatus, Machine.moveToStatus, if_pos rfl, if_pos rfl, msrSpsr, msrSpsr, h.mode, h.mode_right]
    exact .refused _
  | false =>
    have hfield (lo len : Nat) (hl : lo + len ≤ 28) :
        (psrMerge s.cpsr w' (s.msrMask mask)).extractLsb' lo len = s.cpsr.extractLsb' lo len := by
      apply BitVec.eq_of_getLsbD_eq
      intro i hi
      rw [BitVec.getLsbD_extractLsb', BitVec.getLsbD_extractLsb', psrMerge_getLsbD, h.msrMask_getLsbD _ (by omega),
        if_neg Bool.false_ne_true]
    have ht : psrMerge t.cpsr w' (t.msrMask mask) = psrMerge s.cpsr w' (s.msrMask mask) := by rw [h.cpsr, h.msrMask]
    rw [Machine.moveToStatus, Machine.moveToStatus, if_neg Bool.false_ne_true, if_neg Bool.false_ne_true, msrCpsr,
      msrCpsr, ht, h.cpsr]
    exact .require _ _ (.require _ _ (.advance
      ⟨hfield 0 5 (by decide), hfield 6 22 (by decide), fun p _ => by simp, fun m => by simp⟩
      { h.toUserAgree with cpsr := rfl }))

theorem UserPair.loadIndexed {x x' : Indexing} (hx : x' = x) {read read' : Except Stop Word} (hread : read' = read)
    {k : State → Word → Result State} (hk : ∀ u v w, UserPair u v → UserAnswer u (k u w) (k v w)) :
    UserAnswer s (loadIndexed s x read k) (loadIndexed t x' read' k) := by
  subst hx hread
  unfold Machine.loadIndexed
  rw [h.indexed]
  cases read' with
  | ok w => exact h.after (h.writeBackTo ..) (hk _ _ w)
  | error e => exact h.after (h.abortBase ..) fun h => h.stopWith e

theorem UserPair.loadWord {x x' : Indexing} (hx : x' = x) (rd : Reg) {p p' : Bool} (hp : p' = p) :
    UserAnswer s (loadWord s x rd p) (loadWord t x' rd p') := by
  refine h.loadIndexed hx (by rw [hx, hp, h.addressOf, h.loadRotated]) fun u v w h => ?_
  split
  · exact h.loadPc w
  · exact h.writeReg_advance rd w

theorem UserPair.loadByte {x x' : Indexing} (hx : x' = x) (rd : Reg) {p p' : Bool} (hp : p' = p) :
    UserAnswer s (loadByte s x rd p) (loadByte t x' rd p') :=
  .require _ _ (h.loadIndexed hx (by rw [hx, hp, h.addressOf, h.load]) fun _ _ w h => h.writeReg_advance rd w)

theorem UserPair.loadExtended {x x' : Indexing} (hx : x' = x) (rd : Reg) (size : AccessSize) (extend : Word → Word) :
    UserAnswer s (loadExtended s x rd size extend) (loadExtended t x' rd size extend) :=
  h.loadIndexed hx (by rw [hx, h.addressOf, h.privileged, h.load]) fun _ _ w h => h.writeReg_advance rd (extend w)

theorem UserPair.storeIndexed {x x' : Indexing} (hx : x' = x) (size : AccessSize) {w w' : Word} (hw : w' = w)
    {p p' : Bool} (hp : p' = p) : UserAnswer s (storeIndexed s x size w p) (storeIndexed t x' size w' p') := by
  subst hx hw hp
  unfold Machine.storeIndexed State.store
  rw [h.addressOf, h.indexed, h.access]
  cases s.access .write size (s.addressOf x') p' with
  | ok ea => exact h.after (h.setMem size ea w') fun h => h.after (h.writeBackTo ..) fun h => h.advance
  | error e => exact h.after (h.abortBase ..) fun h => h.stopWith e

theorem UserPair.loadBlock (p u w : Bool) (rn : Reg) (list : BitVec 16) {k : State → List Word → Result State}
    (hk : ∀ u v vs, UserPair u v → UserAnswer u (k u vs) (k v vs)) :
    UserAnswer s (loadBlock s p u w rn list k) (loadBlock t p u w rn list k) := by
  simp only [Machine.loadBlock, h.readReg, h.loadWords]
  split
  · next vs _ => exact h.after (h.writeBackTo ..) (hk _ _ vs)
  · next e _ => exact h.after (h.abortBase ..) fun h => h.stopWith e

theorem UserPair.storeBlock (p u w : Bool) (rn : Reg) {vs vs' : List Word} (hvs : vs' = vs) :
    UserAnswer s (storeBlock s p u w rn vs) (storeBlock t p u w rn vs') := by
  subst hvs
  obtain ⟨a, b, e, ha, hb, hc⟩ := h.storeWords (blockStart p u (s.readReg rn) vs'.length) vs'
  simp only [Machine.storeBlock, h.readReg, ha, hb]
  cases e with
  | none => exact h.after hc fun h => h.after (h.writeBackTo ..) fun h => h.advance
  | some e => exact h.after hc fun h => h.after (h.abortBase ..) fun h => h.stopWith e

theorem UserPair.swap (size : AccessSize) (rn rd rm : Reg) {read read' : Except Stop Word} (hread : read' = read) :
    UserAnswer s (swap s size rn rd rm read) (swap t size rn rd rm read') := by
  subst hread
  refine .require _ _ (.require _ _ ?_)
  cases read' with
  | error e => exact h.stopWith e
  | ok w =>
    simp only [State.store, h.readReg, h.privileged, h.access]
    cases s.access .write size (s.readReg rn) s.privileged with
    | error e => exact h.stopWith e
    | ok ea => exact h.after (h.setMem size ea (s.readReg rm)) fun h => h.writeReg_advance rd w

theorem UserPair.loadCoprocessor (x : Indexing) (n : Bool) (crd : CReg) (cp : CpNum) (option : Option (BitVec 8)) :
    UserAnswer s (loadCoprocessor s x n crd cp option) (loadCoprocessor t x n crd cp option) := by
  simp only [Machine.loadCoprocessor, h.cpState, h.addressOf, h.indexed, h.loadWords]
  split
  · exact h.after (h.setCpState ..) fun h => h.after (h.writeBackTo ..) fun h => h.advance
  · next e _ => exact h.after (h.setCpState ..) fun h => h.after (h.abortBase ..) fun h => h.stopWith e

theorem UserPair.storeCoprocessor (x : Indexing) (n : Bool) (crd : CReg) (cp : CpNum) (option : Option (BitVec 8)) :
    UserAnswer s (storeCoprocessor s x n crd cp option) (storeCoprocessor t x n crd cp option) := by
  obtain ⟨a, b, e, ha, hb, hc⟩ := h.storeWords (s.addressOf x)
    (supplyWords cp (s.cpState cp) n crd option ((Config.cpStcCount cp (s.cpState cp) n crd option).val + 1))
  simp only [Machine.storeCoprocessor, h.cpState, h.addressOf, h.indexed, ha, hb]
  cases e with
  | none => exact h.after hc fun h => h.after (h.writeBackTo ..) fun h => h.advance
  | some e => exact h.after (h.abortBase ..) fun h => h.stopWith e

theorem UserPair.receiveMrc (rd : Reg) {w w' : Word} (hw : w' = w) :
    UserAnswer s (receiveMrc s rd w) (receiveMrc t rd w') := by
  subst hw
  unfold Machine.receiveMrc
  split
  · exact h.setFlags_advance ..
  · exact h.writeReg_advance ..

/-! ### The instructions -/

/-- What an LDM does with the words read (47_multiple_transfer_swap.md R303, R305, R307). -/
theorem UserPair.finishLoad (b : BlockLoad) (vs : List Word) : UserAnswer s (b.finish s vs) (b.finish t vs) := by
  cases b with
  | ldm list =>
    rw [BlockLoad.finish, BlockLoad.finish]
    split
    · exact h.after (h.loadListed ..) fun h => h.loadPc _
    · exact h.after (h.loadListed ..) fun h => h.advance
  | ldmReturn low => exact h.after (h.loadListed ..) fun h => h.exceptionReturn _
  | ldmUser low => exact h.after (h.writeRegsIn_usr _) fun h => h.advance

/-- Every instruction answers alike in User mode. -/
theorem UserPair.exec (i : Instr) : UserAnswer s (exec i s) (exec i t) := by
  cases i with
  | andImm | eorImm | subImm | rsbImm | addImm | adcImm | sbcImm | rscImm | tstImm | teqImm | cmpImm | cmnImm | orrImm
  | movImm | bicImm | mvnImm => exact h.conditional _ (h.dataProcess _ _ _ _ (by rw [h.c]))
  | andShift | eorShift | subShift | rsbShift | addShift | adcShift | sbcShift | rscShift | tstShift | teqShift
  | cmpShift | cmnShift | orrShift | movShift | bicShift | mvnShift =>
    exact h.conditional _ (h.dataProcess _ _ _ _ (by rw [h.c, h.readReg]))
  | andReg | eorReg | subReg | rsbReg | addReg | adcReg | sbcReg | rscReg | tstReg | teqReg | cmpReg | cmnReg | orrReg
  | movReg | bicReg | mvnReg =>
    exact h.conditional _ (.require _ _ (h.dataProcess _ _ _ _ (by rw [h.c, h.readReg, h.readReg])))
  | mul => exact h.conditional _ (.require _ _ (h.multiplyShort _ _ _ _ (by rw [h.readReg, h.readReg])))
  | mla => exact h.conditional _ (h.multiplyShort _ _ _ _ (by rw [h.readReg, h.readReg, h.readReg]))
  | umull | smull => exact h.conditional _ (h.multiplyLong _ _ _ _ _ (by rw [h.readReg, h.readReg]))
  | umlal | smlal => exact h.conditional _ (h.multiplyLong _ _ _ _ _ (by rw [h.readReg, h.readReg, h.accumulator]))
  | clz c rd rm =>
    refine h.conditional _ (h.ifPresent h.hasV5T (.require _ _ ?_))
    rw [h.readReg]
    exact h.writeReg_advance ..
  | swp => exact h.conditional _ (h.swap _ _ _ _ (by rw [h.readReg, h.privileged, h.loadRotated]))
  | swpb => exact h.conditional _ (h.swap _ _ _ _ (by rw [h.readReg, h.privileged, h.load]))
  | b c off =>
    refine h.conditional _ ?_
    rw [h.pc]
    exact h.setPc _
  | bl c off =>
    refine h.conditional _ ?_
    rw [h.pc]
    exact h.after (h.writeReg ..) fun h => h.setPc _
  | bx c rm =>
    refine h.conditional _ (h.ifPresent h.hasV4T ?_)
    rw [h.readReg]
    exact h.exchangeTo _
  | blxReg c rm =>
    refine h.conditional _ (h.ifPresent h.hasV5T (.require _ _ ?_))
    rw [h.readReg, h.pc]
    exact h.after (h.writeReg ..) fun h => h.exchangeTo _
  | blxLabel half off =>
    refine h.inMode ?_
    rw [h.hasV5T, h.pc, h.cpsr]
    exact .require (Machine.hasV5T s) .condition1111
      (h.after (h.writeReg ..) fun h' => h'.branch (by simp) (by simp))
  | swi => exact h.conditional _ (h.takeException _)
  | brk => exact h.inMode (h.ifPresent h.hasV5T (h.takeException _))
  | undefined => exact h.conditional _ (h.takeException _)
  | unallocated c body =>
    refine h.conditional _ ?_
    rw [h.hasV5T]
    exact .require _ _ (h.takeException _)
  | mrs c spsr rd => exact h.readStatus c spsr rd
  | msrReg => exact h.conditional _ (.require _ _ (h.moveToStatus _ _ (h.readReg _)))
  | msrImm => exact h.conditional _ (h.moveToStatus _ _ rfl)
  | ldrhImm | ldrsbImm | ldrshImm =>
    exact h.conditional _ (.require _ _ (.require _ _ (.require _ _ (h.loadExtended rfl ..))))
  | ldrhReg | ldrsbReg | ldrshReg =>
    exact h.conditional _ (.require _ _ (.require _ _ (.require _ _ (.require _ _ (.require _ _
      (h.loadExtended (h.halfRegIndexing ..) ..))))))
  | strhImm =>
    exact h.conditional _ (.require _ _ (.require _ _ (.require _ _
      (h.storeIndexed rfl _ (h.readReg _) h.privileged))))
  | strhReg =>
    exact h.conditional _ (.require _ _ (.require _ _ (.require _ _ (.require _ _ (.require _ _
      (h.storeIndexed (h.halfRegIndexing ..) _ (h.readReg _) h.privileged))))))
  | ldrPreImm | ldrPostImm => exact h.conditional _ (.require _ _ (h.loadWord rfl _ h.privileged))
  | ldrPreReg | ldrPostReg =>
    exact h.conditional _ (.require _ _ (.require _ _ (.require _ _ (h.loadWord (h.regIndexing ..) _ h.privileged))))
  | ldrtImm => exact h.conditional _ (.require _ _ (.require _ _ (h.loadWord rfl _ rfl)))
  | ldrtReg =>
    exact h.conditional _ (.require _ _ (.require _ _ (.require _ _ (.require _ _
      (h.loadWord (h.regIndexing ..) _ rfl)))))
  | ldrbPreImm | ldrbPostImm => exact h.conditional _ (.require _ _ (h.loadByte rfl _ h.privileged))
  | ldrbtImm => exact h.conditional _ (.require _ _ (h.loadByte rfl _ rfl))
  | ldrbPreReg | ldrbPostReg =>
    exact h.conditional _ (.require _ _ (.require _ _ (.require _ _ (h.loadByte (h.regIndexing ..) _ h.privileged))))
  | ldrbtReg =>
    exact h.conditional _ (.require _ _ (.require _ _ (.require _ _ (h.loadByte (h.regIndexing ..) _ rfl))))
  | strPreImm | strPostImm =>
    exact h.conditional _ (.require _ _ (h.storeIndexed rfl _ (h.storeValue _) h.privileged))
  | strPreReg | strPostReg =>
    exact h.conditional _ (.require _ _ (.require _ _ (.require _ _
      (h.storeIndexed (h.regIndexing ..) _ (h.storeValue _) h.privileged))))
  | strtImm => exact h.conditional _ (.require _ _ (.require _ _ (h.storeIndexed rfl _ (h.storeValue _) rfl)))
  | strtReg =>
    exact h.conditional _ (.require _ _ (.require _ _ (.require _ _ (.require _ _
      (h.storeIndexed (h.regIndexing ..) _ (h.storeValue _) rfl)))))
  | strbPreImm | strbPostImm =>
    exact h.conditional _ (.require _ _ (.require _ _ (h.storeIndexed rfl _ (h.readReg _) h.privileged)))
  | strbtImm => exact h.conditional _ (.require _ _ (.require _ _ (h.storeIndexed rfl _ (h.readReg _) rfl)))
  | strbPreReg | strbPostReg =>
    exact h.conditional _ (.require _ _ (.require _ _ (.require _ _ (.require _ _
      (h.storeIndexed (h.regIndexing ..) _ (h.readReg _) h.privileged)))))
  | strbtReg =>
    exact h.conditional _ (.require _ _ (.require _ _ (.require _ _ (.require _ _
      (h.storeIndexed (h.regIndexing ..) _ (h.readReg _) rfl)))))
  | ldm c p u w rn list =>
    exact h.conditional _ (.require _ _ (.require _ _ (.require _ _
      (h.loadBlock _ _ _ _ _ fun _ _ vs h => h.finishLoad (.ldm list) vs))))
  | ldmReturn c p u w rn low =>
    exact h.conditional _ (.require _ _ (.require _ _ (.require _ _
      (h.loadBlock _ _ _ _ _ fun _ _ vs h => h.finishLoad (.ldmReturn low) vs))))
  | ldmUser c p u w rn low =>
    exact h.conditional _ (.require _ _ (.require _ _ (.require _ _ (.require _ _
      (h.loadBlock _ _ _ _ _ fun _ _ vs h => h.finishLoad (.ldmUser low) vs)))))
  | stm =>
    exact h.conditional _ (.require _ _ (.require _ _ (.require _ _
      (h.storeBlock _ _ _ _ (congrArg (List.map · _) (funext h.storeValue))))))
  | stmUser =>
    exact h.conditional _ (.require _ _ (.require _ _ (.require _ _ (.require _ _
      (h.storeBlock _ _ _ _ (congrArg (List.map · _) (funext h.storeValueIn_usr)))))))
  | cdp =>
    refine h.conditional _ (h.withCoprocessor _ _ ?_)
    rw [h.cpState]
    exact h.after (h.setCpState ..) fun h => h.advance
  | mcr =>
    refine h.conditional _ (h.withCoprocessor _ _ (.require _ _ ?_))
    rw [h.cpState, h.readReg]
    exact h.after (h.setCpState ..) fun h => h.advance
  | mrc => exact h.conditional _ (h.withCoprocessor _ _ (h.receiveMrc _ (by rw [h.cpState])))
  | ldc =>
    exact h.conditional _ (.require _ _ (h.withCoprocessor _ _ (.require _ _ (h.loadCoprocessor ..))))
  | stc =>
    exact h.conditional _ (.require _ _ (h.withCoprocessor _ _ (.require _ _ (h.storeCoprocessor ..))))

/-! ### The step -/

theorem UserPair.executeAtPc : UserAnswer s (executeAtPc s) (executeAtPc t) := by
  unfold Machine.executeAtPc
  rw [h.fetch]
  split
  · exact h.takeException .prefetchAbort
  · exact .refused _
  · split
    · exact h.exec _
    · exact .refused _

/-- Every step but a reset answers alike in User mode. -/
theorem UserPair.step (hr : s.lines.reset = false) : UserAnswer s (step s) (step t) := by
  have hi := h.nextInputs
  unfold Machine.step
  rw [h.cpsr, h.lines, h.pc, hr]
  split
  · exact .refused _
  · rw [if_neg Bool.false_ne_true, if_neg Bool.false_ne_true]
    split
    · exact h.after hi fun h => h.takeException .fiq
    · split
      · exact h.after hi fun h => h.takeException .irq
      · split
        · exact h.after hi fun h => h.executeAtPc
        · exact .fault _

end

/-- A reset step makes every register and coprocessor a free value, and keeps the rest. -/
theorem UserAgree.resetEntry {s t : State} (h : UserAgree s t) : UserAgree (resetEntry s) (resetEntry t) := by
  constructor <;> simp only [Machine.resetEntry, h.draws, h.mem, h.stored, h.inputs, h.platform]

/-- Settles O59: a step that is no reset answers as every operation of User mode does. -/
theorem userModeContained : Obligations.UserModeContained := by
  unfold Obligations.UserModeContained
  intro s t hs ht
  cases hr : s.lines.reset with
  | true =>
    obtain ⟨_, ⟨_, rfl⟩ | ⟨h, _⟩ | ⟨h, _⟩ | ⟨h, _⟩⟩ := step_next.mp ht
    · exact .inl ⟨rfl, rfl⟩
    all_goals rw [hr] at h; cases h
  | false =>
    have hpair : UserPair s s := ⟨.refl s, hs⟩
    have hanswer := hpair.step hr
    rw [ht] at hanswer
    cases hanswer with
    | contained hc => exact .inr (.inr hc)
    | entered he => exact .inr (.inl ⟨_, he⟩)

/-- Settles O60: of two states that User mode cannot tell apart a reset leaves two such, and so does every other step,
or both stop alike. -/
theorem userModeCannotReadBanks : Obligations.UserModeCannotReadBanks := by
  unfold Obligations.UserModeCannotReadBanks
  intro s t hs h
  have hpair : UserPair s t := ⟨h, hs⟩
  cases hr : s.lines.reset with
  | true =>
    unfold step
    rw [h.cpsr, h.lines, hr]
    split
    · exact rfl
    · exact hpair.nextInputs.agree.resetEntry
  | false => exact (hpair.step hr).outcomesAgree

end Sys2Proof.Machine
end
